-- ==== Sys2Proof/Word.lean ====
section
/-! DEFINITION. The widths the spec gives values: a byte of the sensor bus, a CSR or command word, a 64-bit datapath
register (R14 and R15 of 00_scope.md, R32 of 10_state.md). -/

namespace Sys2Proof

/-- A byte of the sensor register space, and an 8-bit sensor address (R14 00_scope.md, R101 20_memory.md). -/
abbrev Byte := BitVec 8

/-- One host-visible CSR word and one command word (P_CSR_WIDTH = 32, R13 00_scope.md; R150 30_encoding.md). -/
abbrev Word := BitVec 32

/-- One 64-bit register: the pattern of an int64 or of a binary64 (R32, R33 10_state.md). -/
abbrev Word64 := BitVec 64

end Sys2Proof
end

