-- ==== Sys2Proof/Config.lean ====
section
/-! DEFINITION. What an implementation fixes (the parameter table R13 of 00_scope.md) and the one family of free values. -/

namespace Sys2Proof

/-- P_MAX_WINDOW: the largest accepted window size (R13 00_scope.md, R317 43_acquisition.md). -/
def Config.maxWindow : Nat := 65535

/-- P_AMBIENT_C: the ambient temperature of the heater-resistance formula (R13 00_scope.md, R238 41_configurator.md). -/
def Config.ambientC : Int := 25

/-- P_HEATER_TEMP_MAX: the heater target clamp (R13 00_scope.md, R239 41_configurator.md). -/
def Config.heaterTempMax : Nat := 400

/-- P_HEATER_DUR_MAX: durations at or above this many ms encode as 0xFF (R13 00_scope.md, R235 41_configurator.md). -/
def Config.heaterDurMax : Nat := 4032

/-- P_CTRL_GAS_1_VALUE: the byte written to the heater-control register (R13 00_scope.md, R245 41_configurator.md). -/
def Config.ctrlGas1 : Byte := 0x20

/-- P_POLL_INTERVAL_MS: the delay between two polls of the trigger loop (R13 00_scope.md, R250 41_configurator.md). -/
def Config.pollIntervalMs : BitVec 16 := 0

/-! The OPEN parameters of R13. The spec gives no type for any of them: the types here (7 bits for the device address, a
natural number of milliseconds for the bus timeout, a natural number for a base address, a number that names a form
where the parameter is a form) are DESIGN CHOICE (log 10). No step reads one. -/

/-- P_SENSOR_DEVICE_ADDR (OPEN, R13 00_scope.md): no rule of the BCAE depends on it. Its width of 7 bits is the model's
choice: the spec gives none (log 10). -/
opaque Config.sensorDeviceAddr : BitVec 7

/-- P_BUS_TIMEOUT (OPEN, R13 00_scope.md): the sensor bus's; only the response kind reaches the BCAE. Its form, a natural
number, and its unit, the millisecond, are the model's choice: the spec gives neither (log 10). -/
opaque Config.busTimeoutMs : Nat

/-- P_CSR_BASE (OPEN, R13 00_scope.md, R104 20_memory.md): every rule uses offsets. That it is a natural number is the
model's choice (log 10). -/
opaque Config.csrBase : Nat

/-- P_HOST_BUS (OPEN, R13 00_scope.md): what the host's bus shows the host for an access of `width` bits at offset `off`
that is not an aligned 32-bit one, with the word written if it is a write: none for a bus error, or a word (U14
93_implementation_defined.md). The BCAE's own answer to such an access is R105's (20_memory.md). That the parameter has
this form is the model's choice (log 10, log 13). -/
opaque Config.hostBus (width : Nat) (off : BitVec 12) (written : Option Word) : Option Word

/-- P_RESET_SIGNAL (OPEN, R13 00_scope.md, R450 70_reset_and_hazards.md): a number that names the electrical form of the
power-on reset input; the form itself is no BCAE state, and the number is the model's choice (log 10). -/
opaque Config.resetSignal : Nat

/-- P_SINK_PORT (OPEN, R13 00_scope.md): a number that names the physical form of the record port; the form itself is no
BCAE state, and the number is the model's choice (log 10). -/
opaque Config.sinkPort : Nat

/-- The binary64 operations of the aggregator (R18 00_scope.md). -/
inductive F64Op where
  | add | mul | div | sqrt
deriving DecidableEq, Repr

/-- The free value of a binary64 operation whose exact value R18 (00_scope.md) does not give: an operand that is not
finite, a zero divisor, the root of a negative number. R338 (43_acquisition.md) says none ever arises in the aggregator.
Unconstrained: nothing in Lean can evaluate it (log 8). -/
opaque Config.f64Unstated : F64Op → Word64 → Word64 → Word64

end Sys2Proof
end

