-- ==== Sys2Proof/Syntax.lean ====
section
/-! DEFINITION. The command set BCAE-1.0 (R155 of 30_encoding.md): one constructor per row of the opcode map. -/

namespace Sys2Proof

/-- A command of BCAE-1.0. The immediate of a format-I16 command is the integer the assembler is given (R152, R167
30_encoding.md); `Instr.WellFormed` says when it fits. Every other operand is implicit (R153). -/
inductive Instr where
  /-- OP 0x00, R370 (44_control.md). -/
  | nop
  /-- OP 0x01, R371 (44_control.md). -/
  | sreset
  /-- OP 0x02, R373 (44_control.md). -/
  | abort
  /-- OP 0x03, a delay in milliseconds, R377 (44_control.md). -/
  | wait (ms : Nat)
  /-- OP 0x10, R205 (40_calibration.md). -/
  | loadcal
  /-- OP 0x20, R231 (41_configurator.md). -/
  | cfgos
  /-- OP 0x21, R245 (41_configurator.md). -/
  | cfghtr
  /-- OP 0x22, R250 (41_configurator.md). -/
  | trig
  /-- OP 0x23, a heater duration in milliseconds, R236 (41_configurator.md). -/
  | gwcode (dur : Nat)
  /-- OP 0x24, a heater target temperature in °C, R240 (41_configurator.md). -/
  | rhcode (temp : Nat)
  /-- OP 0x30, R275 (42_compensation.md). -/
  | compt
  /-- OP 0x31, R284 (42_compensation.md). -/
  | compp
  /-- OP 0x32, R291 (42_compensation.md). -/
  | comph
  /-- OP 0x33, R296 (42_compensation.md). -/
  | compall
  /-- OP 0x40, R312 (43_acquisition.md). -/
  | readraw
  /-- OP 0x41, R316 (43_acquisition.md). -/
  | aggclr
  /-- OP 0x42, R319 (43_acquisition.md). -/
  | aggacc
  /-- OP 0x43, R322 (43_acquisition.md). -/
  | aggfin
  /-- OP 0x44, R340 (43_acquisition.md). -/
  | run
deriving DecidableEq, Repr

end Sys2Proof
end

