-- ==== Sys2Proof/WellFormed.lean ====
section
/-! DEFINITION. Which commands can be assembled: the immediate of a format-I16 command lies in 0 to 65535 (R152 and R167
of 30_encoding.md: an immediate out of range is an assembly error, never truncated). -/

namespace Sys2Proof

/-- The IMM16 operand of a format-I16 command; none for format N (R151, R152 30_encoding.md). -/
def Instr.imm16 : Instr → Option Nat
  | .wait ms => some ms
  | .gwcode dur => some dur
  | .rhcode temp => some temp
  | .nop | .sreset | .abort | .loadcal | .cfgos | .cfghtr | .trig | .compt | .compp | .comph | .compall | .readraw
  | .aggclr | .aggacc | .aggfin | .run => none

/-- The immediate, where there is one, is in range (R167 30_encoding.md). A format-N command has none and is always well
formed. -/
abbrev Instr.WellFormed (i : Instr) : Prop := i.imm16.getD 0 ≤ 65535

end Sys2Proof
end

