-- ==== Sys2Proof/Decode.lean ====
section
/-! DEFINITION. Decoding a command word and encoding a command (R150 to R168 of 30_encoding.md). A command is one 32-bit
word; decoding is total on all 2^32 words, and an illegal word is rejected by name. -/

namespace Sys2Proof

/-- OP, bits 31:24 of a command word (R151 30_encoding.md). -/
def opcodeOf (w : Word) : Byte := w.extractLsb' 24 8

/-- IMM16, bits 15:0 of a command word, zero-extended (R152 30_encoding.md). -/
def imm16Of (w : Word) : Nat := (w.extractLsb' 0 16).toNat

/-- The two command formats (R151 30_encoding.md). -/
inductive Format where
  | n
  | i16
deriving DecidableEq, Repr

/-- One row of the opcode map (R155 30_encoding.md): the word is this row's command exactly when its bits under `mask`
are `pattern`, and `build` reads its immediate. -/
structure OpRow where
  mnemonic : String
  format : Format
  pattern : Word
  mask : Word
  build : Word → Instr

/-- The complete opcode map (R155 30_encoding.md). -/
def opRows : List OpRow :=
  [ ⟨"NOP", .n, 0x00000000, 0xFFFFFFFF, fun _ => .nop⟩,
    ⟨"SRESET", .n, 0x01000000, 0xFFFFFFFF, fun _ => .sreset⟩,
    ⟨"ABORT", .n, 0x02000000, 0xFFFFFFFF, fun _ => .abort⟩,
    ⟨"WAIT", .i16, 0x03000000, 0xFFFF0000, fun w => .wait (imm16Of w)⟩,
    ⟨"LOADCAL", .n, 0x10000000, 0xFFFFFFFF, fun _ => .loadcal⟩,
    ⟨"CFGOS", .n, 0x20000000, 0xFFFFFFFF, fun _ => .cfgos⟩,
    ⟨"CFGHTR", .n, 0x21000000, 0xFFFFFFFF, fun _ => .cfghtr⟩,
    ⟨"TRIG", .n, 0x22000000, 0xFFFFFFFF, fun _ => .trig⟩,
    ⟨"GWCODE", .i16, 0x23000000, 0xFFFF0000, fun w => .gwcode (imm16Of w)⟩,
    ⟨"RHCODE", .i16, 0x24000000, 0xFFFF0000, fun w => .rhcode (imm16Of w)⟩,
    ⟨"COMPT", .n, 0x30000000, 0xFFFFFFFF, fun _ => .compt⟩,
    ⟨"COMPP", .n, 0x31000000, 0xFFFFFFFF, fun _ => .compp⟩,
    ⟨"COMPH", .n, 0x32000000, 0xFFFFFFFF, fun _ => .comph⟩,
    ⟨"COMPALL", .n, 0x33000000, 0xFFFFFFFF, fun _ => .compall⟩,
    ⟨"READRAW", .n, 0x40000000, 0xFFFFFFFF, fun _ => .readraw⟩,
    ⟨"AGGCLR", .n, 0x41000000, 0xFFFFFFFF, fun _ => .aggclr⟩,
    ⟨"AGGACC", .n, 0x42000000, 0xFFFFFFFF, fun _ => .aggacc⟩,
    ⟨"AGGFIN", .n, 0x43000000, 0xFFFFFFFF, fun _ => .aggfin⟩,
    ⟨"RUN", .n, 0x44000000, 0xFFFFFFFF, fun _ => .run⟩ ]

/-- Why a word is illegal: the three kinds (a), (b), (c) of R161 (30_encoding.md). -/
inductive Illegal where
  /-- (a) its OP is not in the opcode map -/
  | unassignedOpcode (op : Byte)
  /-- (b) a format-N word whose bits 23:0 are not all 0 -/
  | nonzeroZero24
  /-- (c) a format-I16 word whose bits 23:16 are not all 0 -/
  | nonzeroZero8
deriving DecidableEq, Repr

/-- What a word decodes to: a command, or an illegal word rejected by name (R160 30_encoding.md). -/
inductive Decoded where
  | legal (i : Instr)
  | illegal (why : Illegal)
deriving DecidableEq, Repr

/-- The kind of an illegal word, from the row (if any) of its opcode (R161 30_encoding.md). -/
def illegalKind (w : Word) : Illegal :=
  match opRows.find? (fun r => opcodeOf r.pattern == opcodeOf w) with
  | none => .unassignedOpcode (opcodeOf w)
  | some r =>
    match r.format with
    | .n => .nonzeroZero24
    | .i16 => .nonzeroZero8

/-- Decode: the row whose pattern the word shows under its mask, or illegal (R160 30_encoding.md). -/
def decode (w : Word) : Decoded :=
  match opRows.find? (fun r => w &&& r.mask == r.pattern) with
  | some r => .legal (r.build w)
  | none => .illegal (illegalKind w)

/-- The opcode of a command (R155 30_encoding.md). -/
def Instr.opcode : Instr → Byte
  | .nop => 0x00
  | .sreset => 0x01
  | .abort => 0x02
  | .wait _ => 0x03
  | .loadcal => 0x10
  | .cfgos => 0x20
  | .cfghtr => 0x21
  | .trig => 0x22
  | .gwcode _ => 0x23
  | .rhcode _ => 0x24
  | .compt => 0x30
  | .compp => 0x31
  | .comph => 0x32
  | .compall => 0x33
  | .readraw => 0x40
  | .aggclr => 0x41
  | .aggacc => 0x42
  | .aggfin => 0x43
  | .run => 0x44

/-- A command's word: OP in bits 31:24, ZERO bits, and IMM16 in bits 15:0 (R151, R167 30_encoding.md). -/
def encode (i : Instr) : Word :=
  i.opcode ++ (0 : BitVec 8) ++ BitVec.ofNat 16 (i.imm16.getD 0)

/-- What the assembler writes: nothing for an immediate out of range (R167 30_encoding.md). -/
def assemble (i : Instr) : Option Word :=
  if i.WellFormed then some (encode i) else none

/-- The instruction the decoder reads from an instruction of `nbits` bits `w`. A command is one 32-bit word (R150
30_encoding.md), and byte order inside it is not observable (R112 20_memory.md), so the word is `w` itself with every
bit from `nbits` up clear. -/
def decodeTableWord (nbits w : Nat) : Option Instr :=
  match decode (BitVec.ofNat 32 (w % 2 ^ nbits)) with
  | .legal i => some i
  | .illegal _ => none

end Sys2Proof
end

