-- ==== Sys2Proof/Machine/State.lean ====
section
/-! DEFINITION. The state of the BCAE as plain data: every register of 10_state.md, the hidden state of R60 and R61, and
the environment's events and observations, which are the model's own fields (log 1, log 4). -/

namespace Sys2Proof.Machine

/-! ### Named values of the status fields -/

/-- STATUS.FSM, the Acquisition Loop state (R44 10_state.md). The reserved values 10 to 15 are never produced (U11). -/
inductive Fsm where
  | idle | configuring | delaying | triggering | settling | reading | compensating | aggregating | finalizing | done
deriving DecidableEq, Repr

/-- STATUS.TRIG, the forced-mode trigger state (R45 10_state.md). The reserved values 4 to 7 are never produced. -/
inductive TrigState where
  | idle | read | sleep | force
deriving DecidableEq, Repr

/-- The error codes of R400 (60_exceptions.md) that are ever produced, and "no error". -/
inductive ErrCode where
  | noError | busTimeout | busNack | calUnavailable | sampleReadFailure | invalidWindow | pollTimeout | illegalCommand
  | orderViolation | divideByZero | noValidSamples | aborted
deriving DecidableEq, Repr

/-- The kinds of bus error (R20 00_scope.md). -/
inductive BusKind where
  | timeout | nack
deriving DecidableEq, Repr

/-! ### The sensor bus -/

/-- A sensor transaction: a burst read of `n` bytes from `addr`, or a one-byte write (R20 00_scope.md, R118 20_memory.md). -/
inductive BusReq where
  | read (addr : Byte) (n : Nat)
  | write (addr : Byte) (v : Byte)
deriving DecidableEq, Repr

/-- The sensor-bus agent's answer (R20 00_scope.md): bytes for a read, Ok for a write, or a bus error. -/
inductive BusResp where
  | bytes (bs : List Byte)
  | ok
  | err (k : BusKind)
deriving DecidableEq, Repr

/-- The transaction in flight (R61 10_state.md): none; issued and not yet answered; answered and not yet used by the
engine's next step (log 4). -/
inductive Bus where
  | quiet
  | inFlight (req : BusReq)
  | answered (req : BusReq) (resp : BusResp)
deriving DecidableEq, Repr

/-- One entry of the bus trace (R127 20_memory.md): a transaction with its response, or with none where a reset
abandoned it (R451 70_reset_and_hazards.md). -/
structure BusTx where
  req : BusReq
  resp : Option BusResp
deriving DecidableEq, Repr

/-! ### The output stream -/

/-- The record tags (R350 43_acquisition.md). -/
inductive Tag where
  | sampleT | sampleP | rmsT | rmsP | sampleErr
deriving DecidableEq, Repr

/-- One output record: a tag and a 64-bit payload (R350 43_acquisition.md). -/
structure Record where
  tag : Tag
  payload : Word64
deriving DecidableEq, Repr

/-! ### The engine's position (POS of R60 10_state.md, a continuation; log 3) -/

/-- Inside a `wait` (R431 60_exceptions.md): at the head of its loop, or holding for the next tick. -/
inductive WaitPt where
  | top | hold
deriving DecidableEq, Repr

/-- The steps of the LOADCAL body (R205 40_calibration.md), with the blocks already read. -/
inductive CalPt where
  | invalidate
  | read1 | got1
  | read2 (b1 : List Byte) | got2 (b1 : List Byte)
  | read3 (b1 b2 : List Byte) | got3 (b1 b2 : List Byte)
deriving DecidableEq, Repr

/-- The steps of the CFGOS body (R231 41_configurator.md), with the byte just read. -/
inductive OsPt where
  | readHum | gotHum | writeHum (h : Byte) | wroteHum
  | readMeas | gotMeas | writeMeas (m : Byte) | wroteMeas
deriving DecidableEq, Repr

/-- The steps of the CFGHTR body (R245 41_configurator.md), with its codes g and r. -/
inductive HtrPt where
  | compute
  | writeDur (g r : Byte) | wroteDur (r : Byte)
  | writeRes (r : Byte) | wroteRes
  | writeCtrl | wroteCtrl
deriving DecidableEq, Repr

/-- The steps of the TRIG body (R250 41_configurator.md), with the mode byte m just read. -/
inductive TrigPt where
  | clear
  | readMode | gotMode
  | writeSleep (m : Byte) | wroteSleep
  | poll (w : WaitPt)
  | writeForce | wroteForce
deriving DecidableEq, Repr

/-- The steps of the READRAW body (R312 43_acquisition.md). -/
inductive RawPt where
  | read | got
deriving DecidableEq, Repr

/-- The three steps of the COMPALL body (R296 42_compensation.md). -/
inductive CompPt where
  | temp | press | hum
deriving DecidableEq, Repr

/-- Whose `wait` it is: the WAIT command's, or RUN's per-sample delay, settle delay, or one of its two final waits
(R340 43_acquisition.md). -/
inductive WaitFor where
  | command | delay | settle | final1 | final2
deriving DecidableEq, Repr

/-- The steps of RUN that belong to no other body (R340 43_acquisition.md). -/
inductive RunPt where
  | aggClr
  | delayLoad | settleLoad
  | aggAcc | emitT | emitP | sampleEnd
  | final1Load | aggFin | emitRmsT | emitRmsP | final2Load
deriving DecidableEq, Repr

/-- The next step of the engine. -/
inductive Point where
  /-- no command is executing -/
  | noCommand
  /-- the first step of the body of the command in CMD_CUR -/
  | start
  | cal (p : CalPt)
  | os (p : OsPt)
  | htr (p : HtrPt)
  | trig (p : TrigPt)
  | raw (p : RawPt)
  | comp (p : CompPt)
  | wait (k : WaitFor) (p : WaitPt)
  | run (p : RunPt)
deriving DecidableEq, Repr

/-- POS: the next step, and the 0-based index i of the sample while inside RUN's sampling loop. -/
structure Pos where
  point : Point
  sample : Option Nat
deriving DecidableEq, Repr

/-! ### The environment's events (R12 00_scope.md, R126 20_memory.md; log 1) -/

/-- The width of a host access: only 32-bit accesses have a meaning (R105 20_memory.md). -/
inductive AccessWidth where
  | w8 | w16 | w32
deriving DecidableEq, Repr

/-- What a host access asks. -/
inductive HostOp where
  | read
  | write (v : Word)
deriving DecidableEq, Repr

/-- One host access to the CSR window (R100, R104 20_memory.md). -/
structure HostAccess where
  width : AccessWidth
  off : BitVec 12
  op : HostOp
deriving DecidableEq, Repr

/-- The answer to a host access: the word read, a completed write, or a bus error response (R105 to R107 20_memory.md). -/
inductive HostAnswer where
  | data (v : Word)
  | done
  | slverr
deriving DecidableEq, Repr

/-- One step of some agent. -/
inductive Event where
  /-- the engine has the turn -/
  | engine
  /-- a host access -/
  | host (a : HostAccess)
  /-- the sensor bus answers its transaction number `n` (the n-th the engine ever issued, from 0) -/
  | bus (n : Nat) (r : BusResp)
  /-- a tick of the tick source -/
  | tick
  /-- the sink accepts the record offered -/
  | sinkAccept
  /-- power-on reset -/
  | powerOn
deriving DecidableEq, Repr

/-! ### The registers -/

/-- The STATUS fields (R35 10_state.md); bit 15 is reserved and reads 0. -/
structure Status where
  busy : Bool
  err : Bool
  calValid : Bool
  tfValid : Bool
  ovf : Bool
  cmdDropped : Bool
  aggDone : Bool
  abortPend : Bool
  fsm : Fsm
  trig : TrigState
  errCode : ErrCode
  curOp : Byte
deriving DecidableEq, Repr

/-- The ERR_INFO fields (R39 10_state.md); BUSKIND 0 is `none`. -/
structure ErrInfo where
  addr : Byte
  kind : Option BusKind
  sample : BitVec 16
deriving DecidableEq, Repr

/-- The read-write configuration CSRs (R34, R54, R55 10_state.md). -/
structure Control where
  window : BitVec 16
  sampleDelay : BitVec 16
  settle : BitVec 16
  pollBudget : BitVec 16
  heatTemp : BitVec 16
  heatDur : BitVec 16
deriving DecidableEq, Repr

/-- The raw sample registers (R50 10_state.md). -/
structure Raw where
  t : BitVec 20
  p : BitVec 20
  h : BitVec 16
deriving DecidableEq, Repr

/-- The result registers, int64 (R51 10_state.md). -/
structure Results where
  tFine : Word64
  compT : Word64
  compP : Word64
  compH : Word64
deriving DecidableEq, Repr

/-- The heater code registers (R54 10_state.md). -/
structure Heater where
  gwCode : Byte
  rhCode : Byte
deriving DecidableEq, Repr

/-- The calibration register file, each field at its own width (R52 10_state.md). -/
structure Cal where
  t1 : BitVec 16
  t2 : BitVec 16
  t3 : Byte
  p1 : BitVec 16
  p2 : BitVec 16
  p3 : Byte
  p4 : BitVec 16
  p5 : BitVec 16
  p6 : Byte
  p7 : Byte
  p8 : BitVec 16
  p9 : BitVec 16
  p10 : Byte
  h1 : BitVec 12
  h2 : BitVec 12
  h3 : Byte
  h4 : Byte
  h5 : Byte
  h6 : Byte
  h7 : Byte
  g1 : Byte
  g2 : BitVec 16
  g3 : Byte
  resHeatRange : BitVec 2
  resHeatVal : Byte
deriving DecidableEq, Repr

/-- The aggregator registers (R57 10_state.md); accT to rmsP are binary64 patterns. -/
structure Agg where
  sampleIdx : BitVec 16
  nAgg : BitVec 16
  validCnt : BitVec 32
  accT : Word64
  accP : Word64
  rmsT : Word64
  rmsP : Word64
deriving DecidableEq, Repr

/-- The hidden state (R60, R61 10_state.md). -/
structure Hidden where
  cmdCur : Word
  pos : Pos
  dlyCnt : BitVec 16
  pollCnt : BitVec 16
  modeByte : Byte
  lN : BitVec 16
  lSdelay : BitVec 16
  lSettle : BitVec 16
  lBudget : BitVec 16
  outPend : Option Record
  abortReq : Bool
  bus : Bus
deriving DecidableEq, Repr

/-- The MODEL's own fields: the events still to come, in their one total order (log 1), and what the environment has
seen so far, oldest first: the bus trace, the answers to the host, the records the sink accepted (log 4). The list is
finite, so an endless order of events, such as the polling of R254 (41_configurator.md) that never ends, is a run of
`step` by each of its finite prefixes and not as a whole (DESIGN CHOICE, log 1). -/
structure Env where
  sched : List Event
  trace : List BusTx
  hostLog : List (HostAccess × HostAnswer)
  sinkLog : List Record
deriving DecidableEq, Repr

/-- The whole state. -/
structure State where
  status : Status
  errInfo : ErrInfo
  ctl : Control
  raw : Raw
  res : Results
  heat : Heater
  cal : Cal
  agg : Agg
  hid : Hidden
  env : Env
deriving DecidableEq, Repr

/-! ### Reset values (R34, R35, R52, R54 to R60 10_state.md; R451 70_reset_and_hazards.md) -/

/-- STATUS = 0x00000000. -/
def Status.reset : Status :=
  { busy := false, err := false, calValid := false, tfValid := false, ovf := false, cmdDropped := false,
    aggDone := false, abortPend := false, fsm := .idle, trig := .idle, errCode := .noError, curOp := 0 }

/-- ERR_INFO = 0. -/
def ErrInfo.reset : ErrInfo := { addr := 0, kind := none, sample := 0 }

/-- WINDOW 20, SAMPLE_DELAY 0, SETTLE 50, POLL_BUDGET 1000, HEAT_TEMP 300, HEAT_DUR 100 (R453
70_reset_and_hazards.md). -/
def Control.reset : Control :=
  { window := 20, sampleDelay := 0, settle := 50, pollBudget := 1000, heatTemp := 300, heatDur := 100 }

/-- RAW_T = RAW_P = RAW_H = 0. -/
def Raw.reset : Raw := { t := 0, p := 0, h := 0 }

/-- T_FINE = COMP_T = COMP_P = COMP_H = 0. -/
def Results.reset : Results := { tFine := 0, compT := 0, compP := 0, compH := 0 }

/-- GW_CODE = RH_CODE = 0. -/
def Heater.reset : Heater := { gwCode := 0, rhCode := 0 }

/-- Every CAL_* = 0. -/
def Cal.reset : Cal :=
  { t1 := 0, t2 := 0, t3 := 0, p1 := 0, p2 := 0, p3 := 0, p4 := 0, p5 := 0, p6 := 0, p7 := 0, p8 := 0, p9 := 0,
    p10 := 0, h1 := 0, h2 := 0, h3 := 0, h4 := 0, h5 := 0, h6 := 0, h7 := 0, g1 := 0, g2 := 0, g3 := 0,
    resHeatRange := 0, resHeatVal := 0 }

/-- SAMPLE_IDX = N_AGG = VALID_CNT = 0, and +0.0 (pattern 0, R18 00_scope.md) in the binary64 registers. -/
def Agg.reset : Agg := { sampleIdx := 0, nAgg := 0, validCnt := 0, accT := 0, accP := 0, rmsT := 0, rmsP := 0 }

/-- "no command", OUT_PEND none, no transaction in flight, and 0 for the rest. -/
def Hidden.reset : Hidden :=
  { cmdCur := 0, pos := ⟨.noCommand, none⟩, dlyCnt := 0, pollCnt := 0, modeByte := 0, lN := 0, lSdelay := 0,
    lSettle := 0, lBudget := 0, outPend := none, abortReq := false, bus := .quiet }

/-- No event to come and nothing observed (DESIGN CHOICE, log 1). -/
def Env.reset : Env := { sched := [], trace := [], hostLog := [], sinkLog := [] }

/-- The machine right after reset (R451 70_reset_and_hazards.md). -/
def State.reset : State :=
  { status := .reset, errInfo := .reset, ctl := .reset, raw := .reset, res := .reset, heat := .reset, cal := .reset,
    agg := .reset, hid := .reset, env := .reset }

/-! ### The stops of the model -/

/-- Why the machine stops with a fault. -/
inductive Fault where
  /-- Raised by a meaning when POS is at no step of the command it is asked to run (R60 10_state.md gives the engine no
  step there). Safe: no run from reset reaches it (log 7), and the model stops where the spec says nothing. -/
  | strayPosition
deriving DecidableEq, Repr

/-- Why a step has no meaning. -/
inductive Refusal where
  /-- Raised by an arm of `exec` whose instruction has no meaning yet. Safe: the model stops. -/
  | notModelled (mnemonic : String)
  /-- Raised by the engine's turn when BUSY = 1 and CMD_CUR holds no command of the opcode map (R161 30_encoding.md);
  acceptance never puts such a word there (R40 10_state.md). Safe: no run from reset reaches it (log 7). -/
  | noSuchCommand
deriving DecidableEq, Repr

/-- What one step of the machine answers. -/
abbrev Result := Host.Outcome State Fault Refusal

end Sys2Proof.Machine
end

