-- ==== Sys2Proof/Machine/Flags.lean ====
section
/-! DEFINITION. The checked 64-bit arithmetic of R16 (00_scope.md) and the one flag a computation writes, the sticky
STATUS.OVF (R37, R38 10_state.md): every value carries whether a checked operation behind it overflowed. -/

namespace Sys2Proof.Machine

/-- v lies in int64 (R15 00_scope.md). -/
def inInt64 (v : Int) : Bool := decide (-2 ^ 63 ≤ v) && decide (v ≤ 2 ^ 63 - 1)

/-- wrap64: the value of int64 congruent to v modulo 2^64 (R15 00_scope.md). -/
def wrap64 (v : Int) : Int := (v + 2 ^ 63) % 2 ^ 64 - 2 ^ 63

/-- The result of a checked operation: its int64 value, and whether this operation or one behind it overflowed. -/
structure Checked where
  val : Int
  ovf : Bool
deriving DecidableEq, Repr

/-- An operand as it stands: no operation, no overflow. -/
def Checked.lit (v : Int) : Checked := ⟨v, false⟩

/-- chk(v), with the overflows already behind its operands (R16 00_scope.md). -/
def chk (v : Int) (behind : Bool) : Checked :=
  if inInt64 v then ⟨v, behind⟩ else ⟨wrap64 v, true⟩

/-- a + b = chk(a + b) (R16). -/
def Checked.add (a b : Checked) : Checked := chk (a.val + b.val) (a.ovf || b.ovf)

/-- a - b = chk(a - b) (R16). -/
def Checked.sub (a b : Checked) : Checked := chk (a.val - b.val) (a.ovf || b.ovf)

/-- a * b = chk(a * b) (R16). -/
def Checked.mul (a b : Checked) : Checked := chk (a.val * b.val) (a.ovf || b.ovf)

/-- a << k = chk(a * 2^k) (R16). -/
def Checked.shl (a : Checked) (k : Nat) : Checked := chk (a.val * 2 ^ k) a.ovf

/-- a >> k = floor(a / 2^k), which never overflows (R16). -/
def Checked.shr (a : Checked) (k : Nat) : Checked := ⟨a.val / 2 ^ k, a.ovf⟩

/-- a / k for a literal k other than 0: chk(trunc(a / k)) (R16). -/
def Checked.divLit (a : Checked) (k : Int) : Checked := chk (a.val.tdiv k) a.ovf

/-- a / b = chk(trunc(a / b)); none where b = 0, which raises DivideByZero (R16). -/
def Checked.div (a b : Checked) : Option Checked :=
  if b.val = 0 then none else some (chk (a.val.tdiv b.val) (a.ovf || b.ovf))

/-- What a formula that may divide by a register value gives: its value, or DivideByZero with the overflows of the
operations evaluated before it (R16, R22 00_scope.md; log 12). -/
inductive Formula where
  | value (v : Checked)
  | divideByZero (ovf : Bool)
deriving DecidableEq, Repr

/-- The sticky OVF after a computation (R37 10_state.md): set by an overflow, never cleared by a command. -/
def Status.withOvf (st : Status) (ovf : Bool) : Status := { st with ovf := st.ovf || ovf }

end Sys2Proof.Machine
end

