-- ==== Sys2Proof/Machine/Float.lean ====
section
/-! DEFINITION. The binary64 arithmetic of R18 (00_scope.md): every operation takes its operands to exact rational
numbers, computes exactly, and rounds once, to nearest with ties to even. Used only by the aggregator (R315
43_acquisition.md). -/

namespace Sys2Proof.Machine

/-- The sign bit of a binary64 pattern. -/
def F64.neg (a : Word64) : Bool := a.msb

/-- The biased exponent field, bits 62:52. -/
def F64.expo (a : Word64) : Nat := (a.extractLsb' 52 11).toNat

/-- The fraction field, bits 51:0. -/
def F64.frac (a : Word64) : Nat := (a.extractLsb' 0 52).toNat

/-- Neither an infinity nor a NaN. -/
def F64.finite (a : Word64) : Bool := F64.expo a != 2047

/-- The significand of a finite pattern as an integer, its implicit bit included. -/
def F64.mant (a : Word64) : Nat := if F64.expo a = 0 then F64.frac a else 2 ^ 52 + F64.frac a

/-- The exponent field that scales the significand: a subnormal number scales as field value 1 does. -/
def F64.scale (a : Word64) : Nat := if F64.expo a = 0 then 1 else F64.expo a

/-- The magnitude of a finite pattern is `num a / den a` = mant · 2^(scale - 1075). -/
def F64.num (a : Word64) : Nat := F64.mant a * 2 ^ (F64.scale a - 1075)

/-- The denominator of the magnitude: a power of two. -/
def F64.den (a : Word64) : Nat := 2 ^ (1075 - F64.scale a)

/-- The numerator with its sign. -/
def F64.snum (a : Word64) : Int := if F64.neg a then -(F64.num a : Int) else (F64.num a : Int)

/-- 2^e of an integer e as a numerator and a denominator. -/
def pow2Num (e : Int) : Nat := 2 ^ e.toNat

/-- See `pow2Num`. -/
def pow2Den (e : Int) : Nat := 2 ^ (-e).toNat

/-- The exponent e of the unit in the last place at n/d > 0: 2^52 ≤ (n/d)/2^e < 2^53, and never below -1074. -/
def ulpExp (n d : Nat) : Int :=
  let e0 : Int := (Nat.log2 n : Int) - (Nat.log2 d : Int) - 53
  let q0 := n * pow2Den e0 / (d * pow2Num e0)
  max (if q0 < 2 ^ 53 then e0 else e0 + 1) (-1074)

/-- The integer nearest to a/b, ties to even (b > 0). -/
def roundDiv (a b : Nat) : Nat :=
  let q := a / b
  let r := a % b
  if b < 2 * r then q + 1 else if 2 * r = b then q + q % 2 else q

/-- The pattern, less its sign, of q · 2^e for q ≤ 2^53 in units of the last place; infinity where it is too large. -/
def packMag (q : Nat) (e : Int) : Nat := min ((e + 1074).toNat * 2 ^ 52 + q) 0x7FF0000000000000

/-- fl of the number with sign `neg` and magnitude n/d, d > 0 (R18 00_scope.md). -/
def fl (neg : Bool) (n d : Nat) : Word64 :=
  let mag := if n = 0 then 0 else let e := ulpExp n d; packMag (roundDiv (n * pow2Den e) (d * pow2Num e)) e
  BitVec.ofNat 64 ((if neg then 2 ^ 63 else 0) + mag)

/-- toF64 (R18 00_scope.md). -/
def toF64 (v : Int) : Word64 := fl (decide (v < 0)) v.natAbs 1

/-- fl(a * b). -/
def F64.mul (a b : Word64) : Word64 :=
  if F64.finite a && F64.finite b then
    fl (F64.neg a != F64.neg b) (F64.num a * F64.num b) (F64.den a * F64.den b)
  else Config.f64Unstated .mul a b

/-- fl(a / b). -/
def F64.div (a b : Word64) : Word64 :=
  if F64.finite a && F64.finite b && F64.num b != 0 then
    fl (F64.neg a != F64.neg b) (F64.num a * F64.den b) (F64.den a * F64.num b)
  else Config.f64Unstated .div a b

/-- fl(a + b); an exact sum of 0 is +0.0 unless both operands are negative zeros (binary64, round to nearest). -/
def F64.add (a b : Word64) : Word64 :=
  if F64.finite a && F64.finite b then
    let s : Int := F64.snum a * F64.den b + F64.snum b * F64.den a
    fl (if s = 0 then F64.neg a && F64.neg b else decide (s < 0)) s.natAbs (F64.den a * F64.den b)
  else Config.f64Unstated .add a b

/-- The integer square root of n, one bit at a time from bit `k - 1` down: the largest r' = r + (some of the low k
bits) with r' · r' ≤ n. -/
def isqrtFrom (n : Nat) : Nat → Nat → Nat
  | 0, r => r
  | k + 1, r => isqrtFrom n k (if (r + 2 ^ k) * (r + 2 ^ k) ≤ n then r + 2 ^ k else r)

/-- The integer square root of a number below 2^128. -/
def isqrt (n : Nat) : Nat := isqrtFrom n 64 0

/-- The exponent of the unit in the last place of the root of n/d > 0: 2^52 ≤ sqrt(n/d)/2^e < 2^53. -/
def sqrtUlpExp (n d : Nat) : Int :=
  let e0 : Int := ((Nat.log2 n : Int) - (Nat.log2 d : Int) - 1) / 2 - 52
  let q0 := isqrt (n * pow2Den (2 * e0) / (d * pow2Num (2 * e0)))
  if q0 < 2 ^ 53 then e0 else e0 + 1

/-- sqrtF64: the correctly rounded square root (R18 00_scope.md); the root of a zero is that zero. -/
def sqrtF64 (a : Word64) : Word64 :=
  if F64.finite a && F64.num a == 0 then a
  else if F64.finite a && !F64.neg a then
    let e := sqrtUlpExp (F64.num a) (F64.den a)
    let x := F64.num a * pow2Den (2 * e)
    let y := F64.den a * pow2Num (2 * e)
    let q := isqrt (x / y)
    let half := (2 * q + 1) * (2 * q + 1) * y
    BitVec.ofNat 64 (packMag (if half < 4 * x then q + 1 else if half = 4 * x then q + q % 2 else q) e)
  else Config.f64Unstated .sqrt a a

end Sys2Proof.Machine
end

