-- ==== Sys2Proof/Machine/Operands.lean ====
section
/-! DEFINITION. The operand forms: IMM16, CSR operands, raw sample registers, 64-bit registers and calibration fields as
the integers the arithmetic uses (R32, R50 to R52 10_state.md; R152, R153 30_encoding.md), the fields of the sensor's
bytes (R113, R114 20_memory.md; R203 40_calibration.md; R311 43_acquisition.md), and the register views the host reads
(R33, R52 10_state.md). -/

namespace Sys2Proof.Machine

/-! ### Registers as operands of the checked arithmetic -/

/-- A signed register field as an int64 operand (sext, R15 00_scope.md). -/
def signed {n : Nat} (v : BitVec n) : Checked := .lit v.toInt

/-- An unsigned register field as an int64 operand (zext, R15 00_scope.md). -/
def unsigned {n : Nat} (v : BitVec n) : Checked := .lit v.toNat

/-- A checked result as the 64-bit pattern of an int64 register (R33 10_state.md). -/
def Checked.toReg (c : Checked) : Word64 := BitVec.ofInt 64 c.val

/-! ### Fields of the sensor's bytes -/

/-- Byte i of a burst (R20 00_scope.md). A burst of a completed transaction has all its bytes (R118 20_memory.md), so
the default is never read from one. -/
def byteAt (b : List Byte) (i : Nat) : Byte := b.getD i 0

/-- A 16-bit calibration field from bytes `lsb` and `lsb + 1`, least significant at the lower address (R113
20_memory.md). -/
def le16 (b : List Byte) (lsb : Nat) : BitVec 16 := byteAt b (lsb + 1) ++ byteAt b lsb

/-- A 20-bit raw value from three bytes, most significant first, the low nibble of the third discarded (R114
20_memory.md). -/
def raw20 (b : List Byte) (i : Nat) : BitVec 20 :=
  byteAt b i ++ byteAt b (i + 1) ++ (byteAt b (i + 2)).extractLsb' 4 4

/-- A 16-bit raw value from two bytes, most significant first (R114 20_memory.md). -/
def raw16 (b : List Byte) (i : Nat) : BitVec 16 := byteAt b i ++ byteAt b (i + 1)

/-- The 25 calibration fields from the three blocks (R203 40_calibration.md). -/
def Cal.assemble (b1 b2 b3 : List Byte) : Cal where
  t1 := le16 b2 8
  t2 := le16 b1 0
  t3 := byteAt b1 2
  p1 := le16 b1 4
  p2 := le16 b1 6
  p3 := byteAt b1 8
  p4 := le16 b1 10
  p5 := le16 b1 12
  p6 := byteAt b1 15
  p7 := byteAt b1 14
  p8 := le16 b1 18
  p9 := le16 b1 20
  p10 := byteAt b1 22
  h1 := byteAt b2 2 ++ (byteAt b2 1).extractLsb' 0 4
  h2 := byteAt b2 0 ++ (byteAt b2 1).extractLsb' 4 4
  h3 := byteAt b2 3
  h4 := byteAt b2 4
  h5 := byteAt b2 5
  h6 := byteAt b2 6
  h7 := byteAt b2 7
  g1 := byteAt b2 12
  g2 := le16 b2 10
  g3 := byteAt b2 13
  resHeatRange := (byteAt b3 2).extractLsb' 4 2
  resHeatVal := byteAt b3 0

/-- The three raw sample registers from the 8 data bytes: pressure, temperature, humidity (R311 43_acquisition.md). -/
def Raw.assemble (b : List Byte) : Raw where
  p := raw20 b 0
  t := raw20 b 3
  h := raw16 b 6

/-- Mode bits ctrl_meas[1:0] (R120 20_memory.md). -/
def modeBits (m : Byte) : BitVec 2 := m.extractLsb' 0 2

/-! ### Encodings of the named values -/

/-- STATUS.FSM's value (R44 10_state.md). -/
def Fsm.code : Fsm → BitVec 4
  | .idle => 0
  | .configuring => 1
  | .delaying => 2
  | .triggering => 3
  | .settling => 4
  | .reading => 5
  | .compensating => 6
  | .aggregating => 7
  | .finalizing => 8
  | .done => 9

/-- STATUS.TRIG's value (R45 10_state.md). -/
def TrigState.code : TrigState → BitVec 3
  | .idle => 0
  | .read => 1
  | .sleep => 2
  | .force => 3

/-- STATUS.ERR_CODE's value (R400 60_exceptions.md). -/
def ErrCode.code : ErrCode → Byte
  | .noError => 0x00
  | .busTimeout => 0x01
  | .busNack => 0x02
  | .calUnavailable => 0x03
  | .sampleReadFailure => 0x04
  | .invalidWindow => 0x06
  | .pollTimeout => 0x07
  | .illegalCommand => 0x08
  | .orderViolation => 0x09
  | .divideByZero => 0x0A
  | .noValidSamples => 0x0B
  | .aborted => 0x0C

/-- ERR_INFO.BUSKIND's value (R39 10_state.md). -/
def busKindCode : Option BusKind → BitVec 2
  | none => 0
  | some .timeout => 1
  | some .nack => 2

/-- A record's TAG (R350 43_acquisition.md). -/
def Tag.code : Tag → Byte
  | .sampleT => 0x01
  | .sampleP => 0x02
  | .rmsT => 0x03
  | .rmsP => 0x04
  | .sampleErr => 0x05

/-- The STATUS word (R35 10_state.md): CUR_OP 31:24, ERR_CODE 23:16, bit 15 zero, TRIG 14:12, FSM 11:8, then
ABORT_PEND, AGG_DONE, CMD_DROPPED, OVF, TF_VALID, CAL_VALID, ERR, BUSY. -/
def Status.word (st : Status) : Word :=
  st.curOp ++ st.errCode.code ++ (0 : BitVec 1) ++ st.trig.code ++ st.fsm.code ++
    BitVec.ofBool st.abortPend ++ BitVec.ofBool st.aggDone ++ BitVec.ofBool st.cmdDropped ++ BitVec.ofBool st.ovf ++
    BitVec.ofBool st.tfValid ++ BitVec.ofBool st.calValid ++ BitVec.ofBool st.err ++ BitVec.ofBool st.busy

/-- The ERR_INFO word (R39 10_state.md): SAMPLE 31:16, bits 15:10 zero, BUSKIND 9:8, ADDR 7:0. -/
def ErrInfo.word (e : ErrInfo) : Word := e.sample ++ (0 : BitVec 6) ++ busKindCode e.kind ++ e.addr

/-- The payload of a SAMPLE_ERR record (R350 43_acquisition.md): sample index 63:32, bits 31:18 zero, BUSKIND 17:16,
ADDR 15:8, error code 7:0. -/
def sampleErrPayload (e : ErrCode) (addr : Byte) (k : Option BusKind) (i : Nat) : Word64 :=
  BitVec.ofNat 32 i ++ (0 : BitVec 14) ++ busKindCode k ++ addr ++ e.code

end Sys2Proof.Machine
end

