-- ==== Sys2Proof/Machine/Ops.lean ====
section
/-! DEFINITION. The operations the meanings share: the engine's position, abort points, sensor transactions, waits,
records, taking an error (the BCAE's one exception mechanism, R410 and R412 of 60_exceptions.md) and acknowledging it
(R415), completion, acceptance, and the reset procedure (R451 70_reset_and_hazards.md). -/

namespace Sys2Proof.Machine

/-! ### One step inside a command body -/

/-- What one engine step inside a body does: go on to another step of the body, end the body, raise an error
(R22 00_scope.md), or nothing because the engine is held (R61 10_state.md, R431 60_exceptions.md). -/
inductive Flow (π : Type) where
  | goto (p : π) (s : State)
  | done (s : State)
  | raise (e : ErrCode) (addr : Byte) (k : Option BusKind) (s : State)
  | hold

/-- The same step seen from a body that contains this one. -/
def Flow.map {π ρ : Type} (here : π → ρ) : Flow π → Flow ρ
  | .goto p s => .goto (here p) s
  | .done s => .done s
  | .raise e a k s => .raise e a k s
  | .hold => .hold

/-- Go on with `after` where the step ends the body. -/
def Flow.andThen {π : Type} (after : State → Flow π) : Flow π → Flow π
  | .goto p s => .goto p s
  | .done s => after s
  | .raise e a k s => .raise e a k s
  | .hold => .hold

/-- Move the engine to `p`, inside the same sample of a run if it is in one. -/
def State.goto (s : State) (p : Point) : State := { s with hid := { s.hid with pos := ⟨p, s.hid.pos.sample⟩ } }

/-- abortPoint(): a pending ABORT raises ABORTED, otherwise the step goes on (R375 44_control.md). -/
def abortPoint {π : Type} (s : State) (go : Flow π) : Flow π :=
  if s.status.abortPend then .raise .aborted 0 none s else go

/-! ### Sensor transactions (R20, R21 00_scope.md; R61 10_state.md) -/

/-- Issue a transaction. -/
def State.issue (s : State) (r : BusReq) : State := { s with hid := { s.hid with bus := .inFlight r } }

/-- An abort point and then the issue of a transaction: one engine step (R375 44_control.md). -/
def issueAt {π : Type} (r : BusReq) (next : π) (s : State) : Flow π := abortPoint s (.goto next (s.issue r))

/-- The transaction is over: its response has been used. -/
def State.busQuiet (s : State) : State := { s with hid := { s.hid with bus := .quiet } }

/-- Use the response of a read: its bytes, or the error; hold while there is none (R61 10_state.md). -/
def onRead {π : Type} (s : State) (err : BusKind → State → Flow π) (ok : List Byte → State → Flow π) : Flow π :=
  match s.hid.bus with
  | .answered _ (.bytes bs) => ok bs s.busQuiet
  | .answered _ (.err k) => err k s.busQuiet
  | .answered _ .ok | .inFlight _ | .quiet => .hold

/-- Use the response of a write: Ok, or the error; hold while there is none (R61 10_state.md). -/
def onWrite {π : Type} (s : State) (err : BusKind → State → Flow π) (ok : State → Flow π) : Flow π :=
  match s.hid.bus with
  | .answered _ .ok => ok s.busQuiet
  | .answered _ (.err k) => err k s.busQuiet
  | .answered _ (.bytes _) | .inFlight _ | .quiet => .hold

/-- raise BUSERR(k, a): BUS_TIMEOUT or BUS_NACK by kind (R230 41_configurator.md, R401 60_exceptions.md). -/
def raiseBus {π : Type} (a : Byte) (k : BusKind) (s : State) : Flow π :=
  .raise (match k with | .timeout => .busTimeout | .nack => .busNack) a (some k) s

/-- A command that needs the calibration file raises CAL_UNAVAILABLE with ADDR = 0 and BUSKIND = 0 while CAL_VALID = 0
(R400 60_exceptions.md, R456 70_reset_and_hazards.md). -/
def needCal {π : Type} (s : State) (go : Flow π) : Flow π :=
  if s.status.calValid then go else .raise .calUnavailable 0 none s

/-! ### Waits (R431 60_exceptions.md) -/

/-- x[DLY_CNT] <- ms. -/
def State.loadDelay (s : State) (ms : BitVec 16) : State := { s with hid := { s.hid with dlyCnt := ms } }

/-- One engine step of wait(ms): at the loop head, the wait is over when DLY_CNT is 0; otherwise an abort point, and then
the engine holds for the next tick. -/
def waitStep (p : WaitPt) (s : State) : Flow WaitPt :=
  match p with
  | .top => if s.hid.dlyCnt = 0 then .done s else abortPoint s (.goto .hold s)
  | .hold => .hold

/-- A tick at a wait: DLY_CNT counts down and the loop begins again. At the loop head the engine's own step takes no
time (R470 70_reset_and_hazards.md; log 5), so a tick counts there too unless the wait is over or an abort is due. -/
def waitTick (p : WaitPt) (s : State) : Option State :=
  match p with
  | .hold => some (s.loadDelay (s.hid.dlyCnt - 1))
  | .top => if s.hid.dlyCnt = 0 || s.status.abortPend then none else some (s.loadDelay (s.hid.dlyCnt - 1))

/-! ### Records (R350, R351 43_acquisition.md) -/

/-- emit(tag, payload): the record is offered to the sink. -/
def State.emit (s : State) (t : Tag) (payload : Word64) : State :=
  { s with hid := { s.hid with outPend := some ⟨t, payload⟩ } }

/-- The engine takes no step while a record is offered and not accepted (R351 43_acquisition.md); SRESET alone is not held
by this. -/
def unlessOffering (s : State) (o : Result) : Result := if s.hid.outPend.isSome then .next s else o

/-! ### Status fields -/

/-- pc <- f: the Acquisition Loop state (R19 00_scope.md, R44 10_state.md). -/
def State.enter (s : State) (f : Fsm) : State := { s with status := { s.status with fsm := f } }

/-- x[STATUS.TRIG] <- t (R45 10_state.md). -/
def State.setTrig (s : State) (t : TrigState) : State := { s with status := { s.status with trig := t } }

/-- STATUS.OVF after a computation (R37 10_state.md). -/
def State.withOvf (s : State) (ovf : Bool) : State := { s with status := s.status.withOvf ovf }

/-! ### Taking an error, completing, acknowledging (R400 to R415 60_exceptions.md) -/

/-- The completion action of a command that ends normally (R412 60_exceptions.md), part of the step that
ends its body (DESIGN CHOICE, log 3). POS becomes "no command" (log 6). -/
def complete (s : State) : State :=
  { s with
    status := { s.status with busy := false, trig := .idle, abortPend := false }
    hid := { s.hid with abortReq := false, dlyCnt := 0, pos := ⟨.noCommand, none⟩ } }

/-- The error-recording action (R410 60_exceptions.md). -/
def recordError (e : ErrCode) (info : ErrInfo) (s : State) : State :=
  { s with status := { s.status with err := true, errCode := e }, errInfo := info }

/-- The ERR_INFO of an error raised where the engine stands: SAMPLE is the 0-based index inside RUN's sampling loop, and
0 otherwise (R39 10_state.md, R400 60_exceptions.md). -/
def infoAt (addr : Byte) (k : Option BusKind) (s : State) : ErrInfo :=
  { addr := addr, kind := k, sample := BitVec.ofNat 16 (s.hid.pos.sample.getD 0) }

/-- Taking a fatal error, the BCAE's whole exception entry (R22 00_scope.md; R410, R412, R414 60_exceptions.md): the error
is recorded and the command completes; a RUN's state becomes IDLE. -/
def takeError (inRun : Bool) (e : ErrCode) (addr : Byte) (k : Option BusKind) (s : State) : State :=
  let s' := complete (recordError e (infoAt addr k s) s)
  if inRun then s'.enter .idle else s'

/-- Clearing the error record: what a host's acknowledgement (W1C of STATUS.ERR, R36 10_state.md) and the acceptance of a
command (R40 10_state.md) both do. The BCAE has no other return from an error (R415 60_exceptions.md). -/
def clearError (s : State) : State :=
  { s with status := { s.status with err := false, errCode := .noError }, errInfo := ErrInfo.reset }

/-- What one step of a body of a command other than RUN answers. The step that ends the body completes the command too:
R412 (60_exceptions.md) does not say whether a host access can come between them, and joining them is the model's choice
(DESIGN CHOICE, log 3). -/
def finish {π : Type} (here : π → Point) (s : State) : Flow π → Result
  | .goto p s' => .next (s'.goto (here p))
  | .done s' => .next (complete s')
  | .raise e a k s' => .next (takeError false e a k s')
  | .hold => .next s

/-- What one step of a body inside RUN answers: RUN goes on with `after` when the body ends, and an error is fatal to the
run (R344 43_acquisition.md). A raise and the run's completion are one step, and so are the last step of a body and
`after`, RUN's entry of its next state (R348 43_acquisition.md): R340 writes `pc <- S` on a line of its own, and no rule
says whether a host access can come before it; joining them is the model's choice (DESIGN CHOICE, log 3). -/
def finishInRun {π : Type} (here : π → Point) (after : State → State) (s : State) : Flow π → Result
  | .goto p s' => .next (s'.goto (here p))
  | .done s' => .next (after s')
  | .raise e a k s' => .next (takeError true e a k s')
  | .hold => .next s

/-! ### Command issue (R40, R41 10_state.md) -/

/-- Acceptance of a legal word (R40 10_state.md; ABORT_REQ falls with ABORT_PEND, R374 44_control.md, log 6). -/
def accept (w : Word) (s : State) : State :=
  let s' := clearError s
  { s' with
    status := { s'.status with
      curOp := opcodeOf w, abortPend := false, busy := true
      fsm := if s'.status.fsm = .done then .idle else s'.status.fsm }
    hid := { s'.hid with cmdCur := w, abortReq := false, pos := ⟨.start, none⟩ } }

/-- An ABORT request while a command runs (R373, R374 44_control.md). -/
def requestAbort (s : State) : State :=
  { s with status := { s.status with abortPend := true }, hid := { s.hid with abortReq := true } }

/-- A host write of w to CMD (R40, R41 10_state.md; R162 30_encoding.md; R373 44_control.md). -/
def writeCmd (w : Word) (s : State) : State :=
  if s.status.busy then
    if w = encode .abort then requestAbort s
    else { s with status := { s.status with cmdDropped := true } }
  else
    match decode w with
    | .legal _ => accept w s
    | .illegal _ => recordError .illegalCommand { addr := opcodeOf w, kind := none, sample := 0 } s

/-! ### Reset (R450 to R452 70_reset_and_hazards.md) -/

/-- The trace entry of a transaction that a reset abandons (log 4). -/
def Bus.abandoned : Bus → List BusTx
  | .inFlight r => [⟨r, none⟩]
  | .quiet | .answered _ _ => []

/-- The reset procedure, one atomic step, of power-on reset and of SRESET: every register to its reset value, a
transaction in flight abandoned, the record offered discarded; nothing outside the BCAE changes (R451, R452
70_reset_and_hazards.md). -/
def resetProcedure (s : State) : State :=
  { State.reset with env := { s.env with trace := s.env.trace ++ s.hid.bus.abandoned } }

end Sys2Proof.Machine
end

