-- ==== Sys2Proof/Machine/Csr.lean ====
section
/-! DEFINITION. The host CSR window: the map of R34 and R52 (10_state.md) and the access rules R104 to R109
(20_memory.md). -/

namespace Sys2Proof.Machine

/-- The calibration CSRs in the order of their offsets (R52 10_state.md). -/
inductive CalField where
  | t1 | t2 | t3 | p1 | p2 | p3 | p4 | p5 | p6 | p7 | p8 | p9 | p10 | h1 | h2 | h3 | h4 | h5 | h6 | h7 | g1 | g2 | g3
  | resHeatRange | resHeatVal
deriving DecidableEq, Repr

/-- The 64-bit registers, each seen as a LO and a HI word (R33 10_state.md). -/
inductive WideReg where
  | tFine | compT | compP | compH | accT | accP | rmsT | rmsP
deriving DecidableEq, Repr

/-- The CSRs of the window (R34 10_state.md). -/
inductive Csr where
  | cmd | status | errInfo | window | sampleDelay | settle | pollBudget | heatTemp | heatDur | rawT | rawP | rawH
  | lo (r : WideReg) | hi (r : WideReg)
  | gwCode | rhCode | sampleIdx | validCnt | nAgg
  | cal (f : CalField)
deriving DecidableEq, Repr

/-- The CSR map, control and status part (R34 10_state.md). -/
def csrMapControl : List (Nat × Csr) :=
  [(0x000, .cmd), (0x004, .status), (0x008, .errInfo), (0x00C, .window), (0x010, .sampleDelay), (0x014, .settle),
    (0x018, .pollBudget), (0x01C, .heatTemp), (0x020, .heatDur), (0x024, .rawT), (0x028, .rawP), (0x02C, .rawH)]

/-- The CSR map, result part (R34 10_state.md). -/
def csrMapResults : List (Nat × Csr) :=
  [(0x030, .lo .tFine), (0x034, .hi .tFine), (0x038, .lo .compT), (0x03C, .hi .compT), (0x040, .lo .compP),
    (0x044, .hi .compP), (0x048, .lo .compH), (0x04C, .hi .compH), (0x050, .gwCode), (0x054, .rhCode)]

/-- The CSR map, aggregator part (R34 10_state.md). -/
def csrMapAgg : List (Nat × Csr) :=
  [(0x058, .sampleIdx), (0x05C, .validCnt), (0x060, .nAgg), (0x068, .lo .accT), (0x06C, .hi .accT), (0x070, .lo .accP),
    (0x074, .hi .accP), (0x078, .lo .rmsT), (0x07C, .hi .rmsT), (0x080, .lo .rmsP), (0x084, .hi .rmsP)]

/-- The CSR map, calibration part (R52 10_state.md). -/
def csrMapCal : List (Nat × Csr) :=
  [(0x100, .cal .t1), (0x104, .cal .t2), (0x108, .cal .t3), (0x10C, .cal .p1), (0x110, .cal .p2), (0x114, .cal .p3),
    (0x118, .cal .p4), (0x11C, .cal .p5), (0x120, .cal .p6), (0x124, .cal .p7), (0x128, .cal .p8), (0x12C, .cal .p9),
    (0x130, .cal .p10), (0x134, .cal .h1), (0x138, .cal .h2), (0x13C, .cal .h3), (0x140, .cal .h4), (0x144, .cal .h5),
    (0x148, .cal .h6), (0x14C, .cal .h7), (0x150, .cal .g1), (0x154, .cal .g2), (0x158, .cal .g3),
    (0x15C, .cal .resHeatRange), (0x160, .cal .resHeatVal)]

/-- The CSR map: byte offset and CSR. Every offset not listed is unmapped (R34, R52 10_state.md). -/
def csrMap : List (Nat × Csr) := csrMapControl ++ csrMapResults ++ csrMapAgg ++ csrMapCal

/-- The CSR at an offset; none where the offset is unmapped (R34 10_state.md, R106 20_memory.md). Every mapped offset is
a multiple of 4. -/
def csrAt (off : BitVec 12) : Option Csr := (csrMap.find? (fun e => e.1 == off.toNat)).map Prod.snd

/-- A calibration field's CSR word: sign-extended for signed fields, zero-extended for unsigned (R52 10_state.md). -/
def Cal.word (c : Cal) : CalField → Word
  | .t1 => c.t1.zeroExtend 32
  | .t2 => c.t2.signExtend 32
  | .t3 => c.t3.signExtend 32
  | .p1 => c.p1.zeroExtend 32
  | .p2 => c.p2.signExtend 32
  | .p3 => c.p3.signExtend 32
  | .p4 => c.p4.signExtend 32
  | .p5 => c.p5.signExtend 32
  | .p6 => c.p6.signExtend 32
  | .p7 => c.p7.signExtend 32
  | .p8 => c.p8.signExtend 32
  | .p9 => c.p9.signExtend 32
  | .p10 => c.p10.zeroExtend 32
  | .h1 => c.h1.zeroExtend 32
  | .h2 => c.h2.zeroExtend 32
  | .h3 => c.h3.signExtend 32
  | .h4 => c.h4.signExtend 32
  | .h5 => c.h5.signExtend 32
  | .h6 => c.h6.zeroExtend 32
  | .h7 => c.h7.signExtend 32
  | .g1 => c.g1.signExtend 32
  | .g2 => c.g2.signExtend 32
  | .g3 => c.g3.signExtend 32
  | .resHeatRange => c.resHeatRange.zeroExtend 32
  | .resHeatVal => c.resHeatVal.signExtend 32

/-- The pattern of a 64-bit register (R33 10_state.md). -/
def wideReg (s : State) : WideReg → Word64
  | .tFine => s.res.tFine
  | .compT => s.res.compT
  | .compP => s.res.compP
  | .compH => s.res.compH
  | .accT => s.agg.accT
  | .accP => s.agg.accP
  | .rmsT => s.agg.rmsT
  | .rmsP => s.agg.rmsP

/-- A CSR's current value with unused bits 0; CMD reads as 0 (R107 20_memory.md). -/
def csrRead (s : State) : Csr → Word
  | .cmd => 0
  | .status => s.status.word
  | .errInfo => s.errInfo.word
  | .window => s.ctl.window.zeroExtend 32
  | .sampleDelay => s.ctl.sampleDelay.zeroExtend 32
  | .settle => s.ctl.settle.zeroExtend 32
  | .pollBudget => s.ctl.pollBudget.zeroExtend 32
  | .heatTemp => s.ctl.heatTemp.zeroExtend 32
  | .heatDur => s.ctl.heatDur.zeroExtend 32
  | .rawT => s.raw.t.zeroExtend 32
  | .rawP => s.raw.p.zeroExtend 32
  | .rawH => s.raw.h.zeroExtend 32
  | .lo r => (wideReg s r).extractLsb' 0 32
  | .hi r => (wideReg s r).extractLsb' 32 32
  | .gwCode => s.heat.gwCode.zeroExtend 32
  | .rhCode => s.heat.rhCode.zeroExtend 32
  | .sampleIdx => s.agg.sampleIdx.zeroExtend 32
  | .validCnt => s.agg.validCnt
  | .nAgg => s.agg.nAgg.zeroExtend 32
  | .cal f => s.cal.word f

/-- A host write to STATUS while BUSY = 0: bit 1 acknowledges the error, bit 4 clears OVF, bit 5 clears CMD_DROPPED, and
every other bit is ignored (R36 10_state.md). -/
def writeStatus (w : Word) (s : State) : State :=
  let s' := if w.getLsbD 1 then clearError s else s
  { s' with status := { s'.status with
      ovf := s'.status.ovf && !w.getLsbD 4
      cmdDropped := s'.status.cmdDropped && !w.getLsbD 5 } }

/-- A host write to a CSR other than CMD while BUSY = 0: a read-write CSR takes its used bits, RAW_T also clears
TF_VALID, and a read-only CSR ignores the write (R108, R109 20_memory.md; R50 10_state.md). -/
def csrWrite (c : Csr) (w : Word) (s : State) : State :=
  match c with
  | .status => writeStatus w s
  | .window => { s with ctl := { s.ctl with window := w.extractLsb' 0 16 } }
  | .sampleDelay => { s with ctl := { s.ctl with sampleDelay := w.extractLsb' 0 16 } }
  | .settle => { s with ctl := { s.ctl with settle := w.extractLsb' 0 16 } }
  | .pollBudget => { s with ctl := { s.ctl with pollBudget := w.extractLsb' 0 16 } }
  | .heatTemp => { s with ctl := { s.ctl with heatTemp := w.extractLsb' 0 16 } }
  | .heatDur => { s with ctl := { s.ctl with heatDur := w.extractLsb' 0 16 } }
  | .rawT => { s with raw := { s.raw with t := w.extractLsb' 0 20 }, status := { s.status with tfValid := false } }
  | .rawP => { s with raw := { s.raw with p := w.extractLsb' 0 20 } }
  | .rawH => { s with raw := { s.raw with h := w.extractLsb' 0 16 } }
  | .cmd | .errInfo | .lo _ | .hi _ | .gwCode | .rhCode | .sampleIdx | .validCnt | .nAgg | .cal _ => s

/-- A host write to a mapped CSR: to CMD as R40 and R41 (10_state.md) say; to any other CSR only while BUSY = 0 (R109
20_memory.md). -/
def hostWrite (c : Csr) (w : Word) (s : State) : State :=
  if c = .cmd then writeCmd w s else if s.status.busy then s else csrWrite c w s

/-- The CSR that a host access reaches: a 32-bit access to a mapped offset; every other access gets a bus error response
(R105, R106 20_memory.md; log 13). -/
def HostAccess.target (a : HostAccess) : Option Csr :=
  match a.width with
  | .w32 => csrAt a.off
  | .w8 | .w16 => none

/-- The answer to a host access in state s (R105 to R109 20_memory.md). -/
def hostAnswer (a : HostAccess) (s : State) : HostAnswer :=
  match a.target, a.op with
  | none, _ => .slverr
  | some c, .read => .data (csrRead s c)
  | some _, .write _ => .done

/-- The width of an access in bits. -/
def AccessWidth.bits : AccessWidth → Nat
  | .w8 => 8
  | .w16 => 16
  | .w32 => 32

/-- What the host sees of an access in state s through the bus P_HOST_BUS (R13 00_scope.md): the BCAE's answer to an
aligned 32-bit access, and for every other whatever the bus makes of it (U14 93_implementation_defined.md; log 13).
HOST_LOG holds the BCAE's answers, and no step reads this view. -/
def hostSees (a : HostAccess) (s : State) : HostAnswer :=
  if a.width = .w32 ∧ a.off.toNat % 4 = 0 then hostAnswer a s
  else match a.op with
    | .read => ((Config.hostBus a.width.bits a.off none).map HostAnswer.data).getD .slverr
    | .write w => if (Config.hostBus a.width.bits a.off (some w)).isSome then .done else .slverr

/-- A host access, one atomic step (R107, R108 20_memory.md): its effect, and its answer added to HOST_LOG. -/
def hostStep (a : HostAccess) (s : State) : State :=
  let s' := match a.target, a.op with
    | some c, .write w => hostWrite c w s
    | some _, .read | none, _ => s
  { s' with env := { s'.env with hostLog := s'.env.hostLog ++ [(a, hostAnswer a s)] } }

end Sys2Proof.Machine
end

