-- ==== Sys2Proof/Machine/Aggregator.lean ====
section
/-! DEFINITION. The RMS aggregator's commands AGGCLR, AGGACC and AGGFIN (section 2 of 43_acquisition.md). -/

namespace Sys2Proof.Machine

/-- A window size that is rejected: 0 or above P_MAX_WINDOW (R317 43_acquisition.md). -/
def badWindow (n : BitVec 16) : Bool := n == 0 || decide (Config.maxWindow < n.toNat)

/-- The AGGCLR body for window n (R316 43_acquisition.md). -/
def aggclrBody {π : Type} (n : BitVec 16) (s : State) : Flow π :=
  if badWindow n then .raise .invalidWindow 0 none s
  else .done { s with
    agg := { s.agg with nAgg := n, accT := 0, accP := 0, rmsT := 0, rmsP := 0, validCnt := 0 }
    status := { s.status with aggDone := false } }

/-- AGGCLR (R316 43_acquisition.md). -/
def execAggclr (s : State) : Result :=
  unlessOffering s <| match s.hid.pos.point with
    | .start => finish id s (aggclrBody s.ctl.window s)
    | _ => .fault .strayPosition

/-- A sum with one more term v²/N: fl(acc + fl(fl(v * v) / nd)) (R319 43_acquisition.md). -/
def accumulate (acc nd : Word64) (v : Int) : Word64 := F64.add acc (F64.div (F64.mul (toF64 v) (toF64 v)) nd)

/-- The AGGACC body (R319 43_acquisition.md). -/
def aggaccBody {π : Type} (s : State) : Flow π :=
  if s.agg.nAgg = 0 then .raise .invalidWindow 0 none s
  else
    let nd := toF64 s.agg.nAgg.toNat
    .done { s with agg := { s.agg with
      accT := accumulate s.agg.accT nd s.res.compT.toInt
      accP := accumulate s.agg.accP nd s.res.compP.toInt
      validCnt := s.agg.validCnt + 1 } }

/-- AGGACC (R319 43_acquisition.md). -/
def execAggacc (s : State) : Result :=
  unlessOffering s <| match s.hid.pos.point with
    | .start => finish id s (aggaccBody s)
    | _ => .fault .strayPosition

/-- The RMS of a sum over c of n samples: sqrt(acc) when c = n, else sqrt(fl(fl(acc * n) / c)) (R322, R323
43_acquisition.md). -/
def rms (acc : Word64) (n : BitVec 16) (c : BitVec 32) : Word64 :=
  if c.toNat = n.toNat then sqrtF64 acc
  else sqrtF64 (F64.div (F64.mul acc (toF64 n.toNat)) (toF64 c.toNat))

/-- The AGGFIN body (R322 43_acquisition.md). -/
def aggfinBody {π : Type} (s : State) : Flow π :=
  if s.agg.nAgg = 0 then .raise .invalidWindow 0 none s
  else if s.agg.validCnt = 0 then .raise .noValidSamples 0 none s
  else .done { s with
    agg := { s.agg with
      rmsT := rms s.agg.accT s.agg.nAgg s.agg.validCnt
      rmsP := rms s.agg.accP s.agg.nAgg s.agg.validCnt }
    status := { s.status with aggDone := true } }

/-- AGGFIN (R322 43_acquisition.md). -/
def execAggfin (s : State) : Result :=
  unlessOffering s <| match s.hid.pos.point with
    | .start => finish id s (aggfinBody s)
    | _ => .fault .strayPosition

end Sys2Proof.Machine
end

