-- ==== Sys2Proof/Machine/Calibration.lean ====
section
/-! DEFINITION. The Calibration Store's command LOADCAL (40_calibration.md). -/

namespace Sys2Proof.Machine

/-- A bus error of any LOADCAL read is CAL_UNAVAILABLE with the burst's start address and the kind (R206
40_calibration.md, R401 60_exceptions.md). -/
def raiseCal {π : Type} (a : Byte) (k : BusKind) (s : State) : Flow π := .raise .calUnavailable a (some k) s

/-- One step of the LOADCAL body (R204, R205 40_calibration.md). The 25 fields and CAL_VALID are written in one step. -/
def calStep (p : CalPt) (s : State) : Flow CalPt :=
  match p with
  | .invalidate => .goto .read1 { s with status := { s.status with calValid := false, tfValid := false } }
  | .read1 => issueAt (.read 0x8A 23) .got1 s
  | .got1 => onRead s (raiseCal 0x8A) fun b1 s' => .goto (.read2 b1) s'
  | .read2 b1 => issueAt (.read 0xE1 14) (.got2 b1) s
  | .got2 b1 => onRead s (raiseCal 0xE1) fun b2 s' => .goto (.read3 b1 b2) s'
  | .read3 b1 b2 => issueAt (.read 0x00 3) (.got3 b1 b2) s
  | .got3 b1 b2 => onRead s (raiseCal 0x00) fun b3 s' =>
      .done { s' with cal := Cal.assemble b1 b2 b3, status := { s'.status with calValid := true } }

/-- LOADCAL (R205 40_calibration.md). -/
def execLoadcal (s : State) : Result :=
  unlessOffering s <| match s.hid.pos.point with
    | .start => finish .cal s (calStep .invalidate s)
    | .cal p => finish .cal s (calStep p s)
    | _ => .fault .strayPosition

end Sys2Proof.Machine
end

