-- ==== Sys2Proof/Machine/Compensation.lean ====
section
/-! DEFINITION. The Compensation Engine's commands COMPT, COMPP, COMPH and COMPALL and their three formulas, evaluated
operator by operator as written (42_compensation.md, R272). -/

namespace Sys2Proof.Machine

/-! ### Temperature -/

/-- t_fine of ct(raw) (R273 42_compensation.md). -/
def ctFine (c : Cal) (raw : Checked) : Checked :=
  let var1 := (raw.shr 3).sub ((unsigned c.t1).shl 1)
  let var2 := (var1.mul (signed c.t2)).shr 11
  let var3 := ((var1.shr 1).mul (var1.shr 1)).shr 12
  let var3 := (var3.mul ((signed c.t3).shl 4)).shr 14
  var2.add var3

/-- temp of ct(raw): the last line of R273, which R290 uses again (42_compensation.md). -/
def tempScaled (tf : Checked) : Checked := ((tf.mul (.lit 5)).add (.lit 128)).shr 8

/-- The COMPT body, one step (R275 42_compensation.md). -/
def comptBody {π : Type} (s : State) : Flow π :=
  needCal s <|
    let tf := ctFine s.cal (unsigned s.raw.t)
    let t := tempScaled tf
    .done <| State.withOvf
      { s with res := { s.res with tFine := tf.toReg, compT := t.toReg }, status := { s.status with tfValid := true } }
      t.ovf

/-- COMPT (R275 42_compensation.md). -/
def execCompt (s : State) : Result :=
  unlessOffering s <| match s.hid.pos.point with
    | .start => finish id s (comptBody s)
    | _ => .fault .strayPosition

/-! ### Pressure -/

/-- The divisor var1 and the intermediate pc before the branch of cp(raw, tf) (R283 42_compensation.md). -/
def cpBefore (c : Cal) (raw tf : Checked) : Checked × Checked :=
  let var1 := (tf.shr 1).sub (.lit 64000)
  let var2 := ((((var1.shr 2).mul (var1.shr 2)).shr 11).mul (signed c.p6)).shr 2
  let var2 := var2.add ((var1.mul (signed c.p5)).shl 1)
  let var2 := (var2.shr 2).add ((signed c.p4).shl 16)
  let var1 := (((((var1.shr 2).mul (var1.shr 2)).shr 13).mul ((signed c.p3).shl 5)).shr 3).add
    (((signed c.p2).mul var1).shr 1)
  let var1 := var1.shr 18
  let var1 := (((Checked.lit 32768).add var1).mul (unsigned c.p1)).shr 15
  let pc := (Checked.lit 1048576).sub raw
  let pc := (pc.sub (var2.shr 12)).mul (.lit 3125)
  (var1, pc)

/-- The branch of cp: division, then shift, from 2^30 up; shift, then division, below (R283, R287 42_compensation.md). -/
def cpDivide (var1 pc : Checked) : Option Checked :=
  if 0x40000000 ≤ pc.val then (pc.div var1).map (fun q => q.shl 1) else (pc.shl 1).div var1

/-- The last four lines of cp (R283 42_compensation.md). -/
def cpAfter (c : Cal) (pc : Checked) : Checked :=
  let var1 := ((signed c.p9).mul (((pc.shr 3).mul (pc.shr 3)).shr 13)).shr 12
  let var2 := ((pc.shr 2).mul (signed c.p8)).shr 13
  let var3 := ((((pc.shr 8).mul (pc.shr 8)).mul (pc.shr 8)).mul (unsigned c.p10)).shr 17
  pc.add ((((var1.add var2).add var3).add ((signed c.p7).shl 7)).shr 4)

/-- cp(raw, tf); a zero divisor is DivideByZero, with the overflows before the division (R283, R285
42_compensation.md; log 12). -/
def cp (c : Cal) (raw tf : Checked) : Formula :=
  let (var1, pc) := cpBefore c raw tf
  match cpDivide var1 pc with
  | some q => .value (cpAfter c q)
  | none => .divideByZero (var1.ovf || (if 0x40000000 ≤ pc.val then pc.ovf else (pc.shl 1).ovf))

/-- ORDER_VIOLATION while T_FINE is not valid (R276 42_compensation.md). -/
def needTfine {π : Type} (s : State) (go : Flow π) : Flow π :=
  if s.status.tfValid then go else .raise .orderViolation 0 none s

/-- The COMPP body, one step (R284 42_compensation.md). -/
def comppBody {π : Type} (s : State) : Flow π :=
  needCal s <| needTfine s <| match cp s.cal (unsigned s.raw.p) (signed s.res.tFine) with
    | .value p => .done ({ s with res := { s.res with compP := p.toReg } }.withOvf p.ovf)
    | .divideByZero ovf => .raise .divideByZero 0 none (s.withOvf ovf)

/-- COMPP (R284 42_compensation.md). -/
def execCompp (s : State) : Result :=
  unlessOffering s <| match s.hid.pos.point with
    | .start => finish id s (comppBody s)
    | _ => .fault .strayPosition

/-! ### Humidity -/

/-- The clamp of chum to 0 to 100000 (R290 42_compensation.md). -/
def clampHum (h : Checked) : Checked :=
  let h := if 100000 < h.val then { h with val := 100000 } else h
  if h.val < 0 then { h with val := 0 } else h

/-- chum(raw, tf) (R290 42_compensation.md). -/
def chum (c : Cal) (raw tf : Checked) : Checked :=
  let ts := tempScaled tf
  let var1 := (raw.sub ((unsigned c.h1).mul (.lit 16))).sub (((ts.mul (signed c.h3)).divLit 100).shr 1)
  let var2 := ((unsigned c.h2).mul
    ((((ts.mul (signed c.h4)).divLit 100).add
      (((ts.mul ((ts.mul (signed c.h5)).divLit 100)).shr 6).divLit 100)).add ((Checked.lit 1).shl 14))).shr 10
  let var3 := var1.mul var2
  let var4 := (unsigned c.h6).shl 7
  let var4 := (var4.add ((ts.mul (signed c.h7)).divLit 100)).shr 4
  let var5 := ((var3.shr 14).mul (var3.shr 14)).shr 10
  let var6 := (var4.mul var5).shr 1
  clampHum ((((var3.add var6).shr 10).mul (.lit 1000)).shr 12)

/-- The COMPH body, one step (R291 42_compensation.md). -/
def comphBody {π : Type} (s : State) : Flow π :=
  needCal s <| needTfine s <|
    let h := chum s.cal (unsigned s.raw.h) (signed s.res.tFine)
    .done ({ s with res := { s.res with compH := h.toReg } }.withOvf h.ovf)

/-- COMPH (R291 42_compensation.md). -/
def execComph (s : State) : Result :=
  unlessOffering s <| match s.hid.pos.point with
    | .start => finish id s (comphBody s)
    | _ => .fault .strayPosition

/-! ### All three -/

/-- One step of the COMPALL body: temperature, pressure, humidity, with no abort point between (R296
42_compensation.md). -/
def compStep (p : CompPt) (s : State) : Flow CompPt :=
  match p with
  | .temp => (comptBody s).andThen (.goto .press)
  | .press => (comppBody s).andThen (.goto .hum)
  | .hum => comphBody s

/-- COMPALL (R296 42_compensation.md). -/
def execCompall (s : State) : Result :=
  unlessOffering s <| match s.hid.pos.point with
    | .start => finish .comp s (compStep .temp s)
    | .comp p => finish .comp s (compStep p s)
    | _ => .fault .strayPosition

end Sys2Proof.Machine
end

