-- ==== Sys2Proof/Machine/Configurator.lean ====
section
/-! DEFINITION. The Sensor Configurator's commands CFGOS, CFGHTR, TRIG, GWCODE and RHCODE and the two encoding functions
they share (41_configurator.md). -/

namespace Sys2Proof.Machine

/-! ### CFGOS -/

/-- One step of the CFGOS body (R231, R232 41_configurator.md): ctrl_hum, then ctrl_meas, each read and written back. -/
def osStep (p : OsPt) (s : State) : Flow OsPt :=
  match p with
  | .readHum => issueAt (.read 0x72 1) .gotHum s
  | .gotHum => onRead s (raiseBus 0x72) fun h s' => .goto (.writeHum (byteAt h 0)) s'
  | .writeHum h => issueAt (.write 0x72 ((h &&& 0xF8) ||| 0x01)) .wroteHum s
  | .wroteHum => onWrite s (raiseBus 0x72) fun s' => .goto .readMeas s'
  | .readMeas => issueAt (.read 0x74 1) .gotMeas s
  | .gotMeas => onRead s (raiseBus 0x74) fun m s' => .goto (.writeMeas (byteAt m 0)) s'
  | .writeMeas m => issueAt (.write 0x74 ((m &&& 0x03) ||| 0x54)) .wroteMeas s
  | .wroteMeas => onWrite s (raiseBus 0x74) fun s' => .done s'

/-- CFGOS (R231 41_configurator.md). -/
def execCfgos (s : State) : Result :=
  unlessOffering s <| match s.hid.pos.point with
    | .start => finish .os s (osStep .readHum s)
    | .os p => finish .os s (osStep p s)
    | _ => .fault .strayPosition

/-! ### The heater codes -/

/-- The loop of gw (R235 41_configurator.md): while dur > 63, dur >> 2 and factor + 1. `fuel` bounds the passes; three
are enough below 4032. -/
def gwLoop : Nat → Nat → Nat → Nat
  | 0, dur, factor => dur + factor * 64
  | fuel + 1, dur, factor => if 63 < dur then gwLoop fuel (dur / 4) (factor + 1) else dur + factor * 64

/-- gw(dur), the gas-wait code (R235 41_configurator.md). -/
def gw (dur : Nat) : Byte :=
  if Config.heaterDurMax ≤ dur then 0xFF else BitVec.ofNat 8 (gwLoop 3 dur 0)

/-- rh(temp) before its last conversion low_8 (R238, R239 41_configurator.md). -/
def rhFormula (c : Cal) (temp : Nat) : Formula :=
  let t := Checked.lit ((if Config.heaterTempMax < temp then Config.heaterTempMax else temp : Nat) : Int)
  let var1 := (((Checked.lit Config.ambientC).mul (signed c.g3)).divLit 1000).mul (.lit 256)
  let var2 := ((signed c.g1).add (.lit 784)).mul
    (((((((signed c.g2).add (.lit 154009)).mul t).mul (.lit 5)).divLit 100).add (.lit 3276800)).divLit 10)
  let var3 := var1.add (var2.divLit 2)
  let rhr4 := (unsigned c.resHeatRange).add (.lit 4)
  match var3.div rhr4 with
  | none => .divideByZero (var3.ovf || rhr4.ovf)
  | some var4 =>
    let var5 := ((Checked.lit 131).mul (signed c.resHeatVal)).add (.lit 65536)
    match var4.div var5 with
    | none => .divideByZero (var4.ovf || var5.ovf)
    | some q =>
      let x100 := (q.sub (.lit 250)).mul (.lit 34)
      .value ((x100.add (.lit 50)).divLit 100)

/-- The resistance code of a formula value: low_8 (R238 41_configurator.md). -/
def low8 (v : Checked) : Byte := BitVec.ofInt 8 v.val

/-- GWCODE dur (R236 41_configurator.md). -/
def execGwcode (dur : Nat) (s : State) : Result :=
  unlessOffering s <| match s.hid.pos.point with
    | .start => .next (complete { s with heat := { s.heat with gwCode := gw dur } })
    | _ => .fault .strayPosition

/-- The RHCODE body (R240 41_configurator.md). -/
def rhcodeBody {π : Type} (temp : Nat) (s : State) : Flow π :=
  needCal s <| match rhFormula s.cal temp with
    | .value v => .done ({ s with heat := { s.heat with rhCode := low8 v } }.withOvf v.ovf)
    | .divideByZero ovf => .raise .divideByZero 0 none (s.withOvf ovf)

/-- RHCODE temp (R240 41_configurator.md). -/
def execRhcode (temp : Nat) (s : State) : Result :=
  unlessOffering s <| match s.hid.pos.point with
    | .start => finish id s (rhcodeBody temp s)
    | _ => .fault .strayPosition

/-! ### CFGHTR -/

/-- One step of the CFGHTR body (R245 41_configurator.md): the codes, then gas_wait_0, res_heat_0, ctrl_gas_1. -/
def htrStep (p : HtrPt) (s : State) : Flow HtrPt :=
  match p with
  | .compute => needCal s <|
      let g := gw s.ctl.heatDur.toNat
      match rhFormula s.cal s.ctl.heatTemp.toNat with
      | .value v => .goto (.writeDur g (low8 v)) ({ s with heat := { gwCode := g, rhCode := low8 v } }.withOvf v.ovf)
      | .divideByZero ovf => .raise .divideByZero 0 none (s.withOvf ovf)
  | .writeDur g r => issueAt (.write 0x64 g) (.wroteDur r) s
  | .wroteDur r => onWrite s (raiseBus 0x64) fun s' => .goto (.writeRes r) s'
  | .writeRes r => issueAt (.write 0x5A r) .wroteRes s
  | .wroteRes => onWrite s (raiseBus 0x5A) fun s' => .goto .writeCtrl s'
  | .writeCtrl => issueAt (.write 0x71 Config.ctrlGas1) .wroteCtrl s
  | .wroteCtrl => onWrite s (raiseBus 0x71) fun s' => .done s'

/-- CFGHTR (R245 41_configurator.md). -/
def execCfghtr (s : State) : Result :=
  unlessOffering s <| match s.hid.pos.point with
    | .start => finish .htr s (htrStep .compute s)
    | .htr p => finish .htr s (htrStep p s)
    | _ => .fault .strayPosition

/-! ### TRIG -/

/-- After a read of the mode register: forced mode when it showed sleep, POLL_TIMEOUT when the budget is spent, a sleep
write otherwise (R250, R251, R254 41_configurator.md; budget 0 has no bound). POLL_TIMEOUT has ADDR = 0x74, as R250 and
R400 (60_exceptions.md) give it, against R39's 0 for an error that is no bus error (DEDUCED, log 19). -/
def trigDecide (budget : BitVec 16) (m : Byte) (s : State) : Flow TrigPt :=
  if modeBits m = 0 then .goto .writeForce s
  else if budget ≠ 0 ∧ s.hid.pollCnt = budget then .raise .pollTimeout 0x74 none s
  else .goto (.writeSleep m) s

/-- One step of the TRIG body with poll budget B (R250 41_configurator.md). -/
def trigStep (budget : BitVec 16) (p : TrigPt) (s : State) : Flow TrigPt :=
  match p with
  | .clear => .goto .readMode { s with hid := { s.hid with pollCnt := 0 } }
  | .readMode => abortPoint s (.goto .gotMode ((s.setTrig .read).issue (.read 0x74 1)))
  | .gotMode => onRead s (raiseBus 0x74) fun m s' =>
      trigDecide budget (byteAt m 0) { s' with hid := { s'.hid with modeByte := byteAt m 0 } }
  | .writeSleep m => abortPoint s (.goto .wroteSleep ((s.setTrig .sleep).issue (.write 0x74 (m &&& 0xFC))))
  | .wroteSleep => onWrite s (raiseBus 0x74) fun s' =>
      .goto (.poll .top) ({ s' with hid := { s'.hid with pollCnt := s'.hid.pollCnt + 1 } }.loadDelay Config.pollIntervalMs)
  | .poll w => ((waitStep w s).map .poll).andThen fun s' => .goto .readMode s'
  | .writeForce =>
      abortPoint s (.goto .wroteForce ((s.setTrig .force).issue (.write 0x74 ((s.hid.modeByte &&& 0xFC) ||| 0x01))))
  | .wroteForce => onWrite s (raiseBus 0x74) fun s' => .done (s'.setTrig .idle)

/-- TRIG (R250 41_configurator.md); its budget is the CSR POLL_BUDGET. -/
def execTrig (s : State) : Result :=
  unlessOffering s <| match s.hid.pos.point with
    | .start => finish .trig s (trigStep s.ctl.pollBudget .clear s)
    | .trig p => finish .trig s (trigStep s.ctl.pollBudget p s)
    | _ => .fault .strayPosition

end Sys2Proof.Machine
end

