-- ==== Sys2Proof/Machine/Acquisition.lean ====
section
/-! DEFINITION. The Acquisition Loop's commands READRAW and RUN (sections 1 and 3 of 43_acquisition.md). RUN runs the
bodies of the other commands inside its state machine. -/

namespace Sys2Proof.Machine

/-! ### READRAW -/

/-- One step of the READRAW body (R312 43_acquisition.md). -/
def rawStep (p : RawPt) (s : State) : Flow RawPt :=
  match p with
  | .read => issueAt (.read 0x1F 8) .got s
  | .got => onRead s (fun k s' => .raise .sampleReadFailure 0x1F (some k) s') fun b s' =>
      .done { s' with raw := Raw.assemble b, status := { s'.status with tfValid := false } }

/-- READRAW (R312 43_acquisition.md). -/
def execReadraw (s : State) : Result :=
  unlessOffering s <| match s.hid.pos.point with
    | .start => finish .raw s (rawStep .read s)
    | .raw p => finish .raw s (rawStep p s)
    | _ => .fault .strayPosition

/-! ### RUN: entering its states (R340, R348 43_acquisition.md)

Each `pc <- S` is part of the step before it: the end of a body, of a wait, or of a sample (DESIGN CHOICE, log 3). -/

/-- The first step of RUN: the window check, the latches of R341, SAMPLE_IDX, and the calibration load when CAL_VALID is
0 (R340, R342 43_acquisition.md). -/
def runStart (s : State) : Flow Point :=
  let s := s.enter .configuring
  if badWindow s.ctl.window then .raise .invalidWindow 0 none s
  else
    let s := { s with
      agg := { s.agg with sampleIdx := 0 }
      hid := { s.hid with
        lN := s.ctl.window, lSdelay := s.ctl.sampleDelay, lSettle := s.ctl.settle, lBudget := s.ctl.pollBudget } }
    if s.status.calValid then .goto (.os .readHum) s else .goto (.cal .invalidate) s

/-- pc <- DELAYING and x[SAMPLE_IDX] <- i + 1: iteration i begins. -/
def enterDelaying (i : Nat) (s : State) : State :=
  let s := s.enter .delaying
  { s with
    agg := { s.agg with sampleIdx := BitVec.ofNat 16 (i + 1) }
    hid := { s.hid with pos := ⟨.run .delayLoad, some i⟩ } }

/-- pc <- FINALIZING: the loop is over. -/
def enterFinalizing (s : State) : State :=
  let s := s.enter .finalizing
  { s with hid := { s.hid with pos := ⟨.run .final1Load, none⟩ } }

/-- The head of the sampling loop: for i in 0 .. L_N - 1. -/
def enterLoop (i : Nat) (s : State) : State := if i < s.hid.lN.toNat then enterDelaying i s else enterFinalizing s

/-- pc <- TRIGGERING. -/
def enterTriggering (s : State) : State := (s.enter .triggering).goto (.trig .clear)

/-- pc <- SETTLING. -/
def enterSettling (s : State) : State := (s.enter .settling).goto (.run .settleLoad)

/-- pc <- READING. -/
def enterReading (s : State) : State := (s.enter .reading).goto (.raw .read)

/-- pc <- COMPENSATING. -/
def enterCompensating (s : State) : State := (s.enter .compensating).goto (.comp .temp)

/-- pc <- AGGREGATING. -/
def enterAggregating (s : State) : State := (s.enter .aggregating).goto (.run .aggAcc)

/-- pc <- DONE, and the run completes in the same step (R347 43_acquisition.md; DESIGN CHOICE, log 3). -/
def endRun (s : State) : State := complete (s.enter .done)

/-! ### RUN: its steps -/

/-- sampleError(i): one SAMPLE_ERR record, and the loop goes on with the next sample once it is accepted; STATUS.ERR,
ERR_CODE and ERR_INFO are not changed (R345 43_acquisition.md). The record is offered in the step that raises the error
(DESIGN CHOICE, log 3). -/
def sampleError (e : ErrCode) (addr : Byte) (k : Option BusKind) (s : State) : State :=
  (s.emit .sampleErr (sampleErrPayload e addr k (s.hid.pos.sample.getD 0))).goto (.run .sampleEnd)

/-- What one step of a sample's body answers: the one error `own` ends only the sample, every other is fatal to the run
(R344, R345 43_acquisition.md). -/
def finishSample {π : Type} (own : ErrCode) (here : π → Point) (after : State → State) (s : State) (f : Flow π) : Result :=
  match f with
  | .raise e a k s' => .next (if e = own then sampleError e a k s' else takeError true e a k s')
  | .goto .. | .done _ | .hold => finishInRun here after s f

/-- An abort point and then wait(ms): DLY_CNT is loaded and the wait begins (R340 43_acquisition.md). -/
def loadWait (k : WaitFor) (ms : BitVec 16) (s : State) : Flow Point :=
  abortPoint s (.goto (.wait k .top) (s.loadDelay ms))

/-- One step of RUN outside the bodies of the other commands (R340, R346 43_acquisition.md). -/
def runStep (p : RunPt) (s : State) : Result :=
  match p with
  | .aggClr => finishInRun id (enterLoop 0) s (aggclrBody s.hid.lN s)
  | .delayLoad => finishInRun id id s (loadWait .delay s.hid.lSdelay s)
  | .settleLoad => finishInRun id id s (loadWait .settle s.hid.lSettle s)
  | .aggAcc => finishInRun id (fun s' => s'.goto (.run .emitT)) s (aggaccBody s)
  | .emitT => .next ((s.emit .sampleT s.res.compT).goto (.run .emitP))
  | .emitP => .next ((s.emit .sampleP s.res.compP).goto (.run .sampleEnd))
  | .sampleEnd => .next (enterLoop (s.hid.pos.sample.getD 0 + 1) s)
  | .final1Load => finishInRun id id s (loadWait .final1 s.hid.lSettle s)
  | .aggFin => finishInRun id (fun s' => s'.goto (.run .emitRmsT)) s (aggfinBody s)
  | .emitRmsT => .next ((s.emit .rmsT s.agg.rmsT).goto (.run .emitRmsP))
  | .emitRmsP => .next ((s.emit .rmsP s.agg.rmsP).goto (.run .final2Load))
  | .final2Load => finishInRun id id s (loadWait .final2 s.hid.lSettle s)

/-- RUN (R340 43_acquisition.md). -/
def execRun (s : State) : Result :=
  unlessOffering s <| match s.hid.pos.point with
    | .start => finishInRun id id s (runStart s)
    | .cal p => finishInRun .cal (fun s' => s'.goto (.os .readHum)) s (calStep p s)
    | .os p => finishInRun .os (fun s' => s'.goto (.htr .compute)) s (osStep p s)
    | .htr p => finishInRun .htr (fun s' => s'.goto (.run .aggClr)) s (htrStep p s)
    | .trig p => finishInRun .trig enterSettling s (trigStep s.hid.lBudget p s)
    | .raw p => finishSample .sampleReadFailure .raw enterCompensating s (rawStep p s)
    | .comp p => finishSample .divideByZero .comp enterAggregating s (compStep p s)
    | .wait .delay p => finishInRun (.wait .delay) enterTriggering s (waitStep p s)
    | .wait .settle p => finishInRun (.wait .settle) enterReading s (waitStep p s)
    | .wait .final1 p => finishInRun (.wait .final1) (fun s' => s'.goto (.run .aggFin)) s (waitStep p s)
    | .wait .final2 p => finishInRun (.wait .final2) endRun s (waitStep p s)
    | .run p => runStep p s
    | .noCommand | .wait .command _ => .fault .strayPosition

end Sys2Proof.Machine
end

