-- ==== Sys2Proof/Machine/Control.lean ====
section
/-! DEFINITION. The control commands NOP, SRESET, ABORT and WAIT (44_control.md). A meaning is one engine step of its
command, from the position in POS. -/

namespace Sys2Proof.Machine

/-- NOP (R370 44_control.md): the body is empty, so its one step completes. -/
def execNop (s : State) : Result :=
  unlessOffering s <| match s.hid.pos.point with
    | .start => .next (complete s)
    | _ => .fault .strayPosition

/-- SRESET (R371 44_control.md): the reset procedure, one step; it is the completion. Unlike every other step of the
engine it does not wait for the sink: it discards a record that is offered (R351 43_acquisition.md). -/
def execSreset (s : State) : Result :=
  match s.hid.pos.point with
  | .start => .next (resetProcedure s)
  | _ => .fault .strayPosition

/-- ABORT accepted while BUSY was 0 (R373 44_control.md): the body is empty. An ABORT written while BUSY = 1 is no command
and acts in `writeCmd`. -/
def execAbort (s : State) : Result :=
  unlessOffering s <| match s.hid.pos.point with
    | .start => .next (complete s)
    | _ => .fault .strayPosition

/-- WAIT ms (R377 44_control.md): wait(zext_16(w[15:0])). -/
def execWait (ms : Nat) (s : State) : Result :=
  unlessOffering s <| match s.hid.pos.point with
    | .start => .next ((s.loadDelay (BitVec.ofNat 16 ms)).goto (.wait .command .top))
    | .wait .command p => finish (.wait .command) s (waitStep p s)
    | _ => .fault .strayPosition

end Sys2Proof.Machine
end

