-- ==== Sys2Proof/Machine/Dispatch.lean ====
section
/-! DEFINITION. The meaning of each command: one arm per constructor of `Instr`. -/

namespace Sys2Proof.Machine

def exec (i : Instr) (s : State) : Host.Outcome State Fault Refusal :=
  match i with
  | .nop => Sys2Proof.Machine.execNop s
  | .sreset => Sys2Proof.Machine.execSreset s
  | .abort => Sys2Proof.Machine.execAbort s
  | .wait ms => Sys2Proof.Machine.execWait ms s
  | .loadcal => Sys2Proof.Machine.execLoadcal s
  | .cfgos => Sys2Proof.Machine.execCfgos s
  | .cfghtr => Sys2Proof.Machine.execCfghtr s
  | .trig => Sys2Proof.Machine.execTrig s
  | .gwcode dur => Sys2Proof.Machine.execGwcode dur s
  | .rhcode temp => Sys2Proof.Machine.execRhcode temp s
  | .compt => Sys2Proof.Machine.execCompt s
  | .compp => Sys2Proof.Machine.execCompp s
  | .comph => Sys2Proof.Machine.execComph s
  | .compall => Sys2Proof.Machine.execCompall s
  | .readraw => Sys2Proof.Machine.execReadraw s
  | .aggclr => Sys2Proof.Machine.execAggclr s
  | .aggacc => Sys2Proof.Machine.execAggacc s
  | .aggfin => Sys2Proof.Machine.execAggfin s
  | .run => Sys2Proof.Machine.execRun s

end Sys2Proof.Machine
end

