-- ==== Sys2Proof/Machine/Engine.lean ====
section
/-! DEFINITION. What each agent's event does (R12 00_scope.md, R126 20_memory.md): the engine's turn, the sensor bus, the
tick source, the sink, the host and power-on reset. -/

namespace Sys2Proof.Machine

/-- The engine's turn: between commands it waits for one (R445 60_exceptions.md, R451 70_reset_and_hazards.md);
otherwise it performs the next step of the command in CMD_CUR (R40 10_state.md, R130 20_memory.md). -/
def engineTurn (s : State) : Result :=
  if s.status.busy then
    match decode s.hid.cmdCur with
    | .legal i => exec i s
    | .illegal _ => .refused .noSuchCommand
  else .next s

/-- A response has the form R20 (00_scope.md) and R118 (20_memory.md) give it: all n bytes, Ok, or a bus error. -/
def BusResp.fits : BusReq → BusResp → Bool
  | .read _ n, .bytes bs => bs.length == n
  | .write _ _, .ok => true
  | .read _ _, .err _ | .write _ _, .err _ => true
  | .read _ _, .ok | .write _ _, .bytes _ => false

/-- The sensor bus answers transaction number n. The transaction in flight is the one numbered by the entries of the
trace before it; a response to any other (one that a reset abandoned, R451 70_reset_and_hazards.md), or one that is no
response of the transaction, is discarded (log 4). -/
def busStep (n : Nat) (r : BusResp) (s : State) : State :=
  match s.hid.bus with
  | .inFlight req =>
    if n == s.env.trace.length && r.fits req then
      { s with hid := { s.hid with bus := .answered req r }, env := { s.env with trace := s.env.trace ++ [⟨req, some r⟩] } }
    else s
  | .quiet | .answered _ _ => s

/-- A tick: it changes nothing unless the engine is in a wait (R430, R431 60_exceptions.md). -/
def tickStep (s : State) : State :=
  match s.hid.pos.point with
  | .wait k p => match waitTick p s with
    | some s' => s'.goto (.wait k .top)
    | none => s
  | .trig (.poll p) => match waitTick p s with
    | some s' => s'.goto (.trig (.poll .top))
    | none => s
  | _ => s

/-- The sink accepts the record offered, if there is one (R351 43_acquisition.md). -/
def sinkStep (s : State) : State :=
  match s.hid.outPend with
  | some r => { s with hid := { s.hid with outPend := none }, env := { s.env with sinkLog := s.env.sinkLog ++ [r] } }
  | none => s

/-- One event of the total order of R126 (20_memory.md). -/
def eventStep (e : Event) (s : State) : Result :=
  match e with
  | .engine => engineTurn s
  | .host a => .next (hostStep a s)
  | .bus n r => .next (busStep n r s)
  | .tick => .next (tickStep s)
  | .sinkAccept => .next (sinkStep s)
  | .powerOn => .next (resetProcedure s)

/-- The next event: the head of the events still to come, or the engine's turn where none is left: after a finite list
only engine turns come, and no answer or tick any more (DESIGN CHOICE, log 1). -/
def nextEvent (s : State) : Event := s.env.sched.headD .engine

/-- The state with that event taken from the order. -/
def State.takeEvent (s : State) : State := { s with env := { s.env with sched := s.env.sched.tail } }

/-- How a command word reaches the engine: the host writes it to CMD while the engine is between commands, nothing is
offered to the sink or in flight, and the engine has the next turn (R40 10_state.md; log 2). -/
def deliver (w : Word) (s : State) : State :=
  writeCmd w { s with
    status := { s.status with busy := false }
    hid := { s.hid with outPend := none, bus := .quiet }
    env := { s.env with sched := .engine :: s.env.sched } }

end Sys2Proof.Machine
end

