-- ==== Sys2Proof/Machine/Step.lean ====
section
/-! DEFINITION. One step of the whole system, and the state in which a given command is the next to run. -/

namespace Sys2Proof.Machine

/-- One step: the next event of the one total order happens (R126 20_memory.md, R422 60_exceptions.md). -/
def step (s : State) : Host.Outcome State Fault Refusal := eventStep (nextEvent s) s.takeEvent

/-- `s` with the command word `w` delivered, so that the next step is the first engine step of that command (log 2). -/
def State.withFetchWord (s : State) (nbits w : Nat) : State := deliver (BitVec.ofNat 32 (w % 2 ^ nbits)) s

end Sys2Proof.Machine
end

