-- ==== Sys2Proof/Safety.lean ====
section
/-! DEFINITION. What a good state of the BCAE is, in the terms the claims use: how the hidden state, the status fields
and the position agree in every state that a run from reset reaches. -/

namespace Sys2Proof.Machine

/-- The positions a command's body has (R60 10_state.md). -/
def atHome (i : Instr) (p : Point) : Bool :=
  match p with
  | .noCommand => false
  | .start => true
  | .cal _ => i == .loadcal || i == .run
  | .os _ => i == .cfgos || i == .run
  | .htr _ => i == .cfghtr || i == .run
  | .trig _ => i == .trig || i == .run
  | .raw _ => i == .readraw || i == .run
  | .comp _ => i == .compall || i == .run
  | .wait .command _ => match i with
    | .wait _ => true
    | _ => false
  | .wait _ _ | .run _ => i == .run

/-- A transaction's address, and its length if it is a read. -/
def BusReq.shape : BusReq → Byte × Option Nat
  | .read a n => (a, some n)
  | .write a _ => (a, none)

/-- The transaction whose response a position uses. -/
def awaited : Point → Option (Byte × Option Nat)
  | .cal .got1 => some (0x8A, some 23)
  | .cal (.got2 _) => some (0xE1, some 14)
  | .cal (.got3 _ _) => some (0x00, some 3)
  | .os .gotHum => some (0x72, some 1)
  | .os .wroteHum => some (0x72, none)
  | .os .gotMeas => some (0x74, some 1)
  | .os .wroteMeas => some (0x74, none)
  | .htr (.wroteDur _) => some (0x64, none)
  | .htr .wroteRes => some (0x5A, none)
  | .htr .wroteCtrl => some (0x71, none)
  | .trig .gotMode => some (0x74, some 1)
  | .trig .wroteSleep => some (0x74, none)
  | .trig .wroteForce => some (0x74, none)
  | .raw .got => some (0x1F, some 8)
  | _ => none

/-- A transaction is in flight exactly where the position waits for it (R61 10_state.md). -/
def busAgrees (p : Point) (b : Bus) : Bool :=
  match awaited p, b with
  | none, .quiet => true
  | some q, .inFlight r => r.shape == q
  | some q, .answered r a => r.shape == q && a.fits r
  | _, _ => false

/-- The command executing is a RUN. -/
def State.running (s : State) : Bool := s.status.busy && decode s.hid.cmdCur == .legal .run

/-- STATUS.FSM at the positions of a RUN ("held during", R44 10_state.md). -/
def runFsm (p : Point) (f : Fsm) : Bool :=
  match p with
  | .noCommand => false
  | .start => f == .idle
  | .cal _ | .os _ | .htr _ | .run .aggClr => f == .configuring
  | .run .delayLoad | .wait .delay _ => f == .delaying
  | .trig _ => f == .triggering
  | .run .settleLoad | .wait .settle _ => f == .settling
  | .raw _ => f == .reading
  | .comp _ => f == .compensating
  | .run .aggAcc | .run .emitT | .run .emitP => f == .aggregating
  | .run .sampleEnd => f == .reading || f == .compensating || f == .aggregating
  | .run .final1Load | .wait .final1 _ | .run .aggFin | .run .emitRmsT | .run .emitRmsP | .run .final2Load
  | .wait .final2 _ => f == .finalizing
  | .wait .command _ => false

/-- STATUS.FSM agrees with what is executing: IDLE outside a RUN, but for DONE between commands (R44 10_state.md). -/
def fsmAgrees (s : State) : Bool :=
  if s.running then runFsm s.hid.pos.point s.status.fsm
  else s.status.fsm == .idle || (s.status.fsm == .done && !s.status.busy)

/-- STATUS.TRIG at the positions of a trigger, T_IDLE everywhere else (R45 10_state.md, R250 41_configurator.md). -/
def trigAgrees (p : Point) (t : TrigState) : Bool :=
  match p with
  | .trig .readMode => t == .idle || t == .sleep
  | .trig .gotMode | .trig (.writeSleep _) | .trig .writeForce => t == .read
  | .trig .wroteSleep | .trig (.poll _) => t == .sleep
  | .trig .wroteForce => t == .force
  | _ => t == .idle

/-- The positions inside RUN's sampling loop. -/
def inLoop : Point → Bool
  | .trig _ | .raw _ | .comp _ => true
  | .wait .delay _ | .wait .settle _ => true
  | .run .delayLoad | .run .settleLoad | .run .aggAcc | .run .emitT | .run .emitP | .run .sampleEnd => true
  | _ => false

/-- The loop index exists exactly inside RUN's sampling loop, is below L_N, and SAMPLE_IDX is one more (R340, R343
43_acquisition.md). -/
def sampleAgrees (s : State) : Bool :=
  match s.hid.pos.sample with
  | some i => s.running && inLoop s.hid.pos.point && decide (i < s.hid.lN.toNat) && s.agg.sampleIdx.toNat == i + 1
  | none => !(s.running && inLoop s.hid.pos.point)

/-- A record is offered only by a RUN, right after one of its emit steps, and has that step's tag (R350, R351
43_acquisition.md). -/
def offerAgrees (s : State) : Bool :=
  match s.hid.outPend with
  | none => true
  | some r => s.running && match s.hid.pos.point with
    | .run .emitP => r.tag == .sampleT
    | .run .sampleEnd => r.tag == .sampleP || r.tag == .sampleErr
    | .run .emitRmsP => r.tag == .rmsT
    | .run .final2Load => r.tag == .rmsP
    | _ => false

/-- DLY_CNT counts only inside a wait, and is not 0 while the engine holds for a tick (R431 60_exceptions.md). -/
def delayAgrees (p : Point) (d : BitVec 16) : Bool :=
  match p with
  | .wait _ .hold | .trig (.poll .hold) => d != 0
  | .wait _ .top | .trig (.poll .top) => true
  | _ => d == 0

/-- The command in CMD_CUR is legal, is the one CUR_OP names, and the position is one of its body's (R40, R60
10_state.md). -/
def commandAgrees (s : State) : Bool :=
  match decode s.hid.cmdCur with
  | .legal i => atHome i s.hid.pos.point && s.status.curOp == i.opcode
  | .illegal _ => false

/-- A good state. -/
structure Inv (s : State) : Prop where
  /-- while BUSY, a command of the opcode map executes from a position of its own -/
  command : s.status.busy = true → commandAgrees s = true
  /-- while not BUSY, no command executes -/
  idlePos : s.status.busy = false → s.hid.pos = ⟨.noCommand, none⟩
  /-- ABORT_REQ mirrors ABORT_PEND (R60 10_state.md) -/
  abortMirror : s.hid.abortReq = s.status.abortPend
  /-- ABORT_PEND is never 1 while BUSY = 0 (R374 44_control.md) -/
  abortBusy : s.status.abortPend = true → s.status.busy = true
  bus : busAgrees s.hid.pos.point s.hid.bus = true
  fsm : fsmAgrees s = true
  trig : trigAgrees s.hid.pos.point s.status.trig = true
  sample : sampleAgrees s = true
  offer : offerAgrees s = true
  delay : delayAgrees s.hid.pos.point s.hid.dlyCnt = true
  /-- ERR and ERR_CODE stand and fall together (R35, R36, R40 10_state.md, R410 60_exceptions.md) -/
  errCode : s.status.err = true ↔ s.status.errCode ≠ .noError
  /-- without an error ERR_INFO is 0 (R39 10_state.md) -/
  errInfo : s.status.err = false → s.errInfo = ErrInfo.reset
  /-- TF_VALID only with CAL_VALID (R53, R56 10_state.md) -/
  tfValid : s.status.tfValid = true → s.status.calValid = true
  /-- COMP_H lies in 0 to 100000 (R292 42_compensation.md) -/
  humidity : 0 ≤ s.res.compH.toInt ∧ s.res.compH.toInt ≤ 100000

/-- The poll budget B of the trigger in progress (R250 41_configurator.md). -/
def State.budget (s : State) : BitVec 16 := if s.running then s.hid.lBudget else s.ctl.pollBudget

/-- POLL_CNT against the budget B at the positions of a trigger, when B is not 0: never above B, and below B while a
sleep write is due or in flight (R251 41_configurator.md). -/
def pollWithin (s : State) : Prop :=
  s.budget ≠ 0 →
  match s.hid.pos.point with
  | .trig (.writeSleep _) | .trig .wroteSleep => s.hid.pollCnt < s.budget
  | .trig .clear => True
  | .trig _ => s.hid.pollCnt ≤ s.budget
  | _ => True

/-- The last entry of the bus trace is a one-byte read of ctrl_meas answered with m. -/
def lastReadMode (s : State) (m : Byte) : Prop :=
  s.env.trace.getLast? = some ⟨.read 0x74 1, some (.bytes [m])⟩

/-- A trigger's forced-mode write is due or in flight only right after a read of ctrl_meas whose mode bits were sleep,
and it writes that byte's other bits back (R252 41_configurator.md). -/
def forcedAfterSleep (s : State) : Prop :=
  match s.hid.pos.point with
  | .trig .gotMode => ∀ req bs, s.hid.bus = .answered req (.bytes bs) → ∃ m, bs = [m] ∧ lastReadMode s m
  | .trig .writeForce => modeBits s.hid.modeByte = 0 ∧ lastReadMode s s.hid.modeByte
  | .trig .wroteForce => ∀ req, s.hid.bus = .inFlight req →
      req = .write 0x74 ((s.hid.modeByte &&& 0xFC) ||| 0x01) ∧ modeBits s.hid.modeByte = 0 ∧
        lastReadMode s s.hid.modeByte
  | _ => True

/-- The transitions of the Acquisition Loop (R348 43_acquisition.md): from state s to its next state t with another FSM
value, the condition each one has. Into IDLE: a fatal error or an ABORT, a reset, or, from DONE, an accepted command. -/
def fsmTransition (s t : State) : Prop :=
  match s.status.fsm, t.status.fsm with
  | .idle, .configuring => s.running = true ∧ s.hid.pos.point = .start
  | .configuring, .delaying => s.hid.pos.point = .run .aggClr ∧ s.hid.lN ≠ 0
  | .delaying, .triggering => s.hid.pos.point = .wait .delay .top ∧ s.hid.dlyCnt = 0
  | .triggering, .settling => s.hid.pos.point = .trig .wroteForce ∧ ∃ r, s.hid.bus = .answered r .ok
  | .settling, .reading => s.hid.pos.point = .wait .settle .top ∧ s.hid.dlyCnt = 0
  | .reading, .compensating => s.hid.pos.point = .raw .got ∧ ∃ r b, s.hid.bus = .answered r (.bytes b)
  | .compensating, .aggregating => s.hid.pos.point = .comp .hum
  | .reading, .delaying | .compensating, .delaying | .aggregating, .delaying =>
    s.hid.pos.point = .run .sampleEnd ∧ s.hid.outPend = none ∧
      ∃ i, s.hid.pos.sample = some i ∧ i + 1 < s.hid.lN.toNat
  | .reading, .finalizing | .compensating, .finalizing | .aggregating, .finalizing =>
    s.hid.pos.point = .run .sampleEnd ∧ s.hid.outPend = none ∧
      ∃ i, s.hid.pos.sample = some i ∧ i + 1 = s.hid.lN.toNat
  | .finalizing, .done => s.hid.pos.point = .wait .final2 .top ∧ s.hid.dlyCnt = 0
  | .done, .idle => t.status.busy = true ∨ nextEvent s = .powerOn
  | _, .idle => t.status.busy = false ∧ (t.status.err = true ∨ nextEvent s = .powerOn)
  | _, _ => False

/-! ### Runs of the whole system -/

/-- `n` steps of the whole system, up to the first stop. -/
def steps : Nat → State → Result
  | 0, s => .next s
  | n + 1, s => match step s with
    | .next t => steps n t
    | .fault f => .fault f
    | .refused r => .refused r

/-- The same state with the events `es` still to come. -/
def State.facing (s : State) (es : List Event) : State := { s with env := { s.env with sched := es } }

/-- What `s` becomes when exactly the events `es` happen, in this order (R126 20_memory.md). -/
def play (es : List Event) (s : State) : Result := steps es.length (s.facing es)

/-- The engine's next step is at `p`, and no offered record holds it (R351 43_acquisition.md). -/
abbrev State.ready (s : State) (p : Point) : Prop := s.hid.pos.point = p ∧ s.hid.outPend = none

/-- Between commands, with nothing in flight and nothing offered. -/
abbrev State.free (s : State) : Prop := s.status.busy = false ∧ s.hid.bus = .quiet ∧ s.hid.outPend = none

/-- The host's write of command `i` to CMD (R150 30_encoding.md). -/
def cmdWrite (i : Instr) : HostAccess := ⟨.w32, 0x000, .write (encode i)⟩

/-- The host issues command `i`; then `es` happen. -/
def command (i : Instr) (es : List Event) : List Event := .host (cmdWrite i) :: es

/-- One whole sensor transaction, number `n` of the trace: the engine issues it, the bus answers `r`, the engine uses
the answer (R61 10_state.md). -/
def exchange (n : Nat) (r : BusResp) : List Event := [.engine, .bus n r, .engine]

/-- A wait of `ms` ticks, the engine holding before each, and the step that finds it over (R431 60_exceptions.md). -/
def waiting : Nat → List Event
  | 0 => [.engine]
  | ms + 1 => .engine :: .tick :: waiting ms

/-- How many ticks a schedule has. -/
def tickCount (es : List Event) : Nat := es.countP (· == .tick)

/-- Command `i`, issued in `s`, has completed after the transactions `tr` with no other effect than acceptance and
completion (R40 10_state.md, R412 60_exceptions.md). -/
def completed (i : Instr) (tr : List BusTx) (s : State) : State :=
  { complete (accept (encode i) s) with
    env := { s.env with
      sched := [], trace := s.env.trace ++ tr, hostLog := s.env.hostLog ++ [(cmdWrite i, .done)] } }

/-- Command `i`, issued in `s`, has ended by the error `e` after the transactions `tr`, outside a sampling loop (R410,
R412 60_exceptions.md). -/
def failed (i : Instr) (tr : List BusTx) (e : ErrCode) (addr : Byte) (k : Option BusKind) (s : State) : State :=
  recordError e { addr := addr, kind := k, sample := 0 } (completed i tr s)

/-- The polls of a trigger whose first transaction is number `n`: each byte of `xs` is read, a sleep write follows, and
the poll interval of 0 ms is over at once (R250 41_configurator.md). -/
def pollEvents : Nat → List Byte → List Event
  | _, [] => []
  | n, x :: xs => exchange n (.bytes [x]) ++ exchange (n + 1) .ok ++ .engine :: pollEvents (n + 2) xs

/-- The bus trace of those polls (R250 41_configurator.md). -/
def pollTrace (xs : List Byte) : List BusTx :=
  xs.flatMap fun x => [⟨.read 0x74 1, some (.bytes [x])⟩, ⟨.write 0x74 (x &&& 0xFC), some .ok⟩]

/-- The steps of command `i` that begin with `abortPoint()` (R375 44_control.md): before each transaction, before each
wait of RUN, and before each tick of a wait. -/
def abortsAt (i : Instr) (s : State) : Bool :=
  match s.hid.pos.point with
  | .start => i == .cfgos || i == .readraw
  | .cal .read1 | .cal (.read2 _) | .cal (.read3 _ _) => true
  | .os .readHum | .os (.writeHum _) | .os .readMeas | .os (.writeMeas _) => true
  | .htr (.writeDur _ _) | .htr (.writeRes _) | .htr .writeCtrl => true
  | .trig .readMode | .trig (.writeSleep _) | .trig .writeForce | .raw .read => true
  | .run .delayLoad | .run .settleLoad | .run .final1Load | .run .final2Load => true
  | .wait _ .top | .trig (.poll .top) => s.hid.dlyCnt != 0
  | _ => false

/-- sext_N of an N-bit pattern (R15 00_scope.md). -/
def sext (n v : Nat) : Int := if v < 2 ^ (n - 1) then v else (v : Int) - 2 ^ n

/-! ### The formulas over unbounded integers

Each is the spec's formula with `+`, `-`, `*` exact, `>> k` the floor of the quotient by 2^k, `<< k` a product by 2^k and
`/` the quotient truncated toward zero. The claims say where the machine's checked 64-bit results equal these. -/

/-- var1 of ct (R273 42_compensation.md). -/
def plainVar1 (c : Cal) (raw : Int) : Int := raw / 2 ^ 3 - c.t1.toNat * 2

/-- t_fine of ct (R273 42_compensation.md). -/
def plainFine (c : Cal) (raw : Int) : Int :=
  let var1 := plainVar1 c raw
  let var3 := (var1 / 2) * (var1 / 2) / 2 ^ 12
  var1 * c.t2.toInt / 2 ^ 11 + var3 * (c.t3.toInt * 2 ^ 4) / 2 ^ 14

/-- temp of ct (R273 42_compensation.md). -/
def plainTemp (tf : Int) : Int := (tf * 5 + 128) / 2 ^ 8

/-- The range of t_fine (R274 42_compensation.md). -/
abbrev fineInRange (tf : Int) : Prop := -2228204 ≤ tf ∧ tf ≤ 2227164

/-- The divisor of cp (R283 42_compensation.md). -/
def plainDivisor (c : Cal) (tf : Int) : Int :=
  let var1 := tf / 2 - 64000
  let var1 := (var1 / 2 ^ 2) * (var1 / 2 ^ 2) / 2 ^ 13 * (c.p3.toInt * 2 ^ 5) / 2 ^ 3 + c.p2.toInt * var1 / 2
  (32768 + var1 / 2 ^ 18) * c.p1.toNat / 2 ^ 15

/-- pc of cp before the branch (R283 42_compensation.md). -/
def plainBefore (c : Cal) (raw tf : Int) : Int :=
  let var1 := tf / 2 - 64000
  let var2 := (var1 / 2 ^ 2) * (var1 / 2 ^ 2) / 2 ^ 11 * c.p6.toInt / 2 ^ 2 + var1 * c.p5.toInt * 2
  let var2 := var2 / 2 ^ 2 + c.p4.toInt * 2 ^ 16
  (1048576 - raw - var2 / 2 ^ 12) * 3125

/-- pc of cp after the branch (R283 42_compensation.md). -/
def plainQuotient (c : Cal) (raw tf : Int) : Int :=
  let pc := plainBefore c raw tf
  let d := plainDivisor c tf
  if 2 ^ 30 ≤ pc then pc.tdiv d * 2 else (pc * 2).tdiv d

/-- The correction terms var1, var2, var3 of cp's last lines (R283 42_compensation.md). -/
def plainTerms (c : Cal) (pc : Int) : Int × Int × Int :=
  (c.p9.toInt * ((pc / 2 ^ 3) * (pc / 2 ^ 3) / 2 ^ 13) / 2 ^ 12,
    (pc / 2 ^ 2) * c.p8.toInt / 2 ^ 13,
    (pc / 2 ^ 8) * (pc / 2 ^ 8) * (pc / 2 ^ 8) * c.p10.toNat / 2 ^ 17)

/-- What cp returns (R283 42_compensation.md). -/
def plainPressure (c : Cal) (raw tf : Int) : Int :=
  let pc := plainQuotient c raw tf
  let (var1, var2, var3) := plainTerms c pc
  pc + (var1 + var2 + var3 + c.p7.toInt * 2 ^ 7) / 2 ^ 4

/-- Every operation of cp's last lines stays in int64 (R16 00_scope.md, R286 42_compensation.md). -/
def pressureFits (c : Cal) (raw tf : Int) : Bool :=
  let pc := plainQuotient c raw tf
  let (var1, var2, var3) := plainTerms c pc
  [(pc / 2 ^ 3) * (pc / 2 ^ 3), c.p9.toInt * ((pc / 2 ^ 3) * (pc / 2 ^ 3) / 2 ^ 13), (pc / 2 ^ 2) * c.p8.toInt,
    (pc / 2 ^ 8) * (pc / 2 ^ 8), (pc / 2 ^ 8) * (pc / 2 ^ 8) * (pc / 2 ^ 8),
    (pc / 2 ^ 8) * (pc / 2 ^ 8) * (pc / 2 ^ 8) * c.p10.toNat, var1 + var2, var1 + var2 + var3,
    var1 + var2 + var3 + c.p7.toInt * 2 ^ 7, plainPressure c raw tf].all inInt64

/-- What cp returns when every operation of its last lines is wrapped to int64 (R16 00_scope.md, R283, R286
42_compensation.md): `bmod (2^64)` is the value of int64 congruent to its operand. -/
def wrappedPressure (c : Cal) (raw tf : Int) : Int :=
  let w (v : Int) : Int := v.bmod (2 ^ 64)
  let pc := plainQuotient c raw tf
  let var1 := w (c.p9.toInt * (w ((pc / 2 ^ 3) * (pc / 2 ^ 3)) / 2 ^ 13)) / 2 ^ 12
  let var2 := w ((pc / 2 ^ 2) * c.p8.toInt) / 2 ^ 13
  let var3 := w (w (w ((pc / 2 ^ 8) * (pc / 2 ^ 8)) * (pc / 2 ^ 8)) * c.p10.toNat) / 2 ^ 17
  w (pc + w (w (w (var1 + var2) + var3) + c.p7.toInt * 2 ^ 7) / 2 ^ 4)

/-- What chum returns (R290 42_compensation.md). -/
def plainHumidity (c : Cal) (raw tf : Int) : Int :=
  let ts := plainTemp tf
  let var1 := raw - c.h1.toNat * 16 - (ts * c.h3.toInt).tdiv 100 / 2
  let var2 := c.h2.toNat *
    ((ts * c.h4.toInt).tdiv 100 + (ts * (ts * c.h5.toInt).tdiv 100 / 2 ^ 6).tdiv 100 + 16384) / 2 ^ 10
  let var3 := var1 * var2
  let var4 := (c.h6.toNat * 2 ^ 7 + (ts * c.h7.toInt).tdiv 100) / 2 ^ 4
  let var5 := (var3 / 2 ^ 14) * (var3 / 2 ^ 14) / 2 ^ 10
  let h := (var3 + var4 * var5 / 2) / 2 ^ 10 * 1000 / 2 ^ 12
  max 0 (min 100000 h)

/-- rh before its last conversion (R238 41_configurator.md). -/
def plainResistance (c : Cal) (temp : Nat) : Int :=
  let t : Int := (min temp 400 : Nat)
  let var1 := (25 * c.g3.toInt).tdiv 1000 * 256
  let var2 := (c.g1.toInt + 784) * ((((c.g2.toInt + 154009) * t * 5).tdiv 100 + 3276800).tdiv 10)
  let var3 := var1 + var2.tdiv 2
  let var4 := var3.tdiv (c.resHeatRange.toNat + 4)
  let var5 := 131 * c.resHeatVal.toInt + 65536
  let x100 := (var4.tdiv var5 - 250) * 34
  (x100 + 50).tdiv 100

/-- gw by ranges of the duration (R235 41_configurator.md). -/
def plainGasWait (dur : Nat) : Nat :=
  if dur < 64 then dur
  else if dur < 256 then 64 + dur / 4
  else if dur < 1024 then 128 + dur / 16
  else if dur < 4032 then 192 + dur / 64
  else 255

/-! ### Binary64 numbers (R18 00_scope.md) -/

/-- A pattern of a finite number: its exponent field is not all ones. -/
abbrev f64Finite (a : Word64) : Prop := a.extractLsb' 52 11 ≠ 0x7FF

/-- The number a finite pattern stands for, from its sign, exponent and fraction fields. -/
def f64Value (a : Word64) : ℚ :=
  let e := (a.extractLsb' 52 11).toNat
  let f : ℚ := (a.extractLsb' 0 52).toNat
  (if a.msb then -1 else 1) * if e = 0 then f * 2 ^ (-1074 : ℤ) else (2 ^ 52 + f) * 2 ^ ((e : ℤ) - 1075)

/-- The largest finite number. -/
def f64Max : ℚ := (2 ^ 53 - 1) * 2 ^ 971

/-- r is x rounded to nearest, ties to even: no finite number is nearer to x, and where another is as near, r's fraction
is even. -/
def NearestEven (x : ℝ) (r : Word64) : Prop :=
  f64Finite r ∧ ∀ b : Word64, f64Finite b →
    |(f64Value r : ℝ) - x| ≤ |(f64Value b : ℝ) - x| ∧
      (|(f64Value r : ℝ) - x| = |(f64Value b : ℝ) - x| → f64Value b = f64Value r ∨ r.getLsbD 0 = false)

/-! ### A run of good samples -/

/-- One sample as the sensor answers it: the mode byte that shows sleep, and the 8 data bytes. -/
structure Sample where
  mode : Byte
  data : List Byte
deriving DecidableEq, Repr

/-- Trigger, settle wait, read, compensation, accumulation and two records of one sample whose first transaction is
number `n` (R340, R343 43_acquisition.md). -/
def sampleEvents (delay settle n : Nat) (x : Sample) : List Event :=
  .engine :: waiting delay ++
    .engine :: exchange n (.bytes [x.mode]) ++ exchange (n + 1) .ok ++
    .engine :: waiting settle ++
    exchange (n + 2) (.bytes x.data) ++
    [.engine, .engine, .engine, .engine, .engine, .sinkAccept, .engine, .sinkAccept, .engine]

/-- The samples one after another. -/
def loopEvents (delay settle : Nat) : Nat → List Sample → List Event
  | _, [] => []
  | n, x :: xs => sampleEvents delay settle n x ++ loopEvents delay settle (n + 3) xs

/-- The LOADCAL body whose three reads, the first of them transaction number `n`, are answered `b1`, `b2`, `b3` (R205
40_calibration.md). -/
def loadcalEvents (n : Nat) (b1 b2 b3 : List Byte) : List Event :=
  .engine :: exchange n (.bytes b1) ++ exchange (n + 1) (.bytes b2) ++ exchange (n + 2) (.bytes b3)

/-- The whole body of a RUN whose samples are all good (R340 43_acquisition.md): `load` is its LOADCAL body, empty where
the calibration is valid; `n` is the number of the first transaction after it; `h` and `m` answer CFGOS's reads. -/
def runEvents (delay settle n : Nat) (load : List Event) (h m : Byte) (xs : List Sample) : List Event :=
  .engine :: load ++ exchange n (.bytes [h]) ++ exchange (n + 1) .ok ++ exchange (n + 2) (.bytes [m]) ++ exchange (n + 3) .ok ++
    .engine :: exchange (n + 4) .ok ++ exchange (n + 5) .ok ++ exchange (n + 6) .ok ++
    .engine :: loopEvents delay settle (n + 7) xs ++
    .engine :: waiting settle ++
    [.engine, .engine, .sinkAccept, .engine, .sinkAccept, .engine] ++ waiting settle

/-- The raw values of a sample (R311 43_acquisition.md). -/
def Sample.raw (x : Sample) : Raw := Raw.assemble x.data

/-- t_fine of a sample. -/
def Sample.fine (c : Cal) (x : Sample) : Int := plainFine c x.raw.t.toNat

/-- COMP_T of a sample. -/
def Sample.temp (c : Cal) (x : Sample) : Int := plainTemp (x.fine c)

/-- COMP_P of a sample. -/
def Sample.press (c : Cal) (x : Sample) : Int := plainPressure c x.raw.p.toNat (x.fine c)

/-- The sensor's answers for the sample are a whole burst and a mode byte that shows sleep, and its pressure has a
divisor other than 0 and no overflow. -/
abbrev Sample.Good (c : Cal) (x : Sample) : Prop :=
  modeBits x.mode = 0 ∧ x.data.length = 8 ∧ plainDivisor c (x.fine c) ≠ 0 ∧
    pressureFits c x.raw.p.toNat (x.fine c) = true

/-- The records of a sample (R350, R353 43_acquisition.md). -/
def Sample.records (c : Cal) (x : Sample) : List Record :=
  [⟨.sampleT, BitVec.ofInt 64 (x.temp c)⟩, ⟨.sampleP, BitVec.ofInt 64 (x.press c)⟩]

end Sys2Proof.Machine
end

