-- ==== Sys2Proof/Certificates/Slice0/Obligations.lean ====
section
/-! DEFINITION. The statements for the provers. Each says in its docstring which rule of spec/ it formalises. -/

open Sys2Proof Sys2Proof.Machine

/-! ### Encoding (30_encoding.md) -/

/-- R155, R167: every command that can be assembled decodes to itself, with every value of its immediate. -/
def Obligations.DecodeInvertsEncode : Prop :=
  ∀ i : Instr, i.WellFormed → decode (encode i) = .legal i

/-- R155, R161: a legal word is the word of exactly the command it decodes to; no bit of it is free. -/
def Obligations.EncodeInvertsDecode : Prop :=
  ∀ (w : Word) (i : Instr), decode w = .legal i → i.WellFormed ∧ encode i = w

/-- R160: a word is the command of the one row it matches, and illegal where it matches none. -/
def Obligations.DecodeIsTheMatchedRow : Prop :=
  ∀ w : Word,
    (∀ r ∈ opRows, w &&& r.mask = r.pattern →
      decode w = .legal (r.build w) ∧ ∀ q ∈ opRows, w &&& q.mask = q.pattern → q.pattern = r.pattern) ∧
    ((∀ r ∈ opRows, w &&& r.mask ≠ r.pattern) → ∃ why, decode w = .illegal why)

/-- R161: the illegal words are exactly those of its three kinds. -/
def Obligations.IllegalWordsByKind : Prop :=
  ∀ w : Word,
    let op := w.toNat / 2 ^ 24
    let unassigned := (0x04 ≤ op ∧ op ≤ 0x0F) ∨ (0x11 ≤ op ∧ op ≤ 0x1F) ∨ (0x25 ≤ op ∧ op ≤ 0x2F) ∨
      (0x34 ≤ op ∧ op ≤ 0x3F) ∨ 0x45 ≤ op
    let withImm := op = 0x03 ∨ op = 0x23 ∨ op = 0x24
    (decode w = .illegal (.unassignedOpcode (opcodeOf w)) ↔ unassigned) ∧
    (decode w = .illegal .nonzeroZero24 ↔ ¬unassigned ∧ ¬withImm ∧ w.toNat % 2 ^ 24 ≠ 0) ∧
    (decode w = .illegal .nonzeroZero8 ↔ withImm ∧ w.toNat / 2 ^ 16 % 2 ^ 8 ≠ 0) ∧
    ∀ why, decode w = .illegal why →
      why = .unassignedOpcode (opcodeOf w) ∨ why = .nonzeroZero24 ∨ why = .nonzeroZero8

/-- R155: one word of each family, written from the opcode map, and one illegal word of each kind. -/
def Obligations.WrittenWordsDecode : Prop :=
  decode 0x00000000 = .legal .nop ∧ decode 0x03000032 = .legal (.wait 50) ∧ decode 0x10000000 = .legal .loadcal ∧
  decode 0x22000000 = .legal .trig ∧ decode 0x23000064 = .legal (.gwcode 100) ∧
  decode 0x2400012C = .legal (.rhcode 300) ∧ decode 0x31000000 = .legal .compp ∧ decode 0x44000000 = .legal .run ∧
  decode 0x04000000 = .illegal (.unassignedOpcode 0x04) ∧ decode 0x00000001 = .illegal .nonzeroZero24 ∧
  decode 0x03010000 = .illegal .nonzeroZero8

/-- R167: the assembler writes the row's match pattern with the immediate in it, and nothing for an immediate out of
range. -/
def Obligations.AssembledWords : Prop :=
  (∀ n : Nat, n ≤ 65535 →
    assemble (.wait n) = some (0x03000000 ||| BitVec.ofNat 32 n) ∧
    assemble (.gwcode n) = some (0x23000000 ||| BitVec.ofNat 32 n) ∧
    assemble (.rhcode n) = some (0x24000000 ||| BitVec.ofNat 32 n)) ∧
  (∀ n : Nat, 65535 < n → assemble (.wait n) = none ∧ assemble (.gwcode n) = none ∧ assemble (.rhcode n) = none) ∧
  ∀ p ∈ [(Instr.nop, (0x00000000 : Word)), (.sreset, 0x01000000), (.abort, 0x02000000), (.loadcal, 0x10000000),
    (.cfgos, 0x20000000), (.cfghtr, 0x21000000), (.trig, 0x22000000), (.compt, 0x30000000), (.compp, 0x31000000),
    (.comph, 0x32000000), (.compall, 0x33000000), (.readraw, 0x40000000), (.aggclr, 0x41000000),
    (.aggacc, 0x42000000), (.aggfin, 0x43000000), (.run, 0x44000000)], assemble p.1 = some p.2

/-! ### Steps and command issue (10_state.md, 20_memory.md) -/

/-- R40, R130: when the engine has the turn, a step is one step of the command in CMD_CUR, with that turn taken from
the order of events (the order is the model's: log 1). -/
def Obligations.StepRunsTheCommandInCmdCur : Prop :=
  ∀ (s : State) (i : Instr), nextEvent s = .engine → s.status.busy = true → decode s.hid.cmdCur = .legal i →
    step s = exec i s.takeEvent

/-- R40: a write to CMD while BUSY = 0 accepts a legal word and records an illegal one; while BUSY = 1 none starts a
command. (The model's own choices in it: log 3, log 4, log 6.) -/
def Obligations.CmdWriteWhenIdle : Prop :=
  ∀ (s : State) (w : Word),
    let a : HostAccess := ⟨.w32, 0x000, .write w⟩
    let env := { s.env with hostLog := s.env.hostLog ++ [(a, .done)] }
    (s.status.busy = false → ∀ i, decode w = .legal i →
      eventStep (.host a) s = .next { s with
        status := { s.status with
          err := false, errCode := .noError, curOp := w.extractLsb' 24 8, abortPend := false, busy := true
          fsm := if s.status.fsm = .done then .idle else s.status.fsm }
        errInfo := { addr := 0, kind := none, sample := 0 }
        hid := { s.hid with cmdCur := w, abortReq := false, pos := ⟨.start, none⟩ }
        env := env }) ∧
    (s.status.busy = false → ∀ why, decode w = .illegal why →
      eventStep (.host a) s = .next { s with
        status := { s.status with err := true, errCode := .illegalCommand }
        errInfo := { addr := w.extractLsb' 24 8, kind := none, sample := 0 }
        env := env }) ∧
    (s.status.busy = true →
      ∃ t, eventStep (.host a) s = .next t ∧ t.hid.cmdCur = s.hid.cmdCur ∧ t.hid.pos = s.hid.pos ∧ t.status.busy = true)

/-- R41 with R373: a write to CMD while BUSY = 1 requests an abort if it is the ABORT word, and is dropped otherwise.
(The model's own choices in it: log 4.) -/
def Obligations.CmdWriteWhileBusy : Prop :=
  ∀ (s : State) (w : Word), s.status.busy = true →
    let a : HostAccess := ⟨.w32, 0x000, .write w⟩
    let env := { s.env with hostLog := s.env.hostLog ++ [(a, .done)] }
    (w = 0x02000000 → eventStep (.host a) s = .next { s with
      status := { s.status with abortPend := true }, hid := { s.hid with abortReq := true }, env := env }) ∧
    (w ≠ 0x02000000 → eventStep (.host a) s = .next { s with
      status := { s.status with cmdDropped := true }, env := env })

/-- R162: an illegal word raises ILLEGAL_COMMAND while BUSY = 0, as the host reads it, and is dropped while BUSY = 1. -/
def Obligations.IllegalWordIsRecorded : Prop :=
  ∀ (s : State) (w : Word) (why : Illegal), decode w = .illegal why →
    ∃ t, eventStep (.host ⟨.w32, 0x000, .write w⟩) s = .next t ∧
      (s.status.busy = false →
        t.status = { s.status with err := true, errCode := .illegalCommand } ∧
        hostAnswer ⟨.w32, 0x008, .read⟩ t = .data ((w.extractLsb' 24 8).zeroExtend 32) ∧
        t.ctl = s.ctl ∧ t.raw = s.raw ∧ t.res = s.res ∧ t.heat = s.heat ∧ t.cal = s.cal ∧ t.agg = s.agg ∧ t.hid = s.hid) ∧
      (s.status.busy = true →
        t = { s with status := { s.status with cmdDropped := true }, env := t.env })

/-- R36: a write to STATUS while BUSY = 0 acts on bits 1, 4 and 5 only; while BUSY = 1 it is ignored. (The model's
own choices in it: log 4.) -/
def Obligations.StatusWriteAcknowledges : Prop :=
  ∀ (s : State) (w : Word),
    let a : HostAccess := ⟨.w32, 0x004, .write w⟩
    let env := { s.env with hostLog := s.env.hostLog ++ [(a, .done)] }
    (s.status.busy = false → eventStep (.host a) s = .next { s with
      status := { s.status with
        err := s.status.err && !w.getLsbD 1
        errCode := if w.getLsbD 1 = true then .noError else s.status.errCode
        ovf := s.status.ovf && !w.getLsbD 4
        cmdDropped := s.status.cmdDropped && !w.getLsbD 5 }
      errInfo := if w.getLsbD 1 = true then { addr := 0, kind := none, sample := 0 } else s.errInfo
      env := env }) ∧
    (s.status.busy = true → eventStep (.host a) s = .next { s with env := env })

/-- R43, R107: a read of the CSR window changes nothing; what it is answered, `hostAnswer` of the state it reads, is
added to HOST_LOG, the model's own field (log 4). -/
def Obligations.ReadsChangeNothing : Prop :=
  ∀ (s : State) (width : AccessWidth) (off : BitVec 12),
    let a : HostAccess := ⟨width, off, .read⟩
    eventStep (.host a) s = .next { s with env := { s.env with hostLog := s.env.hostLog ++ [(a, hostAnswer a s)] } }

/-- R105, R106: an access that is not 32 bits wide, not aligned, or at an offset that R34 leaves unmapped gets a bus
error response and changes nothing; every other access does not get one. (The model's own choices in it: log 4, log
13.) -/
def Obligations.OffMapAccesses : Prop :=
  ∀ (s : State) (a : HostAccess),
    let o := a.off.toNat
    let offMap := a.width ≠ .w32 ∨ o % 4 ≠ 0 ∨ o = 0x064 ∨ (0x088 ≤ o ∧ o ≤ 0x0FC) ∨ 0x164 ≤ o
    (offMap → eventStep (.host a) s =
      .next { s with env := { s.env with hostLog := s.env.hostLog ++ [(a, .slverr)] } }) ∧
    (¬offMap → hostAnswer a s ≠ .slverr)

/-- R109: while BUSY = 1 every write but one to CMD, and while BUSY = 0 every write to a read-only CSR, changes
nothing and gets no error response. (The model's own choices in it: log 4.) -/
def Obligations.IgnoredWrites : Prop :=
  ∀ (s : State) (off : BitVec 12) (w : Word),
    let a : HostAccess := ⟨.w32, off, .write w⟩
    let o := off.toNat
    let readOnly := o = 0x008 ∨ (0x030 ≤ o ∧ o ≤ 0x060) ∨ (0x068 ≤ o ∧ o ≤ 0x084) ∨ (0x100 ≤ o ∧ o ≤ 0x160)
    o % 4 = 0 → (readOnly ∨ (s.status.busy = true ∧ 0x004 ≤ o ∧ o ≤ 0x02C)) →
      eventStep (.host a) s = .next { s with env := { s.env with hostLog := s.env.hostLog ++ [(a, .done)] } }

/-- R34, R50, R108: a write to a read-write CSR while BUSY = 0 is read back in its used bits, and every other CSR
reads as before, but for TF_VALID, which a write to RAW_T clears. -/
def Obligations.ConfigurationReadsBack : Prop :=
  ∀ (s : State) (w : Word), s.status.busy = false →
    ∀ p ∈ [((0x00C : BitVec 12), (0xFFFF : Word)), (0x010, 0xFFFF), (0x014, 0xFFFF), (0x018, 0xFFFF), (0x01C, 0xFFFF),
      (0x020, 0xFFFF), (0x024, 0xFFFFF), (0x028, 0xFFFFF), (0x02C, 0xFFFF)],
      ∃ t, eventStep (.host ⟨.w32, p.1, .write w⟩) s = .next t ∧
        hostAnswer ⟨.w32, p.1, .read⟩ t = .data (w &&& p.2) ∧
        t.status = { s.status with tfValid := s.status.tfValid && p.1 != 0x024 } ∧ t.hid = s.hid ∧
        ∀ off, off ≠ p.1 → off ≠ 0x004 → hostAnswer ⟨.w32, off, .read⟩ t = hostAnswer ⟨.w32, off, .read⟩ s

/-- R33: a 64-bit register reads as its low word at the lower offset and its high word at the next. -/
def Obligations.WideRegisterWords : Prop :=
  ∀ s : State, ∀ p ∈ [((0x030 : BitVec 12), s.res.tFine), (0x038, s.res.compT), (0x040, s.res.compP),
    (0x048, s.res.compH), (0x068, s.agg.accT), (0x070, s.agg.accP), (0x078, s.agg.rmsT), (0x080, s.agg.rmsP)],
    hostAnswer ⟨.w32, p.1, .read⟩ s = .data (p.2.extractLsb' 0 32) ∧
    hostAnswer ⟨.w32, p.1 + 4, .read⟩ s = .data (p.2.extractLsb' 32 32)

/-- R35, R39, R44, R45, R400: where each field of STATUS and ERR_INFO stands in the word the host reads, and the
number of every FSM state, trigger state, error code and bus kind. -/
def Obligations.StatusWordLayout : Prop :=
  ∀ s : State, ∃ w e : Word, hostAnswer ⟨.w32, 0x004, .read⟩ s = .data w ∧ hostAnswer ⟨.w32, 0x008, .read⟩ s = .data e ∧
    let fsm : Nat := match s.status.fsm with
      | .idle => 0 | .configuring => 1 | .delaying => 2 | .triggering => 3 | .settling => 4 | .reading => 5
      | .compensating => 6 | .aggregating => 7 | .finalizing => 8 | .done => 9
    let trig : Nat := match s.status.trig with
      | .idle => 0 | .read => 1 | .sleep => 2 | .force => 3
    let code : Nat := match s.status.errCode with
      | .noError => 0x00 | .busTimeout => 0x01 | .busNack => 0x02 | .calUnavailable => 0x03 | .sampleReadFailure => 0x04
      | .invalidWindow => 0x06 | .pollTimeout => 0x07 | .illegalCommand => 0x08 | .orderViolation => 0x09
      | .divideByZero => 0x0A | .noValidSamples => 0x0B | .aborted => 0x0C
    let kind : Nat := match s.errInfo.kind with
      | none => 0 | some .timeout => 1 | some .nack => 2
    (w.getLsbD 0 = s.status.busy ∧ w.getLsbD 1 = s.status.err ∧ w.getLsbD 2 = s.status.calValid ∧
      w.getLsbD 3 = s.status.tfValid ∧ w.getLsbD 4 = s.status.ovf ∧ w.getLsbD 5 = s.status.cmdDropped ∧
      w.getLsbD 6 = s.status.aggDone ∧ w.getLsbD 7 = s.status.abortPend) ∧
    (w.extractLsb' 8 4).toNat = fsm ∧ (w.extractLsb' 12 3).toNat = trig ∧ w.getLsbD 15 = false ∧
    (w.extractLsb' 16 8).toNat = code ∧ w.extractLsb' 24 8 = s.status.curOp ∧
    e.extractLsb' 0 8 = s.errInfo.addr ∧ (e.extractLsb' 8 2).toNat = kind ∧ e.extractLsb' 10 6 = 0 ∧
    e.extractLsb' 16 16 = s.errInfo.sample

/-- R52: a calibration CSR holds its field's integer value, sign-extended or zero-extended. -/
def Obligations.CalibrationWords : Prop :=
  ∀ s : State, ∀ p ∈ [((0x100 : BitVec 12), (s.cal.t1.toNat : Int)), (0x104, s.cal.t2.toInt), (0x108, s.cal.t3.toInt),
    (0x10C, (s.cal.p1.toNat : Int)), (0x110, s.cal.p2.toInt), (0x114, s.cal.p3.toInt), (0x118, s.cal.p4.toInt),
    (0x11C, s.cal.p5.toInt), (0x120, s.cal.p6.toInt), (0x124, s.cal.p7.toInt), (0x128, s.cal.p8.toInt),
    (0x12C, s.cal.p9.toInt), (0x130, (s.cal.p10.toNat : Int)), (0x134, (s.cal.h1.toNat : Int)),
    (0x138, (s.cal.h2.toNat : Int)), (0x13C, s.cal.h3.toInt), (0x140, s.cal.h4.toInt), (0x144, s.cal.h5.toInt),
    (0x148, (s.cal.h6.toNat : Int)), (0x14C, s.cal.h7.toInt), (0x150, s.cal.g1.toInt), (0x154, s.cal.g2.toInt),
    (0x158, s.cal.g3.toInt), (0x15C, (s.cal.resHeatRange.toNat : Int)), (0x160, s.cal.resHeatVal.toInt)],
    ∃ w : Word, hostAnswer ⟨.w32, p.1, .read⟩ s = .data w ∧ w.toInt = p.2

/-! ### Reset (70_reset_and_hazards.md) -/

/-- R34, R453: what the host reads right after reset, at every mapped offset. -/
def Obligations.ResetReadsBack : Prop :=
  ∀ off : BitVec 12, hostAnswer ⟨.w32, off, .read⟩ .reset ≠ .slverr →
    hostAnswer ⟨.w32, off, .read⟩ .reset = .data (
      if off = 0x00C then 20 else if off = 0x014 then 50 else if off = 0x018 then 1000 else if off = 0x01C then 300
      else if off = 0x020 then 100 else 0)

/-- R371, R450, R451, R452: power-on reset from every state, and SRESET, put every register at its reset value in one
step and change nothing outside; a transaction in flight ends in the trace without a response (the model's choice:
log 4), and its response, if it arrives later, is discarded: whatever happened since the reset, another transaction
in flight or not, it leaves the state as it was. (The model's own choices in it: log 1.) -/
def Obligations.ResetProcedure : Prop :=
  ∀ s : State,
    let cut : List BusTx := match s.hid.bus with
      | .inFlight r => [⟨r, none⟩]
      | .quiet | .answered _ _ => []
    let t : State := { State.reset with env := { s.env with trace := s.env.trace ++ cut } }
    eventStep .powerOn s = .next t ∧ (s.ready .start → exec .sreset s = .next t) ∧
    ∀ req, s.hid.bus = .inFlight req → ∀ (es : List Event) (u : State) (r : BusResp), play es t = .next u →
      eventStep (.bus s.env.trace.length r) u = .next u

/-! ### Errors, abort, the overflow flag (60_exceptions.md, 44_control.md, 10_state.md) -/

/-- R410, R412: taking an error records it and completes the command; completing changes only what is listed. The
position becomes "no command" (the model's reading: log 6). (The model's own choices in it: log 3.) -/
def Obligations.TakingAnError : Prop :=
  ∀ s : State,
    (complete s = { s with
      status := { s.status with busy := false, trig := .idle, abortPend := false }
      hid := { s.hid with abortReq := false, dlyCnt := 0, pos := ⟨.noCommand, none⟩ } }) ∧
    ∀ (inRun : Bool) (e : ErrCode) (addr : Byte) (k : Option BusKind),
      takeError inRun e addr k s = { s with
        status := { s.status with
          busy := false, trig := .idle, abortPend := false, err := true, errCode := e
          fsm := if inRun = true then .idle else s.status.fsm }
        errInfo := { addr := addr, kind := k, sample := BitVec.ofNat 16 (s.hid.pos.sample.getD 0) }
        hid := { s.hid with abortReq := false, dlyCnt := 0, pos := ⟨.noCommand, none⟩ } }

/-- R37: nothing but the host's W1C and reset clears OVF, and only the commands that compute set it. (The model's own
choices in it: log 1.) -/
def Obligations.OverflowIsSticky : Prop :=
  ∀ s t : State, step s = .next t →
    let runs (i : Instr) : Prop := nextEvent s = .engine ∧ s.status.busy = true ∧ decode s.hid.cmdCur = .legal i
    (s.status.ovf = true → t.status.ovf = false →
      nextEvent s = .powerOn ∨ runs .sreset ∨
      ∃ w : Word, nextEvent s = .host ⟨.w32, 0x004, .write w⟩ ∧ w.getLsbD 4 = true ∧ s.status.busy = false) ∧
    (s.status.ovf = false → t.status.ovf = true →
      runs .compt ∨ runs .compp ∨ runs .comph ∨ runs .compall ∨ (∃ temp, runs (.rhcode temp)) ∨ runs .cfghtr ∨ runs .run)

/-- R201, R451: only the last step of a LOADCAL body, of the command or of a run, and reset change a calibration
register or set CAL_VALID. (The model's own choices in it: log 1, log 3.) -/
def Obligations.CalibrationChangesOnlyByLoad : Prop :=
  ∀ s t : State, step s = .next t →
    (t.cal ≠ s.cal ∨ (s.status.calValid = false ∧ t.status.calValid = true)) →
    let runs (i : Instr) : Prop := nextEvent s = .engine ∧ s.status.busy = true ∧ decode s.hid.cmdCur = .legal i
    nextEvent s = .powerOn ∨ runs .sreset ∨
    ((runs .loadcal ∨ runs .run) ∧ ∃ b1 b2 b3 q, s.hid.pos.point = .cal (.got3 b1 b2) ∧
      s.hid.bus = .answered q (.bytes b3) ∧ t.cal = Cal.assemble b1 b2 b3 ∧ t.status.calValid = true)

/-- R370, R373: NOP, and ABORT accepted while BUSY = 0, have an empty body: acceptance and completion are their only
effects. (The model's own choices in it: log 1, log 3, log 4, log 6.) -/
def Obligations.NopAndIdleAbortComplete : Prop :=
  ∀ s : State,
    (s.ready .start → exec .nop s = .next (complete s) ∧ exec .abort s = .next (complete s)) ∧
    (s.free → play (command .nop [.engine]) s = .next (completed .nop [] s) ∧
      play (command .abort [.engine]) s = .next (completed .abort [] s))

/-- R377, R431: WAIT loads its delay, and completes when the delay has counted to 0. (The model's own choices in it:
log 3, log 6, log 14.) -/
def Obligations.WaitLoadsAndEnds : Prop :=
  ∀ (s : State) (ms : Nat),
    (s.ready .start → exec (.wait ms) s = .next { s with
      hid := { s.hid with dlyCnt := BitVec.ofNat 16 ms, pos := ⟨.wait .command .top, s.hid.pos.sample⟩ } }) ∧
    (s.ready (.wait .command .top) → s.hid.dlyCnt = 0 → exec (.wait ms) s = .next (complete s))

/-- R377, R431, R470: a WAIT that the engine has begun holds BUSY for exactly `ms` ticks, wherever the engine's own
steps fall between them (that a tick at the loop head counts is the model's reading: log 5). (The model's own choices
in it: log 1, log 3, log 4, log 6.) -/
def Obligations.WaitConsumesItsTicks : Prop :=
  ∀ (s : State) (ms : Nat) (es : List Event), s.free → ms ≤ 65535 → (∀ e ∈ es, e = .engine ∨ e = .tick) →
    (tickCount es < ms →
      ∃ t, play (command (.wait ms) (.engine :: es)) s = .next t ∧ t.status.busy = true ∧
        t.hid.dlyCnt.toNat + tickCount es = ms) ∧
    (tickCount es = ms → play (command (.wait ms) (.engine :: es ++ [.engine])) s = .next (completed (.wait ms) [] s))

/-- R375: a pending ABORT raises ABORTED at exactly the abort points. (The model's own choices in it: log 3, log 6.) -/
def Obligations.AbortTakesEffectAtAbortPoints : Prop :=
  ∀ (s : State) (i : Instr), atHome i s.hid.pos.point = true → s.hid.outPend = none → s.status.abortPend = true →
    (abortsAt i s = true → exec i s = .next (takeError (i == .run) .aborted 0 none s)) ∧
    (abortsAt i s = false → ∀ t, exec i s = .next t → t.status.errCode = .aborted → s.status.errCode = .aborted)

/-! ### Calibration (40_calibration.md) -/

/-- R203: every calibration field from its bytes. -/
def Obligations.CalibrationFieldsFromBytes : Prop :=
  ∀ b1 b2 b3 : List Byte, b1.length = 23 → b2.length = 14 → b3.length = 3 →
    let c := Cal.assemble b1 b2 b3
    let u (b : List Byte) (i : Nat) : Nat := (b.getD i 0).toNat
    let pair (b : List Byte) (i : Nat) : Nat := u b (i + 1) * 256 + u b i
    c.t1.toNat = pair b2 8 ∧ c.t2.toInt = sext 16 (pair b1 0) ∧ c.t3.toInt = sext 8 (u b1 2) ∧
    c.p1.toNat = pair b1 4 ∧ c.p2.toInt = sext 16 (pair b1 6) ∧ c.p3.toInt = sext 8 (u b1 8) ∧
    c.p4.toInt = sext 16 (pair b1 10) ∧ c.p5.toInt = sext 16 (pair b1 12) ∧ c.p6.toInt = sext 8 (u b1 15) ∧
    c.p7.toInt = sext 8 (u b1 14) ∧ c.p8.toInt = sext 16 (pair b1 18) ∧ c.p9.toInt = sext 16 (pair b1 20) ∧
    c.p10.toNat = u b1 22 ∧ c.h1.toNat = u b2 2 * 16 + u b2 1 % 16 ∧ c.h2.toNat = u b2 0 * 16 + u b2 1 / 16 ∧
    c.h3.toInt = sext 8 (u b2 3) ∧ c.h4.toInt = sext 8 (u b2 4) ∧ c.h5.toInt = sext 8 (u b2 5) ∧ c.h6.toNat = u b2 6 ∧
    c.h7.toInt = sext 8 (u b2 7) ∧ c.g1.toInt = sext 8 (u b2 12) ∧ c.g2.toInt = sext 16 (pair b2 10) ∧
    c.g3.toInt = sext 8 (u b2 13) ∧ c.resHeatRange.toNat = u b3 2 / 16 % 4 ∧ c.resHeatVal.toInt = sext 8 (u b3 0)

/-- R202, R204, R205, R207: LOADCAL invalidates, reads its three blocks once each in order, and then writes all 25
fields and CAL_VALID in one step. (The model's own choices in it: log 1, log 3, log 4, log 6.) -/
def Obligations.LoadcalReadsThreeBlocks : Prop :=
  ∀ (s : State) (b1 b2 b3 : List Byte), b1.length = 23 → b2.length = 14 → b3.length = 3 →
    (s.ready .start → exec .loadcal s = .next { s with
      status := { s.status with calValid := false, tfValid := false }
      hid := { s.hid with pos := ⟨.cal .read1, s.hid.pos.sample⟩ } }) ∧
    (∀ q, s.ready (.cal (.got3 b1 b2)) → s.hid.bus = .answered q (.bytes b3) →
      exec .loadcal s = .next (complete { s with
        cal := Cal.assemble b1 b2 b3
        status := { s.status with calValid := true }
        hid := { s.hid with bus := .quiet } })) ∧
    (s.free →
      let n := s.env.trace.length
      let t := completed .loadcal [⟨.read 0x8A 23, some (.bytes b1)⟩, ⟨.read 0xE1 14, some (.bytes b2)⟩,
        ⟨.read 0x00 3, some (.bytes b3)⟩] s
      play (command .loadcal (.engine :: exchange n (.bytes b1) ++ exchange (n + 1) (.bytes b2) ++
          exchange (n + 2) (.bytes b3))) s =
        .next { t with
          cal := Cal.assemble b1 b2 b3, status := { t.status with calValid := true, tfValid := false } })

/-- R206, R207: a bus error of any of the three reads ends LOADCAL with CAL_UNAVAILABLE, no register written,
CAL_VALID 0 and no later read. (The model's own choices in it: log 1, log 3, log 4, log 6.) -/
def Obligations.LoadcalFailure : Prop :=
  ∀ (s : State) (b1 b2 : List Byte) (k : BusKind), s.free → b1.length = 23 → b2.length = 14 →
    let n := s.env.trace.length
    let out (tr : List BusTx) (addr : Byte) : Result :=
      let t := failed .loadcal tr .calUnavailable addr (some k) s
      .next { t with status := { t.status with calValid := false, tfValid := false } }
    let x1 : BusTx := ⟨.read 0x8A 23, some (.bytes b1)⟩
    let x2 : BusTx := ⟨.read 0xE1 14, some (.bytes b2)⟩
    play (command .loadcal (.engine :: exchange n (.err k))) s = out [⟨.read 0x8A 23, some (.err k)⟩] 0x8A ∧
    play (command .loadcal (.engine :: exchange n (.bytes b1) ++ exchange (n + 1) (.err k))) s =
      out [x1, ⟨.read 0xE1 14, some (.err k)⟩] 0xE1 ∧
    play (command .loadcal (.engine :: exchange n (.bytes b1) ++ exchange (n + 1) (.bytes b2) ++
        exchange (n + 2) (.err k))) s =
      out [x1, x2, ⟨.read 0x00 3, some (.err k)⟩] 0x00

/-! ### The configurator (41_configurator.md) -/

/-- R231, R232: CFGOS reads and writes back ctrl_hum, then ctrl_meas, with the oversampling fields set and every
other bit kept. (The model's own choices in it: log 1, log 3, log 4, log 6.) -/
def Obligations.CfgosWritesOversampling : Prop :=
  ∀ s : State,
    (∀ q, s.ready (.os .wroteMeas) → s.hid.bus = .answered q .ok →
      exec .cfgos s = .next (complete { s with hid := { s.hid with bus := .quiet } })) ∧
    ∀ h m : Byte, s.free →
      let n := s.env.trace.length
      ∃ v1 v2 : Byte, v1.extractLsb' 0 3 = 1 ∧ v1.extractLsb' 3 5 = h.extractLsb' 3 5 ∧
        v2.extractLsb' 5 3 = 2 ∧ v2.extractLsb' 2 3 = 5 ∧ v2.extractLsb' 0 2 = m.extractLsb' 0 2 ∧
        play (command .cfgos (exchange n (.bytes [h]) ++ exchange (n + 1) .ok ++ exchange (n + 2) (.bytes [m]) ++
            exchange (n + 3) .ok)) s =
          .next (completed .cfgos [⟨.read 0x72 1, some (.bytes [h])⟩, ⟨.write 0x72 v1, some .ok⟩,
            ⟨.read 0x74 1, some (.bytes [m])⟩, ⟨.write 0x74 v2, some .ok⟩] s)

/-- R206, R230, R251, R253, R344: what ends a command ends the run it happens in, and leaves FSM IDLE: a bus error of
any transaction of CFGOS, CFGHTR or TRIG (BUS_TIMEOUT or BUS_NACK, the register's address and the kind) or of LOADCAL
(CAL_UNAVAILABLE, the burst's start address and the kind), a spent poll budget, and an AGGFIN with no valid sample.
ERR_INFO.ADDR = 0x74 of POLL_TIMEOUT is the model's reading of R250 and R400 against R39's "Otherwise 0" (log 19).
(The model's own choices in it: log 3, log 6.) -/
def Obligations.BusErrorsEndTheCommand : Prop :=
  ∀ (s : State) (q : BusReq),
    let s' : State := { s with hid := { s.hid with bus := .quiet } }
    (∀ (k : BusKind) (r : Byte),
      ∀ p ∈ [(Point.os .gotHum, (0x72 : Byte), Instr.cfgos), (.os .wroteHum, 0x72, .cfgos), (.os .gotMeas, 0x74, .cfgos),
        (.os .wroteMeas, 0x74, .cfgos), (.htr (.wroteDur r), 0x64, .cfghtr), (.htr .wroteRes, 0x5A, .cfghtr),
        (.htr .wroteCtrl, 0x71, .cfghtr), (.trig .gotMode, 0x74, .trig), (.trig .wroteSleep, 0x74, .trig),
        (.trig .wroteForce, 0x74, .trig)],
        s.ready p.1 → s.hid.bus = .answered q (.err k) →
        let e : ErrCode := match k with
          | .timeout => .busTimeout
          | .nack => .busNack
        exec p.2.2 s = .next (takeError false e p.2.1 (some k) s') ∧
        exec .run s = .next (takeError true e p.2.1 (some k) s')) ∧
    (∀ (k : BusKind) (b1 b2 : List Byte),
      ∀ p ∈ [(CalPt.got1, (0x8A : Byte)), (.got2 b1, 0xE1), (.got3 b1 b2, 0x00)],
        s.ready (.cal p.1) → s.hid.bus = .answered q (.err k) →
        exec .loadcal s = .next (takeError false .calUnavailable p.2 (some k) s') ∧
        exec .run s = .next (takeError true .calUnavailable p.2 (some k) s')) ∧
    (∀ x : Byte, s.ready (.trig .gotMode) → s.hid.bus = .answered q (.bytes [x]) → modeBits x ≠ 0 →
      s.hid.lBudget ≠ 0 → s.hid.pollCnt = s.hid.lBudget →
      exec .run s = .next (takeError true .pollTimeout 0x74 none
        { s with hid := { s.hid with bus := .quiet, modeByte := x } })) ∧
    (s.ready (.run .aggFin) → s.agg.nAgg ≠ 0 → s.agg.validCnt = 0 →
      exec .run s = .next (takeError true .noValidSamples 0 none s)) ∧
    ∀ (e : ErrCode) (a : Byte) (k : Option BusKind),
      (takeError true e a k s).status = { s.status with
        busy := false, trig := .idle, abortPend := false, err := true, errCode := e, fsm := .idle }

/-- R236, and R235 with its derived properties: GWCODE writes the gas-wait code of its duration and nothing else; the
code of every duration, that 0xFF is only the special case, and that the code never falls as the duration grows. (The
model's own choices in it: log 3, log 6, log 14.) -/
def Obligations.GasWaitCode : Prop :=
  (∀ (s : State) (dur : Nat), s.ready .start →
    exec (.gwcode dur) s = .next (complete { s with heat := { s.heat with gwCode := gw dur } })) ∧
  (∀ dur : Nat, dur ≤ 65535 → (gw dur).toNat = plainGasWait dur ∧ (gw dur = 0xFF ↔ 4032 ≤ dur)) ∧
  ∀ a b : Nat, a ≤ b → b ≤ 65535 → (gw a).toNat ≤ (gw b).toNat

/-- R238, R239, R240: RHCODE writes the low 8 bits of the resistance formula over unbounded integers, with no
overflow, no division by zero and GW_CODE unchanged, for every calibration file and every target. (The model's own
choices in it: log 3, log 6, log 14.) -/
def Obligations.RhcodeStoresTheCode : Prop :=
  ∀ (s : State) (temp : Nat), s.ready .start → s.status.calValid = true →
    exec (.rhcode temp) s = .next (complete { s with
      heat := { s.heat with rhCode := BitVec.ofInt 8 (plainResistance s.cal temp) } })

/-- R245: CFGHTR computes both codes and writes them and the control value to the sensor, in that order. (The model's
own choices in it: log 1, log 3, log 4, log 6.) -/
def Obligations.CfghtrWritesTheHeater : Prop :=
  ∀ s : State,
    (∀ q, s.ready (.htr .wroteCtrl) → s.hid.bus = .answered q .ok →
      exec .cfghtr s = .next (complete { s with hid := { s.hid with bus := .quiet } })) ∧
    (s.free → s.status.calValid = true →
      let n := s.env.trace.length
      let g := BitVec.ofNat 8 (plainGasWait s.ctl.heatDur.toNat)
      let r := BitVec.ofInt 8 (plainResistance s.cal s.ctl.heatTemp.toNat)
      play (command .cfghtr (.engine :: exchange n .ok ++ exchange (n + 1) .ok ++ exchange (n + 2) .ok)) s =
        .next { completed .cfghtr [⟨.write 0x64 g, some .ok⟩, ⟨.write 0x5A r, some .ok⟩,
          ⟨.write 0x71 0x20, some .ok⟩] s with heat := { gwCode := g, rhCode := r } })

/-- R250: TRIG writes sleep after every read that does not show sleep, within its budget, and forced mode after the
read that does. (The model's own choices in it: log 1, log 3, log 4, log 6.) -/
def Obligations.TrigSequence : Prop :=
  ∀ s : State,
    (∀ q, s.ready (.trig .wroteForce) → s.hid.bus = .answered q .ok →
      exec .trig s = .next (complete { s with hid := { s.hid with bus := .quiet } })) ∧
    ∀ (xs : List Byte) (m : Byte), s.free → (∀ x ∈ xs, modeBits x ≠ 0) → modeBits m = 0 →
      (s.ctl.pollBudget = 0 ∨ xs.length ≤ s.ctl.pollBudget.toNat) →
      let n := s.env.trace.length
      let t := completed .trig (pollTrace xs ++ [⟨.read 0x74 1, some (.bytes [m])⟩,
        ⟨.write 0x74 ((m &&& 0xFC) ||| 0x01), some .ok⟩]) s
      play (command .trig (.engine :: pollEvents n xs ++ exchange (n + 2 * xs.length) (.bytes [m]) ++
          exchange (n + 2 * xs.length + 1) .ok)) s =
        .next { t with hid := { t.hid with pollCnt := BitVec.ofNat 16 xs.length, modeByte := m } }

/-- R250, R251: with a budget B other than 0, a read that does not show sleep after B sleep writes raises
POLL_TIMEOUT. The address clause, ERR_INFO.ADDR = 0x74, is the model's reading of R250 and R400 against R39's
"Otherwise 0" (log 19). (The model's own choices in it: log 1, log 3, log 4, log 6.) -/
def Obligations.TrigPollTimeout : Prop :=
  ∀ (s : State) (xs : List Byte) (x : Byte), s.free → (∀ y ∈ xs, modeBits y ≠ 0) → modeBits x ≠ 0 →
    s.ctl.pollBudget ≠ 0 → xs.length = s.ctl.pollBudget.toNat →
    let n := s.env.trace.length
    let t := failed .trig (pollTrace xs ++ [⟨.read 0x74 1, some (.bytes [x])⟩]) .pollTimeout 0x74 none s
    play (command .trig (.engine :: pollEvents n xs ++ exchange (n + 2 * xs.length) (.bytes [x]))) s =
      .next { t with hid := { t.hid with pollCnt := s.ctl.pollBudget, modeByte := x } }

/-- R254: with budget 0 a sensor that never shows sleep keeps the engine polling: after any number of polls BUSY is
still 1 and the next poll is due. (The endless run is stated by its finite prefixes, of every length: log 1.) (The
model's own choices in it: log 1, log 3.) -/
def Obligations.UnboundedPolling : Prop :=
  ∀ (s : State) (xs : List Byte), s.free → (∀ x ∈ xs, modeBits x ≠ 0) → s.ctl.pollBudget = 0 →
    ∃ t, play (command .trig (.engine :: pollEvents s.env.trace.length xs)) s = .next t ∧ t.status.busy = true ∧
      t.status.err = false ∧ t.hid.pos.point = .trig .readMode ∧ t.env.trace = s.env.trace ++ pollTrace xs

/-- R252: a trigger's forced-mode write only ever follows a read that showed sleep, immediately, and keeps that
byte's other bits. (The model's own choices in it: log 3.) -/
def Obligations.SleepBeforeForced : Prop :=
  ∀ s t : State, Inv s → forcedAfterSleep s → step s = .next t → forcedAfterSleep t

/-- R251: with a budget other than 0 a trigger's count of sleep writes never passes the budget. (The model's own
choices in it: log 3.) -/
def Obligations.PollBudgetHolds : Prop :=
  ∀ s t : State, Inv s → pollWithin s → step s = .next t → pollWithin t

/-! ### Compensation (42_compensation.md) -/

/-- R273, R275: COMPT writes t_fine and the temperature of the formula over unbounded integers, and sets TF_VALID;
OVF is unchanged. (The model's own choices in it: log 3, log 6.) -/
def Obligations.TemperatureResult : Prop :=
  ∀ s : State, s.ready .start → s.status.calValid = true →
    let tf := plainFine s.cal s.raw.t.toNat
    exec .compt s = .next (complete { s with
      res := { s.res with tFine := BitVec.ofInt 64 tf, compT := BitVec.ofInt 64 (plainTemp tf) }
      status := { s.status with tfValid := true } })

/-- R274: the range of var1, of every product, of t_fine and of the temperature, for every raw value and calibration;
the checked computation gives these values and overflows nowhere. -/
def Obligations.TemperatureRange : Prop :=
  ∀ (c : Cal) (raw : BitVec 20),
    let var1 := plainVar1 c raw.toNat
    let var3 := (var1 / 2) * (var1 / 2) / 2 ^ 12
    let tf := plainFine c raw.toNat
    (-131071 ≤ var1 ∧ var1 ≤ 131071) ∧
    (-2 ^ 33 < var1 * c.t2.toInt ∧ var1 * c.t2.toInt < 2 ^ 33) ∧
    (-2 ^ 33 < (var1 / 2) * (var1 / 2) ∧ (var1 / 2) * (var1 / 2) < 2 ^ 33) ∧
    (-2 ^ 33 < var3 * (c.t3.toInt * 2 ^ 4) ∧ var3 * (c.t3.toInt * 2 ^ 4) < 2 ^ 33) ∧
    fineInRange tf ∧ (-43520 ≤ plainTemp tf ∧ plainTemp tf ≤ 43499) ∧
    ctFine c (unsigned raw) = .lit tf ∧ tempScaled (.lit tf) = .lit (plainTemp tf)

/-- R274: T_FINE stays in the range of ct's results in every step, and is in it at reset. -/
def Obligations.TfineStaysInRange : Prop :=
  fineInRange State.reset.res.tFine.toInt ∧
  ∀ s t : State, fineInRange s.res.tFine.toInt → step s = .next t → fineInRange t.res.tFine.toInt

/-- R276, R420, R456: without a calibration the six commands that need one raise CAL_UNAVAILABLE, RUN loads it
itself, and with one but without T_FINE, COMPP and COMPH raise ORDER_VIOLATION. (The model's own choices in it: log
3, log 6.) -/
def Obligations.CalibrationAndOrderNeeded : Prop :=
  ∀ (s : State) (temp : Nat), s.ready .start →
    (s.status.calValid = false →
      (∀ i ∈ [Instr.rhcode temp, .cfghtr, .compt, .compp, .comph, .compall],
        exec i s = .next (takeError false .calUnavailable 0 none s)) ∧
      (s.ctl.window ≠ 0 → ∃ t, exec .run s = .next t ∧ t.hid.pos.point = .cal .invalidate ∧ t.status.err = s.status.err)) ∧
    (s.status.calValid = true → s.status.tfValid = false →
      exec .compp s = .next (takeError false .orderViolation 0 none s) ∧
      exec .comph s = .next (takeError false .orderViolation 0 none s))

/-- R283, R284, R286: COMPP with a divisor other than 0 writes the pressure of the formula over unbounded integers
where every operation stays in int64; otherwise it completes all the same, writes the wrapped result and sets OVF.
T_FINE is in the range of R274. (The model's own choices in it: log 3, log 6.) -/
def Obligations.PressureResult : Prop :=
  ∀ s : State, s.ready .start → s.status.calValid = true → s.status.tfValid = true →
    fineInRange s.res.tFine.toInt → plainDivisor s.cal s.res.tFine.toInt ≠ 0 →
    let fits := pressureFits s.cal s.raw.p.toNat s.res.tFine.toInt
    (fits = true → exec .compp s = .next (complete { s with
      res := { s.res with compP := BitVec.ofInt 64 (plainPressure s.cal s.raw.p.toNat s.res.tFine.toInt) } })) ∧
    (fits = false → exec .compp s = .next (complete { s with
      res := { s.res with compP := BitVec.ofInt 64 (wrappedPressure s.cal s.raw.p.toNat s.res.tFine.toInt) }
      status := { s.status with ovf := true } }))

/-- R285: a divisor of 0 raises DIVIDE_BY_ZERO and writes nothing; CAL_P1 = 0 gives such a divisor. (The model's own
choices in it: log 3, log 6.) -/
def Obligations.PressureDivideByZero : Prop :=
  ∀ s : State, s.ready .start → s.status.calValid = true → s.status.tfValid = true → fineInRange s.res.tFine.toInt →
    (plainDivisor s.cal s.res.tFine.toInt = 0 → exec .compp s = .next (takeError false .divideByZero 0 none s)) ∧
    (s.cal.p1 = 0 → plainDivisor s.cal s.res.tFine.toInt = 0)

/-- R290, R291, R292: COMPH writes the clamped humidity of the formula over unbounded integers, with no overflow
while T_FINE is in the range of R274, and in 0 to 100000 whatever T_FINE is. (The model's own choices in it: log 3,
log 6.) -/
def Obligations.HumidityResult : Prop :=
  ∀ s : State, s.ready .start → s.status.calValid = true → s.status.tfValid = true →
    (fineInRange s.res.tFine.toInt → exec .comph s = .next (complete { s with
      res := { s.res with compH := BitVec.ofInt 64 (plainHumidity s.cal s.raw.h.toNat s.res.tFine.toInt) } })) ∧
    ∃ t, exec .comph s = .next t ∧ 0 ≤ t.res.compH.toInt ∧ t.res.compH.toInt ≤ 100000

/-- R271, R286, R296, R413: COMPALL writes temperature, pressure and humidity in three engine steps, with the wrapped
pressure and OVF set where an operation leaves int64; with a divisor of 0 it ends after the second with the
temperature written and the rest as it was. (The model's own choices in it: log 1, log 3, log 4, log 6.) -/
def Obligations.CompallResults : Prop :=
  ∀ s : State,
    (s.ready (.comp .hum) → s.status.calValid = true → s.status.tfValid = true → fineInRange s.res.tFine.toInt →
      exec .compall s = .next (complete { s with
        res := { s.res with compH := BitVec.ofInt 64 (plainHumidity s.cal s.raw.h.toNat s.res.tFine.toInt) } })) ∧
    (s.free → s.status.calValid = true →
      let tf := plainFine s.cal s.raw.t.toNat
      let temp := BitVec.ofInt 64 (plainTemp tf)
      (plainDivisor s.cal tf ≠ 0 → pressureFits s.cal s.raw.p.toNat tf = true →
        let t := completed .compall [] s
        play (command .compall [.engine, .engine, .engine]) s = .next { t with
          res := ⟨BitVec.ofInt 64 tf, temp, BitVec.ofInt 64 (plainPressure s.cal s.raw.p.toNat tf),
            BitVec.ofInt 64 (plainHumidity s.cal s.raw.h.toNat tf)⟩
          status := { t.status with tfValid := true } }) ∧
      (plainDivisor s.cal tf ≠ 0 → pressureFits s.cal s.raw.p.toNat tf = false →
        let t := completed .compall [] s
        play (command .compall [.engine, .engine, .engine]) s = .next { t with
          res := ⟨BitVec.ofInt 64 tf, temp, BitVec.ofInt 64 (wrappedPressure s.cal s.raw.p.toNat tf),
            BitVec.ofInt 64 (plainHumidity s.cal s.raw.h.toNat tf)⟩
          status := { t.status with tfValid := true, ovf := true } }) ∧
      (plainDivisor s.cal tf = 0 →
        let t := failed .compall [] .divideByZero 0 none s
        play (command .compall [.engine, .engine]) s = .next { t with
          res := { s.res with tFine := BitVec.ofInt 64 tf, compT := temp }
          status := { t.status with tfValid := true } }))

/-! ### Acquisition (43_acquisition.md) -/

/-- R311: the raw values from the eight data bytes. -/
def Obligations.RawValuesFromBytes : Prop :=
  ∀ b : List Byte, b.length = 8 →
    let u (i : Nat) : Nat := (b.getD i 0).toNat
    (Raw.assemble b).p.toNat = u 0 * 2 ^ 12 + u 1 * 2 ^ 4 + u 2 / 2 ^ 4 ∧
    (Raw.assemble b).t.toNat = u 3 * 2 ^ 12 + u 4 * 2 ^ 4 + u 5 / 2 ^ 4 ∧
    (Raw.assemble b).h.toNat = u 6 * 2 ^ 8 + u 7

/-- R312: READRAW is one burst; its bytes give the three raw registers and clear TF_VALID, and a bus error gives
SAMPLE_READ_FAILURE with nothing written. (The model's own choices in it: log 1, log 3, log 4, log 6.) -/
def Obligations.ReadrawReadsOneBurst : Prop :=
  ∀ (s : State) (b : List Byte),
    (∀ q, s.ready (.raw .got) → s.hid.bus = .answered q (.bytes b) →
      exec .readraw s = .next (complete { s with
        raw := Raw.assemble b
        status := { s.status with tfValid := false }
        hid := { s.hid with bus := .quiet } })) ∧
    (s.free → b.length = 8 →
      let n := s.env.trace.length
      let t := completed .readraw [⟨.read 0x1F 8, some (.bytes b)⟩] s
      play (command .readraw (exchange n (.bytes b))) s =
        .next { t with raw := Raw.assemble b, status := { t.status with tfValid := false } }) ∧
    (∀ k, s.free → play (command .readraw (exchange s.env.trace.length (.err k))) s =
      .next (failed .readraw [⟨.read 0x1F 8, some (.err k)⟩] .sampleReadFailure 0x1F (some k) s))

/-- R316, R319, R322: what AGGCLR, AGGACC and AGGFIN write, and the errors they raise instead. (The model's own
choices in it: log 3, log 6.) -/
def Obligations.AggregatorCommands : Prop :=
  ∀ s : State, s.ready .start →
    let g := s.agg
    let nd := toF64 g.nAgg.toNat
    let cd := toF64 g.validCnt.toNat
    let term (v : Word64) : Word64 := F64.div (F64.mul (toF64 v.toInt) (toF64 v.toInt)) nd
    let root (acc : Word64) : Word64 :=
      if g.validCnt.toNat = g.nAgg.toNat then sqrtF64 acc else sqrtF64 (F64.div (F64.mul acc nd) cd)
    (s.ctl.window ≠ 0 → exec .aggclr s = .next (complete { s with
      agg := { g with nAgg := s.ctl.window, accT := 0, accP := 0, rmsT := 0, rmsP := 0, validCnt := 0 }
      status := { s.status with aggDone := false } })) ∧
    (s.ctl.window = 0 → exec .aggclr s = .next (takeError false .invalidWindow 0 none s)) ∧
    (g.nAgg ≠ 0 → exec .aggacc s = .next (complete { s with
      agg := { g with
        accT := F64.add g.accT (term s.res.compT), accP := F64.add g.accP (term s.res.compP)
        validCnt := g.validCnt + 1 } })) ∧
    (g.nAgg ≠ 0 → g.validCnt ≠ 0 → exec .aggfin s = .next (complete { s with
      agg := { g with rmsT := root g.accT, rmsP := root g.accP }
      status := { s.status with aggDone := true } })) ∧
    (g.nAgg = 0 → exec .aggacc s = .next (takeError false .invalidWindow 0 none s) ∧
      exec .aggfin s = .next (takeError false .invalidWindow 0 none s)) ∧
    (g.nAgg ≠ 0 → g.validCnt = 0 → exec .aggfin s = .next (takeError false .noValidSamples 0 none s))

/-- R18, R315, R319, R322: an int64 value enters the aggregator rounded to nearest, ties to even, exactly up to 2^53
in magnitude; and every sum, product and quotient of finite numbers up to the largest finite number, and every root
of one that is not negative, is the exact value rounded to nearest, ties to even. -/
def Obligations.ConversionIsExact : Prop :=
  (∀ v : Int, -2 ^ 63 ≤ v → v ≤ 2 ^ 63 - 1 → NearestEven v (toF64 v)) ∧
  (∀ v : Int, -2 ^ 53 ≤ v → v ≤ 2 ^ 53 → f64Finite (toF64 v) ∧ f64Value (toF64 v) = v) ∧
  (∀ a b : Word64, f64Finite a → f64Finite b →
    let x := f64Value a
    let y := f64Value b
    (|x + y| ≤ f64Max → NearestEven (x + y : ℚ) (F64.add a b)) ∧
    (|x * y| ≤ f64Max → NearestEven (x * y : ℚ) (F64.mul a b)) ∧
    (y ≠ 0 → |x / y| ≤ f64Max → NearestEven (x / y : ℚ) (F64.div a b))) ∧
  ∀ a : Word64, f64Finite a → 0 ≤ f64Value a → NearestEven (Real.sqrt (f64Value a)) (sqrtF64 a)

/-- R324, R340's corner case: the RMS of a window of one sample is its magnitude, exactly, up to 2^26. -/
def Obligations.SingleSampleRms : Prop :=
  ∀ v : Int, -2 ^ 26 ≤ v → v ≤ 2 ^ 26 → rms (accumulate 0 (toF64 1) v) 1 1 = toF64 v.natAbs

/-- R317, R340, R341, R342, R343, R346, R347: RUN rejects a window of 0; otherwise it enters CONFIGURING, latches its
configuration and goes on to load the calibration or to CFGOS; the last read of its LOADCAL body writes the
calibration file and goes on to CFGOS; each of its four waits is loaded from the latch it is given, and goes on, when
it is over, to TRIGGERING, to READING, to AGGFIN, or, the last, to DONE. (The model's own choices in it: log 3, log
6, log 18.) -/
def Obligations.RunStartsAndEnds : Prop :=
  ∀ s : State,
    (s.ready .start → s.ctl.window = 0 → exec .run s = .next (takeError true .invalidWindow 0 none s)) ∧
    (s.ready .start → s.ctl.window ≠ 0 → exec .run s = .next { s with
      status := { s.status with fsm := .configuring }
      agg := { s.agg with sampleIdx := 0 }
      hid := { s.hid with
        lN := s.ctl.window, lSdelay := s.ctl.sampleDelay, lSettle := s.ctl.settle, lBudget := s.ctl.pollBudget
        pos := ⟨if s.status.calValid = true then .os .readHum else .cal .invalidate, s.hid.pos.sample⟩ } }) ∧
    (∀ q b1 b2 b3, s.ready (.cal (.got3 b1 b2)) → s.hid.bus = .answered q (.bytes b3) → exec .run s = .next { s with
      cal := Cal.assemble b1 b2 b3
      status := { s.status with calValid := true }
      hid := { s.hid with bus := .quiet, pos := ⟨.os .readHum, s.hid.pos.sample⟩ } }) ∧
    (∀ p ∈ [(RunPt.delayLoad, WaitFor.delay, s.hid.lSdelay), (.settleLoad, .settle, s.hid.lSettle),
      (.final1Load, .final1, s.hid.lSettle), (.final2Load, .final2, s.hid.lSettle)],
      s.ready (.run p.1) → s.status.abortPend = false → exec .run s = .next { s with
        hid := { s.hid with dlyCnt := p.2.2, pos := ⟨.wait p.2.1 .top, s.hid.pos.sample⟩ } }) ∧
    (∀ p ∈ [(WaitFor.delay, Fsm.triggering, Point.trig .clear), (.settle, .reading, .raw .read),
      (.final1, s.status.fsm, .run .aggFin)],
      s.ready (.wait p.1 .top) → s.hid.dlyCnt = 0 → exec .run s = .next { s with
        status := { s.status with fsm := p.2.1 }
        hid := { s.hid with pos := ⟨p.2.2, s.hid.pos.sample⟩ } }) ∧
    (s.ready (.wait .final2 .top) → s.hid.dlyCnt = 0 →
      exec .run s = .next (complete { s with status := { s.status with fsm := .done } }))

/-- R345, R350: a failed read or a zero pressure divisor in sample i of a run offers one SAMPLE_ERR record and leaves
the error registers, the results and the aggregator; the loop then goes on with the next sample or to FINALIZING.
(The model's own choices in it: log 3.) -/
def Obligations.PerSampleErrors : Prop :=
  ∀ (s : State) (i : Nat), s.hid.pos.sample = some i →
    let word (e a k : Nat) : Word64 := BitVec.ofNat 64 (i % 2 ^ 32 * 2 ^ 32 + k * 2 ^ 16 + a * 2 ^ 8 + e)
    let offered (v : Word64) : State := { s with hid := { s.hid with
      bus := .quiet, outPend := some ⟨.sampleErr, v⟩, pos := ⟨.run .sampleEnd, some i⟩ } }
    (∀ q, s.ready (.raw .got) → s.hid.bus = .answered q (.err .timeout) →
      exec .run s = .next (offered (word 0x04 0x1F 1))) ∧
    (∀ q, s.ready (.raw .got) → s.hid.bus = .answered q (.err .nack) →
      exec .run s = .next (offered (word 0x04 0x1F 2))) ∧
    (s.ready (.comp .press) → s.hid.bus = .quiet → s.status.calValid = true → s.status.tfValid = true →
      fineInRange s.res.tFine.toInt → plainDivisor s.cal s.res.tFine.toInt = 0 →
      exec .run s = .next (offered (word 0x0A 0 0))) ∧
    (s.ready (.run .sampleEnd) → i + 1 < s.hid.lN.toNat → exec .run s = .next { s with
      status := { s.status with fsm := .delaying }
      agg := { s.agg with sampleIdx := BitVec.ofNat 16 (i + 2) }
      hid := { s.hid with pos := ⟨.run .delayLoad, some (i + 1)⟩ } }) ∧
    (s.ready (.run .sampleEnd) → s.hid.lN.toNat ≤ i + 1 → exec .run s = .next { s with
      status := { s.status with fsm := .finalizing }
      hid := { s.hid with pos := ⟨.run .final1Load, none⟩ } })

/-- R351, R452: while a record is offered the engine takes no step but SRESET, which discards it, as power-on reset
does; the sink's acceptance clears it and nothing else. (The model's own choices in it: log 4.) -/
def Obligations.OfferHoldsTheEngine : Prop :=
  ∀ (s : State) (r : Record), s.hid.outPend = some r →
    (∀ i : Instr, i ≠ .sreset → exec i s = .next s) ∧
    (s.hid.pos.point = .start →
      ∃ t, exec .sreset s = .next t ∧ t.hid.outPend = none ∧ t.env.sinkLog = s.env.sinkLog) ∧
    (∃ t, eventStep .powerOn s = .next t ∧ t.hid.outPend = none ∧ t.env.sinkLog = s.env.sinkLog) ∧
    eventStep .sinkAccept s = .next { s with
      hid := { s.hid with outPend := none }, env := { s.env with sinkLog := s.env.sinkLog ++ [r] } }

/-- R348: STATUS.FSM changes only by the transitions of the table, each under its condition. (The model's own choices
in it: log 3, log 18.) -/
def Obligations.FsmTransitions : Prop :=
  ∀ s t : State, Inv s → step s = .next t → t.status.fsm ≠ s.status.fsm → fsmTransition s t

/-- R340, R342, R343, R346, R347, R353, R471: a RUN whose samples are all good, with the calibration valid or loaded
by the run itself, completes in DONE with no error, with two records per sample and the two RMS records, and
VALID_CNT equal to the window, in a schedule of L_N · (L_SDELAY + L_SETTLE) + 2 · L_SETTLE ticks; and no RUN,
whatever its samples, whatever the bus answers and in whatever schedule of engine turns, answers, ticks and
acceptances, completes without an error in fewer ticks. (What a failed sample does is PerSampleErrors.) (The model's
own choices in it: log 1, log 3, log 4.) -/
def Obligations.RunOfGoodSamples : Prop :=
  ∀ s : State, s.free →
    let total := s.ctl.window.toNat * (s.ctl.sampleDelay.toNat + s.ctl.settle.toNat) + 2 * s.ctl.settle.toNat
    (∀ (b1 b2 b3 : List Byte) (h m : Byte) (xs : List Sample), b1.length = 23 → b2.length = 14 → b3.length = 3 →
      0 < xs.length → xs.length = s.ctl.window.toNat →
      let c : Cal := if s.status.calValid = true then s.cal else Cal.assemble b1 b2 b3
      (∀ x ∈ xs, x.Good c) →
      let n := s.env.trace.length
      let es := if s.status.calValid = true
        then runEvents s.ctl.sampleDelay.toNat s.ctl.settle.toNat n [] h m xs
        else runEvents s.ctl.sampleDelay.toNat s.ctl.settle.toNat (n + 3) (loadcalEvents n b1 b2 b3) h m xs
      tickCount es = total ∧
      ∃ t, play (command .run es) s = .next t ∧
        t.status.busy = false ∧ t.status.fsm = .done ∧ t.status.err = false ∧ t.status.aggDone = true ∧
        t.status.calValid = true ∧ t.status.ovf = s.status.ovf ∧ t.agg.validCnt.toNat = xs.length ∧
        t.agg.nAgg = s.ctl.window ∧ t.agg.sampleIdx = s.ctl.window ∧ t.cal = c ∧ t.ctl = s.ctl ∧
        t.env.sinkLog = s.env.sinkLog ++ xs.flatMap (Sample.records c) ++
          [⟨.rmsT, t.agg.rmsT⟩, ⟨.rmsP, t.agg.rmsP⟩] ∧
        t.agg.rmsT = sqrtF64 (xs.foldl (fun acc x => accumulate acc (toF64 xs.length) (x.temp c)) 0) ∧
        t.agg.rmsP = sqrtF64 (xs.foldl (fun acc x => accumulate acc (toF64 xs.length) (x.press c)) 0)) ∧
    ∀ es : List Event, (∀ e ∈ es, e = .engine ∨ e = .tick ∨ e = .sinkAccept ∨ ∃ n r, e = .bus n r) →
      tickCount es < total →
      ∃ t, play (command .run es) s = .next t ∧ (t.status.busy = true ∨ t.status.err = true)

/-! ### Every reachable state -/

/-- R451: the state after reset is good. (The model's own choices in it: log 3, log 6.) -/
def Obligations.ResetIsGood : Prop := Inv .reset

/-- R40, R44, R45, R61, R340, R374, R431: from every good state the machine takes a next step, whatever the event,
and the state after it is good: it never stops. (The model's own choices in it: log 1, log 3, log 6, log 7.) -/
def Obligations.GoodStatesStepToGoodStates : Prop :=
  ∀ s : State, Inv s → ∃ t, step s = .next t ∧ Inv t
end

