-- ==== Sys2Proof/Laws/State.lean ====
section
/-! SUPPORT. The small lemmas of State: for every named update, what each part of the state is after it. -/

namespace Sys2Proof.Machine

/-! ### State.goto -/

section

variable (s : State) (p : Point)

@[simp] theorem State.goto_status : (s.goto p).status = s.status := rfl
@[simp] theorem State.goto_errInfo : (s.goto p).errInfo = s.errInfo := rfl
@[simp] theorem State.goto_ctl : (s.goto p).ctl = s.ctl := rfl
@[simp] theorem State.goto_raw : (s.goto p).raw = s.raw := rfl
@[simp] theorem State.goto_res : (s.goto p).res = s.res := rfl
@[simp] theorem State.goto_heat : (s.goto p).heat = s.heat := rfl
@[simp] theorem State.goto_cal : (s.goto p).cal = s.cal := rfl
@[simp] theorem State.goto_agg : (s.goto p).agg = s.agg := rfl
@[simp] theorem State.goto_hid : (s.goto p).hid = { s.hid with pos := ⟨p, s.hid.pos.sample⟩ } := rfl
@[simp] theorem State.goto_env : (s.goto p).env = s.env := rfl

end

/-! ### State.issue -/

section

variable (s : State) (r : BusReq)

@[simp] theorem State.issue_status : (s.issue r).status = s.status := rfl
@[simp] theorem State.issue_errInfo : (s.issue r).errInfo = s.errInfo := rfl
@[simp] theorem State.issue_ctl : (s.issue r).ctl = s.ctl := rfl
@[simp] theorem State.issue_raw : (s.issue r).raw = s.raw := rfl
@[simp] theorem State.issue_res : (s.issue r).res = s.res := rfl
@[simp] theorem State.issue_heat : (s.issue r).heat = s.heat := rfl
@[simp] theorem State.issue_cal : (s.issue r).cal = s.cal := rfl
@[simp] theorem State.issue_agg : (s.issue r).agg = s.agg := rfl
@[simp] theorem State.issue_hid : (s.issue r).hid = { s.hid with bus := .inFlight r } := rfl
@[simp] theorem State.issue_env : (s.issue r).env = s.env := rfl

end

/-! ### State.busQuiet -/

section

variable (s : State)

@[simp] theorem State.busQuiet_status : (s.busQuiet).status = s.status := rfl
@[simp] theorem State.busQuiet_errInfo : (s.busQuiet).errInfo = s.errInfo := rfl
@[simp] theorem State.busQuiet_ctl : (s.busQuiet).ctl = s.ctl := rfl
@[simp] theorem State.busQuiet_raw : (s.busQuiet).raw = s.raw := rfl
@[simp] theorem State.busQuiet_res : (s.busQuiet).res = s.res := rfl
@[simp] theorem State.busQuiet_heat : (s.busQuiet).heat = s.heat := rfl
@[simp] theorem State.busQuiet_cal : (s.busQuiet).cal = s.cal := rfl
@[simp] theorem State.busQuiet_agg : (s.busQuiet).agg = s.agg := rfl
@[simp] theorem State.busQuiet_hid : (s.busQuiet).hid = { s.hid with bus := .quiet } := rfl
@[simp] theorem State.busQuiet_env : (s.busQuiet).env = s.env := rfl

end

/-! ### State.loadDelay -/

section

variable (s : State) (ms : BitVec 16)

@[simp] theorem State.loadDelay_status : (s.loadDelay ms).status = s.status := rfl
@[simp] theorem State.loadDelay_errInfo : (s.loadDelay ms).errInfo = s.errInfo := rfl
@[simp] theorem State.loadDelay_ctl : (s.loadDelay ms).ctl = s.ctl := rfl
@[simp] theorem State.loadDelay_raw : (s.loadDelay ms).raw = s.raw := rfl
@[simp] theorem State.loadDelay_res : (s.loadDelay ms).res = s.res := rfl
@[simp] theorem State.loadDelay_heat : (s.loadDelay ms).heat = s.heat := rfl
@[simp] theorem State.loadDelay_cal : (s.loadDelay ms).cal = s.cal := rfl
@[simp] theorem State.loadDelay_agg : (s.loadDelay ms).agg = s.agg := rfl
@[simp] theorem State.loadDelay_hid : (s.loadDelay ms).hid = { s.hid with dlyCnt := ms } := rfl
@[simp] theorem State.loadDelay_env : (s.loadDelay ms).env = s.env := rfl

end

/-! ### State.emit -/

section

variable (s : State) (t : Tag) (v : Word64)

@[simp] theorem State.emit_status : (s.emit t v).status = s.status := rfl
@[simp] theorem State.emit_errInfo : (s.emit t v).errInfo = s.errInfo := rfl
@[simp] theorem State.emit_ctl : (s.emit t v).ctl = s.ctl := rfl
@[simp] theorem State.emit_raw : (s.emit t v).raw = s.raw := rfl
@[simp] theorem State.emit_res : (s.emit t v).res = s.res := rfl
@[simp] theorem State.emit_heat : (s.emit t v).heat = s.heat := rfl
@[simp] theorem State.emit_cal : (s.emit t v).cal = s.cal := rfl
@[simp] theorem State.emit_agg : (s.emit t v).agg = s.agg := rfl
@[simp] theorem State.emit_hid : (s.emit t v).hid = { s.hid with outPend := some ⟨t, v⟩ } := rfl
@[simp] theorem State.emit_env : (s.emit t v).env = s.env := rfl

end

/-! ### State.enter -/

section

variable (s : State) (f : Fsm)

@[simp] theorem State.enter_status : (s.enter f).status = { s.status with fsm := f } := rfl
@[simp] theorem State.enter_errInfo : (s.enter f).errInfo = s.errInfo := rfl
@[simp] theorem State.enter_ctl : (s.enter f).ctl = s.ctl := rfl
@[simp] theorem State.enter_raw : (s.enter f).raw = s.raw := rfl
@[simp] theorem State.enter_res : (s.enter f).res = s.res := rfl
@[simp] theorem State.enter_heat : (s.enter f).heat = s.heat := rfl
@[simp] theorem State.enter_cal : (s.enter f).cal = s.cal := rfl
@[simp] theorem State.enter_agg : (s.enter f).agg = s.agg := rfl
@[simp] theorem State.enter_hid : (s.enter f).hid = s.hid := rfl
@[simp] theorem State.enter_env : (s.enter f).env = s.env := rfl

end

/-! ### State.setTrig -/

section

variable (s : State) (t : TrigState)

@[simp] theorem State.setTrig_status : (s.setTrig t).status = { s.status with trig := t } := rfl
@[simp] theorem State.setTrig_errInfo : (s.setTrig t).errInfo = s.errInfo := rfl
@[simp] theorem State.setTrig_ctl : (s.setTrig t).ctl = s.ctl := rfl
@[simp] theorem State.setTrig_raw : (s.setTrig t).raw = s.raw := rfl
@[simp] theorem State.setTrig_res : (s.setTrig t).res = s.res := rfl
@[simp] theorem State.setTrig_heat : (s.setTrig t).heat = s.heat := rfl
@[simp] theorem State.setTrig_cal : (s.setTrig t).cal = s.cal := rfl
@[simp] theorem State.setTrig_agg : (s.setTrig t).agg = s.agg := rfl
@[simp] theorem State.setTrig_hid : (s.setTrig t).hid = s.hid := rfl
@[simp] theorem State.setTrig_env : (s.setTrig t).env = s.env := rfl

end

/-! ### State.withOvf -/

section

variable (s : State) (o : Bool)

@[simp] theorem State.withOvf_status : (s.withOvf o).status = { s.status with ovf := s.status.ovf || o } := rfl
@[simp] theorem State.withOvf_errInfo : (s.withOvf o).errInfo = s.errInfo := rfl
@[simp] theorem State.withOvf_ctl : (s.withOvf o).ctl = s.ctl := rfl
@[simp] theorem State.withOvf_raw : (s.withOvf o).raw = s.raw := rfl
@[simp] theorem State.withOvf_res : (s.withOvf o).res = s.res := rfl
@[simp] theorem State.withOvf_heat : (s.withOvf o).heat = s.heat := rfl
@[simp] theorem State.withOvf_cal : (s.withOvf o).cal = s.cal := rfl
@[simp] theorem State.withOvf_agg : (s.withOvf o).agg = s.agg := rfl
@[simp] theorem State.withOvf_hid : (s.withOvf o).hid = s.hid := rfl
@[simp] theorem State.withOvf_env : (s.withOvf o).env = s.env := rfl

end

/-! ### complete -/

section

variable (s : State)

@[simp] theorem complete_status : (complete s).status =
      { s.status with busy := false, trig := .idle, abortPend := false } := rfl
@[simp] theorem complete_errInfo : (complete s).errInfo = s.errInfo := rfl
@[simp] theorem complete_ctl : (complete s).ctl = s.ctl := rfl
@[simp] theorem complete_raw : (complete s).raw = s.raw := rfl
@[simp] theorem complete_res : (complete s).res = s.res := rfl
@[simp] theorem complete_heat : (complete s).heat = s.heat := rfl
@[simp] theorem complete_cal : (complete s).cal = s.cal := rfl
@[simp] theorem complete_agg : (complete s).agg = s.agg := rfl
@[simp] theorem complete_hid : (complete s).hid =
      { s.hid with abortReq := false, dlyCnt := 0, pos := ⟨.noCommand, none⟩ } := rfl
@[simp] theorem complete_env : (complete s).env = s.env := rfl

end

/-! ### recordError -/

section

variable (e : ErrCode) (i : ErrInfo) (s : State)

@[simp] theorem recordError_status : (recordError e i s).status = { s.status with err := true, errCode := e } := rfl
@[simp] theorem recordError_errInfo : (recordError e i s).errInfo = i := rfl
@[simp] theorem recordError_ctl : (recordError e i s).ctl = s.ctl := rfl
@[simp] theorem recordError_raw : (recordError e i s).raw = s.raw := rfl
@[simp] theorem recordError_res : (recordError e i s).res = s.res := rfl
@[simp] theorem recordError_heat : (recordError e i s).heat = s.heat := rfl
@[simp] theorem recordError_cal : (recordError e i s).cal = s.cal := rfl
@[simp] theorem recordError_agg : (recordError e i s).agg = s.agg := rfl
@[simp] theorem recordError_hid : (recordError e i s).hid = s.hid := rfl
@[simp] theorem recordError_env : (recordError e i s).env = s.env := rfl

end

/-! ### clearError -/

section

variable (s : State)

@[simp] theorem clearError_status : (clearError s).status = { s.status with err := false, errCode := .noError } := rfl
@[simp] theorem clearError_errInfo : (clearError s).errInfo = ErrInfo.reset := rfl
@[simp] theorem clearError_ctl : (clearError s).ctl = s.ctl := rfl
@[simp] theorem clearError_raw : (clearError s).raw = s.raw := rfl
@[simp] theorem clearError_res : (clearError s).res = s.res := rfl
@[simp] theorem clearError_heat : (clearError s).heat = s.heat := rfl
@[simp] theorem clearError_cal : (clearError s).cal = s.cal := rfl
@[simp] theorem clearError_agg : (clearError s).agg = s.agg := rfl
@[simp] theorem clearError_hid : (clearError s).hid = s.hid := rfl
@[simp] theorem clearError_env : (clearError s).env = s.env := rfl

end

/-! ### accept -/

section

variable (w : Word) (s : State)

@[simp] theorem accept_status : (accept w s).status =
      { s.status with
        err := false, errCode := .noError, curOp := opcodeOf w, abortPend := false, busy := true
        fsm := if s.status.fsm = .done then .idle else s.status.fsm } := rfl
@[simp] theorem accept_errInfo : (accept w s).errInfo = ErrInfo.reset := rfl
@[simp] theorem accept_ctl : (accept w s).ctl = s.ctl := rfl
@[simp] theorem accept_raw : (accept w s).raw = s.raw := rfl
@[simp] theorem accept_res : (accept w s).res = s.res := rfl
@[simp] theorem accept_heat : (accept w s).heat = s.heat := rfl
@[simp] theorem accept_cal : (accept w s).cal = s.cal := rfl
@[simp] theorem accept_agg : (accept w s).agg = s.agg := rfl
@[simp] theorem accept_hid : (accept w s).hid =
      { s.hid with cmdCur := w, abortReq := false, pos := ⟨.start, none⟩ } := rfl
@[simp] theorem accept_env : (accept w s).env = s.env := rfl

end

/-! ### requestAbort -/

section

variable (s : State)

@[simp] theorem requestAbort_status : (requestAbort s).status = { s.status with abortPend := true } := rfl
@[simp] theorem requestAbort_errInfo : (requestAbort s).errInfo = s.errInfo := rfl
@[simp] theorem requestAbort_ctl : (requestAbort s).ctl = s.ctl := rfl
@[simp] theorem requestAbort_raw : (requestAbort s).raw = s.raw := rfl
@[simp] theorem requestAbort_res : (requestAbort s).res = s.res := rfl
@[simp] theorem requestAbort_heat : (requestAbort s).heat = s.heat := rfl
@[simp] theorem requestAbort_cal : (requestAbort s).cal = s.cal := rfl
@[simp] theorem requestAbort_agg : (requestAbort s).agg = s.agg := rfl
@[simp] theorem requestAbort_hid : (requestAbort s).hid = { s.hid with abortReq := true } := rfl
@[simp] theorem requestAbort_env : (requestAbort s).env = s.env := rfl

end

/-! ### resetProcedure -/

section

variable (s : State)

@[simp] theorem resetProcedure_status : (resetProcedure s).status = Status.reset := rfl
@[simp] theorem resetProcedure_errInfo : (resetProcedure s).errInfo = ErrInfo.reset := rfl
@[simp] theorem resetProcedure_ctl : (resetProcedure s).ctl = Control.reset := rfl
@[simp] theorem resetProcedure_raw : (resetProcedure s).raw = Raw.reset := rfl
@[simp] theorem resetProcedure_res : (resetProcedure s).res = Results.reset := rfl
@[simp] theorem resetProcedure_heat : (resetProcedure s).heat = Heater.reset := rfl
@[simp] theorem resetProcedure_cal : (resetProcedure s).cal = Cal.reset := rfl
@[simp] theorem resetProcedure_agg : (resetProcedure s).agg = Agg.reset := rfl
@[simp] theorem resetProcedure_hid : (resetProcedure s).hid = Hidden.reset := rfl
@[simp] theorem resetProcedure_env : (resetProcedure s).env =
      { s.env with trace := s.env.trace ++ s.hid.bus.abandoned } := rfl

end

/-! ### State.takeEvent -/

section

variable (s : State)

@[simp] theorem State.takeEvent_status : (s.takeEvent).status = s.status := rfl
@[simp] theorem State.takeEvent_errInfo : (s.takeEvent).errInfo = s.errInfo := rfl
@[simp] theorem State.takeEvent_ctl : (s.takeEvent).ctl = s.ctl := rfl
@[simp] theorem State.takeEvent_raw : (s.takeEvent).raw = s.raw := rfl
@[simp] theorem State.takeEvent_res : (s.takeEvent).res = s.res := rfl
@[simp] theorem State.takeEvent_heat : (s.takeEvent).heat = s.heat := rfl
@[simp] theorem State.takeEvent_cal : (s.takeEvent).cal = s.cal := rfl
@[simp] theorem State.takeEvent_agg : (s.takeEvent).agg = s.agg := rfl
@[simp] theorem State.takeEvent_hid : (s.takeEvent).hid = s.hid := rfl
@[simp] theorem State.takeEvent_env : (s.takeEvent).env = { s.env with sched := s.env.sched.tail } := rfl

end

/-! ### enterDelaying -/

section

variable (i : Nat) (s : State)

@[simp] theorem enterDelaying_status : (enterDelaying i s).status = { s.status with fsm := .delaying } := rfl
@[simp] theorem enterDelaying_errInfo : (enterDelaying i s).errInfo = s.errInfo := rfl
@[simp] theorem enterDelaying_ctl : (enterDelaying i s).ctl = s.ctl := rfl
@[simp] theorem enterDelaying_raw : (enterDelaying i s).raw = s.raw := rfl
@[simp] theorem enterDelaying_res : (enterDelaying i s).res = s.res := rfl
@[simp] theorem enterDelaying_heat : (enterDelaying i s).heat = s.heat := rfl
@[simp] theorem enterDelaying_cal : (enterDelaying i s).cal = s.cal := rfl
@[simp] theorem enterDelaying_agg : (enterDelaying i s).agg =
      { s.agg with sampleIdx := BitVec.ofNat 16 (i + 1) } := rfl
@[simp] theorem enterDelaying_hid : (enterDelaying i s).hid = { s.hid with pos := ⟨.run .delayLoad, some i⟩ } := rfl
@[simp] theorem enterDelaying_env : (enterDelaying i s).env = s.env := rfl

end

/-! ### enterFinalizing -/

section

variable (s : State)

@[simp] theorem enterFinalizing_status : (enterFinalizing s).status = { s.status with fsm := .finalizing } := rfl
@[simp] theorem enterFinalizing_errInfo : (enterFinalizing s).errInfo = s.errInfo := rfl
@[simp] theorem enterFinalizing_ctl : (enterFinalizing s).ctl = s.ctl := rfl
@[simp] theorem enterFinalizing_raw : (enterFinalizing s).raw = s.raw := rfl
@[simp] theorem enterFinalizing_res : (enterFinalizing s).res = s.res := rfl
@[simp] theorem enterFinalizing_heat : (enterFinalizing s).heat = s.heat := rfl
@[simp] theorem enterFinalizing_cal : (enterFinalizing s).cal = s.cal := rfl
@[simp] theorem enterFinalizing_agg : (enterFinalizing s).agg = s.agg := rfl
@[simp] theorem enterFinalizing_hid : (enterFinalizing s).hid = { s.hid with pos := ⟨.run .final1Load, none⟩ } := rfl
@[simp] theorem enterFinalizing_env : (enterFinalizing s).env = s.env := rfl

end

/-! ### Taking an error -/

section

variable (r : Bool) (e : ErrCode) (a : Byte) (k : Option BusKind) (s : State)

@[simp] theorem takeError_status : (takeError r e a k s).status =
      { s.status with
        err := true, errCode := e, busy := false, trig := .idle, abortPend := false
        fsm := if r then .idle else s.status.fsm } := by
  cases r <;> rfl
@[simp] theorem takeError_errInfo : (takeError r e a k s).errInfo = infoAt a k s := by cases r <;> rfl
@[simp] theorem takeError_ctl : (takeError r e a k s).ctl = s.ctl := by cases r <;> rfl
@[simp] theorem takeError_raw : (takeError r e a k s).raw = s.raw := by cases r <;> rfl
@[simp] theorem takeError_res : (takeError r e a k s).res = s.res := by cases r <;> rfl
@[simp] theorem takeError_heat : (takeError r e a k s).heat = s.heat := by cases r <;> rfl
@[simp] theorem takeError_cal : (takeError r e a k s).cal = s.cal := by cases r <;> rfl
@[simp] theorem takeError_agg : (takeError r e a k s).agg = s.agg := by cases r <;> rfl
@[simp] theorem takeError_hid : (takeError r e a k s).hid =
      { s.hid with abortReq := false, dlyCnt := 0, pos := ⟨.noCommand, none⟩ } := by
  cases r <;> rfl
@[simp] theorem takeError_env : (takeError r e a k s).env = s.env := by cases r <;> rfl

end

end Sys2Proof.Machine
end

