-- ==== Sys2Proof/Laws/Ops.lean ====
section
/-! SUPPORT. What each shared operation can do, said once: if it answers, then one of the cases listed here holds. -/

namespace Sys2Proof.Machine

/-! ### Flow -/

/-- A step of an emitting engine changes nothing; otherwise it is the step itself. -/
theorem unlessOffering_next {s t : State} {o : Result} (h : unlessOffering s o = .next t) :
    (s.hid.outPend.isSome = true ∧ t = s) ∨ (s.hid.outPend = none ∧ o = .next t) := by
  unfold unlessOffering at h
  split at h
  next hs => cases h; exact .inl ⟨hs, rfl⟩
  next hs => exact .inr ⟨by simpa using hs, h⟩

/-- While no record is offered, the step is the body's. -/
@[simp] theorem unlessOffering_none {s : State} (h : s.hid.outPend = none) (o : Result) : unlessOffering s o = o := by
  simp [unlessOffering, h]

/-- What one step of a command other than RUN answers. -/
theorem finish_next {π : Type} {here : π → Point} {s t : State} {f : Flow π} (h : finish here s f = .next t) :
    (∃ p s', f = .goto p s' ∧ t = s'.goto (here p)) ∨ (∃ s', f = .done s' ∧ t = complete s') ∨
    (∃ e a k s', f = .raise e a k s' ∧ t = takeError false e a k s') ∨ (f = .hold ∧ t = s) := by
  cases f <;> simp_all [finish]

/-- A command other than RUN never stops inside its body. -/
theorem finish_ne_fault {π : Type} (here : π → Point) (s : State) (f : Flow π) : ∃ t, finish here s f = .next t := by
  cases f <;> simp [finish]

/-- What one step of a body inside RUN answers. -/
theorem finishInRun_next {π : Type} {here : π → Point} {after : State → State} {s t : State} {f : Flow π}
    (h : finishInRun here after s f = .next t) :
    (∃ p s', f = .goto p s' ∧ t = s'.goto (here p)) ∨ (∃ s', f = .done s' ∧ t = after s') ∨
    (∃ e a k s', f = .raise e a k s' ∧ t = takeError true e a k s') ∨ (f = .hold ∧ t = s) := by
  cases f <;> simp_all [finishInRun]

/-- A body inside RUN never stops. -/
theorem finishInRun_ne_fault {π : Type} (here : π → Point) (after : State → State) (s : State) (f : Flow π) :
    ∃ t, finishInRun here after s f = .next t := by
  cases f <;> simp [finishInRun]

/-- What one step of a sample's body inside RUN answers: its own error ends the sample only. -/
theorem finishSample_next {π : Type} {own : ErrCode} {here : π → Point} {after : State → State} {s t : State}
    {f : Flow π} (h : finishSample own here after s f = .next t) :
    (∃ p s', f = .goto p s' ∧ t = s'.goto (here p)) ∨ (∃ s', f = .done s' ∧ t = after s') ∨
    (∃ a k s', f = .raise own a k s' ∧ t = sampleError own a k s') ∨
    (∃ e a k s', f = .raise e a k s' ∧ e ≠ own ∧ t = takeError true e a k s') ∨ (f = .hold ∧ t = s) := by
  cases f with
  | goto p s' => simp_all [finishSample, finishInRun]
  | done s' => simp_all [finishSample, finishInRun]
  | hold => simp_all [finishSample, finishInRun]
  | raise e a k s' =>
    simp only [finishSample] at h
    split at h
    next he => subst he; cases h; exact .inr (.inr (.inl ⟨_, _, _, rfl, rfl⟩))
    next he => cases h; exact .inr (.inr (.inr (.inl ⟨_, _, _, _, rfl, he, rfl⟩)))

/-- A sample's body never stops the machine. -/
theorem finishSample_ne_fault {π : Type} (own : ErrCode) (here : π → Point) (after : State → State) (s : State)
    (f : Flow π) : ∃ t, finishSample own here after s f = .next t := by
  cases f <;> simp [finishSample, finishInRun]

/-! ### Abort points, transactions, waits -/

/-- An abort point raises ABORTED when an ABORT is pending, and goes on otherwise. -/
theorem abortPoint_cases {π : Type} (s : State) (go : Flow π) :
    (s.status.abortPend = true ∧ abortPoint s go = .raise .aborted 0 none s) ∨
    (s.status.abortPend = false ∧ abortPoint s go = go) := by
  cases h : s.status.abortPend <;> simp [abortPoint, h]

/-- A transaction is issued unless an ABORT is pending. -/
theorem issueAt_cases {π : Type} (r : BusReq) (p : π) (s : State) :
    (s.status.abortPend = true ∧ issueAt r p s = .raise .aborted 0 none s) ∨
    (s.status.abortPend = false ∧ issueAt r p s = .goto p (s.issue r)) :=
  abortPoint_cases s _

/-- A read's step uses its bytes or its error, or holds while it has no answer. -/
theorem onRead_cases {π : Type} (s : State) (err : BusKind → State → Flow π) (ok : List Byte → State → Flow π) :
    (∃ q bs, s.hid.bus = .answered q (.bytes bs) ∧ onRead s err ok = ok bs s.busQuiet) ∨
    (∃ q k, s.hid.bus = .answered q (.err k) ∧ onRead s err ok = err k s.busQuiet) ∨ onRead s err ok = .hold := by
  unfold onRead
  split
  next q bs h => exact .inl ⟨q, bs, h, rfl⟩
  next q k h => exact .inr (.inl ⟨q, k, h, rfl⟩)
  all_goals exact .inr (.inr rfl)

/-- A write's step uses its Ok or its error, or holds while it has no answer. -/
theorem onWrite_cases {π : Type} (s : State) (err : BusKind → State → Flow π) (ok : State → Flow π) :
    (∃ q, s.hid.bus = .answered q .ok ∧ onWrite s err ok = ok s.busQuiet) ∨
    (∃ q k, s.hid.bus = .answered q (.err k) ∧ onWrite s err ok = err k s.busQuiet) ∨ onWrite s err ok = .hold := by
  unfold onWrite
  split
  next q h => exact .inl ⟨q, h, rfl⟩
  next q k h => exact .inr (.inl ⟨q, k, h, rfl⟩)
  all_goals exact .inr (.inr rfl)

/-- A wait is over at its loop head when DLY_CNT is 0; otherwise it aborts or holds. -/
theorem waitStep_cases (p : WaitPt) (s : State) :
    (p = .top ∧ s.hid.dlyCnt = 0 ∧ waitStep p s = .done s) ∨
    (p = .top ∧ s.hid.dlyCnt ≠ 0 ∧ s.status.abortPend = true ∧ waitStep p s = .raise .aborted 0 none s) ∨
    (p = .top ∧ s.hid.dlyCnt ≠ 0 ∧ s.status.abortPend = false ∧ waitStep p s = .goto .hold s) ∨
    (p = .hold ∧ waitStep p s = .hold) := by
  cases p with
  | hold => exact .inr (.inr (.inr ⟨rfl, rfl⟩))
  | top =>
    by_cases hd : s.hid.dlyCnt = 0
    · exact .inl ⟨rfl, hd, if_pos hd⟩
    · rcases abortPoint_cases s (Flow.goto WaitPt.hold s) with ⟨ha, h⟩ | ⟨ha, h⟩
      · exact .inr (.inl ⟨rfl, hd, ha, (if_neg hd).trans h⟩)
      · exact .inr (.inr (.inl ⟨rfl, hd, ha, (if_neg hd).trans h⟩))

/-- A command that needs the calibration file runs only while CAL_VALID is 1. -/
theorem needCal_cases {π : Type} (s : State) (go : Flow π) :
    (s.status.calValid = true ∧ needCal s go = go) ∨
    (s.status.calValid = false ∧ needCal s go = .raise .calUnavailable 0 none s) := by
  cases h : s.status.calValid <;> simp [needCal, h]

/-- A command that needs T_FINE runs only while TF_VALID is 1. -/
theorem needTfine_cases {π : Type} (s : State) (go : Flow π) :
    (s.status.tfValid = true ∧ needTfine s go = go) ∨
    (s.status.tfValid = false ∧ needTfine s go = .raise .orderViolation 0 none s) := by
  cases h : s.status.tfValid <;> simp [needTfine, h]

/-! ### The agents -/

/-- A write to CMD requests an abort, is dropped, is accepted, or is recorded as illegal. -/
theorem writeCmd_cases (w : Word) (s : State) :
    (s.status.busy = true ∧ w = encode .abort ∧ writeCmd w s = requestAbort s) ∨
    (s.status.busy = true ∧ w ≠ encode .abort ∧
      writeCmd w s = { s with status := { s.status with cmdDropped := true } }) ∨
    (s.status.busy = false ∧ (∃ i, decode w = .legal i) ∧ writeCmd w s = accept w s) ∨
    (s.status.busy = false ∧ (∃ y, decode w = .illegal y) ∧
      writeCmd w s = recordError .illegalCommand { addr := opcodeOf w, kind := none, sample := 0 } s) := by
  unfold writeCmd
  split
  next hb =>
    split
    next hw => exact .inl ⟨hb, hw, rfl⟩
    next hw => exact .inr (.inl ⟨hb, hw, rfl⟩)
  next hb =>
    have hb : s.status.busy = false := by simpa using hb
    split
    next i hi => exact .inr (.inr (.inl ⟨hb, ⟨i, hi⟩, rfl⟩))
    next y hy => exact .inr (.inr (.inr ⟨hb, ⟨y, hy⟩, rfl⟩))

/-- The sensor bus answers the transaction in flight, or its answer is discarded. -/
theorem busStep_cases (n : Nat) (r : BusResp) (s : State) :
    (∃ q, s.hid.bus = .inFlight q ∧ n = s.env.trace.length ∧ r.fits q = true ∧
      busStep n r s = { s with
        hid := { s.hid with bus := .answered q r }, env := { s.env with trace := s.env.trace ++ [⟨q, some r⟩] } }) ∨
    busStep n r s = s := by
  unfold busStep
  split
  next q hq =>
    split
    next h =>
      simp only [Bool.and_eq_true, beq_iff_eq] at h
      exact .inl ⟨q, hq, h.1, h.2, rfl⟩
    next => exact .inr rfl
  all_goals exact .inr rfl

/-- A tick at a wait counts, unless the wait is over or an abort is due. -/
theorem waitTick_cases (p : WaitPt) (s : State) :
    waitTick p s = none ∨
    ((p = .hold ∨ (s.hid.dlyCnt ≠ 0 ∧ s.status.abortPend = false)) ∧
      waitTick p s = some (s.loadDelay (s.hid.dlyCnt - 1))) := by
  cases p with
  | hold => exact .inr ⟨.inl rfl, rfl⟩
  | top =>
    by_cases h : s.hid.dlyCnt = 0 ∨ s.status.abortPend = true
    · exact .inl (if_pos (by simpa using h))
    · obtain ⟨h1, h2⟩ := not_or.mp h
      exact .inr ⟨.inr ⟨h1, by simpa using h2⟩, if_neg (by simpa using h)⟩

/-- A tick changes only DLY_CNT, and only at a wait, whose loop begins again. -/
theorem tickStep_cases (s : State) :
    tickStep s = s ∨
    (∃ k p, s.hid.pos.point = .wait k p ∧ (p = .hold ∨ (s.hid.dlyCnt ≠ 0 ∧ s.status.abortPend = false)) ∧
      tickStep s = (s.loadDelay (s.hid.dlyCnt - 1)).goto (.wait k .top)) ∨
    (∃ p, s.hid.pos.point = .trig (.poll p) ∧ (p = .hold ∨ (s.hid.dlyCnt ≠ 0 ∧ s.status.abortPend = false)) ∧
      tickStep s = (s.loadDelay (s.hid.dlyCnt - 1)).goto (.trig (.poll .top))) := by
  unfold tickStep
  split
  next k p hp =>
    rcases waitTick_cases p s with h | ⟨hc, h⟩ <;> rw [h]
    · exact .inl rfl
    · exact .inr (.inl ⟨k, p, hp, hc, rfl⟩)
  next p hp =>
    rcases waitTick_cases p s with h | ⟨hc, h⟩ <;> rw [h]
    · exact .inl rfl
    · exact .inr (.inr ⟨p, hp, hc, rfl⟩)
  next => exact .inl rfl

/-- The sink takes the record offered, or there is none. -/
theorem sinkStep_cases (s : State) :
    (∃ r, s.hid.outPend = some r ∧ sinkStep s =
      { s with hid := { s.hid with outPend := none }, env := { s.env with sinkLog := s.env.sinkLog ++ [r] } }) ∨
    (s.hid.outPend = none ∧ sinkStep s = s) := by
  unfold sinkStep
  split
  next r h => exact .inl ⟨r, h, rfl⟩
  next h => exact .inr ⟨h, rfl⟩

/-! ### The step -/

/-- A step is the next event, with that event taken from the order. -/
theorem step_eq (s : State) : step s = eventStep (nextEvent s) s.takeEvent := rfl

/-- The engine's turn: nothing between commands, otherwise the next step of the command in CMD_CUR. -/
theorem engineTurn_next {s t : State} (h : engineTurn s = .next t) :
    (s.status.busy = false ∧ t = s) ∨
    (s.status.busy = true ∧ ∃ i, decode s.hid.cmdCur = .legal i ∧ exec i s = .next t) := by
  unfold engineTurn at h
  split at h
  next hb =>
    split at h
    next i hi => exact .inr ⟨hb, i, hi, h⟩
    next => cases h
  next hb => cases h; exact .inl ⟨by simpa using hb, rfl⟩

end Sys2Proof.Machine
end

