-- ==== Sys2Proof/Laws/Bodies.lean ====
section
/-! SUPPORT. What one step of a command body keeps, said once for every body: the registers no body writes, and the
agreement of position, bus, trigger state and delay counter. -/

namespace Sys2Proof.Machine

/-- What no step of a body other than RUN's own changes, and what every one of them keeps. -/
structure BodyFrame (s t : State) : Prop where
  busy : t.status.busy = s.status.busy
  err : t.status.err = s.status.err
  errCode : t.status.errCode = s.status.errCode
  cmdDropped : t.status.cmdDropped = s.status.cmdDropped
  abortPend : t.status.abortPend = s.status.abortPend
  fsm : t.status.fsm = s.status.fsm
  curOp : t.status.curOp = s.status.curOp
  ovf : s.status.ovf = true → t.status.ovf = true
  errInfo : t.errInfo = s.errInfo
  ctl : t.ctl = s.ctl
  sampleIdx : t.agg.sampleIdx = s.agg.sampleIdx
  cmdCur : t.hid.cmdCur = s.hid.cmdCur
  pos : t.hid.pos = s.hid.pos
  lN : t.hid.lN = s.hid.lN
  lSdelay : t.hid.lSdelay = s.hid.lSdelay
  lSettle : t.hid.lSettle = s.hid.lSettle
  lBudget : t.hid.lBudget = s.hid.lBudget
  outPend : t.hid.outPend = s.hid.outPend
  abortReq : t.hid.abortReq = s.hid.abortReq
  env : t.env = s.env
  tfValid : (s.status.tfValid = true → s.status.calValid = true) → t.status.tfValid = true → t.status.calValid = true
  humidity : (0 ≤ s.res.compH.toInt ∧ s.res.compH.toInt ≤ 100000) →
    0 ≤ t.res.compH.toInt ∧ t.res.compH.toInt ≤ 100000

/-- A body step's contract: it keeps `BodyFrame`; where it goes on, bus, trigger state and delay counter agree with the
new position; where it ends, no transaction, trigger or wait is left; where it raises, no transaction is left. -/
def BodyOk {π : Type} (here : π → Point) (s : State) (f : Flow π) : Prop :=
  match f with
  | .goto p t => BodyFrame s t ∧ busAgrees (here p) t.hid.bus = true ∧ trigAgrees (here p) t.status.trig = true ∧
      delayAgrees (here p) t.hid.dlyCnt = true
  | .done t => BodyFrame s t ∧ t.hid.bus = .quiet ∧ t.status.trig = .idle ∧ t.hid.dlyCnt = 0
  | .raise e _ _ t => BodyFrame s t ∧ t.hid.bus = .quiet ∧ e ≠ .noError
  | .hold => True

/-- Bus, trigger state and delay counter agree with a position. -/
def At (p : Point) (s : State) : Prop :=
  busAgrees p s.hid.bus = true ∧ trigAgrees p s.status.trig = true ∧ delayAgrees p s.hid.dlyCnt = true

theorem BodyFrame.refl (s : State) : BodyFrame s s := by
  constructor <;> simp

theorem abortPoint_ok {π : Type} {here : π → Point} {s : State} {go : Flow π} (hb : s.hid.bus = .quiet)
    (h : BodyOk here s go) : BodyOk here s (abortPoint s go) := by
  rcases abortPoint_cases s go with ⟨-, e⟩ | ⟨-, e⟩ <;> rw [e]
  · exact ⟨.refl s, hb, by simp⟩
  · exact h

/-- No transaction is in flight at a position that waits for none. -/
theorem quiet_of_agrees {p : Point} {b : Bus} (hn : awaited p = none) (h : busAgrees p b = true) : b = .quiet := by
  cases b <;> simp_all [busAgrees]

theorem issueAt_ok {π : Type} {here : π → Point} {s : State} {r : BusReq} {p : π} (hb : s.hid.bus = .quiet)
    (hp : awaited (here p) = some r.shape) (ht : trigAgrees (here p) s.status.trig = true)
    (hd : delayAgrees (here p) s.hid.dlyCnt = true) : BodyOk here s (issueAt r p s) :=
  abortPoint_ok hb ⟨by constructor <;> simp, by simp [busAgrees, hp], by simpa using ht, by simpa using hd⟩

theorem onRead_ok {π : Type} {here : π → Point} {s : State} {err : BusKind → State → Flow π}
    {ok : List Byte → State → Flow π} (he : ∀ k, BodyOk here s (err k s.busQuiet))
    (ho : ∀ b, BodyOk here s (ok b s.busQuiet)) : BodyOk here s (onRead s err ok) := by
  rcases onRead_cases s err ok with ⟨q, b, -, e⟩ | ⟨q, k, -, e⟩ | e <;> rw [e]
  · exact ho b
  · exact he k
  · trivial

theorem onWrite_ok {π : Type} {here : π → Point} {s : State} {err : BusKind → State → Flow π}
    {ok : State → Flow π} (he : ∀ k, BodyOk here s (err k s.busQuiet))
    (ho : BodyOk here s (ok s.busQuiet)) : BodyOk here s (onWrite s err ok) := by
  rcases onWrite_cases s err ok with ⟨q, -, e⟩ | ⟨q, k, -, e⟩ | e <;> rw [e]
  · exact ho
  · exact he k
  · trivial

theorem raise_ok {π : Type} {here : π → Point} {s : State} {e : ErrCode} {a : Byte} {k : Option BusKind}
    (he : e ≠ .noError) : BodyOk here s (.raise e a k s.busQuiet) :=
  ⟨by constructor <;> simp, rfl, he⟩

theorem raiseBus_ok {π : Type} {here : π → Point} {s : State} (a : Byte) (k : BusKind) :
    BodyOk here s (raiseBus a k s.busQuiet) :=
  raise_ok (by cases k <;> simp)

theorem calStep_ok (p : CalPt) (s : State) (h : At (.cal p) s) : BodyOk .cal s (calStep p s) := by
  obtain ⟨hb, ht, hd⟩ := h
  replace hd : s.hid.dlyCnt = 0 := by simpa [delayAgrees] using hd
  replace ht : s.status.trig = .idle := by simpa [trigAgrees] using ht
  cases p
  case invalidate =>
    have hb := quiet_of_agrees rfl hb
    exact ⟨by constructor <;> simp, by simp [hb, busAgrees, awaited], by simp [ht, trigAgrees], by simp [hd, delayAgrees]⟩
  case read1 => exact issueAt_ok (quiet_of_agrees rfl hb) rfl (by simp [ht, trigAgrees]) (by simp [hd, delayAgrees])
  case read2 => exact issueAt_ok (quiet_of_agrees rfl hb) rfl (by simp [ht, trigAgrees]) (by simp [hd, delayAgrees])
  case read3 => exact issueAt_ok (quiet_of_agrees rfl hb) rfl (by simp [ht, trigAgrees]) (by simp [hd, delayAgrees])
  case got3 =>
    simp only [calStep]
    refine onRead_ok (fun k => raise_ok (e := .calUnavailable) (by simp)) fun b => ?_
    refine ⟨?_, rfl, ht, hd⟩
    constructor <;> simp
  all_goals
    refine onRead_ok (fun k => raise_ok (e := .calUnavailable) (by simp)) fun b => ?_
    refine ⟨?_, ?_, ?_, ?_⟩
    · constructor <;> simp
    all_goals simp [ht, hd, busAgrees, awaited, trigAgrees, delayAgrees]

theorem osStep_ok (p : OsPt) (s : State) (h : At (.os p) s) : BodyOk .os s (osStep p s) := by
  obtain ⟨hb, ht, hd⟩ := h
  replace hd : s.hid.dlyCnt = 0 := by simpa [delayAgrees] using hd
  replace ht : s.status.trig = .idle := by simpa [trigAgrees] using ht
  cases p
  case readHum => exact issueAt_ok (quiet_of_agrees rfl hb) rfl (by simp [ht, trigAgrees]) (by simp [hd, delayAgrees])
  case writeHum => exact issueAt_ok (quiet_of_agrees rfl hb) rfl (by simp [ht, trigAgrees]) (by simp [hd, delayAgrees])
  case readMeas => exact issueAt_ok (quiet_of_agrees rfl hb) rfl (by simp [ht, trigAgrees]) (by simp [hd, delayAgrees])
  case writeMeas => exact issueAt_ok (quiet_of_agrees rfl hb) rfl (by simp [ht, trigAgrees]) (by simp [hd, delayAgrees])
  case wroteMeas =>
    refine onWrite_ok (raiseBus_ok _) ?_
    exact ⟨by constructor <;> simp, rfl, ht, hd⟩
  case wroteHum =>
    refine onWrite_ok (raiseBus_ok _) ?_
    refine ⟨by constructor <;> simp, ?_, ?_, ?_⟩ <;>
      simp [ht, hd, busAgrees, awaited, trigAgrees, delayAgrees]
  all_goals
    refine onRead_ok (raiseBus_ok _) fun b => ?_
    refine ⟨by constructor <;> simp, ?_, ?_, ?_⟩ <;>
      simp [ht, hd, busAgrees, awaited, trigAgrees, delayAgrees]

theorem htrStep_ok (p : HtrPt) (s : State) (h : At (.htr p) s) : BodyOk .htr s (htrStep p s) := by
  obtain ⟨hb, ht, hd⟩ := h
  replace hd : s.hid.dlyCnt = 0 := by simpa [delayAgrees] using hd
  replace ht : s.status.trig = .idle := by simpa [trigAgrees] using ht
  cases p
  case compute =>
    have hb := quiet_of_agrees rfl hb
    simp only [htrStep]
    rcases needCal_cases s _ with ⟨-, e⟩ | ⟨-, e⟩ <;> rw [e]
    · split
      · refine ⟨by constructor <;> simp_all, ?_, ?_, ?_⟩ <;> simp [hb, ht, hd, busAgrees, awaited, trigAgrees, delayAgrees]
      · exact ⟨by constructor <;> simp_all, by simp [hb], by simp⟩
    · exact ⟨.refl s, hb, by simp⟩
  case writeDur => exact issueAt_ok (quiet_of_agrees rfl hb) rfl (by simp [ht, trigAgrees]) (by simp [hd, delayAgrees])
  case writeRes => exact issueAt_ok (quiet_of_agrees rfl hb) rfl (by simp [ht, trigAgrees]) (by simp [hd, delayAgrees])
  case writeCtrl => exact issueAt_ok (quiet_of_agrees rfl hb) rfl (by simp [ht, trigAgrees]) (by simp [hd, delayAgrees])
  case wroteCtrl =>
    refine onWrite_ok (raiseBus_ok _) ?_
    exact ⟨by constructor <;> simp, rfl, ht, hd⟩
  all_goals
    refine onWrite_ok (raiseBus_ok _) ?_
    refine ⟨by constructor <;> simp, ?_, ?_, ?_⟩ <;>
      simp [ht, hd, busAgrees, awaited, trigAgrees, delayAgrees]

theorem trigDecide_ok (b : BitVec 16) (m : Byte) (s t : State) (hf : BodyFrame s t) (hb : t.hid.bus = .quiet)
    (ht : t.status.trig = .read) (hd : t.hid.dlyCnt = 0) : BodyOk .trig s (trigDecide b m t) := by
  unfold trigDecide
  split
  · exact ⟨hf, by simp [hb, busAgrees, awaited], by simp [ht, trigAgrees], by simp [hd, delayAgrees]⟩
  · split
    · exact ⟨hf, hb, by simp⟩
    · exact ⟨hf, by simp [hb, busAgrees, awaited], by simp [ht, trigAgrees], by simp [hd, delayAgrees]⟩

theorem trigStep_ok (b : BitVec 16) (p : TrigPt) (s : State) (h : At (.trig p) s) :
    BodyOk .trig s (trigStep b p s) := by
  obtain ⟨hb, ht, hd⟩ := h
  cases p
  case clear =>
    have hb := quiet_of_agrees rfl hb
    refine ⟨by constructor <;> simp, ?_, ?_, ?_⟩ <;>
      simp_all [busAgrees, awaited, trigAgrees, delayAgrees]
  case gotMode =>
    simp only [trigStep]
    refine onRead_ok (raiseBus_ok _) fun m => trigDecide_ok _ _ _ _ (by constructor <;> simp) rfl ?_ ?_
    · simpa [trigAgrees] using ht
    · simpa [delayAgrees] using hd
  case wroteSleep =>
    simp only [trigStep]
    refine onWrite_ok (raiseBus_ok _) ?_
    refine ⟨by constructor <;> simp, ?_, ?_, ?_⟩ <;>
      simp_all [busAgrees, awaited, trigAgrees, delayAgrees]
  case poll w =>
    have hb := quiet_of_agrees rfl hb
    simp only [trigStep]
    rcases waitStep_cases w s with ⟨-, h0, e⟩ | ⟨-, h0, -, e⟩ | ⟨-, h0, -, e⟩ | ⟨-, e⟩ <;> rw [e] <;>
      simp only [Flow.map, Flow.andThen]
    · exact ⟨.refl s, by simp [hb, busAgrees, awaited], by simp_all [trigAgrees], by simp [h0, delayAgrees]⟩
    · exact ⟨.refl s, hb, by simp⟩
    · exact ⟨.refl s, by simp [hb, busAgrees, awaited], by simp_all [trigAgrees], by simpa [delayAgrees] using h0⟩
    · trivial
  case wroteForce =>
    simp only [trigStep]
    refine onWrite_ok (raiseBus_ok _) ?_
    exact ⟨by constructor <;> simp, rfl, rfl, by simpa [delayAgrees] using hd⟩
  all_goals
    have hb := quiet_of_agrees rfl hb
    refine abortPoint_ok hb ⟨by constructor <;> simp, ?_, ?_, ?_⟩ <;>
      simp_all [busAgrees, awaited, trigAgrees, delayAgrees, BusReq.shape]

theorem rawStep_ok (p : RawPt) (s : State) (h : At (.raw p) s) : BodyOk .raw s (rawStep p s) := by
  obtain ⟨hb, ht, hd⟩ := h
  replace hd : s.hid.dlyCnt = 0 := by simpa [delayAgrees] using hd
  replace ht : s.status.trig = .idle := by simpa [trigAgrees] using ht
  cases p
  case read => exact issueAt_ok (quiet_of_agrees rfl hb) rfl (by simp [ht, trigAgrees]) (by simp [hd, delayAgrees])
  case got =>
    simp only [rawStep]
    refine onRead_ok (fun k => raise_ok (e := .sampleReadFailure) (by simp)) fun b => ?_
    exact ⟨by constructor <;> simp, rfl, ht, hd⟩

theorem waitStep_ok {k : WaitFor} (p : WaitPt) (s : State) (h : At (.wait k p) s) :
    BodyOk (.wait k) s (waitStep p s) := by
  obtain ⟨hb, ht, hd⟩ := h
  have hb := quiet_of_agrees rfl hb
  replace ht : s.status.trig = .idle := by simpa [trigAgrees] using ht
  rcases waitStep_cases p s with ⟨-, h0, e⟩ | ⟨-, h0, -, e⟩ | ⟨-, h0, -, e⟩ | ⟨-, e⟩ <;> rw [e]
  · exact ⟨.refl s, hb, ht, h0⟩
  · exact ⟨.refl s, hb, by simp⟩
  · exact ⟨.refl s, by simp [hb, busAgrees, awaited], by simp [ht, trigAgrees], by simpa [delayAgrees] using h0⟩
  · trivial

/-! ### The one-step bodies -/

/-- The state of a command between its transactions, with no trigger or wait in progress. -/
def Still (s : State) : Prop := s.hid.bus = .quiet ∧ s.status.trig = .idle ∧ s.hid.dlyCnt = 0

theorem rhcodeBody_ok {π : Type} {here : π → Point} (temp : Nat) (s : State) (h : Still s) :
    BodyOk here s (rhcodeBody temp s) := by
  obtain ⟨hb, ht, hd⟩ := h
  unfold rhcodeBody
  rcases needCal_cases s _ with ⟨-, e⟩ | ⟨-, e⟩ <;> rw [e]
  · split
    · exact ⟨by constructor <;> simp_all, by simp [hb], by simp [ht], by simp [hd]⟩
    · exact ⟨by constructor <;> simp_all, by simp [hb], by simp⟩
  · exact ⟨.refl s, hb, by simp⟩

theorem comptBody_ok {π : Type} {here : π → Point} (s : State) (h : Still s) : BodyOk here s (comptBody s) := by
  obtain ⟨hb, ht, hd⟩ := h
  unfold comptBody
  rcases needCal_cases s _ with ⟨hc, e⟩ | ⟨-, e⟩ <;> rw [e]
  · exact ⟨by constructor <;> simp_all, by simp [hb], by simp [ht], by simp [hd]⟩
  · exact ⟨.refl s, hb, by simp⟩

theorem comppBody_ok {π : Type} {here : π → Point} (s : State) (h : Still s) : BodyOk here s (comppBody s) := by
  obtain ⟨hb, ht, hd⟩ := h
  unfold comppBody
  rcases needCal_cases s _ with ⟨hc, e⟩ | ⟨-, e⟩ <;> rw [e]
  · rcases needTfine_cases s _ with ⟨hc, e⟩ | ⟨-, e⟩ <;> rw [e]
    · split
      · exact ⟨by constructor <;> simp_all, by simp [hb], by simp [ht], by simp [hd]⟩
      · exact ⟨by constructor <;> simp_all, by simp [hb], by simp⟩
    · exact ⟨.refl s, hb, by simp⟩
  · exact ⟨.refl s, hb, by simp⟩

/-- The clamp's value, as a 64-bit register, lies in 0 to 100000. -/
theorem clampHum_toReg (h : Checked) : 0 ≤ (clampHum h).toReg.toInt ∧ (clampHum h).toReg.toInt ≤ 100000 := by
  have hv : 0 ≤ (clampHum h).val ∧ (clampHum h).val ≤ 100000 := by
    simp only [clampHum]
    split <;> split <;> simp_all
  rw [Checked.toReg, BitVec.toInt_ofInt, Int.bmod_eq_of_le (by omega) (by omega)]
  exact hv

theorem comphBody_ok {π : Type} {here : π → Point} (s : State) (h : Still s) : BodyOk here s (comphBody s) := by
  obtain ⟨hb, ht, hd⟩ := h
  unfold comphBody
  rcases needCal_cases s _ with ⟨hc, e⟩ | ⟨-, e⟩ <;> rw [e]
  · rcases needTfine_cases s _ with ⟨hc, e⟩ | ⟨-, e⟩ <;> rw [e]
    · refine ⟨?_, by simp [hb], by simp [ht], by simp [hd]⟩
      constructor
      case humidity => exact fun _ => clampHum_toReg _
      all_goals simp_all
    · exact ⟨.refl s, hb, by simp⟩
  · exact ⟨.refl s, hb, by simp⟩

theorem andThen_goto_ok {π : Type} {here : π → Point} {s : State} {f : Flow π} {p : π} (h : BodyOk here s f)
    (hp : ∀ t, Still t → At (here p) t) : BodyOk here s (f.andThen (.goto p)) := by
  cases f with
  | goto q t => exact h
  | done t => exact ⟨h.1, hp t h.2⟩
  | raise e a k t => exact h
  | hold => trivial

theorem compStep_ok (p : CompPt) (s : State) (h : At (.comp p) s) : BodyOk .comp s (compStep p s) := by
  obtain ⟨hb, ht, hd⟩ := h
  have hs : Still s := ⟨quiet_of_agrees rfl hb, by simpa [trigAgrees] using ht, by simpa [delayAgrees] using hd⟩
  have hn : ∀ q t, Still t → At (.comp q) t := by
    rintro q t ⟨hb, ht, hd⟩
    exact ⟨by simp [hb, busAgrees, awaited], by simp [ht, trigAgrees], by simp [hd, delayAgrees]⟩
  cases p
  · exact andThen_goto_ok (comptBody_ok s hs) (hn _)
  · exact andThen_goto_ok (comppBody_ok s hs) (hn _)
  · exact comphBody_ok s hs

theorem aggclrBody_ok {π : Type} {here : π → Point} (n : BitVec 16) (s : State) (h : Still s) :
    BodyOk here s (aggclrBody n s) := by
  obtain ⟨hb, ht, hd⟩ := h
  unfold aggclrBody
  split
  · exact ⟨.refl s, hb, by simp⟩
  · exact ⟨by constructor <;> simp, hb, ht, hd⟩

theorem aggaccBody_ok {π : Type} {here : π → Point} (s : State) (h : Still s) : BodyOk here s (aggaccBody s) := by
  obtain ⟨hb, ht, hd⟩ := h
  unfold aggaccBody
  split
  · exact ⟨.refl s, hb, by simp⟩
  · exact ⟨by constructor <;> simp, hb, ht, hd⟩

theorem aggfinBody_ok {π : Type} {here : π → Point} (s : State) (h : Still s) : BodyOk here s (aggfinBody s) := by
  obtain ⟨hb, ht, hd⟩ := h
  unfold aggfinBody
  split
  · exact ⟨.refl s, hb, by simp⟩
  · split
    · exact ⟨.refl s, hb, by simp⟩
    · exact ⟨by constructor <;> simp, hb, ht, hd⟩

end Sys2Proof.Machine
end

