-- ==== Sys2Proof/Laws/Csr.lean ====
section
/-! SUPPORT. What a host access does, said once for each kind of access, and which CSR stands at each offset of R34
(10_state.md). -/

namespace Sys2Proof.Machine

/-- The HOST_LOG entry of an access, added to the state. -/
def State.answering (s : State) (a : HostAccess) (v : HostAnswer) : State :=
  { s with env := { s.env with hostLog := s.env.hostLog ++ [(a, v)] } }

/-- A 32-bit read of a mapped CSR answers its word and changes nothing else (R107 20_memory.md). -/
theorem hostStep_read {off : BitVec 12} {c : Csr} (h : csrAt off = some c) (s : State) :
    hostStep ⟨.w32, off, .read⟩ s = s.answering ⟨.w32, off, .read⟩ (.data (csrRead s c)) := by
  simp only [hostStep, HostAccess.target, hostAnswer, h, State.answering]

/-- A 32-bit write of a mapped CSR acts as `hostWrite` says and is answered `done` (R108, R109 20_memory.md). -/
theorem hostStep_write {off : BitVec 12} {c : Csr} (h : csrAt off = some c) (w : Word) (s : State) :
    hostStep ⟨.w32, off, .write w⟩ s = (hostWrite c w s).answering ⟨.w32, off, .write w⟩ .done := by
  simp only [hostStep, HostAccess.target, hostAnswer, h, State.answering]

/-- Any other access is answered `slverr` and changes nothing else (R105, R106 20_memory.md). -/
theorem hostStep_offMap {a : HostAccess} (h : a.target = none) (s : State) :
    hostStep a s = s.answering a .slverr := by
  simp only [hostStep, hostAnswer, h, State.answering]

/-- The answer to a 32-bit read of a mapped CSR. -/
theorem hostAnswer_read {off : BitVec 12} {c : Csr} (h : csrAt off = some c) (s : State) :
    hostAnswer ⟨.w32, off, .read⟩ s = .data (csrRead s c) := by
  simp only [hostAnswer, HostAccess.target, h]

/-- The host's bus shows the host the BCAE's own answer to every aligned 32-bit access. -/
theorem hostSees_aligned {off : BitVec 12} (h : off.toNat % 4 = 0) (op : HostOp) (s : State) :
    hostSees ⟨.w32, off, op⟩ s = hostAnswer ⟨.w32, off, op⟩ s := by
  simp [hostSees, h]

/-- While BUSY = 1, a write to a CSR other than CMD is ignored (R109 20_memory.md). -/
theorem hostWrite_busy {c : Csr} (hc : c ≠ .cmd) (w : Word) {s : State} (h : s.status.busy = true) :
    hostWrite c w s = s := by
  simp [hostWrite, hc, h]

/-- While BUSY = 0, a write to a CSR other than CMD is `csrWrite`. -/
theorem hostWrite_idle {c : Csr} (hc : c ≠ .cmd) (w : Word) {s : State} (h : s.status.busy = false) :
    hostWrite c w s = csrWrite c w s := by
  simp [hostWrite, hc, h]

/-- A write to CMD is `writeCmd`, whatever BUSY is. -/
@[simp] theorem hostWrite_cmd (w : Word) (s : State) : hostWrite .cmd w s = writeCmd w s := by
  simp [hostWrite]

@[simp] theorem csrAt_cmd : csrAt 0x000 = some .cmd := by decide
@[simp] theorem csrAt_status : csrAt 0x004 = some .status := by decide
@[simp] theorem csrAt_errInfo : csrAt 0x008 = some .errInfo := by decide
@[simp] theorem csrAt_window : csrAt 0x00C = some .window := by decide
@[simp] theorem csrAt_rawT : csrAt 0x024 = some .rawT := by decide

/-- A mapped offset is an entry of the CSR map. -/
theorem csrAt_mem {off : BitVec 12} {c : Csr} (h : csrAt off = some c) : (off.toNat, c) ∈ csrMap := by
  simp only [csrAt, Option.map_eq_some_iff] at h
  obtain ⟨e, he, rfl⟩ := h
  have hm := List.mem_of_find?_eq_some he
  have hp := List.find?_some he
  simp only [beq_iff_eq] at hp
  rwa [← hp]

end Sys2Proof.Machine
end

