-- ==== Sys2Proof/Laws/Runs.lean ====
section
/-! SUPPORT. How a schedule of events is played: one event at a time, the order itself changed by no event. -/

namespace Sys2Proof.Machine

/-- No write to a CSR touches the environment. -/
theorem hostWrite_env (c : Csr) (w : Word) (s : State) : (hostWrite c w s).env = s.env := by
  unfold hostWrite
  split
  · rcases writeCmd_cases w s with ⟨-, -, e⟩ | ⟨-, -, e⟩ | ⟨-, -, e⟩ | ⟨-, -, e⟩ <;> simp [e]
  · split
    · rfl
    · cases c <;> simp only [csrWrite, writeStatus]
      split <;> rfl

/-- No host access changes the events to come. -/
theorem hostStep_sched (a : HostAccess) (s : State) : (hostStep a s).env.sched = s.env.sched := by
  unfold hostStep
  dsimp only
  split
  next c w _ _ => rw [hostWrite_env]
  all_goals rfl

/-- Playing no event. -/
@[simp] theorem play_nil (s : State) : play [] s = .next (s.facing []) := rfl

@[simp] theorem nextEvent_facing (s : State) (e : Event) (es : List Event) : nextEvent (s.facing (e :: es)) = e := rfl

@[simp] theorem takeEvent_facing (s : State) (e : Event) (es : List Event) :
    (s.facing (e :: es)).takeEvent = s.facing es := rfl

@[simp] theorem facing_facing (s : State) (es fs : List Event) : (s.facing es).facing fs = s.facing fs := rfl

theorem facing_self {s : State} {es : List Event} (h : s.env.sched = es) : s.facing es = s := by
  subst h; rfl

/-- Playing an event first: it happens, and the rest is played from the state it gives. -/
theorem play_cons {s t : State} {e : Event} {es : List Event} (h : eventStep e (s.facing es) = .next t)
    (hs : t.env.sched = es) : play (e :: es) s = play es t := by
  have hstep : step (s.facing (e :: es)) = .next t := by
    rw [step_eq, nextEvent_facing, takeEvent_facing, h]
  have hplay : play (e :: es) s = steps es.length t := by
    show steps (es.length + 1) (s.facing (e :: es)) = steps es.length t
    rw [steps, hstep]
  rw [hplay, play, facing_self hs]

end Sys2Proof.Machine
end

