-- ==== Sys2Proof/Laws/Kept.lean ====
section
/-! SUPPORT. What every step of a command body keeps from ANY state (no invariant is assumed): the command, its position,
the configuration, the latches and the environment; and so what an event leaves of the environment. -/

namespace Sys2Proof.Machine

/-- What no step of a body changes by itself. -/
structure Kept (s t : State) : Prop where
  busy : t.status.busy = s.status.busy
  ctl : t.ctl = s.ctl
  cmdCur : t.hid.cmdCur = s.hid.cmdCur
  pos : t.hid.pos = s.hid.pos
  lN : t.hid.lN = s.hid.lN
  lSdelay : t.hid.lSdelay = s.hid.lSdelay
  lSettle : t.hid.lSettle = s.hid.lSettle
  env : t.env = s.env

theorem Kept.refl (s : State) : Kept s s := by constructor <;> rfl

/-- The step keeps these, however it goes on. -/
def Flow.Keeps {π : Type} (s : State) : Flow π → Prop
  | .goto _ t | .done t | .raise _ _ _ t => Kept s t
  | .hold => True

theorem abortPoint_keeps {π : Type} {s : State} {go : Flow π} (h : go.Keeps s) : (abortPoint s go).Keeps s := by
  rcases abortPoint_cases s go with ⟨-, e⟩ | ⟨-, e⟩ <;> rw [e]
  exacts [.refl s, h]

theorem issueAt_keeps {π : Type} (r : BusReq) (p : π) (s : State) : (issueAt r p s).Keeps s :=
  abortPoint_keeps (by constructor <;> rfl)

theorem onRead_keeps {π : Type} {s : State} {err : BusKind → State → Flow π} {ok : List Byte → State → Flow π}
    (he : ∀ k, (err k s.busQuiet).Keeps s) (ho : ∀ b, (ok b s.busQuiet).Keeps s) : (onRead s err ok).Keeps s := by
  rcases onRead_cases s err ok with ⟨q, b, -, e⟩ | ⟨q, k, -, e⟩ | e <;> rw [e]
  exacts [ho b, he k, trivial]

theorem onWrite_keeps {π : Type} {s : State} {err : BusKind → State → Flow π} {ok : State → Flow π}
    (he : ∀ k, (err k s.busQuiet).Keeps s) (ho : (ok s.busQuiet).Keeps s) : (onWrite s err ok).Keeps s := by
  rcases onWrite_cases s err ok with ⟨q, -, e⟩ | ⟨q, k, -, e⟩ | e <;> rw [e]
  exacts [ho, he k, trivial]

theorem needCal_keeps {π : Type} {s : State} {go : Flow π} (h : go.Keeps s) : (needCal s go).Keeps s := by
  rcases needCal_cases s go with ⟨-, e⟩ | ⟨-, e⟩ <;> rw [e]
  exacts [h, .refl s]

theorem needTfine_keeps {π : Type} {s : State} {go : Flow π} (h : go.Keeps s) : (needTfine s go).Keeps s := by
  rcases needTfine_cases s go with ⟨-, e⟩ | ⟨-, e⟩ <;> rw [e]
  exacts [h, .refl s]

theorem andThen_goto_keeps {π : Type} {s : State} {f : Flow π} {p : π} (h : f.Keeps s) :
    (f.andThen (.goto p)).Keeps s := by
  cases f <;> exact h

theorem calStep_keeps (p : CalPt) (s : State) : (calStep p s).Keeps s := by
  cases p
  case invalidate => constructor <;> rfl
  case got1 | got2 | got3 =>
    simp only [calStep]
    exact onRead_keeps (fun _ => by constructor <;> rfl) fun _ => by constructor <;> rfl
  all_goals exact issueAt_keeps ..

theorem osStep_keeps (p : OsPt) (s : State) : (osStep p s).Keeps s := by
  cases p
  case gotHum | gotMeas =>
    simp only [osStep]
    exact onRead_keeps (fun _ => by constructor <;> rfl) fun _ => by constructor <;> rfl
  case wroteHum | wroteMeas =>
    simp only [osStep]
    exact onWrite_keeps (fun _ => by constructor <;> rfl) (by constructor <;> rfl)
  all_goals exact issueAt_keeps ..

theorem htrStep_keeps (p : HtrPt) (s : State) : (htrStep p s).Keeps s := by
  cases p
  case compute =>
    refine needCal_keeps ?_
    dsimp only
    split <;> constructor <;> rfl
  case wroteDur | wroteRes | wroteCtrl =>
    simp only [htrStep]
    exact onWrite_keeps (fun _ => by constructor <;> rfl) (by constructor <;> rfl)
  all_goals exact issueAt_keeps ..

theorem waitStep_keeps (p : WaitPt) (s : State) : (waitStep p s).Keeps s := by
  rcases waitStep_cases p s with ⟨-, -, e⟩ | ⟨-, -, -, e⟩ | ⟨-, -, -, e⟩ | ⟨-, e⟩ <;> rw [e]
  exacts [.refl s, .refl s, .refl s, trivial]

theorem rhcodeBody_keeps {π : Type} (temp : Nat) (s : State) : (rhcodeBody temp s : Flow π).Keeps s := by
  refine needCal_keeps ?_
  split <;> constructor <;> rfl

theorem trigStep_keeps (b : BitVec 16) (p : TrigPt) (s : State) : (trigStep b p s).Keeps s := by
  cases p
  case clear => constructor <;> rfl
  case gotMode =>
    simp only [trigStep]
    refine onRead_keeps (fun _ => by constructor <;> rfl) fun _ => ?_
    unfold trigDecide
    split
    · constructor <;> rfl
    · split <;> constructor <;> rfl
  case wroteSleep | wroteForce =>
    simp only [trigStep]
    exact onWrite_keeps (fun _ => by constructor <;> rfl) (by constructor <;> rfl)
  case poll w =>
    have h := waitStep_keeps w s
    simp only [trigStep]
    cases hw : waitStep w s <;> rw [hw] at h <;> exact h
  all_goals exact abortPoint_keeps (by constructor <;> rfl)

theorem rawStep_keeps (p : RawPt) (s : State) : (rawStep p s).Keeps s := by
  cases p
  case read => exact issueAt_keeps ..
  case got =>
    simp only [rawStep]
    exact onRead_keeps (fun _ => by constructor <;> rfl) fun _ => by constructor <;> rfl

theorem comptBody_keeps {π : Type} (s : State) : (comptBody s : Flow π).Keeps s :=
  needCal_keeps (by constructor <;> rfl)

theorem comppBody_keeps {π : Type} (s : State) : (comppBody s : Flow π).Keeps s := by
  refine needCal_keeps (needTfine_keeps ?_)
  split <;> constructor <;> rfl

theorem comphBody_keeps {π : Type} (s : State) : (comphBody s : Flow π).Keeps s :=
  needCal_keeps (needTfine_keeps (by constructor <;> rfl))

theorem compStep_keeps (p : CompPt) (s : State) : (compStep p s).Keeps s := by
  cases p
  exacts [andThen_goto_keeps (comptBody_keeps s), andThen_goto_keeps (comppBody_keeps s), comphBody_keeps s]

theorem aggclrBody_keeps {π : Type} (n : BitVec 16) (s : State) : (aggclrBody n s : Flow π).Keeps s := by
  unfold aggclrBody
  split <;> constructor <;> rfl

theorem aggaccBody_keeps {π : Type} (s : State) : (aggaccBody s : Flow π).Keeps s := by
  unfold aggaccBody
  split <;> constructor <;> rfl

theorem aggfinBody_keeps {π : Type} (s : State) : (aggfinBody s : Flow π).Keeps s := by
  unfold aggfinBody
  split
  · constructor <;> rfl
  · split <;> constructor <;> rfl

/-! ### The environment -/

theorem finish_env {π : Type} {here : π → Point} {s t : State} {f : Flow π} (hf : f.Keeps s)
    (e : finish here s f = .next t) : t.env = s.env := by
  rcases finish_next e with ⟨p, s', rfl, rfl⟩ | ⟨s', rfl, rfl⟩ | ⟨_, _, _, s', rfl, rfl⟩ | ⟨rfl, rfl⟩
  exacts [hf.env, hf.env, hf.env, rfl]

theorem finishInRun_env {π : Type} {here : π → Point} {after : State → State} {s t : State} {f : Flow π}
    (hf : f.Keeps s) (e : finishInRun here after s f = .next t) (ha : ∀ s', (after s').env = s'.env) :
    t.env = s.env := by
  rcases finishInRun_next e with ⟨p, s', rfl, rfl⟩ | ⟨s', rfl, rfl⟩ | ⟨_, _, _, s', rfl, rfl⟩ | ⟨rfl, rfl⟩
  exacts [hf.env, (ha s').trans hf.env, hf.env, rfl]

theorem finishSample_env {π : Type} {own : ErrCode} {here : π → Point} {after : State → State} {s t : State}
    {f : Flow π} (hf : f.Keeps s) (e : finishSample own here after s f = .next t)
    (ha : ∀ s', (after s').env = s'.env) : t.env = s.env := by
  rcases finishSample_next e with
    ⟨p, s', rfl, rfl⟩ | ⟨s', rfl, rfl⟩ | ⟨a, k, s', rfl, rfl⟩ | ⟨_, _, _, s', rfl, -, rfl⟩ | ⟨rfl, rfl⟩
  exacts [hf.env, (ha s').trans hf.env, hf.env, hf.env, rfl]

theorem enterLoop_env (i : Nat) (s : State) : (enterLoop i s).env = s.env := by
  unfold enterLoop
  split <;> rfl

theorem loadWait_keeps (k : WaitFor) (ms : BitVec 16) (s : State) : (loadWait k ms s).Keeps s :=
  abortPoint_keeps (by constructor <;> rfl)

theorem runStart_keeps_env {s t : State} (e : finishInRun id id s (runStart s) = .next t) : t.env = s.env := by
  unfold runStart at e
  dsimp only at e
  split at e
  · cases e; rfl
  · split at e <;> cases e <;> rfl

theorem runStep_env {p : RunPt} {s t : State} (e : runStep p s = .next t) : t.env = s.env := by
  cases p <;> simp only [runStep] at e
  case aggClr => exact finishInRun_env (aggclrBody_keeps ..) e (enterLoop_env 0)
  case aggAcc => exact finishInRun_env (aggaccBody_keeps s) e fun _ => rfl
  case aggFin => exact finishInRun_env (aggfinBody_keeps s) e fun _ => rfl
  case sampleEnd => cases e; exact enterLoop_env ..
  case delayLoad | settleLoad | final1Load | final2Load => exact finishInRun_env (loadWait_keeps ..) e fun _ => rfl
  all_goals cases e; rfl

/-- A RUN's step does not touch the environment. -/
theorem execRun_env {s t : State} (e : execRun s = .next t) : t.env = s.env := by
  rcases unlessOffering_next e with ⟨-, rfl⟩ | ⟨-, e⟩
  · rfl
  cases hp : s.hid.pos.point <;> simp only [hp] at e
  case noCommand => cases e
  case start => exact runStart_keeps_env e
  case cal => exact finishInRun_env (calStep_keeps ..) e fun _ => rfl
  case os => exact finishInRun_env (osStep_keeps ..) e fun _ => rfl
  case htr => exact finishInRun_env (htrStep_keeps ..) e fun _ => rfl
  case trig => exact finishInRun_env (trigStep_keeps ..) e fun _ => rfl
  case raw => exact finishSample_env (rawStep_keeps ..) e fun _ => rfl
  case comp => exact finishSample_env (compStep_keeps ..) e fun _ => rfl
  case wait k p =>
    cases k
    case command => cases e
    all_goals exact finishInRun_env (waitStep_keeps ..) e fun _ => rfl
  case run => exact runStep_env e

/-- A held engine changes nothing. -/
theorem unlessOffering_env {s t : State} {o : Result} (e : unlessOffering s o = .next t)
    (h : o = .next t → t.env = s.env) : t.env = s.env := by
  rcases unlessOffering_next e with ⟨-, rfl⟩ | ⟨-, e⟩
  exacts [rfl, h e]

/-- No command's step touches the environment but SRESET's, which is the reset procedure. -/
theorem exec_env {i : Instr} {s t : State} (e : exec i s = .next t) :
    t.env = s.env ∨ (i = .sreset ∧ t = resetProcedure s) := by
  cases i
  case sreset =>
    cases hp : s.hid.pos.point <;> simp only [exec, execSreset, hp] at e <;> cases e
    exact .inr ⟨rfl, rfl⟩
  case run => exact .inl (execRun_env e)
  all_goals
    refine .inl (unlessOffering_env e fun e => ?_)
    cases hp : s.hid.pos.point <;> simp only [hp] at e <;> try cases e
  case loadcal.cal => exact finish_env (calStep_keeps ..) e
  case cfgos.start | cfgos.os => exact finish_env (osStep_keeps ..) e
  case cfghtr.start | cfghtr.htr => exact finish_env (htrStep_keeps ..) e
  case trig.trig => exact finish_env (trigStep_keeps ..) e
  case rhcode.start => exact finish_env (rhcodeBody_keeps ..) e
  case compt.start => exact finish_env (comptBody_keeps s) e
  case compp.start => exact finish_env (comppBody_keeps s) e
  case comph.start => exact finish_env (comphBody_keeps s) e
  case compall.start | compall.comp => exact finish_env (compStep_keeps ..) e
  case readraw.start | readraw.raw => exact finish_env (rawStep_keeps ..) e
  case aggclr.start => exact finish_env (aggclrBody_keeps ..) e
  case aggacc.start => exact finish_env (aggaccBody_keeps s) e
  case aggfin.start => exact finish_env (aggfinBody_keeps s) e
  case wait.wait k p =>
    cases k
    case command => exact finish_env (waitStep_keeps ..) e
    all_goals cases e
  all_goals rfl

/-- No host access changes the bus trace. -/
theorem hostStep_trace (a : HostAccess) (s : State) : (hostStep a s).env.trace = s.env.trace := by
  unfold hostStep
  dsimp only
  split
  next c w _ _ => rw [hostWrite_env]
  all_goals rfl

/-- An event changes nothing of the events to come, and only adds to the bus trace. -/
theorem eventStep_env {e : Event} {s t : State} (h : eventStep e s = .next t) :
    t.env.sched = s.env.sched ∧ s.env.trace <+: t.env.trace := by
  cases e <;> simp only [eventStep] at h
  case engine =>
    rcases engineTurn_next h with ⟨-, rfl⟩ | ⟨-, i, -, h⟩
    · exact ⟨rfl, List.prefix_rfl⟩
    · rcases exec_env h with he | ⟨-, rfl⟩
      · rw [he]; exact ⟨rfl, List.prefix_rfl⟩
      · exact ⟨rfl, List.prefix_append ..⟩
  case host a => cases h; exact ⟨hostStep_sched .., by rw [hostStep_trace]⟩
  case bus n r =>
    cases h
    rcases busStep_cases n r s with ⟨q, -, -, -, e⟩ | e <;> rw [e]
    exacts [⟨rfl, List.prefix_append ..⟩, ⟨rfl, List.prefix_rfl⟩]
  case tick =>
    cases h
    rcases tickStep_cases s with e | ⟨k, p, -, -, e⟩ | ⟨p, -, -, e⟩ <;> rw [e] <;> exact ⟨rfl, List.prefix_rfl⟩
  case sinkAccept =>
    cases h
    rcases sinkStep_cases s with ⟨r, -, e⟩ | ⟨-, e⟩ <;> rw [e] <;> exact ⟨rfl, List.prefix_rfl⟩
  case powerOn => cases h; exact ⟨rfl, List.prefix_append ..⟩

end Sys2Proof.Machine
end

