-- ==== Sys2Proof/Laws/PerInstr.lean ====
section
/-! SUPPORT. Facts of every command as syntax, one lemma per constructor: where its fields stand in its word (R151, R155
30_encoding.md). -/

namespace Sys2Proof.Laws.WordFields

/-- The opcode stands in bits 31:24 of the command's word, bits 23:16 are 0, and a well-formed command's immediate (0
where it has none) is the whole of bits 15:0. -/
def Statement (i : Instr) : Prop :=
  opcodeOf (encode i) = i.opcode ∧ (encode i).extractLsb' 16 8 = 0 ∧
    (i.WellFormed → imm16Of (encode i) = i.imm16.getD 0)

/-- The fields of a word put together from an opcode and an immediate. -/
theorem fields (op : Byte) (v : BitVec 16) :
    opcodeOf (op ++ (0 : BitVec 8) ++ v) = op ∧ (op ++ (0 : BitVec 8) ++ v : Word).extractLsb' 16 8 = 0 ∧
      imm16Of (op ++ (0 : BitVec 8) ++ v) = v.toNat := by
  have key : ∀ n, (op ++ (0 : BitVec 8) ++ v : BitVec (8 + 8 + 16)).getLsbD n =
      if n < 16 then v.getLsbD n else if n < 24 then false else op.getLsbD (n - 24) := fun n => by
    rw [BitVec.getLsbD_append, BitVec.getLsbD_append]
    by_cases h : n < 16
    · simp [h]
    · by_cases h' : n < 24
      · simp [h, h', show n - 16 < 8 by omega]
      · simp [h, h', show ¬n - 16 < 8 by omega, show n - 16 - 8 = n - 24 by omega]
  refine ⟨?_, ?_, congrArg BitVec.toNat ?_⟩ <;> refine BitVec.eq_of_getLsbD_eq fun j hj => ?_ <;>
    (refine (BitVec.getLsbD_extractLsb' ..).trans ?_; rw [key])
  · simp [hj, show ¬24 + j < 16 by omega]
  · simp [hj, show 16 + j < 24 by omega]
  · simp [hj]

/-- A command without an immediate. -/
theorem statement_of_none {i : Instr} (h : i.imm16 = none) : Statement i := by
  obtain ⟨h1, h2, h3⟩ := fields i.opcode (BitVec.ofNat 16 (i.imm16.getD 0))
  exact ⟨h1, h2, fun _ => h3.trans (by simp [h])⟩

/-- A command with an immediate. -/
theorem statement_of_some {i : Instr} {n : Nat} (h : i.imm16 = some n) : Statement i := by
  obtain ⟨h1, h2, h3⟩ := fields i.opcode (BitVec.ofNat 16 (i.imm16.getD 0))
  refine ⟨h1, h2, fun w => h3.trans ?_⟩
  simp only [Instr.WellFormed, h, Option.getD_some] at w ⊢
  rw [BitVec.toNat_ofNat, Nat.mod_eq_of_lt (by omega)]

theorem nop : Statement .nop := statement_of_none rfl
theorem sreset : Statement .sreset := statement_of_none rfl
theorem abort : Statement .abort := statement_of_none rfl
theorem wait (ms : Nat) : Statement (.wait ms) := statement_of_some rfl
theorem loadcal : Statement .loadcal := statement_of_none rfl
theorem cfgos : Statement .cfgos := statement_of_none rfl
theorem cfghtr : Statement .cfghtr := statement_of_none rfl
theorem trig : Statement .trig := statement_of_none rfl
theorem gwcode (dur : Nat) : Statement (.gwcode dur) := statement_of_some rfl
theorem rhcode (temp : Nat) : Statement (.rhcode temp) := statement_of_some rfl
theorem compt : Statement .compt := statement_of_none rfl
theorem compp : Statement .compp := statement_of_none rfl
theorem comph : Statement .comph := statement_of_none rfl
theorem compall : Statement .compall := statement_of_none rfl
theorem readraw : Statement .readraw := statement_of_none rfl
theorem aggclr : Statement .aggclr := statement_of_none rfl
theorem aggacc : Statement .aggacc := statement_of_none rfl
theorem aggfin : Statement .aggfin := statement_of_none rfl
theorem run : Statement .run := statement_of_none rfl

end Sys2Proof.Laws.WordFields
end

