-- ==== Sys2Proof/Laws/Ticks.lean ====
section
/-! SUPPORT. How many ticks a RUN still needs at each of its positions, and that no engine step takes one away. -/

namespace Sys2Proof.Machine

/-! ### The ticks a RUN still needs (R471 70_reset_and_hazards.md) -/

/-- The ticks of the samples after sample i, and of the two final waits. -/
def State.ticksAfter (s : State) (i : Nat) : Nat :=
  (s.hid.lN.toNat - (i + 1)) * (s.hid.lSdelay.toNat + s.hid.lSettle.toNat) + 2 * s.hid.lSettle.toNat

/-- The ticks a RUN still needs, by its position. -/
def State.ticksDue (s : State) : Nat :=
  let i := s.hid.pos.sample.getD 0
  let delay := s.hid.lSdelay.toNat
  let settle := s.hid.lSettle.toNat
  let dly := s.hid.dlyCnt.toNat
  match s.hid.pos.point with
  | .noCommand | .wait .command _ => 0
  | .start => s.ctl.window.toNat * (s.ctl.sampleDelay.toNat + s.ctl.settle.toNat) + 2 * s.ctl.settle.toNat
  | .cal _ | .os _ | .htr _ | .run .aggClr => s.hid.lN.toNat * (delay + settle) + 2 * settle
  | .run .delayLoad => delay + settle + s.ticksAfter i
  | .wait .delay _ => dly + settle + s.ticksAfter i
  | .trig _ | .run .settleLoad => settle + s.ticksAfter i
  | .wait .settle _ => dly + s.ticksAfter i
  | .raw _ | .comp _ | .run .aggAcc | .run .emitT | .run .emitP | .run .sampleEnd => s.ticksAfter i
  | .run .final1Load => 2 * settle
  | .wait .final1 _ => dly + settle
  | .run .aggFin | .run .emitRmsT | .run .emitRmsP | .run .final2Load => settle
  | .wait .final2 _ => dly

/-- A RUN executes, at a position of its body. -/
structure InRun (s : State) : Prop where
  busy : s.status.busy = true
  cmd : decode s.hid.cmdCur = .legal .run
  home : atHome .run s.hid.pos.point = true

/-- A RUN is under way that needs `n` more ticks, or it is over: by an error, or with none needed. -/
def Owes (n : Nat) (s : State) : Prop :=
  (InRun s ∧ n ≤ s.ticksDue) ∨ (s.status.busy = false ∧ (s.status.err = true ∨ n = 0))

/-- A step that keeps the run and owes no less. -/
theorem owes_goto {s s' : State} {p : Point} (h : InRun s) (hk : Kept s s') (hp : atHome .run p = true)
    (hd : s.ticksDue ≤ (s'.goto p).ticksDue) : Owes s.ticksDue (s'.goto p) :=
  .inl ⟨⟨hk.busy.trans h.busy, by rw [State.goto_hid]; exact hk.cmdCur ▸ h.cmd, hp⟩, hd⟩

/-- A fatal error ends the run. -/
theorem owes_takeError {n : Nat} (e : ErrCode) (a : Byte) (k : Option BusKind) (s : State) :
    Owes n (takeError true e a k s) := .inr ⟨rfl, .inl rfl⟩

/-- A step inside a body of RUN: it owes no less at the body's next position, or where RUN goes on after it. -/
theorem owes_finishInRun {π : Type} {here : π → Point} {after : State → State} {s t : State} {f : Flow π}
    (h : InRun s) (hf : f.Keeps s)
    (hd : ∀ p s', Kept s s' → f = .goto p s' → atHome .run (here p) = true ∧ s.ticksDue ≤ (s'.goto (here p)).ticksDue)
    (ha : ∀ s', Kept s s' → Owes s.ticksDue (after s'))
    (e : finishInRun here after s f = .next t) : Owes s.ticksDue t := by
  rcases finishInRun_next e with ⟨p, s', rfl, rfl⟩ | ⟨s', rfl, rfl⟩ | ⟨_, _, _, s', rfl, rfl⟩ | ⟨rfl, rfl⟩
  · exact owes_goto h hf (hd p s' hf rfl).1 (hd p s' hf rfl).2
  · exact ha s' hf
  · exact owes_takeError ..
  · exact .inl ⟨h, le_rfl⟩

/-- A body of one step. -/
theorem owes_oneStep {after : State → State} {s t : State} {f : Flow Point} (h : InRun s) (hf : f.Keeps s)
    (hg : ∀ p s', f ≠ .goto p s') (ha : ∀ s', Kept s s' → Owes s.ticksDue (after s'))
    (e : finishInRun id after s f = .next t) : Owes s.ticksDue t :=
  owes_finishInRun h hf (fun p s' _ hf => absurd hf (hg p s')) ha e

/-- The head of the loop, for sample i: what is due is the samples from i on and the final waits. -/
theorem owes_enterLoop {s s' : State} {i : Nat} (h : InRun s) (hk : Kept s s')
    (hd : s.ticksDue ≤ (s.hid.lN.toNat - i) * (s.hid.lSdelay.toNat + s.hid.lSettle.toNat) + 2 * s.hid.lSettle.toNat) :
    Owes s.ticksDue (enterLoop i s') := by
  refine .inl ⟨?_, hd.trans ?_⟩
  · unfold enterLoop
    split <;> exact ⟨hk.busy.trans h.busy, hk.cmdCur ▸ h.cmd, rfl⟩
  · unfold enterLoop
    rw [hk.lN]
    split
    next hi =>
      obtain ⟨k, hn⟩ : ∃ k, s.hid.lN.toNat - i = k + 1 := ⟨s.hid.lN.toNat - i - 1, by omega⟩
      have hn' : s.hid.lN.toNat - (i + 1) = k := by omega
      simp only [State.ticksDue, State.ticksAfter, enterDelaying_hid, hk.lN, hk.lSdelay, hk.lSettle, Option.getD_some, hn,
        hn', Nat.succ_mul]
      omega
    next hi =>
      have hn : s.hid.lN.toNat - i = 0 := by omega
      simp [State.ticksDue, hk.lSettle, hn]

/-- The step that begins a RUN owes what its latches give. -/
theorem owes_start {s t : State} (h : InRun s) (hp : s.hid.pos.point = .start)
    (e : finishInRun id id s (runStart s) = .next t) : Owes s.ticksDue t := by
  unfold runStart at e
  dsimp only at e
  split at e
  · cases e; exact owes_takeError ..
  · split at e <;> cases e <;> exact .inl ⟨⟨h.busy, h.cmd, rfl⟩, by simp [State.ticksDue, hp]⟩

/-- A sample's body: its own error leads to the end of the sample. -/
theorem owes_finishSample {π : Type} {own : ErrCode} {here : π → Point} {after : State → State} {s t : State} {f : Flow π}
    (h : InRun s) (hf : f.Keeps s) (hp : ∀ p, atHome .run (here p) = true)
    (hd : ∀ p s', Kept s s' → s.ticksDue ≤ (s'.goto (here p)).ticksDue)
    (hs : ∀ s', Kept s s' → s.ticksDue ≤ (s'.goto (.run .sampleEnd)).ticksDue)
    (ha : ∀ s', Kept s s' → Owes s.ticksDue (after s'))
    (e : finishSample own here after s f = .next t) : Owes s.ticksDue t := by
  rcases finishSample_next e with
    ⟨p, s', rfl, rfl⟩ | ⟨s', rfl, rfl⟩ | ⟨a, k, s', rfl, rfl⟩ | ⟨_, _, _, s', rfl, -, rfl⟩ | ⟨rfl, rfl⟩
  · exact owes_goto h hf (hp p) (hd p s' hf)
  · exact ha s' hf
  · have hk : Kept s (s'.emit .sampleErr (sampleErrPayload own a k (s'.hid.pos.sample.getD 0))) :=
      ⟨hf.1, hf.2, hf.3, hf.4, hf.5, hf.6, hf.7, hf.8⟩
    exact owes_goto h hk rfl (hs _ hk)
  · exact owes_takeError ..
  · exact .inl ⟨h, le_rfl⟩

/-- A step of one of RUN's waits: it is over, is aborted, or goes on with as much due. -/
theorem owes_wait {k : WaitFor} {p : WaitPt} {after : State → State} {s t : State} (h : InRun s)
    (hk : atHome .run (.wait k .hold) = true) (hp : s.hid.pos.point = .wait k p)
    (ha : s.hid.dlyCnt = 0 → Owes s.ticksDue (after s))
    (e : finishInRun (.wait k) after s (waitStep p s) = .next t) : Owes s.ticksDue t := by
  rcases waitStep_cases p s with ⟨-, h0, hw⟩ | ⟨-, -, -, hw⟩ | ⟨-, -, -, hw⟩ | ⟨-, hw⟩ <;> rw [hw] at e <;> cases e
  · exact ha h0
  · exact owes_takeError ..
  · refine owes_goto h (.refl s) hk ?_
    cases k <;> simp [State.ticksDue, State.ticksAfter, hp]
  · exact .inl ⟨h, le_rfl⟩

/-- An engine step of a RUN takes no tick from what it owes: it leads to a step of the same RUN that is owed at least as
many, or the run is over, by an error or with no tick due. -/
theorem execRun_owes {s t : State} (h : InRun s) (e : execRun s = .next t) : Owes s.ticksDue t := by
  rcases unlessOffering_next e with ⟨-, rfl⟩ | ⟨-, e⟩
  · exact .inl ⟨h, le_rfl⟩
  have enter {s' : State} (hk : Kept s s') (f : Fsm) : Kept s (s'.enter f) :=
    ⟨hk.1, hk.2, hk.3, hk.4, hk.5, hk.6, hk.7, hk.8⟩
  cases hp : s.hid.pos.point <;> simp only [hp] at e
  case noCommand => cases e
  case start => exact owes_start h hp e
  case cal p =>
    refine owes_finishInRun h (calStep_keeps ..) (fun p' s' hk _ => ⟨rfl, ?_⟩)
      (fun s' hk => owes_goto h hk rfl ?_) e <;>
    simp [State.ticksDue, hp, hk.lN, hk.lSdelay, hk.lSettle]
  case os p =>
    refine owes_finishInRun h (osStep_keeps ..) (fun p' s' hk _ => ⟨rfl, ?_⟩)
      (fun s' hk => owes_goto h hk rfl ?_) e <;>
    simp [State.ticksDue, hp, hk.lN, hk.lSdelay, hk.lSettle]
  case htr p =>
    refine owes_finishInRun h (htrStep_keeps ..) (fun p' s' hk _ => ⟨rfl, ?_⟩)
      (fun s' hk => owes_goto h hk rfl ?_) e <;>
    simp [State.ticksDue, hp, hk.lN, hk.lSdelay, hk.lSettle]
  case trig p =>
    refine owes_finishInRun h (trigStep_keeps ..) (fun p' s' hk _ => ⟨rfl, ?_⟩)
      (fun s' hk => owes_goto h (enter hk .settling) rfl ?_) e <;>
    simp [State.ticksDue, State.ticksAfter, hp, hk.pos, hk.lN, hk.lSdelay, hk.lSettle]
  case raw p =>
    refine owes_finishSample h (rawStep_keeps ..) (fun _ => rfl) (fun p' s' hk => ?_) (fun s' hk => ?_)
      (fun s' hk => owes_goto h (enter hk .compensating) rfl ?_) e <;>
    simp [State.ticksDue, State.ticksAfter, hp, hk.pos, hk.lN, hk.lSdelay, hk.lSettle]
  case comp p =>
    refine owes_finishSample h (compStep_keeps ..) (fun _ => rfl) (fun p' s' hk => ?_) (fun s' hk => ?_)
      (fun s' hk => owes_goto h (enter hk .aggregating) rfl ?_) e <;>
    simp [State.ticksDue, State.ticksAfter, hp, hk.pos, hk.lN, hk.lSdelay, hk.lSettle]
  case wait k p =>
    cases k
    case command => cases e
    case delay =>
      refine owes_wait h rfl hp (fun h0 => owes_goto h (enter (.refl s) .triggering) rfl ?_) e
      simp [State.ticksDue, State.ticksAfter, hp, h0]
    case settle =>
      refine owes_wait h rfl hp (fun h0 => owes_goto h (enter (.refl s) .reading) rfl ?_) e
      simp [State.ticksDue, State.ticksAfter, hp, h0]
    case final1 =>
      refine owes_wait h rfl hp (fun h0 => owes_goto h (.refl s) rfl ?_) e
      simp [State.ticksDue, hp, h0]
    case final2 =>
      exact owes_wait h rfl hp (fun h0 => .inr ⟨rfl, .inr (by simp [State.ticksDue, hp, h0])⟩) e
  case run p =>
    have load {s : State} {k : WaitFor} {ms : BitVec 16} {t : State} (h : InRun s)
        (hk : atHome .run (.wait k .top) = true)
        (hd : s.ticksDue ≤ ((s.loadDelay ms).goto (.wait k .top)).ticksDue)
        (e : finishInRun id id s (loadWait k ms s) = .next t) : Owes s.ticksDue t := by
      unfold loadWait at e
      rcases abortPoint_cases s (Flow.goto (Point.wait k .top) (s.loadDelay ms)) with ⟨-, hw⟩ | ⟨-, hw⟩ <;>
        rw [hw] at e <;> cases e
      · exact owes_takeError ..
      · exact owes_goto h ⟨rfl, rfl, rfl, rfl, rfl, rfl, rfl, rfl⟩ hk hd
    cases p <;> simp only [runStep] at e
    case aggClr =>
      refine owes_oneStep h (aggclrBody_keeps ..) (fun p' s' => ?_) (fun s' hk => owes_enterLoop h hk ?_) e
      · unfold aggclrBody; split <;> simp
      · simp [State.ticksDue, hp]
    case aggAcc =>
      refine owes_oneStep h (aggaccBody_keeps s) (fun p' s' => ?_) (fun s' hk => owes_goto h hk rfl ?_) e
      · unfold aggaccBody; split <;> simp
      · simp [State.ticksDue, State.ticksAfter, hp, hk.pos, hk.lN, hk.lSdelay, hk.lSettle]
    case aggFin =>
      refine owes_oneStep h (aggfinBody_keeps s) (fun p' s' => ?_) (fun s' hk => owes_goto h hk rfl ?_) e
      · unfold aggfinBody; split
        · simp
        · split <;> simp
      · simp [State.ticksDue, hp, hk.lSettle]
    case sampleEnd =>
      cases e
      exact owes_enterLoop h (.refl s) (by simp [State.ticksDue, State.ticksAfter, hp])
    case emitT | emitP | emitRmsT | emitRmsP =>
      cases e
      refine owes_goto h ⟨rfl, rfl, rfl, rfl, rfl, rfl, rfl, rfl⟩ rfl ?_
      simp [State.ticksDue, State.ticksAfter, hp]
    case delayLoad => exact load h rfl (by simp [State.ticksDue, State.ticksAfter, hp]) e
    case settleLoad => exact load h rfl (by simp [State.ticksDue, State.ticksAfter, hp]) e
    case final1Load => exact load h rfl (by simp [State.ticksDue, hp]; omega) e
    case final2Load => exact load h rfl (by simp [State.ticksDue, hp]) e

/-- A RUN never stops at a position of its body. -/
theorem execRun_answers {s : State} (h : InRun s) : ∃ t, execRun s = .next t := by
  have hh := h.home
  unfold execRun unlessOffering
  split
  · exact ⟨_, rfl⟩
  cases hp : s.hid.pos.point <;> simp only [hp] at hh ⊢
  case noCommand => cases hh
  case wait k p =>
    cases k
    case command => cases hh
    all_goals exact finishInRun_ne_fault ..
  case run p => cases p <;> simp only [runStep] <;> first | exact ⟨_, rfl⟩ | exact finishInRun_ne_fault ..
  case raw | comp => exact finishSample_ne_fault ..
  all_goals exact finishInRun_ne_fault ..

/-- A tick takes at most one tick from what a RUN owes. -/
theorem tickStep_owes {s : State} (h : InRun s) : Owes (s.ticksDue - 1) (tickStep s) := by
  have hh := h.home
  have hsub : s.hid.dlyCnt.toNat - 1 ≤ (s.hid.dlyCnt - 1).toNat := by
    by_cases h0 : s.hid.dlyCnt = 0
    · simp [h0]
    · have : s.hid.dlyCnt.toNat ≠ 0 := fun e => h0 (BitVec.eq_of_toNat_eq e)
      rw [BitVec.toNat_sub_of_le (by simp [BitVec.le_def]; omega)]; simp
  rcases tickStep_cases s with e | ⟨k, p, hp, -, e⟩ | ⟨p, hp, -, e⟩ <;> rw [e]
  · exact .inl ⟨h, by omega⟩
  · rw [hp] at hh
    refine .inl ⟨⟨h.busy, h.cmd, by cases k <;> first | rfl | exact hh⟩, ?_⟩
    cases k <;> simp [State.ticksDue, State.ticksAfter, hp] <;> omega
  · exact .inl ⟨⟨h.busy, h.cmd, rfl⟩, by simp [State.ticksDue, State.ticksAfter, hp]⟩

end Sys2Proof.Machine
end

