-- ==== Sys2Proof/Tests/Slice0.lean ====
section
/-! SUPPORT. Tests of the model, with expected results from spec/95_test_vectors.md and the rules' own examples, and one
witness for every statement that has hypotheses. -/

namespace Sys2Proof.Machine

/-! ### States with something put into them -/

/-- Command `i` executes in `s`, its next step at `p`, in sample `k` of a run. -/
def State.doing (s : State) (i : Instr) (p : Point) (k : Option Nat := none) : State :=
  { s with
    status := { s.status with busy := true, curOp := i.opcode }
    hid := { s.hid with cmdCur := encode i, pos := ⟨p, k⟩ } }

/-- The transaction in flight has been answered. -/
def State.answer (s : State) (q : BusReq) (r : BusResp) : State := { s with hid := { s.hid with bus := .answered q r } }

/-- The aggregator holds N = n, VALID_CNT = c and the two sums. -/
def State.sums (s : State) (n : BitVec 16) (c : BitVec 32) (t p : Word64) : State :=
  { s with agg := { s.agg with nAgg := n, validCnt := c, accT := t, accP := p } }

/-- COMP_T and COMP_P hold t and p. -/
def State.comps (s : State) (t p : Int) : State :=
  { s with res := { s.res with compT := BitVec.ofInt 64 t, compP := BitVec.ofInt 64 p } }

/-- An ABORT is pending. -/
def State.aborting (s : State) : State := requestAbort s

namespace Tests

/-! ### Fixtures (Part 2 of 95_test_vectors.md) -/

/-- CAL-A's burst b1. -/
def b1 : List Byte :=
  [0x84, 0x67, 0x03, 0x00, 0x94, 0x8E, 0x60, 0xD7, 0x58, 0x00, 0x58, 0x1B, 0x9C, 0xFF, 0x1E, 0x1E, 0x00, 0x00, 0xB8,
    0xF2, 0x68, 0xF7, 0x1E]

/-- CAL-A's burst b2. -/
def b2 : List Byte := [0x3E, 0x8C, 0x30, 0x00, 0x2D, 0x14, 0x78, 0x9C, 0x90, 0x65, 0x08, 0xD5, 0xE2, 0x12]

/-- CAL-A's burst b3. -/
def b3 : List Byte := [0x28, 0x00, 0x10]

/-- CAL-A. -/
def calA : Cal := Cal.assemble b1 b2 b3

/-- DATA-1: T = 500000, P = 400000, H = 20000. -/
def data1 : List Byte := [0x61, 0xA8, 0x00, 0x7A, 0x12, 0x00, 0x4E, 0x20]

/-- DATA-2: T = 100000, P = 300000, H = 20000. -/
def data2 : List Byte := [0x49, 0x3E, 0x00, 0x18, 0x6A, 0x00, 0x4E, 0x20]

/-- CAL-A is loaded, the raw values are DATA-1 and T_FINE is theirs. -/
def loaded : State :=
  { State.reset with
    cal := calA
    raw := { t := 500000, p := 400000, h := 20000 }
    res := { State.reset.res with tFine := 135883 }
    status := { State.reset.status with calValid := true, tfValid := true } }

/-- The answer is a next state with the property. -/
def gives (r : Result) (p : State → Bool) : Bool :=
  match r with
  | .next s => p s
  | .fault _ | .refused _ => false

/-- The command completed with the error code and ERR_INFO word. -/
def erred (e : ErrCode) (info : Word) (t : State) : Bool :=
  t.status.err && t.status.errCode == e && t.errInfo.word == info && !t.status.busy

/-! ### WellFormed: what the check refuses -/

theorem test_wait_refuses_wide_immediate : ¬ (Instr.wait 65536).WellFormed := by decide
theorem test_gwcode_refuses_wide_immediate : ¬ (Instr.gwcode 65536).WellFormed := by decide
theorem test_rhcode_refuses_wide_immediate : ¬ (Instr.rhcode 70000).WellFormed := by decide
theorem test_assembler_refuses_wide_immediate : assemble (.wait 65536) = none := by decide
theorem test_widest_immediate_accepted : (Instr.wait 65535).WellFormed ∧ Instr.nop.WellFormed := by decide

/-! ### Decode: words written out from the encoding table -/

theorem test_decode_nop : decode 0b00000000000000000000000000000000 = .legal .nop := by decide
theorem test_decode_sreset : decode 0b00000001000000000000000000000000 = .legal .sreset := by decide
theorem test_decode_abort : decode 0b00000010000000000000000000000000 = .legal .abort := by decide
theorem test_decode_wait : decode 0b00000011000000000000000000110010 = .legal (.wait 50) := by decide
theorem test_decode_loadcal : decode 0b00010000000000000000000000000000 = .legal .loadcal := by decide
theorem test_decode_cfgos : decode 0b00100000000000000000000000000000 = .legal .cfgos := by decide
theorem test_decode_cfghtr : decode 0b00100001000000000000000000000000 = .legal .cfghtr := by decide
theorem test_decode_trig : decode 0b00100010000000000000000000000000 = .legal .trig := by decide
theorem test_decode_gwcode : decode 0b00100011000000000000000001100100 = .legal (.gwcode 100) := by decide
theorem test_decode_rhcode : decode 0b00100100000000000000000100101100 = .legal (.rhcode 300) := by decide
theorem test_decode_compt : decode 0b00110000000000000000000000000000 = .legal .compt := by decide
theorem test_decode_compp : decode 0b00110001000000000000000000000000 = .legal .compp := by decide
theorem test_decode_comph : decode 0b00110010000000000000000000000000 = .legal .comph := by decide
theorem test_decode_compall : decode 0b00110011000000000000000000000000 = .legal .compall := by decide
theorem test_decode_readraw : decode 0b01000000000000000000000000000000 = .legal .readraw := by decide
theorem test_decode_aggclr : decode 0b01000001000000000000000000000000 = .legal .aggclr := by decide
theorem test_decode_aggacc : decode 0b01000010000000000000000000000000 = .legal .aggacc := by decide
theorem test_decode_aggfin : decode 0b01000011000000000000000000000000 = .legal .aggfin := by decide
theorem test_decode_run : decode 0b01000100000000000000000000000000 = .legal .run := by decide

/-- The illegal words of 3.1 (95_test_vectors.md). -/
theorem test_decode_illegal :
    decode 0x23010064 = .illegal .nonzeroZero8 ∧ decode 0x30000001 = .illegal .nonzeroZero24 ∧
      decode 0x45000000 = .illegal (.unassignedOpcode 0x45) ∧ decode 0xFF000000 = .illegal (.unassignedOpcode 0xFF) := by
  decide

/-! ### Host accesses (3.2 of 95_test_vectors.md) -/

/-- V-CSR-3: only bits 15:0 of WINDOW are kept. -/
theorem test_window_keeps_low_bits :
    gives (eventStep (.host ⟨.w32, 0x00C, .write 0x00012345⟩) .reset) (fun t =>
      hostAnswer ⟨.w32, 0x00C, .read⟩ t == .data 0x00002345) = true := by decide

/-- V-CSR-4: a write to RAW_T clears TF_VALID and keeps bits 19:0. -/
theorem test_raw_t_write :
    gives (eventStep (.host ⟨.w32, 0x024, .write 0xFFFFFFFF⟩) loaded) (fun t =>
      t.raw.t == 0xFFFFF && !t.status.tfValid) = true := by decide

/-- PRG-2: the read of STATUS after COMPP without T_FINE. -/
theorem test_order_violation_status :
    gives (exec .compp { loaded.doing .compp .start with
      status := { (loaded.doing .compp .start).status with tfValid := false } })
      (fun t => hostAnswer ⟨.w32, 0x004, .read⟩ t == .data 0x31090006) = true := by decide

/-! ### Control (3.7) -/

theorem test_nop_completes : gives (exec .nop (loaded.doing .nop .start)) (fun t => !t.status.busy) = true := by decide

/-- V-CTL-2. -/
theorem test_sreset : gives (exec .sreset (loaded.doing .sreset .start)) (fun t =>
    t.status.word == 0 && t.cal.t1 == 0 && t.ctl.window == 20) = true := by decide

/-- V-CTL-3. -/
theorem test_abort_when_idle :
    gives (eventStep (.host ⟨.w32, 0x000, .write 0x02000000⟩) loaded) (fun t =>
      t.status.curOp == 0x02 && t.status.busy && !t.status.abortPend) = true := by decide

theorem test_wait_loads : gives (exec (.wait 50) (loaded.doing (.wait 50) .start)) (fun t =>
    t.hid.dlyCnt == 50 && t.status.busy) = true := by decide

/-- V-CTL-4: an ABORT during a wait. -/
theorem test_wait_aborted :
    gives (exec (.wait 100) ((State.reset.doing (.wait 100) (.wait .command .top)).loadDelay 70).aborting) (fun t =>
      t.status.word == 0x030C0002 && t.hid.dlyCnt == 0) = true := by decide

/-! ### Calibration (3.3) -/

/-- V-CAL-1: the last step of LOADCAL. -/
theorem test_loadcal_writes_fields :
    gives (exec .loadcal ((State.reset.doing .loadcal (.cal (.got3 b1 b2))).answer (.read 0x00 3) (.bytes b3))) (fun t =>
      hostAnswer ⟨.w32, 0x104, .read⟩ t == .data 0x00006784 && hostAnswer ⟨.w32, 0x110, .read⟩ t == .data 0xFFFFD760 &&
      hostAnswer ⟨.w32, 0x134, .read⟩ t == .data 0x0000030C && hostAnswer ⟨.w32, 0x15C, .read⟩ t == .data 1 &&
      t.status.word == 0x10000004) = true := by decide

/-- V-CAL-2: the second read answers Nack. -/
theorem test_loadcal_second_read_fails :
    gives (exec .loadcal ((State.reset.doing .loadcal (.cal (.got2 b1))).answer (.read 0xE1 14) (.err .nack))) (fun t =>
      t.status.word == 0x10030002 && t.errInfo.word == 0x000002E1) = true := by decide

/-! ### Configurator (3.4) -/

/-- CFGOS after ctrl_hum read 0xFF writes 0xF9. -/
theorem test_cfgos_writes_hum :
    gives (exec .cfgos (loaded.doing .cfgos (.os (.writeHum 0xFF)))) (fun t =>
      t.hid.bus == .inFlight (.write 0x72 0xF9)) = true := by decide

/-- CFGOS after ctrl_meas read 0x01 writes 0x55. -/
theorem test_cfgos_writes_meas :
    gives (exec .cfgos (loaded.doing .cfgos (.os (.writeMeas 0x01)))) (fun t =>
      t.hid.bus == .inFlight (.write 0x74 0x55)) = true := by decide

theorem test_cfghtr_codes : gives (exec .cfghtr (loaded.doing .cfghtr .start)) (fun t =>
    t.heat.gwCode == 0x59 && t.heat.rhCode == 0x6F) = true := by decide +kernel

/-- A BusErr(Timeout) on the write to 0x5A. -/
theorem test_cfghtr_bus_error :
    gives (exec .cfghtr ((loaded.doing .cfghtr (.htr .wroteRes)).answer (.write 0x5A 0x6F) (.err .timeout)))
      (erred .busTimeout 0x0000015A) = true := by decide

/-- V-CFG-TRIG-8: mode 0b11 is read, sleep is written with bits 7:2 kept. -/
theorem test_trig_writes_sleep :
    gives (exec .trig (loaded.doing .trig (.trig (.writeSleep 0xAB)))) (fun t =>
      t.hid.bus == .inFlight (.write 0x74 0xA8)) = true := by decide

/-- V-CFG-TRIG-4: the budget of 1 is spent. -/
theorem test_trig_poll_timeout :
    gives (exec .trig (({ loaded with
      ctl := { loaded.ctl with pollBudget := 1 }, hid := { loaded.hid with pollCnt := 1 } }.doing .trig
        (.trig .gotMode)).answer (.read 0x74 1) (.bytes [0x55]))) (erred .pollTimeout 0x00000074) = true := by decide

/-- The GWCODE table of 3.4 and S3. -/
theorem test_gwcode_table : [0, 1, 63, 64, 100, 255, 256, 1000, 4031, 4032, 10000].map gw =
    [0x00, 0x01, 0x3F, 0x50, 0x59, 0x7F, 0x90, 0xBE, 0xFE, 0xFF, 0xFF] := by decide

theorem test_gwcode : gives (exec (.gwcode 100) (loaded.doing (.gwcode 100) .start)) (fun t =>
    t.heat.gwCode == 0x59) = true := by decide

theorem test_rhcode : gives (exec (.rhcode 300) (loaded.doing (.rhcode 300) .start)) (fun t =>
    t.heat.rhCode == 0x6F && t.heat.gwCode == 0) = true := by decide +kernel

/-- The clamp at 400 °C. -/
theorem test_rhcode_clamps : gives (exec (.rhcode 65535) (loaded.doing (.rhcode 65535) .start)) (fun t =>
    t.heat.rhCode == 0x89) = true := by decide +kernel

/-! ### Compensation (3.5) -/

/-- V-CMP-T-1. -/
theorem test_compt : gives (exec .compt (loaded.doing .compt .start)) (fun t =>
    t.res.tFine == 135883 && t.res.compT == 2654) = true := by decide

/-- V-CMP-T-2: a negative temperature. -/
theorem test_compt_negative :
    gives (exec .compt ({ loaded with raw := { loaded.raw with t := 100000 } }.doing .compt .start)) (fun t =>
      hostAnswer ⟨.w32, 0x030, .read⟩ t == .data 0xFFF83491 && t.res.compT.toInt == -9977) = true := by decide

/-- V-CMP-P-1. -/
theorem test_compp : gives (exec .compp (loaded.doing .compp .start)) (fun t =>
    t.res.compP == 91869 && !t.status.ovf) = true := by decide

/-- V-CMP-P-8: an overflow. -/
theorem test_compp_overflow :
    gives (exec .compp ({ loaded with cal := { calA with p1 := 2 } }.doing .compp .start)) (fun t =>
      t.res.compP == 0xFFFFFFD060FD0745 && t.status.ovf && !t.status.err) = true := by decide

/-- V-CMP-H-1. -/
theorem test_comph : gives (exec .comph (loaded.doing .comph .start)) (fun t => t.res.compH == 37039) = true := by decide

/-- V-CMP-H-4: the clamp. -/
theorem test_comph_clamps :
    gives (exec .comph ({ loaded with raw := { loaded.raw with h := 65535 } }.doing .comph .start)) (fun t =>
      t.res.compH == 100000) = true := by decide

/-- V-CMP-ALL-1, its first step. -/
theorem test_compall_first : gives (exec .compall (loaded.doing .compall .start)) (fun t =>
    t.res.compT == 2654 && t.status.busy) = true := by decide

/-- V-CMP-ALL-2, its second step. -/
theorem test_compall_divides_by_zero :
    gives (exec .compall ({ loaded with cal := { calA with p1 := 0 } }.doing .compall (.comp .press)))
      (erred .divideByZero 0) = true := by decide

/-! ### Acquisition and aggregator (3.6) -/

/-- V-ACQ-1. -/
theorem test_readraw :
    gives (exec .readraw ((loaded.doing .readraw (.raw .got)).answer (.read 0x1F 8) (.bytes data1))) (fun t =>
      t.raw == ⟨500000, 400000, 20000⟩ && !t.status.tfValid) = true := by decide

/-- V-ACQ-4. -/
theorem test_readraw_fails :
    gives (exec .readraw ((loaded.doing .readraw (.raw .got)).answer (.read 0x1F 8) (.err .timeout))) (fun t =>
      erred .sampleReadFailure 0x0000011F t && t.status.tfValid) = true := by decide

theorem test_aggclr : gives (exec .aggclr ((loaded.sums 3 2 1 1).doing .aggclr .start)) (fun t =>
    t.agg.nAgg == 20 && t.agg.validCnt == 0 && t.agg.accT == 0) = true := by decide

/-- V-AGG-7: a window of 0. -/
theorem test_aggclr_invalid_window :
    gives (exec .aggclr ({ loaded with ctl := { loaded.ctl with window := 0 } }.doing .aggclr .start))
      (erred .invalidWindow 0) = true := by decide

/-- V-AGG-1 and V-AGG-2, first AGGACC. -/
theorem test_aggacc :
    gives (exec .aggacc (((loaded.comps (-9977) 87971).sums 3 0 0 0).doing .aggacc .start)) (fun t =>
      t.agg.accT == 0x417FA4A105555555 && t.agg.accP == 0x41E33842130AAAAB && t.agg.validCnt == 1) = true := by decide +kernel

/-- V-AGG-1 and V-AGG-2, third AGGACC. -/
theorem test_aggacc_third :
    gives (exec .aggacc (((loaded.comps (-9977) 87971).sums 3 2 0x418FA4A105555555 0x41F33842130AAAAB).doing .aggacc .start))
      (fun t => t.agg.accT == 0x4197BB78C4000000 && t.agg.accP == 0x41FCD4631C900000) = true := by decide

/-- V-AGG-6. -/
theorem test_aggfin :
    gives (exec .aggfin ((loaded.sums 2 2 0x41896962D4000000 0x41FE22A864900000).doing .aggfin .start)) (fun t =>
      t.agg.rmsT == 0x40BC8425375037F3 && t.agg.rmsP == 0x40F5F551EA053D3A && t.status.aggDone) = true := by decide +kernel

/-- V-AGG-3: the rescaled branch. -/
theorem test_aggfin_rescaled :
    gives (exec .aggfin ((loaded.sums 3 2 0x418FA4A105555555 0x41F33842130AAAAB).doing .aggfin .start)) (fun t =>
      t.agg.rmsT == 0x40C37C8000000000 && t.agg.rmsP == 0x40F57A3000000000) = true := by decide +kernel

/-- V-RUN-5: a window of 0. -/
theorem test_run_invalid_window :
    gives (exec .run ({ State.reset with ctl := { State.reset.ctl with window := 0 } }.doing .run .start)) (fun t =>
      t.status.word == 0x44060002) = true := by decide

/-- V-RUN-2: the SAMPLE_ERR record of sample 1. -/
theorem test_run_sample_error :
    gives (exec .run ((loaded.doing .run (.raw .got) (some 1)).answer (.read 0x1F 8) (.err .nack))) (fun t =>
      t.hid.outPend == some ⟨.sampleErr, 0x0000000100021F04⟩ && t.status.busy) = true := by decide

/-! ### Witnesses: for every statement with hypotheses, states and operands that meet them -/

/-- CAL-Z. -/
def calZ : Cal := { calA with p1 := 0 }

/-- CAL-B. -/
def calB : Cal := { calA with p1 := 2 }

/-- A host write of a word to a CSR. -/
def put (off : BitVec 12) (w : Word) : Event := .host ⟨.w32, off, .write w⟩

theorem witness_DecodeInvertsEncode :
    (Instr.wait 0).WellFormed ∧ (Instr.gwcode 65535).WellFormed ∧ Instr.run.WellFormed := by decide

theorem witness_EncodeInvertsDecode : decode 0x0300FFFF = .legal (.wait 65535) := by decide

theorem witness_DecodeIsTheMatchedRow :
    (∃ r ∈ opRows, (0x2300FFFF : Word) &&& r.mask = r.pattern) ∧
      ∀ r ∈ opRows, (0x23010000 : Word) &&& r.mask ≠ r.pattern := by decide

theorem witness_IllegalWordsByKind :
    decode 0x45000000 = .illegal (.unassignedOpcode 0x45) ∧ decode 0x44FFFFFF = .illegal .nonzeroZero24 ∧
      decode 0x24010000 = .illegal .nonzeroZero8 := by decide

theorem witness_AssembledWords : 65535 ≤ 65535 ∧ 65535 < 65536 := by decide

theorem witness_StepRunsTheCommandInCmdCur :
    let s := State.reset.withFetchWord 32 0x03000032
    nextEvent s = .engine ∧ s.status.busy = true ∧ decode s.hid.cmdCur = .legal (.wait 50) := by decide

theorem witness_CmdWriteWhenIdle :
    State.reset.status.busy = false ∧ decode 0x44000000 = .legal .run ∧
      decode 0x04000000 = .illegal (.unassignedOpcode 0x04) ∧ (loaded.doing .run .start).status.busy = true := by decide

theorem witness_CmdWriteWhileBusy :
    (loaded.doing .run .start).status.busy = true ∧ (0x02000000 : Word) = 0x02000000 ∧
      (0x02000001 : Word) ≠ 0x02000000 := by decide

theorem witness_IllegalWordIsRecorded :
    decode 0x30000001 = .illegal .nonzeroZero24 ∧ loaded.status.busy = false ∧
      (loaded.doing .nop .start).status.busy = true := by decide

theorem witness_StatusWriteAcknowledges :
    loaded.status.busy = false ∧ (loaded.doing .nop .start).status.busy = true := by decide

/-- The offsets where the mapped and the unmapped ranges of R34 meet: none gives both answers. -/
theorem witness_OffMapAccesses :
    let answer (w : AccessWidth) (o : Nat) : HostAnswer := hostAnswer ⟨w, BitVec.ofNat 12 o, .read⟩ .reset
    (∀ o ∈ [0x064, 0x088, 0x0FC, 0x164, 0xFFC, 0x001, 0x162], answer .w32 o = .slverr) ∧
    (∀ o ∈ [0x000, 0x060, 0x068, 0x084, 0x100, 0x160], answer .w32 o ≠ .slverr ∧ answer .w16 o = .slverr) := by decide

theorem witness_IgnoredWrites :
    (∀ o ∈ [0x008, 0x030, 0x060, 0x068, 0x084, 0x100, 0x160], o % 4 = 0 ∧ (o = 0x008 ∨ (0x030 ≤ o ∧ o ≤ 0x060) ∨
      (0x068 ≤ o ∧ o ≤ 0x084) ∨ (0x100 ≤ o ∧ o ≤ 0x160))) ∧
    (loaded.doing .nop .start).status.busy = true ∧ ∀ o ∈ [0x004, 0x02C], o % 4 = 0 ∧ 0x004 ≤ o ∧ o ≤ 0x02C := by decide

theorem witness_ConfigurationReadsBack : loaded.status.busy = false := by decide

theorem witness_ResetReadsBack :
    hostAnswer ⟨.w32, 0x000, .read⟩ .reset ≠ .slverr ∧ hostAnswer ⟨.w32, 0x160, .read⟩ .reset ≠ .slverr := by decide

/-- A read is in flight; power-on reset abandons it, a READRAW puts another in flight, and then the first is answered. -/
theorem witness_ResetProcedure :
    let s : State := (loaded.doing .readraw (.raw .got)).issue (.read 0x1F 8)
    let t : State := { State.reset with env := { s.env with trace := s.env.trace ++ [⟨.read 0x1F 8, none⟩] } }
    (loaded.doing .sreset .start).ready .start ∧ s.hid.bus = .inFlight (.read 0x1F 8) ∧
      gives (play (command .readraw [.engine]) t) (fun u => u.hid.bus == .inFlight (.read 0x1F 8) &&
        gives (eventStep (.bus s.env.trace.length (.bytes data1)) u) (· == u) &&
        gives (eventStep (.bus (s.env.trace.length + 1) (.bytes data1)) u) (· != u)) = true := by decide

/-- OVF falls by the host's W1C, and rises by an overflowing COMPP. -/
theorem witness_OverflowIsSticky :
    let s : State := ({ loaded with status := { loaded.status with ovf := true } }).facing [put 0x004 0x10]
    let r : State := ({ loaded with cal := calB }).doing .compp .start
    (s.status.ovf = true ∧ gives (step s) (fun t => !t.status.ovf) = true) ∧
      r.status.ovf = false ∧ gives (step r) (fun t => t.status.ovf) = true := by decide +kernel

/-- The last step of LOADCAL after reset. -/
theorem witness_CalibrationChangesOnlyByLoad :
    let s : State := (State.reset.doing .loadcal (.cal (.got3 b1 b2))).answer (.read 0x00 3) (.bytes b3)
    s.status.calValid = false ∧ gives (step s) (fun t => t.status.calValid && t.cal != s.cal) = true := by decide

theorem witness_NopAndIdleAbortComplete : (loaded.doing .nop .start).ready .start ∧ loaded.free := by decide

theorem witness_WaitLoadsAndEnds :
    (loaded.doing (.wait 65535) .start).ready .start ∧
      (loaded.doing (.wait 0) (.wait .command .top)).ready (.wait .command .top) ∧
      (loaded.doing (.wait 0) (.wait .command .top)).hid.dlyCnt = 0 := by decide

theorem witness_WaitConsumesItsTicks :
    let es : List Event := [.engine, .tick, .tick, .engine]
    loaded.free ∧ (∀ e ∈ es, e = .engine ∨ e = .tick) ∧ 65535 ≤ 65535 ∧ tickCount es < 65535 ∧ tickCount es = 2 ∧
      tickCount [] = 0 := by decide

/-- A pending ABORT at an abort point, and one where the step is none. -/
theorem witness_AbortTakesEffectAtAbortPoints :
    let s : State := (loaded.doing .cfgos .start).aborting
    let r : State := { (loaded.doing .nop .start).aborting with
      status := { (loaded.doing .nop .start).aborting.status with errCode := .aborted } }
    (atHome .cfgos s.hid.pos.point = true ∧ s.hid.outPend = none ∧ s.status.abortPend = true ∧
      abortsAt .cfgos s = true) ∧
    atHome .nop r.hid.pos.point = true ∧ r.hid.outPend = none ∧ r.status.abortPend = true ∧ abortsAt .nop r = false ∧
      gives (exec .nop r) (fun t => t.status.errCode == .aborted) = true := by decide

theorem witness_CalibrationFieldsFromBytes : b1.length = 23 ∧ b2.length = 14 ∧ b3.length = 3 := by decide

theorem witness_LoadcalReadsThreeBlocks :
    let r : State := (State.reset.doing .loadcal (.cal (.got3 b1 b2))).answer (.read 0x00 3) (.bytes b3)
    b1.length = 23 ∧ b2.length = 14 ∧ b3.length = 3 ∧ (loaded.doing .loadcal .start).ready .start ∧
      r.ready (.cal (.got3 b1 b2)) ∧ r.hid.bus = .answered (.read 0x00 3) (.bytes b3) ∧ loaded.free := by decide

theorem witness_LoadcalFailure : loaded.free ∧ b1.length = 23 ∧ b2.length = 14 := by decide

theorem witness_CfgosWritesOversampling :
    let r : State := (loaded.doing .cfgos (.os .wroteMeas)).answer (.write 0x74 0x54) .ok
    r.ready (.os .wroteMeas) ∧ r.hid.bus = .answered (.write 0x74 0x54) .ok ∧ loaded.free := by decide

/-- The first and the last row of the first clause, with either kind; inside a RUN, a failed calibration read, a budget
of 1 that is spent, and an aggregator with no sample. -/
theorem witness_BusErrorsEndTheCommand :
    let r : State := (loaded.doing .cfgos (.os .gotHum)).answer (.read 0x72 1) (.err .timeout)
    let t : State := (loaded.doing .trig (.trig .wroteForce)).answer (.write 0x74 0x55) (.err .nack)
    let c : State := (State.reset.doing .run (.cal (.got3 b1 b2))).answer (.read 0x00 3) (.err .nack)
    let p : State := (loaded.doing .run (.trig .gotMode) (some 0)).answer (.read 0x74 1) (.bytes [0x55])
    let b : State := { p with hid := { p.hid with lBudget := 1, pollCnt := 1 } }
    let a : State := (loaded.sums 1 0 0 0).doing .run (.run .aggFin)
    (r.ready (.os .gotHum) ∧ r.hid.bus = .answered (.read 0x72 1) (.err .timeout)) ∧
      (t.ready (.trig .wroteForce) ∧ t.hid.bus = .answered (.write 0x74 0x55) (.err .nack)) ∧
      (c.ready (.cal (.got3 b1 b2)) ∧ c.hid.bus = .answered (.read 0x00 3) (.err .nack)) ∧
      (b.ready (.trig .gotMode) ∧ b.hid.bus = .answered (.read 0x74 1) (.bytes [0x55]) ∧ modeBits 0x55 ≠ 0 ∧
        b.hid.lBudget ≠ 0 ∧ b.hid.pollCnt = b.hid.lBudget) ∧
      a.ready (.run .aggFin) ∧ a.agg.nAgg ≠ 0 ∧ a.agg.validCnt = 0 := by decide

theorem witness_GasWaitCode :
    (loaded.doing (.gwcode 4032) .start).ready .start ∧ 4031 ≤ 4032 ∧ 4032 ≤ 65535 := by decide

theorem witness_RhcodeStoresTheCode :
    (loaded.doing (.rhcode 401) .start).ready .start ∧ loaded.status.calValid = true := by decide

theorem witness_CfghtrWritesTheHeater :
    let r : State := (loaded.doing .cfghtr (.htr .wroteCtrl)).answer (.write 0x71 0x20) .ok
    r.ready (.htr .wroteCtrl) ∧ r.hid.bus = .answered (.write 0x71 0x20) .ok ∧ loaded.free ∧
      loaded.status.calValid = true := by decide

/-- loaded with a poll budget. -/
def polling (b : BitVec 16) : State := { loaded with ctl := { loaded.ctl with pollBudget := b } }

/-- With a budget that is just enough, and with none. -/
theorem witness_TrigSequence :
    let r : State := (loaded.doing .trig (.trig .wroteForce)).answer (.write 0x74 0x55) .ok
    let xs : List Byte := [0x55, 0x56]
    (r.ready (.trig .wroteForce) ∧ r.hid.bus = .answered (.write 0x74 0x55) .ok) ∧
      (polling 2).free ∧ (∀ x ∈ xs, modeBits x ≠ 0) ∧ modeBits 0x54 = 0 ∧
      xs.length ≤ (polling 2).ctl.pollBudget.toNat ∧ (polling 0).free ∧ (polling 0).ctl.pollBudget = 0 := by decide

theorem witness_TrigPollTimeout :
    let xs : List Byte := [0x55]
    (polling 1).free ∧ (∀ y ∈ xs, modeBits y ≠ 0) ∧ modeBits 0x55 ≠ 0 ∧ (polling 1).ctl.pollBudget ≠ 0 ∧
      xs.length = (polling 1).ctl.pollBudget.toNat := by decide

theorem witness_UnboundedPolling :
    let xs : List Byte := [0x55, 0x55, 0x55]
    (polling 0).free ∧ (∀ x ∈ xs, modeBits x ≠ 0) ∧ (polling 0).ctl.pollBudget = 0 := by decide

/-- TRIG has read 0x54: its forced-mode write is due. -/
def forceDue : State :=
  let s := loaded.doing .trig (.trig .writeForce)
  { s with
    status := { s.status with trig := .read }
    hid := { s.hid with modeByte := 0x54 }
    env := { s.env with trace := [⟨.read 0x74 1, some (.bytes [0x54])⟩] } }

theorem forceDue_inv : Inv forceDue := by constructor <;> decide

theorem witness_SleepBeforeForced :
    Inv forceDue ∧ forcedAfterSleep forceDue ∧
      gives (step forceDue) (fun t => t.hid.bus == .inFlight (.write 0x74 0x55)) = true :=
  ⟨forceDue_inv, ⟨by decide, rfl⟩, by decide⟩

/-- TRIG's last sleep write within a budget of 1 has been answered. -/
def lastPoll : State :=
  let s := ((polling 1).doing .trig (.trig .wroteSleep)).answer (.write 0x74 0x54) .ok
  { s with status := { s.status with trig := .sleep } }

theorem witness_PollBudgetHolds :
    Inv lastPoll ∧ pollWithin lastPoll ∧ gives (step lastPoll) (fun t => t.hid.pollCnt == 1) = true :=
  ⟨by constructor <;> decide, fun _ => show lastPoll.hid.pollCnt < lastPoll.budget by decide, by decide⟩

theorem witness_TemperatureResult :
    (loaded.doing .compt .start).ready .start ∧ loaded.status.calValid = true := by decide

/-- Both ends of the range. -/
theorem witness_TfineStaysInRange :
    let s (tf : Int) : State := { loaded with res := { loaded.res with tFine := BitVec.ofInt 64 tf } }
    (∀ tf ∈ [-2228204, 2227164], fineInRange (s tf).res.tFine.toInt) ∧
      gives (step (loaded.doing .compt .start)) (fun _ => true) = true := by decide

theorem witness_CalibrationAndOrderNeeded :
    (State.reset.doing .run .start).ready .start ∧ State.reset.status.calValid = false ∧ State.reset.ctl.window ≠ 0 ∧
      loaded.status.calValid = true ∧
      ({ loaded with status := { loaded.status with tfValid := false } } : State).status.tfValid = false := by decide

/-- CAL-A fits in int64, CAL-B does not, and both have a divisor. -/
theorem witness_PressureResult :
    (loaded.doing .compp .start).ready .start ∧ loaded.status.calValid = true ∧ loaded.status.tfValid = true ∧
      fineInRange loaded.res.tFine.toInt ∧ plainDivisor calA 135883 = 36412 ∧ plainDivisor calB 135883 = 1 ∧
      pressureFits calA 400000 135883 = true ∧ pressureFits calB 400000 135883 = false := by decide +kernel

theorem witness_PressureDivideByZero :
    (({ loaded with cal := calZ } : State).doing .compp .start).ready .start ∧ calZ.p1 = 0 ∧
      plainDivisor calZ loaded.res.tFine.toInt = 0 ∧ fineInRange loaded.res.tFine.toInt := by decide +kernel

theorem witness_HumidityResult :
    (loaded.doing .comph .start).ready .start ∧ loaded.status.calValid = true ∧ loaded.status.tfValid = true ∧
      fineInRange loaded.res.tFine.toInt := by decide

theorem witness_CompallResults :
    (loaded.doing .compall (.comp .hum)).ready (.comp .hum) ∧ loaded.free ∧ loaded.status.calValid = true ∧
      loaded.status.tfValid = true ∧ fineInRange loaded.res.tFine.toInt ∧
      plainDivisor calA (plainFine calA 500000) ≠ 0 ∧ pressureFits calA 400000 (plainFine calA 500000) = true ∧
      plainDivisor calZ (plainFine calZ 500000) = 0 ∧ plainDivisor calB (plainFine calB 500000) ≠ 0 ∧
      pressureFits calB 400000 (plainFine calB 500000) = false := by decide +kernel

theorem witness_RawValuesFromBytes : data1.length = 8 := by decide

theorem witness_ReadrawReadsOneBurst :
    let r : State := (loaded.doing .readraw (.raw .got)).answer (.read 0x1F 8) (.bytes data1)
    r.ready (.raw .got) ∧ r.hid.bus = .answered (.read 0x1F 8) (.bytes data1) ∧ loaded.free ∧ data1.length = 8 := by
  decide

/-- Each clause: a window, none; samples counted, none; no aggregator. -/
theorem witness_AggregatorCommands :
    (loaded.doing .aggclr .start).ready .start ∧ loaded.ctl.window ≠ 0 ∧ loaded.agg.nAgg = 0 ∧
      (loaded.sums 1 1 0 0).agg.nAgg ≠ 0 ∧ (loaded.sums 1 1 0 0).agg.validCnt ≠ 0 ∧
      (loaded.sums 1 0 0 0).agg.validCnt = 0 ∧
      ({ loaded with ctl := { loaded.ctl with window := 0 } } : State).ctl.window = 0 := by decide

/-- Both ends of the two ranges of integers. -/
theorem witness_ConversionIsExact :
    (∀ v ∈ [-2 ^ 63, (2 ^ 63 - 1 : Int)], -2 ^ 63 ≤ v ∧ v ≤ 2 ^ 63 - 1) ∧
      ∀ v ∈ [-2 ^ 53, (2 ^ 53 : Int)], -2 ^ 53 ≤ v ∧ v ≤ 2 ^ 53 := by decide

/-- A positive normal pattern with exponent field `e` and fraction `f`. -/
theorem f64Value_normal {a : Word64} {e f : ℕ} (hs : a.msb = false) (he : (a.extractLsb' 52 11).toNat = e)
    (hf : (a.extractLsb' 0 52).toNat = f) (h0 : e ≠ 0) : f64Value a = (2 ^ 52 + f) * 2 ^ ((e : ℤ) - 1075) := by
  simp [f64Value, hs, he, hf, h0]

/-- The operands 1.0 and 3.0, whose quotient is no binary64 number. -/
theorem witness_ConversionIsExact_operands :
    let a : Word64 := 0x3FF0000000000000
    let b : Word64 := 0x4008000000000000
    f64Finite a ∧ f64Finite b ∧ f64Value a = 1 ∧ f64Value b = 3 ∧ |f64Value a + f64Value b| ≤ f64Max ∧
      |f64Value a * f64Value b| ≤ f64Max ∧ f64Value b ≠ 0 ∧ |f64Value a / f64Value b| ≤ f64Max ∧ 0 ≤ f64Value b := by
  have ha : f64Value 0x3FF0000000000000 = 1 := by
    rw [f64Value_normal (e := 1023) (f := 0) (by decide) (by decide) (by decide) (by decide)]; norm_num
  have hb : f64Value 0x4008000000000000 = 3 := by
    rw [f64Value_normal (e := 1024) (f := 2 ^ 51) (by decide) (by decide) (by decide) (by decide)]; norm_num
  have hm : (4 : ℚ) ≤ f64Max := calc
    (4 : ℚ) ≤ (2 ^ 53 - 1) * 1 := by norm_num
    _ ≤ f64Max := mul_le_mul_of_nonneg_left (one_le_pow₀ (by norm_num)) (by norm_num)
  have le (x : ℚ) (hx : |x| ≤ 4) : |x| ≤ f64Max := hx.trans hm
  refine ⟨by decide, by decide, ha, hb, le _ ?_, le _ ?_, ?_, le _ ?_, ?_⟩ <;> simp only [ha, hb] <;> norm_num [abs_le]

/-- The largest finite pattern stands for `f64Max`. -/
theorem witness_ConversionIsExact_largest :
    f64Finite 0x7FEFFFFFFFFFFFFF ∧ f64Value 0x7FEFFFFFFFFFFFFF = f64Max := by
  refine ⟨by decide, ?_⟩
  rw [f64Value_normal (e := 2046) (f := 2 ^ 52 - 1) (by decide) (by decide) (by decide) (by decide), f64Max,
    show ((2046 : ℕ) : ℤ) - 1075 = (971 : ℕ) by norm_num, zpow_natCast]
  congr 1
  norm_num

theorem witness_SingleSampleRms : ∀ v ∈ [-2 ^ 26, (2 ^ 26 : Int)], -2 ^ 26 ≤ v ∧ v ≤ 2 ^ 26 := by decide

theorem witness_RunStartsAndEnds :
    let ended (k : WaitFor) : State := loaded.doing .run (.wait k .top)
    let read : State := (State.reset.doing .run (.cal (.got3 b1 b2))).answer (.read 0x00 3) (.bytes b3)
    (loaded.doing .run .start).ready .start ∧ loaded.ctl.window ≠ 0 ∧
      ({ loaded with ctl := { loaded.ctl with window := 0 } } : State).ctl.window = 0 ∧
      (read.ready (.cal (.got3 b1 b2)) ∧ read.hid.bus = .answered (.read 0x00 3) (.bytes b3)) ∧
      (∀ p ∈ [RunPt.delayLoad, .settleLoad, .final1Load, .final2Load],
        (loaded.doing .run (.run p)).ready (.run p) ∧ (loaded.doing .run (.run p)).status.abortPend = false) ∧
      ∀ k ∈ [WaitFor.delay, .settle, .final1, .final2], (ended k).ready (.wait k .top) ∧ (ended k).hid.dlyCnt = 0 := by
  decide

/-- Each clause, in sample 0 of 1, sample 0 of 2, and sample 1 of a run. -/
theorem witness_PerSampleErrors :
    let fail (k : BusKind) : State := (loaded.doing .run (.raw .got) (some 1)).answer (.read 0x1F 8) (.err k)
    let div : State := ({ loaded with cal := calZ }).doing .run (.comp .press) (some 0)
    let last (n : BitVec 16) : State :=
      let s := loaded.doing .run (.run .sampleEnd) (some 0)
      { s with hid := { s.hid with lN := n } }
    (∀ k ∈ [BusKind.timeout, .nack], (fail k).hid.pos.sample = some 1 ∧ (fail k).ready (.raw .got) ∧
      (fail k).hid.bus = .answered (.read 0x1F 8) (.err k)) ∧
    (div.hid.pos.sample = some 0 ∧ div.ready (.comp .press) ∧ div.hid.bus = .quiet ∧ div.status.calValid = true ∧
      div.status.tfValid = true ∧ fineInRange div.res.tFine.toInt ∧ plainDivisor div.cal div.res.tFine.toInt = 0) ∧
    ((last 2).ready (.run .sampleEnd) ∧ 0 + 1 < (last 2).hid.lN.toNat) ∧
    (last 1).ready (.run .sampleEnd) ∧ (last 1).hid.lN.toNat ≤ 0 + 1 := by decide +kernel

/-- A record offered, and SRESET at its start discarding one. -/
theorem witness_OfferHoldsTheEngine :
    let s : State := (loaded.emit .rmsT 5).doing .sreset .start
    s.hid.outPend = some ⟨.rmsT, 5⟩ ∧ s.hid.pos.point = .start ∧ Instr.run ≠ .sreset ∧
      gives (exec .sreset s) (fun t => t.hid.outPend == none) = true := by decide

/-- A RUN of `n` samples at `p` in state `f`, in sample `k`. -/
def runAt (n : BitVec 16) (f : Fsm) (p : Point) (k : Option Nat := none) : State :=
  let s := loaded.doing .run p k
  { s with
    status := { s.status with fsm := f }
    agg := { s.agg with sampleIdx := BitVec.ofNat 16 ((k.map (· + 1)).getD 0) }
    hid := { s.hid with lN := n } }

/-- The trigger's forced-mode write has been answered. -/
def forced : State :=
  let s := (runAt 1 .triggering (.trig .wroteForce) (some 0)).answer (.write 0x74 0x55) .ok
  { s with status := { s.status with trig := .force } }

/-- A run is over, and the host issues NOP. -/
def afterRun : State :=
  let s : State := { loaded with status := { loaded.status with fsm := .done } }
  s.facing [put 0x000 0]

/-- The state of the transition's source, and its target, for rows of R348 (43_acquisition.md) and R40 (10_state.md). -/
def fsmRows : List (State × Fsm) :=
  [(runAt 1 .configuring (.run .aggClr), .delaying), (runAt 1 .delaying (.wait .delay .top) (some 0), .triggering),
    (forced, .settling), (runAt 1 .settling (.wait .settle .top) (some 0), .reading),
    ((runAt 1 .reading (.raw .got) (some 0)).answer (.read 0x1F 8) (.bytes data1), .compensating),
    (runAt 1 .compensating (.comp .hum) (some 0), .aggregating),
    (runAt 2 .reading (.run .sampleEnd) (some 0), .delaying), (runAt 2 .reading (.run .sampleEnd) (some 1), .finalizing),
    (runAt 2 .aggregating (.run .sampleEnd) (some 0), .delaying),
    (runAt 2 .aggregating (.run .sampleEnd) (some 1), .finalizing),
    (runAt 1 .finalizing (.wait .final2 .top), .done),
    ((runAt 1 .configuring (.os .gotHum)).answer (.read 0x72 1) (.err .nack), .idle), (afterRun, .idle)]

theorem witness_FsmTransitions_rows_step :
    (fsmRows.all fun r => gives (step r.1) (fun t => t.status.fsm == r.2 && t.status.fsm != r.1.status.fsm)) = true := by
  decide +kernel

theorem witness_FsmTransitions_rows_good : ∀ r ∈ fsmRows, Inv r.1 := by
  simp only [fsmRows, List.forall_mem_cons]
  refine ⟨?_, ?_, ?_, ?_, ?_, ?_, ?_, ?_, ?_, ?_, ?_, ?_, ?_, by simp⟩ <;> constructor <;> decide

/-- RUN's first step enters CONFIGURING. -/
theorem witness_FsmTransitions :
    Inv (loaded.doing .run .start) ∧
      gives (step (loaded.doing .run .start)) (fun t => t.status.fsm != (loaded.doing .run .start).status.fsm) = true :=
  ⟨by constructor <;> decide, by decide⟩

/-- A window of one sample, DATA-1, with CAL-A loaded and with CAL-A still to be loaded; and a schedule of one tick less
than the two settle waits and the sample's own need. -/
theorem witness_RunOfGoodSamples :
    let one (s : State) : State := { s with ctl := { s.ctl with window := 1 } }
    let xs : List Sample := [⟨0x54, data1⟩]
    let es : List Event := .bus 0 .ok :: .sinkAccept :: .engine :: List.replicate 149 .tick
    ((one loaded).free ∧ (one loaded).status.calValid = true ∧ xs.length = (one loaded).ctl.window.toNat ∧
      ∀ x ∈ xs, x.Good calA) ∧
    ((one .reset).free ∧ (one .reset).status.calValid = false ∧ xs.length = (one .reset).ctl.window.toNat ∧
      b1.length = 23 ∧ b2.length = 14 ∧ b3.length = 3 ∧ ∀ x ∈ xs, x.Good (Cal.assemble b1 b2 b3)) ∧
    tickCount es < 1 * ((one loaded).ctl.sampleDelay.toNat + (one loaded).ctl.settle.toNat) +
      2 * (one loaded).ctl.settle.toNat := by decide +kernel

theorem witness_GoodStatesStepToGoodStates : Inv (loaded.doing .run .start) := by constructor <;> decide

end Tests

end Sys2Proof.Machine
end

section
/-! PROOFS. Checked 64-bit arithmetic, where it cannot overflow and where it may, and the pressure of COMPP (O45). -/

namespace Sys2Proof.Machine

/-! ### Checked arithmetic (R15, R16 00_scope.md) -/

theorem inInt64_iff {v : Int} : inInt64 v = true ↔ -2 ^ 63 ≤ v ∧ v ≤ 2 ^ 63 - 1 := by simp [inInt64]

/-- The wrapped value of R15 is the balanced remainder modulo 2^64. -/
theorem wrap64_eq_bmod (v : Int) : wrap64 v = v.bmod (2 ^ 64) := by
  simp only [wrap64, Int.bmod]
  split <;> omega

theorem bmod_of_inInt64 {v : Int} (h : inInt64 v = true) : v.bmod (2 ^ 64) = v := by
  rw [inInt64_iff] at h
  exact Int.bmod_eq_of_le (by omega) (by omega)

@[simp] theorem chk_val (v : Int) (b : Bool) : (chk v b).val = v.bmod (2 ^ 64) := by
  unfold chk
  split
  · exact (bmod_of_inInt64 ‹_›).symm
  · exact wrap64_eq_bmod v

@[simp] theorem chk_ovf (v : Int) (b : Bool) : (chk v b).ovf = (b || !inInt64 v) := by
  unfold chk
  split <;> simp_all

theorem chk_of_inInt64 {v : Int} (h : inInt64 v = true) (b : Bool) : chk v b = ⟨v, b⟩ := by simp [chk, h]

@[simp] theorem Checked.lit_val (v : Int) : (Checked.lit v).val = v := rfl
@[simp] theorem Checked.lit_ovf (v : Int) : (Checked.lit v).ovf = false := rfl
@[simp] theorem Checked.add_val (a b : Checked) : (a.add b).val = (a.val + b.val).bmod (2 ^ 64) := chk_val ..
@[simp] theorem Checked.mul_val (a b : Checked) : (a.mul b).val = (a.val * b.val).bmod (2 ^ 64) := chk_val ..
@[simp] theorem Checked.shr_val (a : Checked) (k : Nat) : (a.shr k).val = a.val / 2 ^ k := rfl

/-! ### Operations that cannot overflow: a value with its size in bits -/

/-- `c` is exactly `v`, with no overflow behind it, and `v` has magnitude at most 2^n. -/
def Checked.Within (c : Checked) (v : Int) (n : Nat) : Prop := c = .lit v ∧ |v| ≤ 2 ^ n

namespace Checked.Within

variable {a b : Checked} {v w : Int} {n m : Nat}

theorem eq (h : a.Within v n) : a = .lit v := h.1

theorem mono (h : a.Within v n) (hnm : n ≤ m) : a.Within v m :=
  ⟨h.1, h.2.trans (pow_le_pow_right₀ (by norm_num) hnm)⟩

theorem lit (h : |v| ≤ 2 ^ n) : (Checked.lit v).Within v n := ⟨rfl, h⟩

/-- A number of at most 62 bits is in int64, so a checked operation that gives it is exact. -/
theorem chk (h : |v| ≤ 2 ^ n) (hn : n ≤ 62) : (Machine.chk v false).Within v n := by
  refine ⟨chk_of_inInt64 (inInt64_iff.2 ?_) false, h⟩
  have : |v| ≤ 2 ^ 62 := h.trans (pow_le_pow_right₀ (by norm_num) hn)
  rw [abs_le] at this
  omega

theorem add (ha : a.Within v n) (hb : b.Within w m) (hn : max n m + 1 ≤ 62 := by norm_num) :
    (a.add b).Within (v + w) (max n m + 1) := by
  obtain ⟨rfl, hv⟩ := ha.mono (le_max_left n m)
  obtain ⟨rfl, hw⟩ := hb.mono (le_max_right n m)
  exact chk ((abs_add_le v w).trans (by rw [pow_succ]; omega)) hn

theorem sub (ha : a.Within v n) (hb : b.Within w m) (hn : max n m + 1 ≤ 62 := by norm_num) :
    (a.sub b).Within (v - w) (max n m + 1) := by
  obtain ⟨rfl, hv⟩ := ha.mono (le_max_left n m)
  obtain ⟨rfl, hw⟩ := hb.mono (le_max_right n m)
  exact chk ((abs_sub v w).trans (by rw [pow_succ]; omega)) hn

theorem mul (ha : a.Within v n) (hb : b.Within w m) (hn : n + m ≤ 62 := by norm_num) :
    (a.mul b).Within (v * w) (n + m) := by
  obtain ⟨rfl, hv⟩ := ha
  obtain ⟨rfl, hw⟩ := hb
  refine chk ?_ hn
  rw [abs_mul, pow_add]
  exact mul_le_mul hv hw (abs_nonneg w) (by positivity)

theorem shl (ha : a.Within v n) (k : Nat) (hn : n + k ≤ 62 := by norm_num) : (a.shl k).Within (v * 2 ^ k) (n + k) := by
  obtain ⟨rfl, hv⟩ := ha
  refine chk ?_ hn
  rw [abs_mul, pow_add, abs_of_pos (by positivity : (0 : Int) < 2 ^ k)]
  exact mul_le_mul_of_nonneg_right hv (by positivity)

theorem shr (ha : a.Within v n) (k : Nat) (hn : k ≤ n := by norm_num) : (a.shr k).Within (v / 2 ^ k) (n - k) := by
  obtain ⟨rfl, hv⟩ := ha
  refine ⟨rfl, ?_⟩
  have hk : (0 : Int) < 2 ^ k := by positivity
  have hp : (2 : Int) ^ n = 2 ^ (n - k) * 2 ^ k := by rw [← pow_add, Nat.sub_add_cancel hn]
  rw [hp, abs_le] at hv
  rw [abs_le]
  exact ⟨Int.le_ediv_of_mul_le hk (by linarith), Int.ediv_le_of_le_mul hk hv.2⟩

theorem div (ha : a.Within v n) (hb : b.Within w m) (hw : w ≠ 0) (hn : n ≤ 62 := by norm_num) :
    ∃ q, a.div b = some q ∧ q.Within (v.tdiv w) n := by
  obtain ⟨rfl, hv⟩ := ha
  obtain ⟨rfl, -⟩ := hb
  refine ⟨Machine.chk (v.tdiv w) false, by simp [Checked.div, hw], chk (le_trans ?_ hv) hn⟩
  rw [Int.abs_eq_natAbs, Int.abs_eq_natAbs, Int.natAbs_tdiv]
  exact_mod_cast Nat.div_le_self ..

end Checked.Within

theorem signed_within {k : Nat} (x : BitVec (k + 1)) : (signed x).Within x.toInt k := by
  refine .lit ?_
  have h1 := BitVec.le_toInt x
  have h2 := BitVec.toInt_lt (x := x)
  simp only [Nat.add_sub_cancel] at h1 h2
  exact abs_le.2 ⟨h1, h2.le⟩

theorem unsigned_within {k : Nat} (x : BitVec k) : (unsigned x).Within x.toNat k := by
  refine .lit ?_
  rw [Nat.abs_cast]
  exact_mod_cast x.isLt.le

/-! ### Operations that may overflow: a value with the condition under which it is exact -/

/-- `c` carries an overflow exactly when `ok` fails, and is the value `v` of unbounded arithmetic when `ok` holds. -/
def Checked.ExactIf (c : Checked) (v : Int) (ok : Bool) : Prop := c.ovf = !ok ∧ (ok = true → c.val = v)

namespace Checked.ExactIf

variable {a b : Checked} {v w : Int} {p q : Bool}

theorem lit (v : Int) : (Checked.lit v).ExactIf v true := ⟨rfl, fun _ => rfl⟩

/-- A checked operation on operands that are exact under `p` is exact under `p` and its own fitting. -/
theorem chk (hv : p = true → v = w) : (Machine.chk v !p).ExactIf w (p && inInt64 w) := by
  cases p with
  | false => exact ⟨by simp, by simp⟩
  | true =>
    obtain rfl := hv rfl
    exact ⟨by simp, fun h => (chk_val ..).trans (bmod_of_inInt64 (by simpa using h))⟩

theorem add (ha : a.ExactIf v p) (hb : b.ExactIf w q) : (a.add b).ExactIf (v + w) ((p && q) && inInt64 (v + w)) := by
  have h : (a.ovf || b.ovf) = !(p && q) := by rw [ha.1, hb.1, Bool.not_and]
  rw [Checked.add, h]
  exact chk fun hpq => by simp_all [ExactIf]

theorem mul (ha : a.ExactIf v p) (hb : b.ExactIf w q) : (a.mul b).ExactIf (v * w) ((p && q) && inInt64 (v * w)) := by
  have h : (a.ovf || b.ovf) = !(p && q) := by rw [ha.1, hb.1, Bool.not_and]
  rw [Checked.mul, h]
  exact chk fun hpq => by simp_all [ExactIf]

theorem shr (ha : a.ExactIf v p) (k : Nat) : (a.shr k).ExactIf (v / 2 ^ k) p :=
  ⟨ha.1, fun hp => by rw [Checked.shr_val, ha.2 hp]⟩

theorem of_within {n : Nat} (h : a.Within v n) : a.ExactIf v true := h.eq ▸ lit v

end Checked.ExactIf

/-! ### The pressure formula (R283 42_compensation.md) -/

/-- Up to the branch of cp nothing overflows: the divisor and the dividend are those of unbounded arithmetic. -/
theorem cpBefore_within (c : Cal) (raw : BitVec 20) {tf : Int} (h : fineInRange tf) :
    (cpBefore c (unsigned raw) (.lit tf)).1.Within (plainDivisor c tf) 21 ∧
      (cpBefore c (unsigned raw) (.lit tf)).2.Within (plainBefore c raw.toNat tf) 39 := by
  have fine : (Checked.lit tf).Within tf 22 := .lit (abs_le.2 ⟨by omega, by omega⟩)
  have var1 : (((Checked.lit tf).shr 1).sub (.lit 64000)).Within (tf / 2 - 64000) 22 :=
    (fine.shr 1).sub (m := 16) (.lit (by norm_num))
  have square := (var1.shr 2).mul (var1.shr 2)
  constructor
  · have terms := (((square.shr 13).mul ((signed_within c.p3).shl 5)).shr 3).add (((signed_within c.p2).mul var1).shr 1)
    have one : (Checked.lit 32768).Within 32768 15 := .lit (by norm_num)
    exact ((one.add (terms.shr 18)).mul (unsigned_within c.p1)).shr 15
  · have slope := (((square.shr 11).mul (signed_within c.p6)).shr 2).add ((var1.mul (signed_within c.p5)).shl 1)
    have var2 := (slope.shr 2).add ((signed_within c.p4).shl 16)
    have full : (Checked.lit 1048576).Within 1048576 20 := .lit (by norm_num)
    have factor : (Checked.lit 3125).Within 3125 12 := .lit (by norm_num)
    exact ((full.sub (unsigned_within raw)).sub (var2.shr 12)).mul factor

/-- The branch of cp divides by any divisor other than 0 without an overflow. -/
theorem cpDivide_within {var1 pc : Checked} {d v : Int} (hd : var1.Within d 21) (hv : pc.Within v 39) (h : d ≠ 0) :
    ∃ q, cpDivide var1 pc = some q ∧ q.Within (if 2 ^ 30 ≤ v then v.tdiv d * 2 else (v * 2).tdiv d) 40 := by
  have hpc : pc.val = v := by rw [hv.eq, Checked.lit_val]
  have h30 : (0x40000000 : Int) = 2 ^ 30 := by norm_num
  unfold cpDivide
  rw [hpc, h30]
  split
  · obtain ⟨q, hq, hw⟩ := hv.div hd h
    exact ⟨q.shl 1, by rw [hq, Option.map_some], hw.shl 1⟩
  · exact (hv.shl 1).div hd h

/-- cp gives a value wherever its division does. -/
theorem cp_of_divide {c : Cal} {raw tf q : Checked}
    (h : cpDivide (cpBefore c raw tf).1 (cpBefore c raw tf).2 = some q) : cp c raw tf = .value (cpAfter c q) := by
  unfold cp
  generalize cpBefore c raw tf = before at h ⊢
  simp only [h]

/-- cp with a divisor other than 0 runs its last lines on the quotient of unbounded arithmetic. -/
theorem cp_eq_value (c : Cal) (raw : BitVec 20) {tf : Int} (h : fineInRange tf) (hd : plainDivisor c tf ≠ 0) :
    cp c (unsigned raw) (.lit tf) = .value (cpAfter c (.lit (plainQuotient c raw.toNat tf))) := by
  obtain ⟨hvar1, hpc⟩ := cpBefore_within c raw h
  obtain ⟨q, hq, hw⟩ := cpDivide_within hvar1 hpc hd
  rw [cp_of_divide hq, hw.eq, plainQuotient]

/-- CAL_P7 << 7 always fits. -/
theorem p7_shl_within (c : Cal) : ((signed c.p7).shl 7).Within (c.p7.toInt * 2 ^ 7) 14 :=
  (signed_within c.p7).shl 7

/-- The last lines of cp overflow exactly where an operation of the unbounded formula leaves int64, and give its pressure
where none does. -/
theorem cpAfter_exactIf (c : Cal) (raw tf : Int) :
    (cpAfter c (.lit (plainQuotient c raw tf))).ExactIf (plainPressure c raw tf) (pressureFits c raw tf) := by
  have lit (v : Int) := Checked.ExactIf.lit v
  have pc := lit (plainQuotient c raw tf)
  have var1 := ((lit c.p9.toInt).mul (((pc.shr 3).mul (pc.shr 3)).shr 13)).shr 12
  have var2 := ((pc.shr 2).mul (lit c.p8.toInt)).shr 13
  have var3 := ((((pc.shr 8).mul (pc.shr 8)).mul (pc.shr 8)).mul (lit c.p10.toNat)).shr 17
  have sum := pc.add ((((var1.add var2).add var3).add (.of_within (p7_shl_within c))).shr 4)
  refine (congrArg (Checked.ExactIf _ _) ?_).mp sum
  simp only [pressureFits, plainTerms, plainPressure, List.all_cons, List.all_nil]
  grind

/-- What the last lines of cp give whether or not they overflow. -/
theorem cpAfter_val (c : Cal) (raw tf : Int) :
    (cpAfter c (.lit (plainQuotient c raw tf))).val = wrappedPressure c raw tf := by
  have p7 : ((signed c.p7).shl 7).val = c.p7.toInt * 2 ^ 7 := by rw [(p7_shl_within c).eq, Checked.lit_val]
  simp only [cpAfter, Checked.add_val, Checked.mul_val, Checked.shr_val, p7]
  rfl

/-- COMPP with a divisor other than 0 writes what the last lines of cp give and sets OVF where they overflow (R284, R286
42_compensation.md). -/
theorem exec_compp_eq {s : State} (hr : s.ready .start) (hc : s.status.calValid = true) (ht : s.status.tfValid = true)
    (hf : fineInRange s.res.tFine.toInt) (hd : plainDivisor s.cal s.res.tFine.toInt ≠ 0) :
    let p := cpAfter s.cal (.lit (plainQuotient s.cal s.raw.p.toNat s.res.tFine.toInt))
    exec .compp s = .next (complete (({ s with res := { s.res with compP := p.toReg } } : State).withOvf p.ovf)) := by
  obtain ⟨hp, ho⟩ := hr
  have arm : exec .compp s = execCompp s := rfl
  rw [arm, execCompp, unlessOffering_none ho, hp]
  simp only [comppBody, needCal, needTfine, hc, ht, if_true, signed, cp_eq_value s.cal s.raw.p hf hd, finish]

/-- Settles O45: up to the branch of cp nothing overflows, so its last lines alone decide between the exact pressure and
the wrapped one. -/
theorem pressureResult : Obligations.PressureResult := by
  intro s hr hc ht hf hd
  obtain ⟨hovf, hval⟩ := cpAfter_exactIf s.cal s.raw.p.toNat s.res.tFine.toInt
  refine ⟨fun fits => ?_, fun fits => ?_⟩ <;> rw [exec_compp_eq hr hc ht hf hd, hovf, fits]
  · simp [Checked.toReg, hval fits, State.withOvf, Status.withOvf]
  · simp [Checked.toReg, cpAfter_val, State.withOvf, Status.withOvf]

end Sys2Proof.Machine
end

section
/-! PROOFS. Binary64: the numbers the patterns stand for, rounding to nearest with ties to even, and the operations of the
aggregator (O52). -/

namespace Sys2Proof.Machine

/-! ### Binary64 patterns and the numbers they stand for (R18 00_scope.md) -/

/-- The sign of a number as a factor. -/
def F64.sgn (neg : Bool) : ℤ := if neg then -1 else 1

theorem F64.sgn_false : F64.sgn false = 1 := rfl

theorem F64.sgn_true : F64.sgn true = -1 := rfl

theorem F64.sgn_mul_self (neg : Bool) : F64.sgn neg * F64.sgn neg = 1 := by cases neg <;> rfl

theorem F64.abs_sgn (neg : Bool) : |F64.sgn neg| = 1 := by cases neg <;> rfl

theorem F64.sgn_bne (p q : Bool) : F64.sgn (p != q) = F64.sgn p * F64.sgn q := by cases p <;> cases q <;> rfl

theorem F64.sgn_decide_mul_abs (v : ℤ) : F64.sgn (decide (v < 0)) * |v| = v := by
  rcases lt_or_ge v 0 with h | h
  · simp [F64.sgn, h, abs_of_neg h]
  · simp [F64.sgn, not_lt.2 h, abs_of_nonneg h]

theorem F64.abs_cast_sgn {K : Type} [Ring K] [LinearOrder K] [IsStrictOrderedRing K] (neg : Bool) :
    |(F64.sgn neg : K)| = 1 := by
  rw [← Int.cast_abs, F64.abs_sgn, Int.cast_one]

theorem F64.cast_sgn_decide_mul_natAbs {K : Type} [Ring K] (v : ℤ) :
    (F64.sgn (decide (v < 0)) * v.natAbs : K) = v := by
  rw [Nat.cast_natAbs, ← Int.cast_mul, F64.sgn_decide_mul_abs]

/-- The pattern with sign bit `neg` and the 63 bits `mag` below it. -/
def F64.pattern (neg : Bool) (mag : ℕ) : Word64 := BitVec.ofNat 64 ((if neg then 2 ^ 63 else 0) + mag)

theorem F64.pattern_fields (neg : Bool) {e f : ℕ} (he : e < 2048) (hf : f < 2 ^ 52) :
    F64.neg (F64.pattern neg (e * 2 ^ 52 + f)) = neg ∧ F64.expo (F64.pattern neg (e * 2 ^ 52 + f)) = e ∧
      F64.frac (F64.pattern neg (e * 2 ^ 52 + f)) = f := by
  have hn : (F64.pattern neg (e * 2 ^ 52 + f)).toNat = (if neg then 2 ^ 63 else 0) + (e * 2 ^ 52 + f) := by
    rw [F64.pattern, BitVec.toNat_ofNat, Nat.mod_eq_of_lt (by split <;> omega)]
  refine ⟨?_, ?_, ?_⟩
  · rw [F64.neg, BitVec.msb_eq_decide, hn]
    cases neg with
    | false => simp; omega
    | true => simp
  · rw [F64.expo, BitVec.extractLsb'_toNat, hn, Nat.shiftRight_eq_div_pow]
    cases neg <;> (simp; omega)
  · rw [F64.frac, BitVec.extractLsb'_toNat, hn, Nat.shiftRight_eq_div_pow]
    cases neg <;> (simp; omega)

theorem F64.even_pattern_iff (neg : Bool) {mag : ℕ} : (F64.pattern neg mag).getLsbD 0 = false ↔ Even mag := by
  rw [F64.pattern, BitVec.getLsbD_ofNat, Nat.testBit_zero, Nat.even_iff]
  cases neg with
  | false => simp
  | true => simp; omega

theorem f64Finite_iff (a : Word64) : f64Finite a ↔ F64.finite a = true := by
  rw [F64.finite, bne_iff_ne, f64Finite, F64.expo, not_iff_not]
  exact BitVec.toNat_inj.symm

theorem F64.expo_lt (a : Word64) : F64.expo a < 2 ^ 11 := BitVec.isLt _

theorem F64.frac_lt (a : Word64) : F64.frac a < 2 ^ 52 := BitVec.isLt _

theorem F64.mant_lt (a : Word64) : F64.mant a < 2 ^ 53 := by
  have := F64.frac_lt a
  unfold F64.mant
  split <;> omega

theorem F64.one_le_scale (a : Word64) : 1 ≤ F64.scale a := by
  unfold F64.scale
  split <;> omega

theorem F64.scale_le {a : Word64} (h : f64Finite a) : F64.scale a ≤ 2046 := by
  rw [f64Finite_iff, F64.finite, bne_iff_ne] at h
  have := F64.expo_lt a
  unfold F64.scale
  split <;> omega

/-- The value of a pattern is its sign times mant · 2^(scale - 1075). -/
theorem f64Value_eq (a : Word64) :
    f64Value a = F64.sgn (F64.neg a) * (F64.mant a * 2 ^ ((F64.scale a : ℤ) - 1075)) := by
  have fields : f64Value a = (if F64.neg a then -1 else 1) *
      if F64.expo a = 0 then (F64.frac a : ℚ) * 2 ^ (-1074 : ℤ)
      else (2 ^ 52 + F64.frac a : ℚ) * 2 ^ ((F64.expo a : ℤ) - 1075) := rfl
  rw [fields, F64.mant, F64.scale, F64.sgn, Int.cast_ite, Int.cast_neg, Int.cast_one]
  congr 1
  split_ifs
  · rfl
  · rw [Nat.cast_add, Nat.cast_pow, Nat.cast_ofNat]

/-- `num` and `den` are the magnitude's numerator and denominator. -/
theorem f64Value_eq_div (a : Word64) : f64Value a = F64.sgn (F64.neg a) * (F64.num a / F64.den a : ℚ) := by
  rw [f64Value_eq, F64.num, F64.den]
  rcases le_total (F64.scale a) 1075 with h | h
  · obtain ⟨k, hk⟩ := Nat.exists_eq_add_of_le h
    have hz : (F64.scale a : ℤ) - 1075 = -(k : ℤ) := by omega
    have hs : 1075 - F64.scale a = k := by omega
    rw [hz, hs, Nat.sub_eq_zero_of_le h, zpow_neg, zpow_natCast]
    push_cast
    ring
  · obtain ⟨k, hk⟩ := Nat.exists_eq_add_of_le h
    have hz : (F64.scale a : ℤ) - 1075 = (k : ℤ) := by omega
    have hs : F64.scale a - 1075 = k := by omega
    rw [hz, hs, Nat.sub_eq_zero_of_le h, zpow_natCast]
    push_cast
    ring

theorem F64.den_pos (a : Word64) : 0 < F64.den a := by unfold F64.den; positivity

/-- The pattern of q units of 2^(e - 1074) is finite and has that value. A q below 2^52 is subnormal; q = 2^53 is
the first number of the next binade. -/
theorem F64.pattern_unit (neg : Bool) {e q : ℕ} (hlo : e = 0 ∨ 2 ^ 52 ≤ q) (hhi : q ≤ 2 ^ 53)
    (hmax : e * 2 ^ 52 + q < 2047 * 2 ^ 52) :
    f64Finite (F64.pattern neg (e * 2 ^ 52 + q)) ∧
      f64Value (F64.pattern neg (e * 2 ^ 52 + q)) = F64.sgn neg * (q * 2 ^ ((e : ℤ) - 1074)) := by
  obtain ⟨c, f, hf, hq, hc⟩ : ∃ c f, f < 2 ^ 52 ∧ q = c * 2 ^ 52 + f ∧ (c = 0 ∧ e = 0 ∨ c = 1 ∨ c = 2 ∧ f = 0) :=
    ⟨q / 2 ^ 52, q % 2 ^ 52, by omega, by omega, by omega⟩
  have hm : e * 2 ^ 52 + q = (e + c) * 2 ^ 52 + f := by rw [hq]; ring
  obtain ⟨hneg, hexpo, hfrac⟩ := F64.pattern_fields neg (e := e + c) (f := f) (by omega) hf
  rw [hm, f64Finite_iff, F64.finite, f64Value_eq, F64.mant, F64.scale, hneg, hexpo, hfrac, hq]
  refine ⟨by rw [bne_iff_ne]; omega, ?_⟩
  rcases hc with ⟨rfl, rfl⟩ | rfl | ⟨rfl, rfl⟩
  · simp
  · rw [if_neg (by omega), if_neg (by omega), show ((e + 1 : ℕ) : ℤ) - 1075 = (e : ℤ) - 1074 by push_cast; ring]
    push_cast
    ring
  · rw [if_neg (by omega), if_neg (by omega), show ((e + 2 : ℕ) : ℤ) - 1075 = (e : ℤ) - 1074 + 1 by push_cast; ring,
      zpow_add₀ (by norm_num)]
    push_cast
    ring

/-- In units of 2^(e - 1074) every finite number is an integer or, where e > 0, below 2^52 in magnitude. -/
theorem f64Value_grid (a : Word64) (e : ℕ) :
    ∃ u : ℝ, (f64Value a : ℝ) = u * 2 ^ ((e : ℤ) - 1074) ∧ ((∃ k : ℤ, u = k) ∨ 0 < e ∧ |u| < 2 ^ 52) := by
  have hv : (f64Value a : ℝ) = (F64.sgn (F64.neg a) * F64.mant a : ℤ) * 2 ^ ((F64.scale a : ℤ) - 1075) := by
    rw [f64Value_eq]
    push_cast
    ring
  have h1 := F64.one_le_scale a
  rcases le_or_gt (e + 1) (F64.scale a) with h | h
  · obtain ⟨k, hk⟩ := Nat.exists_eq_add_of_le h
    refine ⟨(F64.sgn (F64.neg a) * F64.mant a : ℤ) * 2 ^ k, ?_,
      .inl ⟨F64.sgn (F64.neg a) * F64.mant a * 2 ^ k, by push_cast; ring⟩⟩
    rw [hv, mul_assoc, ← zpow_natCast, ← zpow_add₀ (by norm_num)]
    congr 2
    omega
  · obtain ⟨k, hk⟩ := Nat.exists_eq_add_of_lt h
    refine ⟨(F64.sgn (F64.neg a) * F64.mant a : ℤ) * 2 ^ (-(k + 1 : ℤ)), ?_, .inr ⟨by omega, ?_⟩⟩
    · rw [hv, mul_assoc, ← zpow_add₀ (by norm_num)]
      congr 2
      omega
    · have hmant : ((F64.mant a : ℤ) : ℝ) < 2 ^ 53 := by exact_mod_cast F64.mant_lt a
      rw [abs_mul, ← Int.cast_abs, abs_mul, F64.abs_sgn, one_mul, Nat.abs_cast, abs_of_pos (by positivity)]
      calc ((F64.mant a : ℤ) : ℝ) * 2 ^ (-(k + 1 : ℤ)) ≤ (F64.mant a : ℤ) * 2 ^ (-1 : ℤ) := by
            gcongr
            · norm_num
            · omega
        _ < 2 ^ 53 * 2 ^ (-1 : ℤ) := by gcongr
        _ = 2 ^ 52 := by norm_num

/-! ### Rounding to nearest, ties to even -/

/-- q is y rounded to the nearest integer, and an even one where two are as near. -/
def RoundsTo (y : ℝ) (q : ℕ) : Prop := |q - y| ≤ 1 / 2 ∧ (|q - y| = 1 / 2 → Even q)

/-- From the floor q of y: up above the middle, down below it, to the even neighbour in it. -/
theorem roundsTo_of_floor {y : ℝ} {q : ℕ} (hlo : q ≤ y) (hhi : y < q + 1) :
    RoundsTo y (if q + 1 / 2 < y then q + 1 else if q + 1 / 2 = y then q + q % 2 else q) := by
  split_ifs with h h'
  · have hd : |((q + 1 : ℕ) : ℝ) - y| = q + 1 - y := by push_cast; exact abs_of_pos (by linarith)
    exact ⟨by rw [hd]; linarith, fun e => by rw [hd] at e; linarith⟩
  · have hd : |((q + q % 2 : ℕ) : ℝ) - y| ≤ 1 / 2 := by
      rw [← h', abs_le]
      rcases Nat.mod_two_eq_zero_or_one q with h2 | h2
      · rw [h2, Nat.add_zero]
        constructor <;> linarith
      · rw [h2, Nat.cast_add_one]
        constructor <;> linarith
    exact ⟨hd, fun _ => Nat.even_iff.2 (by omega)⟩
  · have hd : |(q : ℝ) - y| = y - q := by rw [abs_sub_comm]; exact abs_of_nonneg (by linarith)
    have : y < q + 1 / 2 := lt_of_le_of_ne (not_lt.1 h) (Ne.symm h')
    exact ⟨by rw [hd]; linarith, fun e => by rw [hd] at e; linarith⟩

/-- No integer is nearer, and none is as near unless it is the result or the result is even. -/
theorem RoundsTo.nearest_int {y : ℝ} {q : ℕ} (h : RoundsTo y q) (k : ℤ) :
    |q - y| ≤ |k - y| ∧ (|q - y| = |k - y| → (k : ℝ) = q ∨ Even q) := by
  obtain ⟨hle, heven⟩ := h
  by_cases hk : k = q
  · subst hk
    exact ⟨by simp, fun _ => .inl (by simp)⟩
  · have h1 : (1 : ℝ) ≤ |(k : ℝ) - q| := by exact_mod_cast Int.one_le_abs (sub_ne_zero.2 hk)
    have h2 : |(k : ℝ) - q| ≤ |k - y| + |q - y| := by
      rw [abs_sub_comm (q : ℝ) y]
      exact abs_sub_le (k : ℝ) y q
    exact ⟨by linarith, fun e => .inr (heven (by linarith))⟩

/-- The same against every number of the grid of `f64Value_grid`: one below 2^52 ≤ y is further away than 2^52. -/
theorem RoundsTo.nearest {y u : ℝ} {q : ℕ} (h : RoundsTo y q) (hu : (∃ k : ℤ, u = k) ∨ 2 ^ 52 ≤ y ∧ |u| < 2 ^ 52) :
    |q - y| ≤ |u - y| ∧ (|q - y| = |u - y| → u = q ∨ Even q) := by
  rcases hu with ⟨k, rfl⟩ | ⟨hy, hu⟩
  · exact h.nearest_int k
  · have hint : |(q : ℝ) - y| ≤ |(2 : ℝ) ^ 52 - y| := by
      have := (h.nearest_int ((2 : ℤ) ^ 52)).1
      rwa [Int.cast_pow, Int.cast_ofNat] at this
    rw [abs_sub_comm ((2 : ℝ) ^ 52) y, abs_of_nonneg (sub_nonneg.2 hy)] at hint
    have hlt : |(q : ℝ) - y| < |u - y| := by
      have huy : u < 2 ^ 52 := lt_of_abs_lt hu
      rw [abs_sub_comm u y, abs_of_pos (a := y - u) (by linarith)]
      linarith
    exact ⟨hlt.le, fun e => absurd e hlt.ne⟩

theorem RoundsTo.le_of_le {y : ℝ} {q m : ℕ} (h : RoundsTo y q) (hy : y ≤ m) : q ≤ m := by
  have := (abs_le.1 h.1).2
  have hq : (q : ℝ) < m + 1 := by linarith
  exact Nat.lt_succ_iff.1 (by exact_mod_cast hq)

theorem RoundsTo.ge_of_ge {y : ℝ} {q m : ℕ} (h : RoundsTo y q) (hy : m ≤ y) : m ≤ q := by
  have := (abs_le.1 h.1).1
  have hq : (m : ℝ) < q + 1 := by linarith
  exact Nat.lt_succ_iff.1 (by exact_mod_cast hq)

/-! ### From a rounded significand to the nearest pattern -/

/-- A pattern of q units, q being y rounded, is y units rounded to nearest with ties to even. -/
theorem nearestEven_pattern (neg : Bool) {e q : ℕ} {y : ℝ} (hq : RoundsTo y q) (hlo : e = 0 ∨ 2 ^ 52 ≤ y)
    (hhi : y ≤ 2 ^ 53) (hmax : e * 2 ^ 52 + q < 2047 * 2 ^ 52) :
    NearestEven (F64.sgn neg * (y * 2 ^ ((e : ℤ) - 1074))) (F64.pattern neg (e * 2 ^ 52 + q)) := by
  have hlo' : e = 0 ∨ 2 ^ 52 ≤ q := hlo.imp_right fun h => hq.ge_of_ge (by exact_mod_cast h)
  obtain ⟨hfin, hval⟩ := F64.pattern_unit neg hlo' (hq.le_of_le (by exact_mod_cast hhi)) hmax
  refine ⟨hfin, fun b _ => ?_⟩
  obtain ⟨v, hv, hgrid⟩ := f64Value_grid b e
  have hs : (F64.sgn neg : ℝ) * F64.sgn neg = 1 := by exact_mod_cast F64.sgn_mul_self neg
  have hunit : (0 : ℝ) < 2 ^ ((e : ℤ) - 1074) := by positivity
  have hdist (w : ℝ) : |F64.sgn neg * (w * 2 ^ ((e : ℤ) - 1074)) - F64.sgn neg * (y * 2 ^ ((e : ℤ) - 1074))| =
      |w - y| * 2 ^ ((e : ℤ) - 1074) := by
    rw [← mul_sub, ← sub_mul, abs_mul, abs_mul, F64.abs_cast_sgn, one_mul, abs_of_pos hunit]
  have hb : (f64Value b : ℝ) = F64.sgn neg * (F64.sgn neg * v * 2 ^ ((e : ℤ) - 1074)) := by
    rw [hv, ← mul_assoc, ← mul_assoc, hs, one_mul]
  have hgrid' : (∃ k : ℤ, F64.sgn neg * v = k) ∨ 2 ^ 52 ≤ y ∧ |F64.sgn neg * v| < 2 ^ 52 := by
    refine hgrid.imp (fun ⟨k, hk⟩ => ⟨F64.sgn neg * k, by rw [hk]; push_cast; rfl⟩) fun ⟨he, hlt⟩ => ?_
    exact ⟨hlo.resolve_left he.ne', by rwa [abs_mul, F64.abs_cast_sgn, one_mul]⟩
  obtain ⟨hle, htie⟩ := hq.nearest hgrid'
  have hr : (f64Value (F64.pattern neg (e * 2 ^ 52 + q)) : ℝ) = F64.sgn neg * (q * 2 ^ ((e : ℤ) - 1074)) := by
    rw [hval]
    push_cast
    rfl
  rw [hr, hb, hdist, hdist]
  refine ⟨mul_le_mul_of_nonneg_right hle hunit.le, fun htie' => ?_⟩
  rcases htie (mul_right_cancel₀ hunit.ne' htie') with h | h
  · left
    rw [h, ← hr] at hb
    exact_mod_cast hb
  · right
    rw [F64.even_pattern_iff]
    exact (by decide : Even (2 ^ 52)).mul_left e |>.add h

theorem packMag_eq {q : ℕ} {e : ℤ} (h : (e + 1074).toNat * 2 ^ 52 + q < 2047 * 2 ^ 52) :
    packMag q e = (e + 1074).toNat * 2 ^ 52 + q := by
  unfold packMag
  omega

/-- The exponent of a number up to the largest finite one leaves room in the exponent field after rounding. -/
theorem pack_lt_of_le_f64Max {e : ℤ} {q : ℕ} {y : ℝ} (hq : RoundsTo y q) (hlo : e = -1074 ∨ 2 ^ 52 ≤ y)
    (hhi : y < 2 ^ 53) (hmax : y * 2 ^ e ≤ f64Max) : (e + 1074).toNat * 2 ^ 52 + q < 2047 * 2 ^ 52 := by
  have hq53 : q ≤ 2 ^ 53 := hq.le_of_le (by exact_mod_cast hhi.le)
  have hM : (f64Max : ℝ) = (2 ^ 53 - 1) * 2 ^ (971 : ℤ) := by rw [f64Max]; push_cast; rfl
  rw [hM] at hmax
  rcases hlo with rfl | hlo
  · omega
  rcases lt_trichotomy e 971 with he | rfl | he
  · omega
  · have hy : y ≤ 2 ^ 53 - 1 := le_of_mul_le_mul_right hmax (by positivity)
    have : q ≤ 2 ^ 53 - 1 := hq.le_of_le (by norm_num at hy ⊢; exact hy)
    omega
  · exfalso
    have h2 : (2 : ℝ) ^ (972 : ℤ) ≤ 2 ^ e := zpow_le_zpow_right₀ (by norm_num) he
    have h3 : (2 : ℝ) ^ 52 * 2 ^ (972 : ℤ) ≤ (2 ^ 53 - 1) * 2 ^ (971 : ℤ) :=
      (mul_le_mul hlo h2 (by positivity) (by linarith)).trans hmax
    rw [show (972 : ℤ) = 1 + 971 by norm_num, zpow_add₀ (by norm_num), ← mul_assoc] at h3
    have := le_of_mul_le_mul_right h3 (by positivity)
    norm_num at this

/-- A significand y in units of 2^e, with e as small as 53 bits allow, rounds to the nearest pattern. -/
theorem nearestEven_packMag (neg : Bool) {e : ℤ} {q : ℕ} {y : ℝ} (he : -1074 ≤ e) (hq : RoundsTo y q)
    (hlo : e = -1074 ∨ 2 ^ 52 ≤ y) (hhi : y < 2 ^ 53) (hmax : y * 2 ^ e ≤ f64Max) :
    NearestEven (F64.sgn neg * (y * 2 ^ e)) (F64.pattern neg (packMag q e)) := by
  have hlt := pack_lt_of_le_f64Max hq hlo hhi hmax
  have h := nearestEven_pattern neg hq (hlo.imp_left fun h => by omega) hhi.le hlt
  have hunit : ((e + 1074).toNat : ℤ) - 1074 = e := by omega
  rw [hunit] at h
  rwa [packMag_eq hlt]

/-! ### The exponent of the unit in the last place -/

theorem cast_pow2Num_div_pow2Den (e : ℤ) : (pow2Num e : ℝ) / pow2Den e = 2 ^ e := by
  obtain ⟨k, rfl | rfl⟩ := e.eq_nat_or_neg <;> simp [pow2Num, pow2Den]

theorem pow2Num_pos (e : ℤ) : 0 < pow2Num e := by unfold pow2Num; positivity

theorem pow2Den_pos (e : ℤ) : 0 < pow2Den e := by unfold pow2Den; positivity

/-- The scaled fraction of `ulpExp`, `fl` and `sqrtF64` is the number in units of 2^e. -/
theorem cast_scaled (n d : ℕ) (e : ℤ) :
    ((n * pow2Den e : ℕ) : ℝ) / (d * pow2Num e : ℕ) = (n / d : ℝ) / 2 ^ e := by
  rw [← cast_pow2Num_div_pow2Den]
  push_cast
  have := pow2Num_pos e
  have := pow2Den_pos e
  field_simp

/-- The bit lengths of n and d bound n/d up to a factor of 4. -/
theorem log2_bounds {n d : ℕ} (hn : n ≠ 0) (hd : d ≠ 0) :
    (2 : ℝ) ^ ((Nat.log2 n : ℤ) - Nat.log2 d - 1) < n / d ∧ (n / d : ℝ) < 2 ^ ((Nat.log2 n : ℤ) - Nat.log2 d + 1) := by
  have n1 : (2 : ℝ) ^ (Nat.log2 n : ℤ) ≤ n := by exact_mod_cast Nat.log2_self_le hn
  have n2 : (n : ℝ) < 2 ^ ((Nat.log2 n : ℤ) + 1) := by exact_mod_cast Nat.lt_log2_self
  have d1 : (2 : ℝ) ^ (Nat.log2 d : ℤ) ≤ d := by exact_mod_cast Nat.log2_self_le hd
  have d2 : (d : ℝ) < 2 ^ ((Nat.log2 d : ℤ) + 1) := by exact_mod_cast Nat.lt_log2_self
  have hd0 : (0 : ℝ) < d := by positivity
  rw [lt_div_iff₀ hd0, div_lt_iff₀ hd0]
  constructor
  · calc (2 : ℝ) ^ ((Nat.log2 n : ℤ) - Nat.log2 d - 1) * d
        < 2 ^ ((Nat.log2 n : ℤ) - Nat.log2 d - 1) * 2 ^ ((Nat.log2 d : ℤ) + 1) := by gcongr
      _ = 2 ^ (Nat.log2 n : ℤ) := by rw [← zpow_add₀ (by norm_num)]; congr 1; ring
      _ ≤ n := n1
  · calc (n : ℝ) < 2 ^ ((Nat.log2 n : ℤ) + 1) := n2
      _ = 2 ^ ((Nat.log2 n : ℤ) - Nat.log2 d + 1) * 2 ^ (Nat.log2 d : ℤ) := by
        rw [← zpow_add₀ (by norm_num)]; congr 1; ring
      _ ≤ 2 ^ ((Nat.log2 n : ℤ) - Nat.log2 d + 1) * d := by gcongr

/-- A quotient's floor is below a natural number exactly when the quotient is. -/
theorem natDiv_lt_iff {a b m : ℕ} (hb : 0 < b) : a / b < m ↔ (a / b : ℝ) < m := by
  rw [Nat.div_lt_iff_lt_mul hb, div_lt_iff₀ (by exact_mod_cast hb)]
  exact_mod_cast Iff.rfl

/-- One correction makes an exponent that is at most one too small right. -/
theorem unit_exp_correct {r : ℝ} {e : ℤ} (hlo : 2 ^ 52 ≤ r / 2 ^ e) (hhi : r / 2 ^ e < 2 ^ 54) :
    2 ^ 52 ≤ r / 2 ^ (if r / 2 ^ e < 2 ^ 53 then e else e + 1) ∧
      r / 2 ^ (if r / 2 ^ e < 2 ^ 53 then e else e + 1) < 2 ^ 53 := by
  split_ifs with h
  · exact ⟨hlo, h⟩
  · rw [zpow_add₀ (by norm_num), zpow_one, ← div_div]
    constructor <;> linarith

/-- `ulpExp` gives the least exponent from -1074 up with which n/d stays below 2^53 units. -/
theorem ulpExp_spec {n d : ℕ} (hn : n ≠ 0) (hd : 0 < d) :
    -1074 ≤ ulpExp n d ∧ (ulpExp n d = -1074 ∨ 2 ^ 52 ≤ (n / d : ℝ) / 2 ^ ulpExp n d) ∧
      (n / d : ℝ) / 2 ^ ulpExp n d < 2 ^ 53 := by
  obtain ⟨hlo, hhi⟩ := log2_bounds hn hd.ne'
  set e0 : ℤ := (Nat.log2 n : ℤ) - Nat.log2 d - 53 with he0
  have hpos : (0 : ℝ) < 2 ^ e0 := by positivity
  have hlo' : (2 : ℝ) ^ 52 ≤ (n / d : ℝ) / 2 ^ e0 := by
    rw [le_div_iff₀ hpos, ← zpow_natCast, ← zpow_add₀ (by norm_num)]
    refine le_trans (le_of_eq ?_) hlo.le
    congr 1
    push_cast
    omega
  have hhi' : (n / d : ℝ) / 2 ^ e0 < 2 ^ 54 := by
    rw [div_lt_iff₀ hpos, ← zpow_natCast, ← zpow_add₀ (by norm_num)]
    refine lt_of_lt_of_eq hhi ?_
    congr 1
    push_cast
    omega
  have hif : (n * pow2Den e0 / (d * pow2Num e0) < 2 ^ 53) ↔ (n / d : ℝ) / 2 ^ e0 < 2 ^ 53 := by
    rw [natDiv_lt_iff (Nat.mul_pos hd (pow2Num_pos e0)), cast_scaled, Nat.cast_pow, Nat.cast_ofNat]
  have hulp : ulpExp n d = max (if (n / d : ℝ) / 2 ^ e0 < 2 ^ 53 then e0 else e0 + 1) (-1074) := by
    rw [← if_congr hif rfl rfl]
    rfl
  obtain ⟨hc1, hc2⟩ := unit_exp_correct hlo' hhi'
  rw [hulp]
  generalize (if (n / d : ℝ) / 2 ^ e0 < 2 ^ 53 then e0 else e0 + 1) = e1 at hc1 hc2 ⊢
  refine ⟨le_max_right .., ?_, lt_of_le_of_lt ?_ hc2⟩
  · rcases le_total (-1074) e1 with h | h
    · right
      rwa [max_eq_left h]
    · exact .inl (max_eq_right h)
  · gcongr
    · norm_num
    · exact le_max_left ..

/-- `roundDiv`, which compares twice the remainder with the divisor, rounds the quotient. -/
theorem roundDiv_roundsTo (a : ℕ) {b : ℕ} (hb : 0 < b) : RoundsTo (a / b) (roundDiv a b) := by
  have hb' : (0 : ℝ) < b := by exact_mod_cast hb
  have ha : (a : ℝ) = b * (a / b : ℕ) + (a % b : ℕ) := by exact_mod_cast (Nat.div_add_mod a b).symm
  have hr : ((a % b : ℕ) : ℝ) < b := by exact_mod_cast Nat.mod_lt a hb
  have hr0 : (0 : ℝ) ≤ (a % b : ℕ) := by positivity
  unfold roundDiv
  generalize a / b = q at ha ⊢
  generalize a % b = r at ha hr hr0 ⊢
  have up : b < 2 * r ↔ (q : ℝ) + 1 / 2 < a / b := by
    rw [lt_div_iff₀ hb', ha, ← Nat.cast_lt (α := ℝ), Nat.cast_mul, Nat.cast_ofNat]
    constructor <;> intro h <;> linarith
  have tie : 2 * r = b ↔ (q : ℝ) + 1 / 2 = a / b := by
    rw [eq_div_iff hb'.ne', ha, ← Nat.cast_inj (R := ℝ), Nat.cast_mul, Nat.cast_ofNat]
    constructor <;> intro h <;> linarith
  simp only [up, tie]
  exact roundsTo_of_floor ((le_div_iff₀ hb').2 (by linarith)) ((div_lt_iff₀ hb').2 (by linarith))

/-! ### The rounding of R18 -/

/-- fl of a number up to the largest finite one is that number rounded to nearest, ties to even. -/
theorem fl_nearestEven (neg : Bool) (n : ℕ) {d : ℕ} (hd : 0 < d) (hmax : (n / d : ℝ) ≤ f64Max) :
    NearestEven (F64.sgn neg * (n / d)) (fl neg n d) := by
  by_cases hn : n = 0
  · subst hn
    have h0 : RoundsTo 0 0 := ⟨by norm_num, fun _ => Even.zero⟩
    have h := nearestEven_pattern neg (e := 0) h0 (.inl rfl) (by norm_num) (by norm_num)
    have hfl : fl neg 0 d = F64.pattern neg (0 * 2 ^ 52 + 0) := by rw [zero_mul]; rfl
    rwa [zero_mul (2 ^ (((0 : ℕ) : ℤ) - 1074) : ℝ), ← hfl, ← zero_div (d : ℝ), ← Nat.cast_zero] at h
  · obtain ⟨he, hlo, hhi⟩ := ulpExp_spec hn hd
    have hfl : fl neg n d = F64.pattern neg (packMag (roundDiv (n * pow2Den (ulpExp n d)) (d * pow2Num (ulpExp n d)))
        (ulpExp n d)) := by simp only [fl, hn, if_false, F64.pattern]
    generalize ulpExp n d = e at he hlo hhi hfl
    have hy : (n / d : ℝ) / 2 ^ e * 2 ^ e = n / d := div_mul_cancel₀ _ (by positivity)
    have hq := roundDiv_roundsTo (n * pow2Den e) (Nat.mul_pos hd (pow2Num_pos e))
    rw [cast_scaled] at hq
    have h := nearestEven_packMag neg he hq hlo hhi (by rw [hy]; exact hmax)
    rwa [hy, ← hfl] at h

/-! ### The operations of R18 -/

theorem toF64_nearestEven {v : ℤ} (hmax : |(v : ℝ)| ≤ f64Max) : NearestEven v (toF64 v) := by
  have h := fl_nearestEven (decide (v < 0)) v.natAbs one_pos (by simpa [Nat.cast_natAbs] using hmax)
  rwa [Nat.cast_one, div_one, F64.cast_sgn_decide_mul_natAbs] at h

theorem F64.cast_snum (a : Word64) : (F64.snum a : ℚ) = F64.sgn (F64.neg a) * F64.num a := by
  unfold F64.snum F64.sgn
  generalize F64.num a = n
  split <;> simp

/-- What fl makes of a magnitude with a sign, for a rational number given in these terms. -/
theorem fl_nearestEven_of_eq {x : ℚ} {neg : Bool} {n d : ℕ} (hd : 0 < d) (hx : x = F64.sgn neg * (n / d : ℚ))
    (hmax : |x| ≤ f64Max) : NearestEven (x : ℚ) (fl neg n d) := by
  have habs : |x| = n / d := by
    rw [hx, abs_mul, F64.abs_cast_sgn, one_mul, abs_of_nonneg (by positivity)]
  have hmax' : (n / d : ℝ) ≤ f64Max := by
    rw [habs] at hmax
    have := (Rat.cast_le (K := ℝ)).2 hmax
    push_cast at this
    exact this
  rw [hx]
  push_cast
  exact fl_nearestEven neg n hd hmax'

section

variable {a b : Word64}

theorem F64.mul_nearestEven (ha : f64Finite a) (hb : f64Finite b) (hmax : |f64Value a * f64Value b| ≤ f64Max) :
    NearestEven (f64Value a * f64Value b : ℚ) (F64.mul a b) := by
  rw [f64Finite_iff] at ha hb
  have hmul : F64.mul a b = fl (F64.neg a != F64.neg b) (F64.num a * F64.num b) (F64.den a * F64.den b) := by
    simp [F64.mul, ha, hb]
  rw [hmul]
  refine fl_nearestEven_of_eq (Nat.mul_pos (F64.den_pos a) (F64.den_pos b)) ?_ hmax
  rw [f64Value_eq_div, f64Value_eq_div, F64.sgn_bne]
  push_cast
  ring

theorem F64.num_ne_zero (h : f64Value a ≠ 0) : F64.num a ≠ 0 := fun h0 =>
  h (by rw [f64Value_eq_div, h0, Nat.cast_zero, zero_div, mul_zero])

theorem F64.div_nearestEven (ha : f64Finite a) (hb : f64Finite b) (hy : f64Value b ≠ 0)
    (hmax : |f64Value a / f64Value b| ≤ f64Max) : NearestEven (f64Value a / f64Value b : ℚ) (F64.div a b) := by
  rw [f64Finite_iff] at ha hb
  have hn := F64.num_ne_zero hy
  have hdiv : F64.div a b = fl (F64.neg a != F64.neg b) (F64.num a * F64.den b) (F64.den a * F64.num b) := by
    simp [F64.div, ha, hb, hn]
  rw [hdiv]
  refine fl_nearestEven_of_eq (Nat.mul_pos (F64.den_pos a) (Nat.pos_of_ne_zero hn)) ?_ hmax
  have hs : (F64.sgn (F64.neg b) : ℚ)⁻¹ = F64.sgn (F64.neg b) :=
    inv_eq_of_mul_eq_one_left (by exact_mod_cast F64.sgn_mul_self _)
  rw [f64Value_eq_div, f64Value_eq_div, F64.sgn_bne, mul_div_mul_comm, div_eq_mul_inv (F64.sgn _ : ℚ), hs]
  push_cast
  rw [div_div_div_eq]

theorem F64.add_nearestEven (ha : f64Finite a) (hb : f64Finite b) (hmax : |f64Value a + f64Value b| ≤ f64Max) :
    NearestEven (f64Value a + f64Value b : ℚ) (F64.add a b) := by
  rw [f64Finite_iff] at ha hb
  have hda : (F64.den a : ℚ) ≠ 0 := by exact_mod_cast (F64.den_pos a).ne'
  have hdb : (F64.den b : ℚ) ≠ 0 := by exact_mod_cast (F64.den_pos b).ne'
  have hsum : f64Value a + f64Value b =
      ((F64.snum a * F64.den b + F64.snum b * F64.den a : ℤ) : ℚ) / (F64.den a * F64.den b : ℕ) := by
    rw [f64Value_eq_div, f64Value_eq_div]
    push_cast [F64.cast_snum]
    generalize F64.num a = na, F64.num b = nb, F64.den a = da, F64.den b = db at hda hdb ⊢
    field_simp
  have hadd : F64.add a b = fl
      (if F64.snum a * F64.den b + F64.snum b * F64.den a = 0 then F64.neg a && F64.neg b
        else decide (F64.snum a * F64.den b + F64.snum b * F64.den a < 0))
      (F64.snum a * F64.den b + F64.snum b * F64.den a).natAbs (F64.den a * F64.den b) := by
    simp only [F64.add, ha, hb, Bool.and_self, if_true]
  rw [hadd]
  refine fl_nearestEven_of_eq (Nat.mul_pos (F64.den_pos a) (F64.den_pos b)) ?_ hmax
  rw [hsum]
  generalize F64.snum a * F64.den b + F64.snum b * F64.den a = s
  split_ifs with hs
  · simp [hs]
  · rw [← mul_div_assoc]
    rw [F64.cast_sgn_decide_mul_natAbs]

end

/-! ### Integers up to 2^53 are binary64 numbers -/

theorem exists_shift_to_53_bits {n : ℕ} (hn : n ≠ 0) (h : n ≤ 2 ^ 53) :
    ∃ j ≤ 52, 2 ^ 52 ≤ n * 2 ^ j ∧ n * 2 ^ j ≤ 2 ^ 53 := by
  rcases h.eq_or_lt with rfl | hlt
  · exact ⟨0, by norm_num⟩
  · have hL : Nat.log2 n ≤ 52 := Nat.lt_succ_iff.1 ((Nat.log2_lt hn).2 hlt)
    have hp : 2 ^ 52 = 2 ^ Nat.log2 n * 2 ^ (52 - Nat.log2 n) := by rw [← pow_add, Nat.add_sub_cancel' hL]
    have hp' : 2 ^ 53 = 2 ^ (Nat.log2 n + 1) * 2 ^ (52 - Nat.log2 n) := by rw [← pow_add]; congr 1; omega
    refine ⟨52 - Nat.log2 n, Nat.sub_le .., ?_, ?_⟩
    · rw [hp]
      exact Nat.mul_le_mul_right _ (Nat.log2_self_le hn)
    · rw [hp']
      exact Nat.mul_le_mul_right _ Nat.lt_log2_self.le

/-- Shifted to 53 bits, an integer up to 2^53 is a significand. -/
theorem exists_f64Value_eq_int {v : ℤ} (h : v.natAbs ≤ 2 ^ 53) : ∃ b, f64Finite b ∧ f64Value b = v := by
  by_cases hv : v = 0
  · obtain ⟨hfin, hval⟩ := F64.pattern_unit false (e := 0) (q := 0) (.inl rfl) (by norm_num) (by norm_num)
    exact ⟨_, hfin, by rw [hval, hv]; simp⟩
  · obtain ⟨j, hj, hlo, hhi⟩ := exists_shift_to_53_bits (Int.natAbs_ne_zero.2 hv) h
    obtain ⟨hfin, hval⟩ :=
      F64.pattern_unit (decide (v < 0)) (e := 1074 - j) (q := v.natAbs * 2 ^ j) (.inr hlo) hhi (by omega)
    refine ⟨_, hfin, ?_⟩
    have he : ((1074 - j : ℕ) : ℤ) - 1074 = -(j : ℤ) := by omega
    rw [hval, he, Nat.cast_mul, Nat.cast_pow, Nat.cast_ofNat, mul_assoc (v.natAbs : ℚ), ← zpow_natCast,
      ← zpow_add₀ (by norm_num), add_neg_cancel, zpow_zero, mul_one, F64.cast_sgn_decide_mul_natAbs]

/-- Rounding gives a binary64 number itself. -/
theorem NearestEven.eq_of_exact {x : ℝ} {r b : Word64} (h : NearestEven x r) (hb : f64Finite b)
    (hx : (f64Value b : ℝ) = x) : f64Value r = f64Value b := by
  have hle := (h.2 b hb).1
  rw [hx, sub_self, abs_zero, abs_nonpos_iff, sub_eq_zero, ← hx] at hle
  exact_mod_cast hle

theorem two_pow_le_f64Max : (2 ^ 971 : ℚ) ≤ f64Max := by
  unfold f64Max
  exact le_mul_of_one_le_left (by positivity) (by norm_num)

theorem abs_int64_le_f64Max {v : ℤ} (h1 : -2 ^ 63 ≤ v) (h2 : v ≤ 2 ^ 63 - 1) : |(v : ℝ)| ≤ f64Max := by
  have hv : |v| ≤ 2 ^ 63 := abs_le.2 ⟨h1, by omega⟩
  have hmax : ((2 ^ 63 : ℤ) : ℚ) ≤ f64Max := by
    refine le_trans ?_ two_pow_le_f64Max
    rw [Int.cast_pow, Int.cast_ofNat]
    exact pow_le_pow_right₀ (by norm_num) (by norm_num)
  rw [← Int.cast_abs]
  exact_mod_cast (Int.cast_le.2 hv).trans hmax

/-! ### The square root of R18 -/

theorem isqrtFrom_eq_sqrt {n : ℕ} : ∀ {k r : ℕ}, r * r ≤ n → n < (r + 2 ^ k) * (r + 2 ^ k) → isqrtFrom n k r = n.sqrt
  | 0, _, hlo, hhi => Nat.eq_sqrt.2 ⟨hlo, hhi⟩
  | k + 1, r, hlo, hhi => by
    rw [isqrtFrom]
    split_ifs with h
    · exact isqrtFrom_eq_sqrt h (by rwa [pow_succ, mul_two, ← add_assoc] at hhi)
    · exact isqrtFrom_eq_sqrt hlo (not_le.1 h)

theorem isqrt_eq_sqrt {n : ℕ} (h : n < 2 ^ 128) : isqrt n = n.sqrt :=
  isqrtFrom_eq_sqrt (Nat.zero_le n) (by simpa using h)

theorem sqrt_floor_lt_iff {a b m : ℕ} (hb : 0 < b) (hm : 0 < m) : (a / b).sqrt < m ↔ √(a / b : ℝ) < m := by
  rw [Nat.sqrt_lt', natDiv_lt_iff hb, Real.sqrt_lt' (by exact_mod_cast hm), Nat.cast_pow]

theorem sqrt_floor_le {a b : ℕ} (hb : 0 < b) : ((a / b).sqrt : ℝ) ≤ √(a / b : ℝ) := by
  rcases Nat.eq_zero_or_pos (a / b).sqrt with h | h
  · rw [h, Nat.cast_zero]
    exact Real.sqrt_nonneg _
  · exact not_lt.1 fun hlt => lt_irrefl _ ((sqrt_floor_lt_iff hb h).2 hlt)

/-- The rounding of `sqrtF64`, which compares squares: from the root's floor to the nearest integer. -/
theorem sqrt_roundsTo {x y q : ℕ} (hy : 0 < y) (hq : q = (x / y).sqrt) :
    RoundsTo √(x / y) (if (2 * q + 1) * (2 * q + 1) * y < 4 * x then q + 1
      else if (2 * q + 1) * (2 * q + 1) * y = 4 * x then q + q % 2 else q) := by
  have hy' : (0 : ℝ) < y := by exact_mod_cast hy
  have hlo : (q : ℝ) ≤ √(x / y) := hq ▸ sqrt_floor_le hy
  have hhi : √(x / y : ℝ) < q + 1 := by
    have := (sqrt_floor_lt_iff (a := x) hy (Nat.succ_pos q)).1 (by omega)
    exact_mod_cast this
  have up : (2 * q + 1) * (2 * q + 1) * y < 4 * x ↔ (q : ℝ) + 1 / 2 < √(x / y) := by
    rw [Real.lt_sqrt (by positivity), lt_div_iff₀ hy', ← Nat.cast_lt (α := ℝ)]
    push_cast
    constructor <;> intro h <;> linarith
  have tie : (2 * q + 1) * (2 * q + 1) * y = 4 * x ↔ (q : ℝ) + 1 / 2 = √(x / y) := by
    rw [eq_comm (b := √(x / y : ℝ)), Real.sqrt_eq_iff_eq_sq (by positivity) (by positivity), div_eq_iff hy'.ne',
      ← Nat.cast_inj (R := ℝ)]
    push_cast
    constructor <;> intro h <;> linarith
  simp only [up, tie]
  exact roundsTo_of_floor hlo hhi

theorem sqrt_div_zpow (r : ℝ) (e : ℤ) : √(r / 2 ^ (2 * e)) = √r / 2 ^ e := by
  rw [mul_comm, zpow_mul, Real.sqrt_div' r (by positivity)]
  congr 1
  exact_mod_cast Real.sqrt_sq (by positivity)

/-- The fraction under the root in `sqrtUlpExp` and `sqrtF64`, in units of 2^(2e). -/
theorem sqrt_scaled (n d : ℕ) (e : ℤ) :
    √(((n * pow2Den (2 * e) : ℕ) : ℝ) / (d * pow2Num (2 * e) : ℕ)) = √(n / d) / 2 ^ e := by
  rw [cast_scaled, sqrt_div_zpow]

theorem isqrt_scaled {n d : ℕ} (hd : 0 < d) {e : ℤ} (h : √(n / d : ℝ) / 2 ^ e < 2 ^ 64) :
    isqrt (n * pow2Den (2 * e) / (d * pow2Num (2 * e))) = (n * pow2Den (2 * e) / (d * pow2Num (2 * e))).sqrt := by
  refine isqrt_eq_sqrt ?_
  have hlt := (sqrt_floor_lt_iff (a := n * pow2Den (2 * e)) (m := 2 ^ 64) (Nat.mul_pos hd (pow2Num_pos (2 * e)))
    (by norm_num)).2 (by rw [sqrt_scaled]; exact_mod_cast h)
  rw [Nat.sqrt_lt', ← pow_mul] at hlt
  exact hlt

theorem two_pow_mul_zpow_sq (k : ℕ) (e : ℤ) : ((2 : ℝ) ^ k * 2 ^ e) ^ 2 = 2 ^ (2 * (e + k)) := by
  rw [← zpow_natCast 2 k, ← zpow_add₀ (by norm_num), ← zpow_natCast _ 2, ← zpow_mul]
  congr 1
  push_cast
  ring

/-- `sqrtUlpExp` gives the exponent with which the root has 53 bits. -/
theorem sqrtUlpExp_spec {n d : ℕ} (hn : n ≠ 0) (hd : 0 < d) :
    2 ^ 52 ≤ √(n / d : ℝ) / 2 ^ sqrtUlpExp n d ∧ √(n / d : ℝ) / 2 ^ sqrtUlpExp n d < 2 ^ 53 := by
  obtain ⟨hlo, hhi⟩ := log2_bounds hn hd.ne'
  set e0 : ℤ := ((Nat.log2 n : ℤ) - Nat.log2 d - 1) / 2 - 52 with he0
  have hpos : (0 : ℝ) < 2 ^ e0 := by positivity
  have hlo' : (2 : ℝ) ^ 52 ≤ √(n / d) / 2 ^ e0 := by
    rw [le_div_iff₀ hpos, Real.le_sqrt' (by positivity), two_pow_mul_zpow_sq]
    refine le_trans (zpow_le_zpow_right₀ (by norm_num) ?_) hlo.le
    push_cast
    omega
  have hhi' : √(n / d : ℝ) / 2 ^ e0 < 2 ^ 54 := by
    rw [div_lt_iff₀ hpos, Real.sqrt_lt' (by positivity), two_pow_mul_zpow_sq]
    refine lt_of_lt_of_le hhi (zpow_le_zpow_right₀ (by norm_num) ?_)
    push_cast
    omega
  have hif : (isqrt (n * pow2Den (2 * e0) / (d * pow2Num (2 * e0))) < 2 ^ 53) ↔ √(n / d : ℝ) / 2 ^ e0 < 2 ^ 53 := by
    rw [isqrt_scaled hd (hhi'.trans (by norm_num)),
      sqrt_floor_lt_iff (Nat.mul_pos hd (pow2Num_pos (2 * e0))) (by norm_num), sqrt_scaled, Nat.cast_pow, Nat.cast_ofNat]
  have hulp : sqrtUlpExp n d = if √(n / d : ℝ) / 2 ^ e0 < 2 ^ 53 then e0 else e0 + 1 := by
    rw [← if_congr hif rfl rfl]
    rfl
  rw [hulp]
  exact unit_exp_correct hlo' hhi'

theorem f64Value_le_f64Max {a : Word64} (ha : f64Finite a) : f64Value a ≤ f64Max := by
  have hm : (F64.mant a : ℚ) ≤ 2 ^ 53 - 1 := by
    have : F64.mant a + 1 ≤ 2 ^ 53 := F64.mant_lt a
    rw [le_sub_iff_add_le]
    exact_mod_cast this
  have hs : (2 : ℚ) ^ ((F64.scale a : ℤ) - 1075) ≤ 2 ^ 971 := by
    rw [← zpow_natCast]
    have := F64.scale_le ha
    exact zpow_le_zpow_right₀ (by norm_num) (by push_cast; omega)
  have habs : |f64Value a| = F64.mant a * 2 ^ ((F64.scale a : ℤ) - 1075) := by
    rw [f64Value_eq, abs_mul, F64.abs_cast_sgn, one_mul,
      abs_of_nonneg (mul_nonneg (Nat.cast_nonneg _) (zpow_nonneg zero_le_two _))]
  calc f64Value a ≤ |f64Value a| := le_abs_self _
    _ ≤ f64Max := by
      rw [habs, f64Max]
      exact mul_le_mul hm hs (by positivity) (by norm_num)

theorem sqrt_le_f64Max {a : Word64} (ha : f64Finite a) : √(f64Value a : ℝ) ≤ f64Max := by
  have h1 : (1 : ℚ) ≤ f64Max := two_pow_le_f64Max.trans' (one_le_pow₀ one_le_two)
  have h2 : (f64Value a : ℝ) ≤ f64Max := by exact_mod_cast f64Value_le_f64Max ha
  exact (Real.sqrt_le_sqrt h2).trans (Real.sqrt_le_self_iff.2 (.inr (by exact_mod_cast h1)))

/-- The root of the smallest positive number is 2^(-537), far above the subnormal range. -/
theorem le_sqrt_num_div_den {a : Word64} (h : F64.num a ≠ 0) : (2 : ℝ) ^ (-537 : ℤ) ≤ √(F64.num a / F64.den a) := by
  have hn : (1 : ℝ) ≤ F64.num a := by exact_mod_cast Nat.pos_of_ne_zero h
  have hd : (F64.den a : ℝ) ≤ 2 ^ 1074 := by
    have h1 := F64.one_le_scale a
    rw [F64.den, Nat.cast_pow, Nat.cast_ofNat]
    exact pow_le_pow_right₀ (by norm_num) (by omega)
  have hd0 : (0 : ℝ) < F64.den a := by exact_mod_cast F64.den_pos a
  rw [Real.le_sqrt' (by positivity), le_div_iff₀ hd0, ← zpow_natCast, ← zpow_mul]
  calc (2 : ℝ) ^ (-537 * ((2 : ℕ) : ℤ)) * F64.den a ≤ 2 ^ (-537 * ((2 : ℕ) : ℤ)) * 2 ^ 1074 := by gcongr
    _ = 1 := by rw [← zpow_natCast, ← zpow_add₀ (by norm_num)]; rfl
    _ ≤ F64.num a := hn

theorem neg_eq_false_of_nonneg {a : Word64} (h0 : 0 ≤ f64Value a) (hn : F64.num a ≠ 0) : F64.neg a = false := by
  by_contra h
  have hpos : (0 : ℚ) < F64.num a / F64.den a :=
    div_pos (Nat.cast_pos.2 (Nat.pos_of_ne_zero hn)) (Nat.cast_pos.2 (F64.den_pos a))
  rw [f64Value_eq_div, Bool.eq_true_of_not_eq_false h, F64.sgn_true, Int.cast_neg, Int.cast_one, neg_one_mul] at h0
  exact absurd (neg_nonneg.1 h0) (not_le.2 hpos)

/-- The branch of `sqrtF64` for a positive number. -/
theorem sqrtF64_eq_pattern {a : Word64} {e : ℤ} {x y q : ℕ} (hfin : F64.finite a = true) (hneg : F64.neg a = false)
    (hn : F64.num a ≠ 0) (he : e = sqrtUlpExp (F64.num a) (F64.den a)) (hx : x = F64.num a * pow2Den (2 * e))
    (hy : y = F64.den a * pow2Num (2 * e)) (hq : q = isqrt (x / y)) :
    sqrtF64 a = F64.pattern false (packMag (if (2 * q + 1) * (2 * q + 1) * y < 4 * x then q + 1
      else if (2 * q + 1) * (2 * q + 1) * y = 4 * x then q + q % 2 else q) e) := by
  subst hq hy hx he
  simp only [sqrtF64, F64.pattern, hfin, hneg, beq_false_of_ne hn, Bool.and_false, Bool.not_false, Bool.and_self,
    Bool.false_eq_true, if_false, if_true, zero_add]

theorem neg_1074_le_sqrtUlpExp {a : Word64} (hn : F64.num a ≠ 0) : -1074 ≤ sqrtUlpExp (F64.num a) (F64.den a) := by
  have hhi := (sqrtUlpExp_spec hn (F64.den_pos a)).2
  have h := (le_sqrt_num_div_den hn).trans_lt ((div_lt_iff₀ (by positivity)).1 hhi)
  rw [← zpow_natCast, ← zpow_add₀ (by norm_num)] at h
  have := (zpow_lt_zpow_iff_right₀ (by norm_num)).1 h
  push_cast at this
  omega

/-- A zero of either sign is its own root. -/
theorem sqrtF64_nearestEven_of_zero {a : Word64} (ha : f64Finite a) (hn : F64.num a = 0) :
    NearestEven √(f64Value a : ℝ) (sqrtF64 a) := by
  have hv : f64Value a = 0 := by rw [f64Value_eq_div, hn, Nat.cast_zero, zero_div, mul_zero]
  have hroot : sqrtF64 a = a := by simp [sqrtF64, (f64Finite_iff a).1 ha, hn]
  rw [hroot, hv]
  refine ⟨ha, fun b _ => ?_⟩
  rw [hv, Rat.cast_zero, Real.sqrt_zero, sub_zero, abs_zero, sub_zero]
  exact ⟨abs_nonneg _, fun h => .inl (by exact_mod_cast abs_eq_zero.1 h.symm)⟩

theorem sqrtF64_nearestEven_of_pos {a : Word64} (ha : f64Finite a) (h0 : 0 ≤ f64Value a) (hn : F64.num a ≠ 0) :
    NearestEven √(f64Value a : ℝ) (sqrtF64 a) := by
  have hneg := neg_eq_false_of_nonneg h0 hn
  obtain ⟨hlo, hhi⟩ := sqrtUlpExp_spec hn (F64.den_pos a)
  have he := neg_1074_le_sqrtUlpExp hn
  have hroot := sqrtF64_eq_pattern ((f64Finite_iff a).1 ha) hneg hn rfl rfl rfl rfl
  generalize sqrtUlpExp (F64.num a) (F64.den a) = e at hlo hhi he hroot
  rw [isqrt_scaled (F64.den_pos a) (hhi.trans (by norm_num))] at hroot
  have hq := sqrt_roundsTo (x := F64.num a * pow2Den (2 * e))
    (Nat.mul_pos (F64.den_pos a) (pow2Num_pos (2 * e))) rfl
  rw [sqrt_scaled] at hq
  have hy : √(F64.num a / F64.den a : ℝ) / 2 ^ e * 2 ^ e = √(f64Value a : ℝ) := by
    rw [div_mul_cancel₀ _ (by positivity), f64Value_eq_div, hneg, F64.sgn_false, Int.cast_one, one_mul, Rat.cast_div,
      Rat.cast_natCast, Rat.cast_natCast]
  have h := nearestEven_packMag false he hq (.inr hlo) hhi (by rw [hy]; exact sqrt_le_f64Max ha)
  rwa [hy, F64.sgn_false, Int.cast_one, one_mul, ← hroot] at h

theorem sqrtF64_nearestEven {a : Word64} (ha : f64Finite a) (h0 : 0 ≤ f64Value a) :
    NearestEven √(f64Value a : ℝ) (sqrtF64 a) := by
  by_cases hn : F64.num a = 0
  · exact sqrtF64_nearestEven_of_zero ha hn
  · exact sqrtF64_nearestEven_of_pos ha h0 hn

/-- Settles O52: every operation hands `fl` the exact value, `fl` and `sqrtF64` round it on the grid of its last place, and
no finite number lies nearer than that grid; integers up to 2^53 are themselves such numbers. -/
theorem conversionIsExact : Obligations.ConversionIsExact := by
  refine ⟨fun v h1 h2 => toF64_nearestEven (abs_int64_le_f64Max h1 h2), fun v h1 h2 => ?_, fun a b ha hb => ?_,
    fun a ha h0 => sqrtF64_nearestEven ha h0⟩
  · obtain ⟨b, hb, hv⟩ := exists_f64Value_eq_int (v := v) (by omega)
    have hround := toF64_nearestEven (abs_int64_le_f64Max (v := v) (by omega) (by omega))
    exact ⟨hround.1, by rw [hround.eq_of_exact hb (by rw [hv]; simp), hv]⟩
  · exact ⟨F64.add_nearestEven ha hb, F64.mul_nearestEven ha hb, F64.div_nearestEven ha hb⟩

end Sys2Proof.Machine
end

section
/-! PROOFS. What the host reads and writes: the words of the CSR window, the effect of each write, and the registers at
reset (O7 to O9, O11, O12, O15 to O19). -/

namespace Sys2Proof.Machine

/-! ### The words the host reads (R33, R35, R39, R52 10_state.md) -/

/-- The bits above the lower part of a word are those of its upper part. -/
theorem extractLsb'_append_above {m n : Nat} (x : BitVec m) (y : BitVec n) (start len : Nat) :
    (x ++ y).extractLsb' (start + n) len = x.extractLsb' start len := by
  rw [BitVec.extractLsb'_append_eq_of_le (Nat.le_add_left ..), Nat.add_sub_cancel]

/-- Eight flags below a word: each is its own bit, and the word's fields stand above them. -/
theorem append_flags {n : Nat} (x : BitVec n) (b0 b1 b2 b3 b4 b5 b6 b7 : Bool) :
    let flag := BitVec.ofBool
    let w := x ++ flag b7 ++ flag b6 ++ flag b5 ++ flag b4 ++ flag b3 ++ flag b2 ++ flag b1 ++ flag b0
    (w.getLsbD 0 = b0 ∧ w.getLsbD 1 = b1 ∧ w.getLsbD 2 = b2 ∧ w.getLsbD 3 = b3 ∧ w.getLsbD 4 = b4 ∧ w.getLsbD 5 = b5 ∧
      w.getLsbD 6 = b6 ∧ w.getLsbD 7 = b7) ∧
    (∀ i, w.getLsbD (i + 8) = x.getLsbD i) ∧ ∀ start len, w.extractLsb' (start + 8) len = x.extractLsb' start len := by
  refine ⟨by simp only [BitVec.getLsbD_append, BitVec.getLsbD_ofBool]; simp, fun i => by simp [BitVec.getLsbD_append],
    fun start len => ?_⟩
  simp [BitVec.extractLsb'_append_eq_of_le]

/-- The fields of the STATUS word (R35 10_state.md). -/
theorem Status.word_fields (st : Status) :
    (st.word.getLsbD 0 = st.busy ∧ st.word.getLsbD 1 = st.err ∧ st.word.getLsbD 2 = st.calValid ∧
      st.word.getLsbD 3 = st.tfValid ∧ st.word.getLsbD 4 = st.ovf ∧ st.word.getLsbD 5 = st.cmdDropped ∧
      st.word.getLsbD 6 = st.aggDone ∧ st.word.getLsbD 7 = st.abortPend) ∧
    st.word.extractLsb' 8 4 = st.fsm.code ∧ st.word.extractLsb' 12 3 = st.trig.code ∧ st.word.getLsbD 15 = false ∧
    st.word.extractLsb' 16 8 = st.errCode.code ∧ st.word.extractLsb' 24 8 = st.curOp := by
  obtain ⟨flags, bit, field⟩ := append_flags
    (st.curOp ++ st.errCode.code ++ (0 : BitVec 1) ++ st.trig.code ++ st.fsm.code)
    st.busy st.err st.calValid st.tfValid st.ovf st.cmdDropped st.aggDone st.abortPend
  refine ⟨flags, (field 0 4).trans ?_, (field 4 3).trans ?_, (bit 7).trans ?_, (field 8 8).trans ?_,
    (field 16 8).trans ?_⟩
  · exact BitVec.extractLsb'_append_eq_right
  · exact (extractLsb'_append_above _ _ 0 3).trans BitVec.extractLsb'_append_eq_right
  · simp only [BitVec.getLsbD_append]; simp
  · exact (extractLsb'_append_above _ _ 4 8).trans <| (extractLsb'_append_above _ _ 1 8).trans <|
      (extractLsb'_append_above _ _ 0 8).trans BitVec.extractLsb'_append_eq_right
  · exact (extractLsb'_append_above _ _ 12 8).trans <| (extractLsb'_append_above _ _ 9 8).trans <|
      (extractLsb'_append_above _ _ 8 8).trans BitVec.extractLsb'_append_eq_left

/-- The fields of the ERR_INFO word (R39 10_state.md). -/
theorem ErrInfo.word_fields (e : ErrInfo) :
    e.word.extractLsb' 0 8 = e.addr ∧ e.word.extractLsb' 8 2 = busKindCode e.kind ∧ e.word.extractLsb' 10 6 = 0 ∧
      e.word.extractLsb' 16 16 = e.sample := by
  refine ⟨BitVec.extractLsb'_append_eq_right, (extractLsb'_append_above _ _ 0 2).trans ?_,
    (extractLsb'_append_above _ _ 2 6).trans ?_, (extractLsb'_append_above _ _ 8 16).trans ?_⟩
  · exact BitVec.extractLsb'_append_eq_right
  · exact (extractLsb'_append_above _ _ 0 6).trans BitVec.extractLsb'_append_eq_right
  · exact (extractLsb'_append_above _ _ 6 16).trans BitVec.extractLsb'_append_eq_left

/-- Settles O17: the fields of the two words, and the code of every named value in them. -/
theorem statusWordLayout : Obligations.StatusWordLayout := by
  intro s
  refine ⟨s.status.word, s.errInfo.word, hostAnswer_read csrAt_status s, hostAnswer_read csrAt_errInfo s, ?_⟩
  obtain ⟨flags, fsm, trig, reserved, code, op⟩ := s.status.word_fields
  obtain ⟨addr, kind, zero, sample⟩ := s.errInfo.word_fields
  refine ⟨flags, ?_, ?_, reserved, ?_, op, addr, ?_, zero, sample⟩
  · rw [fsm]; cases s.status.fsm <;> rfl
  · rw [trig]; cases s.status.trig <;> rfl
  · rw [code]; cases s.status.errCode <;> rfl
  · rw [kind]; rcases s.errInfo.kind with _ | k
    · rfl
    · cases k <;> rfl

/-- A field narrower than a word keeps its unsigned value when it is zero-extended. -/
theorem toInt_zeroExtend_32 {n : Nat} (x : BitVec n) (hn : n < 32) : (x.zeroExtend 32).toInt = x.toNat := by
  have h1 : x.toNat < 2 ^ n := x.isLt
  have h2 : 2 ^ n ≤ 2 ^ 31 := Nat.pow_le_pow_right (by norm_num) (by omega)
  rw [BitVec.toInt_setWidth]
  exact Int.bmod_eq_of_le (by omega) (by omega)

/-- An unsigned calibration field's word holds its value (R52 10_state.md). -/
theorem calWord_unsigned {n : Nat} {off : BitVec 12} {f : CalField} {s : State} {x : BitVec n}
    (hat : csrAt off = some (.cal f)) (hx : s.cal.word f = x.zeroExtend 32) (hn : n < 32 := by norm_num) :
    ∃ w : Word, hostAnswer ⟨.w32, off, .read⟩ s = .data w ∧ w.toInt = x.toNat :=
  ⟨_, hostAnswer_read hat s, by rw [csrRead, hx, toInt_zeroExtend_32 x hn]⟩

/-- A signed calibration field's word holds its value (R52 10_state.md). -/
theorem calWord_signed {n : Nat} {off : BitVec 12} {f : CalField} {s : State} {x : BitVec n}
    (hat : csrAt off = some (.cal f)) (hx : s.cal.word f = x.signExtend 32) (hn : n ≤ 32 := by norm_num) :
    ∃ w : Word, hostAnswer ⟨.w32, off, .read⟩ s = .data w ∧ w.toInt = x.toInt :=
  ⟨_, hostAnswer_read hat s, by rw [csrRead, hx, BitVec.toInt_signExtend_of_le hn]⟩

/-- Settles O18: each field of R52's table is read through its own extension. -/
theorem calibrationWords : Obligations.CalibrationWords := by
  intro s
  simp only [List.forall_mem_cons]
  exact ⟨calWord_unsigned rfl rfl, calWord_signed rfl rfl, calWord_signed rfl rfl,
    calWord_unsigned rfl rfl, calWord_signed rfl rfl, calWord_signed rfl rfl, calWord_signed rfl rfl,
    calWord_signed rfl rfl, calWord_signed rfl rfl, calWord_signed rfl rfl, calWord_signed rfl rfl,
    calWord_signed rfl rfl, calWord_unsigned rfl rfl,
    calWord_unsigned rfl rfl, calWord_unsigned rfl rfl, calWord_signed rfl rfl, calWord_signed rfl rfl,
    calWord_signed rfl rfl, calWord_unsigned rfl rfl, calWord_signed rfl rfl,
    calWord_signed rfl rfl, calWord_signed rfl rfl, calWord_signed rfl rfl,
    calWord_unsigned rfl rfl, calWord_signed rfl rfl, by simp⟩

/-- Settles O16: an offset's word is the low or the high half of its register. -/
theorem wideRegisterWords : Obligations.WideRegisterWords := by
  intro s
  have entry {off : BitVec 12} (r : WideReg) (hlo : csrAt off = some (.lo r)) (hhi : csrAt (off + 4) = some (.hi r)) :
      hostAnswer ⟨.w32, off, .read⟩ s = .data ((wideReg s r).extractLsb' 0 32) ∧
      hostAnswer ⟨.w32, off + 4, .read⟩ s = .data ((wideReg s r).extractLsb' 32 32) :=
    ⟨hostAnswer_read hlo s, hostAnswer_read hhi s⟩
  simp only [List.forall_mem_cons]
  exact ⟨entry .tFine rfl rfl, entry .compT rfl rfl, entry .compP rfl rfl, entry .compH rfl rfl, entry .accT rfl rfl,
    entry .accP rfl rfl, entry .rmsT rfl rfl, entry .rmsP rfl rfl, by simp⟩

/-- What each CSR of the map reads right after reset (R453 70_reset_and_hazards.md). -/
theorem csrRead_reset : ∀ e ∈ csrMap, csrRead .reset e.2 =
    if e.1 = 0x00C then 20 else if e.1 = 0x014 then 50 else if e.1 = 0x018 then 1000 else if e.1 = 0x01C then 300
    else if e.1 = 0x020 then 100 else 0 := by decide

/-- Settles O19: an offset that does not answer `slverr` is an entry of the map. -/
theorem resetReadsBack : Obligations.ResetReadsBack := by
  intro off hoff
  cases hc : csrAt off with
  | none => simp [hostAnswer, HostAccess.target, hc] at hoff
  | some c =>
    rw [hostAnswer_read hc, csrRead_reset _ (csrAt_mem hc)]
    simp only [BitVec.toNat_eq, BitVec.reduceToNat]

/-! ### A write to a read-write CSR (R50, R54, R55 10_state.md; R108 20_memory.md) -/

/-- An access that reaches a CSR is a 32-bit one at its offset (R105, R106 20_memory.md). -/
theorem target_eq_some {a : HostAccess} {c : Csr} (h : a.target = some c) : a.width = .w32 ∧ csrAt a.off = some c := by
  unfold HostAccess.target at h
  split at h
  · exact ⟨‹_›, h⟩
  all_goals simp at h

/-- Each CSR stands at one offset only. -/
theorem csrMap_injective : ∀ e ∈ csrMap, ∀ f ∈ csrMap, e.2 = f.2 → e.1 = f.1 := by decide

theorem csrAt_injective {off off' : BitVec 12} {c : Csr} (h : csrAt off = some c) (h' : csrAt off' = some c) :
    off = off' := BitVec.eq_of_toNat_eq (csrMap_injective _ (csrAt_mem h) _ (csrAt_mem h') rfl)

/-- What the host reads at an offset depends on its CSR alone. -/
theorem hostAnswer_read_congr {off : BitVec 12} {s t : State}
    (h : ∀ c, csrAt off = some c → csrRead t c = csrRead s c) :
    hostAnswer ⟨.w32, off, .read⟩ t = hostAnswer ⟨.w32, off, .read⟩ s := by
  cases hc : csrAt off with
  | none => simp only [hostAnswer, HostAccess.target, hc]
  | some c => rw [hostAnswer_read hc, hostAnswer_read hc, h c hc]

/-- The low n bits of a word are the word under a mask. -/
theorem zeroExtend_extractLsb'_eq_and (w : Word) (n : Nat) :
    (w.extractLsb' 0 n).zeroExtend 32 = w &&& BitVec.ofNat 32 (2 ^ n - 1) := by
  refine BitVec.eq_of_getLsbD_eq fun i hi => ?_
  have hbit : (BitVec.ofNat 32 (2 ^ n - 1)).getLsbD i = decide (i < n) := by
    rw [BitVec.getLsbD_ofNat, Nat.testBit_two_pow_sub_one]
    simp [hi]
  rw [BitVec.getLsbD_and, hbit, Bool.and_comm]
  simp [hi]

@[simp] theorem csrRead_answering (s : State) (a : HostAccess) (v : HostAnswer) (c : Csr) :
    csrRead (s.answering a v) c = csrRead s c := by
  cases c <;> rfl

/-- No write to a CSR other than CMD touches the hidden state. -/
theorem csrWrite_hid (c : Csr) (w : Word) (s : State) : (csrWrite c w s).hid = s.hid := by
  cases c <;> simp only [csrWrite, writeStatus]
  split <;> rfl

/-- A write to a CSR other than STATUS changes what is read there and in STATUS only. -/
theorem csrRead_csrWrite_of_ne {c c' : Csr} (hc : c ≠ .status) (hne : c' ≠ c) (hs : c' ≠ .status) (w : Word)
    (s : State) : csrRead (csrWrite c w s) c' = csrRead s c' := by
  cases c
  case status => exact absurd rfl hc
  case window | sampleDelay | settle | pollBudget | heatTemp | heatDur | rawT | rawP | rawH =>
    cases c' <;> first | rfl | contradiction
  all_goals rfl

/-- A write to a CSR other than CMD and STATUS while BUSY = 0, as the host reads the window afterwards. -/
theorem configWrite_reads_back {off : BitVec 12} {c : Csr} {w v : Word} {s : State} {tf : Bool}
    (hb : s.status.busy = false) (hat : csrAt off = some c) (hcmd : c ≠ .cmd) (hc : c ≠ .status)
    (hv : csrRead (csrWrite c w s) c = v) (htf : (csrWrite c w s).status = { s.status with tfValid := tf }) :
    ∃ t, eventStep (.host ⟨.w32, off, .write w⟩) s = .next t ∧ hostAnswer ⟨.w32, off, .read⟩ t = .data v ∧
      t.status = { s.status with tfValid := tf } ∧ t.hid = s.hid ∧
      ∀ off', off' ≠ off → off' ≠ 0x004 → hostAnswer ⟨.w32, off', .read⟩ t = hostAnswer ⟨.w32, off', .read⟩ s := by
  refine ⟨(csrWrite c w s).answering ⟨.w32, off, .write w⟩ .done, ?_, ?_, htf, csrWrite_hid c w s,
    fun off' hne h4 => ?_⟩
  · rw [eventStep, hostStep_write hat, hostWrite_idle hcmd w hb]
  · rw [hostAnswer_read hat, csrRead_answering, hv]
  · refine hostAnswer_read_congr fun c' hc' => ?_
    rw [csrRead_answering]
    refine csrRead_csrWrite_of_ne hc ?_ ?_ w s <;> rintro rfl
    exacts [hne (csrAt_injective hc' hat), h4 (csrAt_injective hc' csrAt_status)]

/-- Settles O15: each read-write CSR takes its used bits, and no other CSR but STATUS reads what the write changes. -/
theorem configurationReadsBack : Obligations.ConfigurationReadsBack := by
  intro s w hb
  have entry {off : BitVec 12} {c : Csr} (n : Nat) (hat : csrAt off = some c) (hcmd : c ≠ .cmd) (hc : c ≠ .status)
      (hv : csrRead (csrWrite c w s) c = (w.extractLsb' 0 n).zeroExtend 32)
      (htf : (csrWrite c w s).status = { s.status with tfValid := s.status.tfValid && off != 0x024 }) :=
    configWrite_reads_back hb hat hcmd hc (hv.trans (zeroExtend_extractLsb'_eq_and w n)) htf
  simp only [List.forall_mem_cons]
  exact ⟨entry (c := .window) 16 rfl nofun nofun rfl (by simp [csrWrite]),
    entry (c := .sampleDelay) 16 rfl nofun nofun rfl (by simp [csrWrite]),
    entry (c := .settle) 16 rfl nofun nofun rfl (by simp [csrWrite]),
    entry (c := .pollBudget) 16 rfl nofun nofun rfl (by simp [csrWrite]),
    entry (c := .heatTemp) 16 rfl nofun nofun rfl (by simp [csrWrite]),
    entry (c := .heatDur) 16 rfl nofun nofun rfl (by simp [csrWrite]),
    entry (c := .rawT) 20 rfl nofun nofun rfl (by simp [csrWrite]),
    entry (c := .rawP) 20 rfl nofun nofun rfl (by simp [csrWrite]),
    entry (c := .rawH) 16 rfl nofun nofun rfl (by simp [csrWrite]), by simp⟩

/-! ### Writes to STATUS and CMD, reads, and the engine's turn -/

theorem csrWrite_status (w : Word) (s : State) : csrWrite .status w s = writeStatus w s := rfl

/-- A write to STATUS, bit by bit (R36 10_state.md). -/
theorem writeStatus_eq (w : Word) (s : State) : writeStatus w s = { s with
    status := { s.status with
      err := s.status.err && !w.getLsbD 1
      errCode := if w.getLsbD 1 = true then .noError else s.status.errCode
      ovf := s.status.ovf && !w.getLsbD 4
      cmdDropped := s.status.cmdDropped && !w.getLsbD 5 }
    errInfo := if w.getLsbD 1 = true then { addr := 0, kind := none, sample := 0 } else s.errInfo } := by
  unfold writeStatus
  cases h : w.getLsbD 1 <;> simp [clearError, ErrInfo.reset]

/-- Settles O11: an idle write is `writeStatus`, a busy one is ignored. -/
theorem statusWriteAcknowledges : Obligations.StatusWriteAcknowledges := by
  intro s w
  simp only [eventStep, hostStep_write csrAt_status]
  refine ⟨fun hb => ?_, fun hb => ?_⟩
  · rw [hostWrite_idle (c := .status) nofun w hb, csrWrite_status, writeStatus_eq]; rfl
  · rw [hostWrite_busy (c := .status) nofun w hb]; rfl

/-- A host's write to CMD, as an event (R40 10_state.md). -/
theorem eventStep_writeCmd (w : Word) (s : State) :
    eventStep (.host ⟨.w32, 0x000, .write w⟩) s = .next ((writeCmd w s).answering ⟨.w32, 0x000, .write w⟩ .done) := by
  rw [eventStep, hostStep_write csrAt_cmd, hostWrite_cmd]

/-- An idle write of a legal word (R40 10_state.md). -/
theorem writeCmd_legal {w : Word} {i : Instr} {s : State} (hb : s.status.busy = false) (hw : decode w = .legal i) :
    writeCmd w s = accept w s := by simp [writeCmd, hb, hw]

/-- An idle write of an illegal word (R162 30_encoding.md). -/
theorem writeCmd_illegal {w : Word} {why : Illegal} {s : State} (hb : s.status.busy = false)
    (hw : decode w = .illegal why) :
    writeCmd w s = recordError .illegalCommand { addr := opcodeOf w, kind := none, sample := 0 } s := by
  simp [writeCmd, hb, hw]

/-- A busy write of the ABORT word (R373 44_control.md). -/
theorem writeCmd_abort {w : Word} {s : State} (hb : s.status.busy = true) (hw : w = encode .abort) :
    writeCmd w s = requestAbort s := by simp [writeCmd, hb, hw]

/-- A busy write of any other word (R41 10_state.md). -/
theorem writeCmd_dropped {w : Word} {s : State} (hb : s.status.busy = true) (hw : w ≠ encode .abort) :
    writeCmd w s = { s with status := { s.status with cmdDropped := true } } := by simp [writeCmd, hb, hw]

/-- Settles O8: acceptance, the record of an illegal word, and a write while BUSY, which moves no command. -/
theorem cmdWriteWhenIdle : Obligations.CmdWriteWhenIdle := by
  intro s w
  simp only [eventStep_writeCmd]
  refine ⟨fun hb i hw => ?_, fun hb why hw => ?_, fun hb => ⟨_, rfl, ?_⟩⟩
  · rw [writeCmd_legal hb hw]; rfl
  · rw [writeCmd_illegal hb hw]; rfl
  · by_cases hw : w = encode .abort
    · rw [writeCmd_abort hb hw]; exact ⟨rfl, rfl, hb⟩
    · rw [writeCmd_dropped hb hw]; exact ⟨rfl, rfl, hb⟩

/-- Settles O9: 0x02000000 is the ABORT word. -/
theorem cmdWriteWhileBusy : Obligations.CmdWriteWhileBusy := by
  intro s w hb
  have habort : (0x02000000 : Word) = encode .abort := by decide
  simp only [eventStep_writeCmd, habort]
  refine ⟨fun hw => ?_, fun hw => ?_⟩
  · rw [writeCmd_abort hb hw]; rfl
  · rw [writeCmd_dropped hb hw]; rfl

/-- Settles O12: no branch of a read changes the state it answers from. -/
theorem readsChangeNothing : Obligations.ReadsChangeNothing := by
  intro s width off a
  have ha : a.op = .read := rfl
  simp only [eventStep, hostStep, ha]
  cases a.target <;> rfl

/-- Settles O7: the engine's turn dispatches on the command in CMD_CUR. -/
theorem stepRunsTheCommandInCmdCur : Obligations.StepRunsTheCommandInCmdCur := by
  intro s i he hb hc
  rw [step_eq, he, eventStep, engineTurn, State.takeEvent_status, hb, if_pos rfl, State.takeEvent_hid, hc]

end Sys2Proof.Machine
end

section
/-! PROOFS. The invariant of a good state is kept by every step, and no step stops the machine (O60). -/

namespace Sys2Proof.Machine

/-! ### What makes a state good, by what the engine is doing -/

/-- The part of `Inv` that speaks of no position: the error record, TF_VALID and COMP_H. -/
structure RecordsAgree (s : State) : Prop where
  errCode : s.status.err = true ↔ s.status.errCode ≠ .noError
  errInfo : s.status.err = false → s.errInfo = ErrInfo.reset
  tfValid : s.status.tfValid = true → s.status.calValid = true
  humidity : 0 ≤ s.res.compH.toInt ∧ s.res.compH.toInt ≤ 100000

theorem Inv.records {s : State} (h : Inv s) : RecordsAgree s := ⟨h.errCode, h.errInfo, h.tfValid, h.humidity⟩

theorem Inv.at {s : State} (h : Inv s) : At s.hid.pos.point s := ⟨h.bus, h.trig, h.delay⟩

/-- The records say nothing of STATUS.FSM, the aggregator and the hidden state. -/
theorem RecordsAgree.elsewhere {s : State} (h : RecordsAgree s) (f : Fsm) (a : Agg) (d : Hidden) :
    RecordsAgree { s with status := { s.status with fsm := f }, agg := a, hid := d } :=
  ⟨h.errCode, h.errInfo, h.tfValid, h.humidity⟩

theorem BodyFrame.records {s t : State} (hf : BodyFrame s t) (h : RecordsAgree s) : RecordsAgree t where
  errCode := by rw [hf.err, hf.errCode]; exact h.errCode
  errInfo := by rw [hf.err, hf.errInfo]; exact h.errInfo
  tfValid := hf.tfValid h.tfValid
  humidity := hf.humidity h.humidity

/-- A good state stays good whatever is put into the environment's fields. -/
theorem Inv.with_env {s : State} (h : Inv s) (e : Env) : Inv { s with env := e } :=
  ⟨h.command, h.idlePos, h.abortMirror, h.abortBusy, h.bus, h.fsm, h.trig, h.sample, h.offer, h.delay, h.errCode,
    h.errInfo, h.tfValid, h.humidity⟩

/-- Completion leaves a good state when no transaction is in flight and no record is offered. -/
theorem complete_inv {s : State} (hb : s.hid.bus = .quiet) (ho : s.hid.outPend = none)
    (hf : s.status.fsm = .idle ∨ s.status.fsm = .done) (hr : RecordsAgree s) : Inv (complete s) where
  command h := by simp at h
  idlePos _ := rfl
  abortMirror := rfl
  abortBusy h := by simp at h
  bus := by simp [hb, busAgrees, awaited]
  fsm := by simpa [fsmAgrees, State.running] using hf
  trig := rfl
  sample := by simp [sampleAgrees, State.running]
  offer := by simp [offerAgrees, ho]
  delay := rfl
  errCode := hr.errCode
  errInfo := hr.errInfo
  tfValid := hr.tfValid
  humidity := hr.humidity

/-- A fatal error leaves a good state too. -/
theorem takeError_inv {r : Bool} {e : ErrCode} {a : Byte} {k : Option BusKind} {s : State} (hb : s.hid.bus = .quiet)
    (ho : s.hid.outPend = none) (he : e ≠ .noError) (hf : r = false → s.status.fsm = .idle) (hr : RecordsAgree s) :
    Inv (takeError r e a k s) := by
  have hrec : RecordsAgree (recordError e (infoAt a k s) s) := ⟨by simp [he], by simp, hr.tfValid, hr.humidity⟩
  cases r with
  | false => exact complete_inv hb ho (.inl (hf rfl)) hrec
  | true => exact complete_inv (s := (recordError e (infoAt a k s) s).enter .idle) hb ho (.inl rfl) (hrec.elsewhere ..)

/-- A still engine agrees with every position that waits for nothing. -/
theorem At.of_still {p : Point} {s : State} (h : Still s) (ha : awaited p = none := by rfl)
    (ht : trigAgrees p .idle = true := by rfl) (hd : delayAgrees p 0 = true := by rfl) : At p s := by
  obtain ⟨hb, hti, hz⟩ := h
  exact ⟨by simp [busAgrees, ha, hb], by rw [hti]; exact ht, by rw [hz]; exact hd⟩

/-- A wait's load leads to the head of its loop. -/
theorem loadDelay_ok {k : WaitFor} {s : State} (ms : BitVec 16) (h : Still s) :
    BodyFrame s (s.loadDelay ms) ∧ At (.wait k .top) (s.loadDelay ms) :=
  ⟨by constructor <;> simp, by simp [h.1, busAgrees, awaited], by simp [h.2.1, trigAgrees], rfl⟩

/-- Reset leaves a good state. -/
theorem resetProcedure_inv (s : State) : Inv (resetProcedure s) :=
  Inv.with_env (s := .reset) (by constructor <;> decide) _

/-! ### The engine's turn inside a command -/

/-- Two positions of RUN that are the same for the Acquisition Loop. -/
def SameForLoop (p q : Point) : Prop := runFsm q = runFsm p ∧ inLoop q = inLoop p

/-- The next state exists and is good. -/
def GoodNext (r : Result) : Prop := ∃ t, r = .next t ∧ Inv t

/-- What a step that stays inside the command keeps of the command. -/
structure SameCommand (s t : State) : Prop where
  busy : t.status.busy = s.status.busy
  cmdCur : t.hid.cmdCur = s.hid.cmdCur
  curOp : t.status.curOp = s.status.curOp
  abortPend : t.status.abortPend = s.status.abortPend
  abortReq : t.hid.abortReq = s.hid.abortReq
  outPend : t.hid.outPend = s.hid.outPend
  records : RecordsAgree s → RecordsAgree t

/-- A state of the Acquisition Loop, an aggregator or a position put in place of another leaves the command the same. -/
theorem SameCommand.elsewhere {s t : State} (h : SameCommand s t) (f : Fsm) (a : Agg) (p : Pos) :
    SameCommand s { t with status := { t.status with fsm := f }, agg := a, hid := { t.hid with pos := p } } :=
  ⟨h.busy, h.cmdCur, h.curOp, h.abortPend, h.abortReq, h.outPend, fun hr => (h.records hr).elsewhere ..⟩

theorem BodyFrame.sameCommand {s t : State} (h : BodyFrame s t) : SameCommand s t :=
  ⟨h.busy, h.cmdCur, h.curOp, h.abortPend, h.abortReq, h.outPend, h.records⟩

/-- The engine has the turn in a good state: command `i` executes and no record is offered. -/
structure Turn (i : Instr) (s : State) : Prop where
  inv : Inv s
  busy : s.status.busy = true
  cmd : decode s.hid.cmdCur = .legal i
  sink : s.hid.outPend = none

namespace Turn

variable {i : Instr} {s t : State}

theorem home_curOp (h : Turn i s) : atHome i s.hid.pos.point = true ∧ s.status.curOp = i.opcode := by
  simpa [commandAgrees, h.cmd] using h.inv.command h.busy

theorem home (h : Turn i s) : atHome i s.hid.pos.point = true := h.home_curOp.1

theorem running_iff (h : Turn i s) : s.running = true ↔ i = .run := by simp [State.running, h.busy, h.cmd]

theorem not_running (h : Turn i s) (hi : i ≠ .run) : s.running = false := by simpa using mt h.running_iff.1 hi

theorem fsm_idle (h : Turn i s) (hi : i ≠ .run) : s.status.fsm = .idle := by
  simpa [fsmAgrees, h.not_running hi, h.busy] using h.inv.fsm

/-- At a position that waits for nothing, with no trigger and no wait in progress, the engine is still. -/
theorem still (h : Turn i s) (ha : awaited s.hid.pos.point = none)
    (ht : ∀ x, trigAgrees s.hid.pos.point x = (x == .idle)) (hd : ∀ d, delayAgrees s.hid.pos.point d = (d == 0)) :
    Still s := by
  obtain ⟨hb, hti, hz⟩ := h.inv.at
  exact ⟨quiet_of_agrees ha hb, by simpa [ht] using hti, by simpa [hd] using hz⟩

/-- The loop index is absent outside RUN's sampling loop. -/
theorem sample_none (h : Turn i s) (hl : i = .run → inLoop s.hid.pos.point = false) : s.hid.pos.sample = none := by
  have hs := h.inv.sample
  unfold sampleAgrees at hs
  split at hs
  · simp only [Bool.and_eq_true] at hs
    obtain ⟨⟨⟨hr, hi⟩, -⟩, -⟩ := hs
    simp [hl (h.running_iff.1 hr)] at hi
  · assumption

/-- STATUS.FSM is the position's while a RUN executes. -/
theorem runFsm_point (h : Turn .run s) : runFsm s.hid.pos.point s.status.fsm = true := by
  simpa [fsmAgrees, h.running_iff.2 rfl] using h.inv.fsm

/-- The same command executes on, at a position that bus, trigger, delay, STATUS.FSM and loop index agree with. -/
theorem inv_of_same (h : Turn i s) (hc : SameCommand s t) (home : atHome i t.hid.pos.point = true)
    (hat : At t.hid.pos.point t) (hf : fsmAgrees t = true) (hs : sampleAgrees t = true) : Inv t where
  command _ := by simp [commandAgrees, hc.cmdCur, h.cmd, home, hc.curOp, h.home_curOp.2]
  idlePos hb := by simp [hc.busy, h.busy] at hb
  abortMirror := by rw [hc.abortReq, hc.abortPend, h.inv.abortMirror]
  abortBusy _ := hc.busy.trans h.busy
  bus := hat.1
  fsm := hf
  trig := hat.2.1
  sample := hs
  offer := by simp [offerAgrees, hc.outPend, h.sink]
  delay := hat.2.2
  errCode := (hc.records h.inv.records).errCode
  errInfo := (hc.records h.inv.records).errInfo
  tfValid := (hc.records h.inv.records).tfValid
  humidity := (hc.records h.inv.records).humidity

/-- The step goes on to a position on the same side of the sampling loop, in the Acquisition Loop's state `f`. -/
theorem inv_enter_goto (h : Turn i s) (hf : BodyFrame s t) {p : Point} {f : Fsm} (home : atHome i p = true)
    (hp : At p t) (hfsm : fsmAgrees ((t.enter f).goto p) = true) (hl : i = .run → inLoop p = inLoop s.hid.pos.point) :
    Inv ((t.enter f).goto p) := by
  refine h.inv_of_same (hf.sameCommand.elsewhere ..) home hp hfsm ?_
  by_cases hi : i = .run
  · have hs := h.inv.sample
    simpa [sampleAgrees, State.running, State.enter, hf.busy, hf.cmdCur, hf.pos, hf.lN, hf.sampleIdx, hl hi] using hs
  · simp [sampleAgrees, State.running, hf.cmdCur, h.cmd, hf.pos, hi, h.sample_none (absurd · hi)]

/-- The step goes on to a position that is like this one for the Acquisition Loop. -/
theorem inv_goto (h : Turn i s) (hf : BodyFrame s t) {p : Point} (home : atHome i p = true) (hp : At p t)
    (hr : i = .run → SameForLoop s.hid.pos.point p) : Inv (t.goto p) := by
  refine h.inv_enter_goto (f := t.status.fsm) hf home hp ?_ fun hi => (hr hi).2
  by_cases hi : i = .run
  · subst hi
    have hfsm := h.runFsm_point
    rw [← (hr rfl).1] at hfsm
    simpa [fsmAgrees, State.running, State.enter, hf.cmdCur, hf.busy, h.busy, h.cmd, hf.fsm] using hfsm
  · simp [fsmAgrees, State.running, State.enter, hf.cmdCur, h.cmd, hi, hf.fsm, h.fsm_idle hi]

/-- RUN enters another of its states with the engine still. -/
theorem inv_enter (h : Turn .run s) (hf : BodyFrame s t) (hs : Still t) {p : Point} {f : Fsm} (hr : runFsm p f = true)
    (hl : inLoop p = inLoop s.hid.pos.point) (home : atHome .run p = true := by rfl) (ha : awaited p = none := by rfl)
    (ht : trigAgrees p .idle = true := by rfl) (hd : delayAgrees p 0 = true := by rfl) : Inv ((t.enter f).goto p) := by
  refine h.inv_enter_goto hf home (.of_still hs ha ht hd) ?_ fun _ => hl
  simpa [fsmAgrees, State.running, State.enter, hf.cmdCur, hf.busy, h.busy, h.cmd] using hr

/-- A fatal error of a body's step ends the command in a good state. -/
theorem inv_takeError (h : Turn i s) (hf : BodyFrame s t) (hb : t.hid.bus = .quiet) {r : Bool} {e : ErrCode} (a : Byte)
    (k : Option BusKind) (he : e ≠ .noError) (hr : r = false → i ≠ .run) : Inv (takeError r e a k t) :=
  takeError_inv hb (hf.outPend.trans h.sink) he (fun h0 => hf.fsm.trans (h.fsm_idle (hr h0))) (hf.records h.inv.records)

end Turn

/-- A body that keeps its contract wherever its next step may stand has no next step: it is one step. -/
theorem ne_goto_of_ok {π : Type} {s : State} {f : Flow π} (h : ∀ here : π → Point, BodyOk here s f) (p : π)
    (t : State) : f ≠ .goto p t := by
  rintro rfl
  have hq := (h fun _ => .noCommand).2.1
  have hw := (h fun _ => .raw .got).2.1
  simp [quiet_of_agrees rfl hq, busAgrees, awaited] at hw

section

variable {i : Instr} {s : State} {π : Type} {here : π → Point} {f : Flow π}

/-- A step of a command other than RUN whose body keeps its contract leads to a good state. -/
theorem finish_good (h : Turn i s) (hi : i ≠ .run) (hok : BodyOk here s f)
    (hh : ∀ p t, f = .goto p t → atHome i (here p) = true) : GoodNext (finish here s f) := by
  cases f with
  | goto p t =>
    obtain ⟨hf, hp⟩ := hok
    exact ⟨_, rfl, h.inv_goto hf (hh p t rfl) hp (absurd · hi)⟩
  | done t =>
    obtain ⟨hf, hb, -⟩ := hok
    exact ⟨_, rfl, complete_inv hb (hf.outPend.trans h.sink) (.inl (hf.fsm.trans (h.fsm_idle hi)))
      (hf.records h.inv.records)⟩
  | raise e a k t =>
    obtain ⟨hf, hb, he⟩ := hok
    exact ⟨_, rfl, h.inv_takeError hf hb a k he fun _ => hi⟩
  | hold => exact ⟨s, rfl, h.inv⟩

/-- A step of a body inside RUN leads to a good state when what RUN does after the body does. -/
theorem finishInRun_good {after : State → State} (h : Turn .run s) (hok : BodyOk here s f)
    (hh : ∀ p t, f = .goto p t → atHome .run (here p) = true ∧ SameForLoop s.hid.pos.point (here p))
    (ha : ∀ t, BodyFrame s t → Still t → Inv (after t)) : GoodNext (finishInRun here after s f) := by
  cases f with
  | goto p t =>
    obtain ⟨hf, hp⟩ := hok
    obtain ⟨home, hr⟩ := hh p t rfl
    exact ⟨_, rfl, h.inv_goto hf home hp fun _ => hr⟩
  | done t =>
    obtain ⟨hf, hstill⟩ := hok
    exact ⟨_, rfl, ha t hf hstill⟩
  | raise e a k t =>
    obtain ⟨hf, hb, he⟩ := hok
    exact ⟨_, rfl, h.inv_takeError hf hb a k he (by simp)⟩
  | hold => exact ⟨s, rfl, h.inv⟩

end

/-- A held engine changes nothing; otherwise the step is the command's own. -/
theorem unlessOffering_good {s : State} {o : Result} (h : Inv s) (ho : s.hid.outPend = none → GoodNext o) :
    GoodNext (unlessOffering s o) := by
  unfold unlessOffering
  split
  · exact ⟨s, rfl, h⟩
  · exact ho (by simp_all)

/-- A command of one step that has a body. -/
theorem finish_oneStep_good {i : Instr} {s : State} {f : Flow Point} (h : Turn i s) (hi : i ≠ .run)
    (hok : ∀ here : Point → Point, BodyOk here s f) : GoodNext (finish id s f) :=
  finish_good h hi (hok id) fun p t e => absurd e (ne_goto_of_ok hok p t)

/-- At the first step of a command the engine is still. -/
theorem Turn.still_of_start {i : Instr} {s : State} (h : Turn i s) (hp : s.hid.pos.point = .start) : Still s :=
  h.still (by rw [hp]; rfl) (fun _ => by rw [hp]; rfl) (fun _ => by rw [hp]; rfl)

/-- The positions of a command other than RUN: its first step, or a position of its own body. -/
theorem atHome_cases {i : Instr} {p : Point} (h : atHome i p = true) (hi : i ≠ .run) :
    p = .start ∨ (i = .loadcal ∧ ∃ q, p = .cal q) ∨ (i = .cfgos ∧ ∃ q, p = .os q) ∨ (i = .cfghtr ∧ ∃ q, p = .htr q) ∨
    (i = .trig ∧ ∃ q, p = .trig q) ∨ (i = .readraw ∧ ∃ q, p = .raw q) ∨ (i = .compall ∧ ∃ q, p = .comp q) ∨
    ((∃ ms, i = .wait ms) ∧ ∃ q, p = .wait .command q) := by
  cases p with
  | wait k q => cases k <;> cases i <;> simp_all [atHome]
  | _ => simp_all [atHome]

/-- The first step of a command other than RUN leads to a good state. -/
theorem exec_start_good {i : Instr} {s : State} (h : Turn i s) (hi : i ≠ .run) (hp : s.hid.pos.point = .start) :
    GoodNext (exec i s) := by
  have hs := h.still_of_start hp
  have finished {t : State} (hf : BodyFrame s t) (ht : Still t) : GoodNext (finish id s (.done t)) :=
    finish_good h hi ⟨hf, ht⟩ fun _ _ e => by cases e
  cases i <;> simp only [exec, execNop, execSreset, execAbort, execWait, execLoadcal, execCfgos, execCfghtr, execTrig,
    execGwcode, execRhcode, execCompt, execCompp, execComph, execCompall, execReadraw, execAggclr, execAggacc,
    execAggfin, unlessOffering_none h.sink, hp]
  case run => exact absurd rfl hi
  case nop => exact finished (.refl s) hs
  case abort => exact finished (.refl s) hs
  case gwcode => exact finished (by constructor <;> simp) hs
  case sreset => exact ⟨_, rfl, resetProcedure_inv s⟩
  case wait ms =>
    obtain ⟨hf, hp⟩ := loadDelay_ok (k := .command) (BitVec.ofNat 16 ms) hs
    exact ⟨_, rfl, h.inv_goto hf rfl hp (absurd · hi)⟩
  case loadcal => exact finish_good h hi (calStep_ok _ s (.of_still hs)) fun _ _ _ => rfl
  case cfgos => exact finish_good h hi (osStep_ok _ s (.of_still hs)) fun _ _ _ => rfl
  case cfghtr => exact finish_good h hi (htrStep_ok _ s (.of_still hs)) fun _ _ _ => rfl
  case trig => exact finish_good h hi (trigStep_ok _ _ s (.of_still hs)) fun _ _ _ => rfl
  case compall => exact finish_good h hi (compStep_ok _ s (.of_still hs)) fun _ _ _ => rfl
  case readraw => exact finish_good h hi (rawStep_ok _ s (.of_still hs)) fun _ _ _ => rfl
  case rhcode temp => exact finish_oneStep_good h hi fun _ => rhcodeBody_ok temp s hs
  case compt => exact finish_oneStep_good h hi fun _ => comptBody_ok s hs
  case compp => exact finish_oneStep_good h hi fun _ => comppBody_ok s hs
  case comph => exact finish_oneStep_good h hi fun _ => comphBody_ok s hs
  case aggclr => exact finish_oneStep_good h hi fun _ => aggclrBody_ok _ s hs
  case aggacc => exact finish_oneStep_good h hi fun _ => aggaccBody_ok s hs
  case aggfin => exact finish_oneStep_good h hi fun _ => aggfinBody_ok s hs

/-- A step of a command other than RUN leads to a good state. -/
theorem exec_good {i : Instr} {s : State} (h : Turn i s) (hi : i ≠ .run) : GoodNext (exec i s) := by
  have hat := h.inv.at
  rcases atHome_cases h.home hi with hp | ⟨rfl, q, hp⟩ | ⟨rfl, q, hp⟩ | ⟨rfl, q, hp⟩ | ⟨rfl, q, hp⟩ | ⟨rfl, q, hp⟩ |
    ⟨rfl, q, hp⟩ | ⟨⟨ms, rfl⟩, q, hp⟩
  · exact exec_start_good h hi hp
  all_goals
    rw [hp] at hat
    simp only [exec, execLoadcal, execCfgos, execCfghtr, execTrig, execReadraw, execCompall, execWait,
      unlessOffering_none h.sink, hp]
  · exact finish_good h hi (calStep_ok q s hat) fun _ _ _ => rfl
  · exact finish_good h hi (osStep_ok q s hat) fun _ _ _ => rfl
  · exact finish_good h hi (htrStep_ok q s hat) fun _ _ _ => rfl
  · exact finish_good h hi (trigStep_ok _ q s hat) fun _ _ _ => rfl
  · exact finish_good h hi (rawStep_ok q s hat) fun _ _ _ => rfl
  · exact finish_good h hi (compStep_ok q s hat) fun _ _ _ => rfl
  · exact finish_good h hi (waitStep_ok q s hat) fun _ _ _ => rfl

/-! ### The engine's turn inside a RUN -/

/-- A record put on offer after its emit step leaves a good state good. -/
theorem Inv.emit {s : State} {g : Tag} {v : Word64} (h : Inv s) (ho : offerAgrees (s.emit g v) = true) :
    Inv (s.emit g v) :=
  ⟨h.command, h.idlePos, h.abortMirror, h.abortBusy, h.bus, h.fsm, h.trig, h.sample, ho, h.delay, h.errCode, h.errInfo,
    h.tfValid, h.humidity⟩

/-- The body's step leaves TRIG and DLY_CNT at rest where it raises an error. -/
def Flow.RaisesStill {π : Type} : Flow π → Prop
  | .raise _ _ _ t => t.status.trig = .idle ∧ t.hid.dlyCnt = 0
  | .goto .. | .done _ | .hold => True

theorem rawStep_raisesStill (p : RawPt) {s : State} (h : s.status.trig = .idle ∧ s.hid.dlyCnt = 0) :
    (rawStep p s).RaisesStill := by
  cases p with
  | read =>
    rcases issueAt_cases (.read 0x1F 8) RawPt.got s with ⟨-, e⟩ | ⟨-, e⟩ <;> rw [rawStep, e]
    exacts [h, trivial]
  | got =>
    simp only [rawStep, onRead]
    split
    exacts [trivial, h, trivial, trivial, trivial]

theorem compStep_raisesStill (p : CompPt) {s : State} (h : s.status.trig = .idle ∧ s.hid.dlyCnt = 0) :
    (compStep p s).RaisesStill := by
  have hum : (comphBody s : Flow CompPt).RaisesStill := by
    unfold comphBody needCal needTfine
    split
    · split
      exacts [trivial, h]
    · exact h
  cases p with
  | temp =>
    simp only [compStep, comptBody, needCal]
    split
    exacts [trivial, h]
  | press =>
    simp only [compStep, comppBody, needCal, needTfine]
    split
    · split
      · split
        exacts [trivial, h]
      · exact h
    · exact h
  | hum => exact hum

/-- A step of a sample's body inside RUN leads to a good state: its own error leaves for the end of the sample. -/
theorem finishSample_good {s : State} {π : Type} {here : π → Point} {f : Flow π} {own : ErrCode} {after : State → State}
    (h : Turn .run s) (hok : BodyOk here s f) (hstill : f.RaisesStill)
    (hh : ∀ p t, f = .goto p t → atHome .run (here p) = true ∧ SameForLoop s.hid.pos.point (here p))
    (hend : runFsm (.run .sampleEnd) s.status.fsm = true) (hloop : inLoop s.hid.pos.point = true)
    (ha : ∀ t, BodyFrame s t → Still t → Inv (after t)) : GoodNext (finishSample own here after s f) := by
  cases f with
  | raise e a k t =>
    obtain ⟨hf, hb, he⟩ := hok
    refine ⟨_, rfl, ?_⟩
    split
    · have hinv : Inv (t.goto (.run .sampleEnd)) :=
        h.inv_enter (f := t.status.fsm) hf ⟨hb, hstill⟩ (hf.fsm ▸ hend) hloop.symm
      exact hinv.emit (by simp [offerAgrees, State.emit, State.running, hf.busy, h.busy, hf.cmdCur, h.cmd])
    · exact h.inv_takeError hf hb a k he (by simp)
  | goto p t => exact finishInRun_good h hok hh ha
  | done t => exact finishInRun_good h hok hh ha
  | hold => exact finishInRun_good h hok hh ha

/-- The head of the sampling loop: iteration `i` begins, or the loop is over. -/
theorem Turn.inv_enterLoop {s t : State} (h : Turn .run s) (hf : BodyFrame s t) (hs : Still t) (i : Nat) :
    Inv (enterLoop i t) := by
  have hcmd : decode t.hid.cmdCur = .legal .run := hf.cmdCur ▸ h.cmd
  have hbusy : t.status.busy = true := hf.busy.trans h.busy
  unfold enterLoop
  split
  next hi =>
    refine h.inv_of_same (hf.sameCommand.elsewhere ..) rfl (.of_still hs) ?_ ?_
    · simp [fsmAgrees, State.running, hbusy, hcmd, runFsm]
    · have hw := t.hid.lN.isLt
      simp [sampleAgrees, State.running, hbusy, hcmd, inLoop, hi]
      omega
  next =>
    refine h.inv_of_same (hf.sameCommand.elsewhere ..) rfl (.of_still hs) ?_ ?_
    · simp [fsmAgrees, State.running, hbusy, hcmd, runFsm]
    · simp [sampleAgrees, inLoop]

/-- RUN's first step: an invalid window, or the latches and its first body. -/
theorem runStart_good {s : State} (h : Turn .run s) (hp : s.hid.pos.point = .start) :
    GoodNext (finishInRun id id s (runStart s)) := by
  have hs := h.still_of_start hp
  have hr := h.inv.records
  have hnone := h.sample_none fun _ => by rw [hp]; rfl
  unfold runStart
  dsimp only
  split
  · exact ⟨_, rfl, takeError_inv hs.1 h.sink (by simp) (by simp) (hr.elsewhere ..)⟩
  · split <;>
    · refine ⟨_, rfl, h.inv_of_same ⟨rfl, rfl, rfl, rfl, rfl, rfl, fun hr => hr.elsewhere ..⟩ rfl (.of_still hs) ?_ ?_⟩
      · simp [fsmAgrees, State.running, State.enter, h.busy, h.cmd, runFsm]
      · simp [sampleAgrees, State.enter, hnone, inLoop]

/-- An abort point and the load of one of RUN's waits. -/
theorem loadWait_good {s : State} {k : WaitFor} {ms : BitVec 16} (h : Turn .run s) (hs : Still s)
    (home : atHome .run (.wait k .top) = true)
    (hr : SameForLoop s.hid.pos.point (.wait k .top)) :
    GoodNext (finishInRun id id s (loadWait k ms s)) := by
  obtain ⟨hf, hp⟩ := loadDelay_ok (k := k) ms hs
  rcases abortPoint_cases s (Flow.goto (Point.wait k .top) (s.loadDelay ms)) with ⟨-, e⟩ | ⟨-, e⟩ <;> rw [loadWait, e]
  · exact ⟨_, rfl, h.inv_takeError (.refl s) hs.1 _ _ (by simp) (by simp)⟩
  · exact ⟨_, rfl, h.inv_goto hf home hp fun _ => hr⟩

/-- RUN's steps outside the bodies of the other commands. -/
theorem runStep_good {s : State} {p : RunPt} (h : Turn .run s) (hp : s.hid.pos.point = .run p) :
    GoodNext (runStep p s) := by
  have hs : Still s := h.still (by rw [hp]; rfl) (fun _ => by rw [hp]; rfl) (fun _ => by rw [hp]; rfl)
  have oneStep {f : Flow Point} {after : State → State} (hok : ∀ here : Point → Point, BodyOk here s f)
      (ha : ∀ t, BodyFrame s t → Still t → Inv (after t)) : GoodNext (finishInRun id after s f) :=
    finishInRun_good h (hok id) (fun q t e => absurd e (ne_goto_of_ok hok q t)) ha
  have emits {q : RunPt} {g : Tag} {v : Word64} (hr : runFsm (.run q) s.status.fsm = true)
      (hl : inLoop (.run q) = inLoop s.hid.pos.point) (ho : offerAgrees ((s.goto (.run q)).emit g v) = true) :
      GoodNext (.next ((s.emit g v).goto (.run q))) :=
    ⟨_, rfl, (h.inv_enter (f := s.status.fsm) (.refl s) hs hr hl).emit ho⟩
  have hfsm := h.runFsm_point
  rw [hp] at hfsm
  cases p
  case aggClr => exact oneStep (fun _ => aggclrBody_ok _ s hs) fun t hf ht => h.inv_enterLoop hf ht 0
  case aggAcc =>
    exact oneStep (fun _ => aggaccBody_ok s hs) fun t hf ht =>
      h.inv_enter (f := t.status.fsm) hf ht (hf.fsm ▸ hfsm) (hp ▸ rfl)
  case aggFin =>
    exact oneStep (fun _ => aggfinBody_ok s hs) fun t hf ht =>
      h.inv_enter (f := t.status.fsm) hf ht (hf.fsm ▸ hfsm) (hp ▸ rfl)
  case sampleEnd => exact ⟨_, rfl, h.inv_enterLoop (.refl s) hs _⟩
  case delayLoad | settleLoad | final1Load | final2Load => exact loadWait_good h hs rfl (hp ▸ ⟨rfl, rfl⟩)
  case emitT => exact emits hfsm (hp ▸ rfl) (by simp [offerAgrees, State.emit, State.running, h.busy, h.cmd])
  case emitP =>
    have hend : runFsm (.run .sampleEnd) s.status.fsm = true := by simp_all [runFsm]
    exact emits hend (hp ▸ rfl) (by simp [offerAgrees, State.emit, State.running, h.busy, h.cmd])
  case emitRmsT => exact emits hfsm (hp ▸ rfl) (by simp [offerAgrees, State.emit, State.running, h.busy, h.cmd])
  case emitRmsP => exact emits hfsm (hp ▸ rfl) (by simp [offerAgrees, State.emit, State.running, h.busy, h.cmd])

/-- A step of RUN leads to a good state. -/
theorem execRun_good {s : State} (h : Turn .run s) : GoodNext (execRun s) := by
  have home := h.home
  have hat := h.inv.at
  have hfsm := h.runFsm_point
  rw [execRun, unlessOffering_none h.sink]
  cases hp : s.hid.pos.point <;> rw [hp] at home hat hfsm
  case noCommand => cases home
  case start => exact runStart_good h hp
  case run p => exact runStep_good h hp
  case cal p =>
    exact finishInRun_good h (calStep_ok p s hat) (fun _ _ _ => ⟨rfl, hp ▸ ⟨rfl, rfl⟩⟩) fun t hf ht =>
      h.inv_goto hf rfl (.of_still ht) fun _ => hp ▸ ⟨rfl, rfl⟩
  case os p =>
    exact finishInRun_good h (osStep_ok p s hat) (fun _ _ _ => ⟨rfl, hp ▸ ⟨rfl, rfl⟩⟩) fun t hf ht =>
      h.inv_goto hf rfl (.of_still ht) fun _ => hp ▸ ⟨rfl, rfl⟩
  case htr p =>
    exact finishInRun_good h (htrStep_ok p s hat) (fun _ _ _ => ⟨rfl, hp ▸ ⟨rfl, rfl⟩⟩) fun t hf ht =>
      h.inv_goto hf rfl (.of_still ht) fun _ => hp ▸ ⟨rfl, rfl⟩
  case trig p =>
    exact finishInRun_good h (trigStep_ok _ p s hat) (fun _ _ _ => ⟨rfl, hp ▸ ⟨rfl, rfl⟩⟩) fun t hf ht =>
      h.inv_enter hf ht rfl (hp ▸ rfl)
  case raw p =>
    have hs : s.status.trig = .idle ∧ s.hid.dlyCnt = 0 := by simpa [trigAgrees, delayAgrees] using hat.2
    have hend : runFsm (.run .sampleEnd) s.status.fsm = true := by simp_all [runFsm]
    exact finishSample_good h (rawStep_ok p s hat) (rawStep_raisesStill p hs) (fun _ _ _ => ⟨rfl, hp ▸ ⟨rfl, rfl⟩⟩)
      hend (hp ▸ rfl) fun t hf ht => h.inv_enter hf ht rfl (hp ▸ rfl)
  case comp p =>
    have hs : s.status.trig = .idle ∧ s.hid.dlyCnt = 0 := by simpa [trigAgrees, delayAgrees] using hat.2
    have hend : runFsm (.run .sampleEnd) s.status.fsm = true := by simp_all [runFsm]
    exact finishSample_good h (compStep_ok p s hat) (compStep_raisesStill p hs) (fun _ _ _ => ⟨rfl, hp ▸ ⟨rfl, rfl⟩⟩)
      hend (hp ▸ rfl) fun t hf ht => h.inv_enter hf ht rfl (hp ▸ rfl)
  case wait k p =>
    cases k
    case command => cases home
    case delay =>
      exact finishInRun_good h (waitStep_ok p s hat) (fun _ _ _ => ⟨rfl, hp ▸ ⟨rfl, rfl⟩⟩) fun t hf ht =>
        h.inv_enter hf ht rfl (hp ▸ rfl)
    case settle =>
      exact finishInRun_good h (waitStep_ok p s hat) (fun _ _ _ => ⟨rfl, hp ▸ ⟨rfl, rfl⟩⟩) fun t hf ht =>
        h.inv_enter hf ht rfl (hp ▸ rfl)
    case final1 =>
      exact finishInRun_good h (waitStep_ok p s hat) (fun _ _ _ => ⟨rfl, hp ▸ ⟨rfl, rfl⟩⟩) fun t hf ht =>
        h.inv_goto hf rfl (.of_still ht) fun _ => hp ▸ ⟨rfl, rfl⟩
    case final2 =>
      refine finishInRun_good h (waitStep_ok p s hat) (fun _ _ _ => ⟨rfl, hp ▸ ⟨rfl, rfl⟩⟩) fun t hf ht => ?_
      exact complete_inv (s := t.enter .done) ht.1 (hf.outPend.trans h.sink) (.inr rfl)
        ((hf.records h.inv.records).elsewhere ..)

/-- The engine's turn leads from a good state to a good state. -/
theorem engineTurn_good {s : State} (h : Inv s) : GoodNext (engineTurn s) := by
  unfold engineTurn
  split
  next hb =>
    have hc := h.command hb
    unfold commandAgrees at hc
    split
    next i hi =>
      cases ho : s.hid.outPend with
      | none =>
        have turn : Turn i s := ⟨h, hb, hi, ho⟩
        by_cases hr : i = .run
        · subst hr; exact execRun_good turn
        · exact exec_good turn hr
      | some r =>
        have hr := h.offer
        simp only [offerAgrees, ho, State.running, hb, hi, Bool.true_and, Bool.and_eq_true, beq_iff_eq] at hr
        obtain ⟨hrun, -⟩ := hr
        cases hrun
        exact unlessOffering_good h fun hn => by simp [ho] at hn
    next y hy => simp [hy] at hc
  next => exact ⟨s, rfl, h⟩

/-! ### The other agents -/

/-- A row of the opcode map builds the command its pattern names, and its mask covers the opcode. -/
theorem opRows_opcode : ∀ r ∈ opRows, (∀ w, (r.build w).opcode = opcodeOf r.pattern) ∧ opcodeOf r.mask = 0xFF := by
  simp only [opRows, List.forall_mem_cons]
  exact ⟨⟨fun _ => rfl, rfl⟩, ⟨fun _ => rfl, rfl⟩, ⟨fun _ => rfl, rfl⟩, ⟨fun _ => rfl, rfl⟩, ⟨fun _ => rfl, rfl⟩,
    ⟨fun _ => rfl, rfl⟩, ⟨fun _ => rfl, rfl⟩, ⟨fun _ => rfl, rfl⟩, ⟨fun _ => rfl, rfl⟩, ⟨fun _ => rfl, rfl⟩,
    ⟨fun _ => rfl, rfl⟩, ⟨fun _ => rfl, rfl⟩, ⟨fun _ => rfl, rfl⟩, ⟨fun _ => rfl, rfl⟩, ⟨fun _ => rfl, rfl⟩,
    ⟨fun _ => rfl, rfl⟩, ⟨fun _ => rfl, rfl⟩, ⟨fun _ => rfl, rfl⟩, ⟨fun _ => rfl, rfl⟩, by simp⟩

/-- A legal word carries its command's opcode (R160 30_encoding.md). -/
theorem opcodeOf_of_decode {w : Word} {i : Instr} (h : decode w = .legal i) : opcodeOf w = i.opcode := by
  unfold decode at h
  split at h
  next r hr =>
    cases h
    obtain ⟨hbuild, hmask⟩ := opRows_opcode r (List.mem_of_find?_eq_some hr)
    have hpat : w &&& r.mask = r.pattern := by simpa using List.find?_some hr
    rw [hbuild w, ← hpat]
    have hand : opcodeOf (w &&& r.mask) = opcodeOf w &&& opcodeOf r.mask := BitVec.extractLsb'_and
    rw [hand, hmask]
    exact (BitVec.and_allOnes).symm
  next => cases h

/-- Between commands the engine is still, nothing is offered, and the Acquisition Loop is IDLE or DONE. -/
theorem Inv.between {s : State} (h : Inv s) (hb : s.status.busy = false) :
    Still s ∧ s.hid.outPend = none ∧ (s.status.fsm = .idle ∨ s.status.fsm = .done) := by
  obtain ⟨hbus, htrig, hdelay⟩ := h.at
  rw [h.idlePos hb] at hbus htrig hdelay
  refine ⟨⟨quiet_of_agrees rfl hbus, by simpa [trigAgrees] using htrig, by simpa [delayAgrees] using hdelay⟩, ?_,
    by simpa [fsmAgrees, State.running, hb] using h.fsm⟩
  have ho := h.offer
  unfold offerAgrees at ho
  split at ho
  · assumption
  · simp [State.running, hb] at ho

/-- An accepted command stands at its first step in a good state. -/
theorem accept_inv {s : State} {w : Word} {i : Instr} (h : Inv s) (hb : s.status.busy = false)
    (hw : decode w = .legal i) : Inv (accept w s) := by
  obtain ⟨hs, ho, hf⟩ := h.between hb
  obtain ⟨hbus, htrig, hdelay⟩ : At .start (accept w s) := .of_still hs
  have hidle : (accept w s).status.fsm = .idle := by rcases hf with e | e <;> simp [e]
  refine ⟨fun _ => ?_, fun hn => by simp at hn, rfl, fun hn => by simp at hn, hbus, ?_, htrig, ?_, ?_, hdelay, by simp,
    fun _ => rfl, h.tfValid, h.humidity⟩
  · simp [commandAgrees, hw, atHome, opcodeOf_of_decode hw]
  · simp only [fsmAgrees, hidle]
    split <;> simp [runFsm]
  · simp [sampleAgrees, inLoop]
  · simp [offerAgrees, ho]

/-- A host's write to CMD leaves a good state. -/
theorem writeCmd_inv {s : State} (w : Word) (h : Inv s) : Inv (writeCmd w s) := by
  rcases writeCmd_cases w s with ⟨hb, -, e⟩ | ⟨hb, -, e⟩ | ⟨hb, ⟨i, hi⟩, e⟩ | ⟨hb, -, e⟩ <;> rw [e]
  · exact ⟨h.command, h.idlePos, rfl, fun _ => hb, h.bus, h.fsm, h.trig, h.sample, h.offer, h.delay, h.errCode,
      h.errInfo, h.tfValid, h.humidity⟩
  · exact ⟨h.command, h.idlePos, h.abortMirror, h.abortBusy, h.bus, h.fsm, h.trig, h.sample, h.offer, h.delay,
      h.errCode, h.errInfo, h.tfValid, h.humidity⟩
  · exact accept_inv h hb hi
  · exact ⟨h.command, h.idlePos, h.abortMirror, h.abortBusy, h.bus, h.fsm, h.trig, h.sample, h.offer, h.delay, by simp,
      by simp, h.tfValid, h.humidity⟩

/-- A host's write to any other CSR leaves a good state. -/
theorem csrWrite_inv {s : State} (c : Csr) (w : Word) (h : Inv s) : Inv (csrWrite c w s) := by
  obtain ⟨hc, hp, hm, ha, hb, hf, ht, hs, ho, hd, he, hi, htf, hh⟩ := h
  cases c
  case status =>
    rw [csrWrite_status, writeStatus_eq]
    refine ⟨hc, hp, hm, ha, hb, hf, ht, hs, ho, hd, ?_, ?_, htf, hh⟩ <;> cases w.getLsbD 1 <;>
      simp_all [ErrInfo.reset]
  case rawT => exact ⟨hc, hp, hm, ha, hb, hf, ht, hs, ho, hd, he, hi, fun hn => by simp [csrWrite] at hn, hh⟩
  all_goals exact ⟨hc, hp, hm, ha, hb, hf, ht, hs, ho, hd, he, hi, htf, hh⟩

/-- A host access leaves a good state. -/
theorem hostStep_inv {s : State} (a : HostAccess) (h : Inv s) : Inv (hostStep a s) := by
  refine Inv.with_env ?_ _
  split
  next c w _ _ =>
    unfold hostWrite
    split
    · exact writeCmd_inv w h
    · split
      · exact h
      · exact csrWrite_inv c w h
  all_goals exact h

/-- A bus answer leaves a good state. -/
theorem busStep_inv {s : State} (n : Nat) (r : BusResp) (h : Inv s) : Inv (busStep n r s) := by
  rcases busStep_cases n r s with ⟨q, hq, -, hfits, e⟩ | e <;> rw [e]
  · refine ⟨h.command, h.idlePos, h.abortMirror, h.abortBusy, ?_, h.fsm, h.trig, h.sample, h.offer, h.delay, h.errCode,
      h.errInfo, h.tfValid, h.humidity⟩
    have hb := h.bus
    rw [hq] at hb
    cases ha : awaited s.hid.pos.point <;> simp_all [busAgrees]
  · exact h

/-- The sink's acceptance leaves a good state. -/
theorem sinkStep_inv {s : State} (h : Inv s) : Inv (sinkStep s) := by
  rcases sinkStep_cases s with ⟨r, -, e⟩ | ⟨-, e⟩ <;> rw [e]
  · exact ⟨h.command, h.idlePos, h.abortMirror, h.abortBusy, h.bus, h.fsm, h.trig, h.sample, rfl, h.delay, h.errCode,
      h.errInfo, h.tfValid, h.humidity⟩
  · exact h

/-- A wait that begins its loop again is as good at its head as it was. -/
theorem Inv.wait_top {s : State} {k : WaitFor} {p : WaitPt} (h : Inv s) (hp : s.hid.pos.point = .wait k p)
    (ms : BitVec 16) : Inv ((s.loadDelay ms).goto (.wait k .top)) := by
  have hs : s = s.goto (.wait k p) := by rw [State.goto, ← hp]
  rw [hs] at h
  obtain ⟨hc, hi, hm, ha, hb, hf, ht, hsm, ho, -, he, hei, htf, hh⟩ := h
  cases k <;> exact ⟨hc, fun h0 => by simpa using hi h0, hm, ha, hb, hf, ht, hsm, ho, rfl, he, hei, htf, hh⟩

/-- The trigger's poll wait likewise. -/
theorem Inv.poll_top {s : State} {p : WaitPt} (h : Inv s) (hp : s.hid.pos.point = .trig (.poll p)) (ms : BitVec 16) :
    Inv ((s.loadDelay ms).goto (.trig (.poll .top))) := by
  have hs : s = s.goto (.trig (.poll p)) := by rw [State.goto, ← hp]
  rw [hs] at h
  obtain ⟨hc, hi, hm, ha, hb, hf, ht, hsm, ho, -, he, hei, htf, hh⟩ := h
  exact ⟨hc, fun h0 => by simpa using hi h0, hm, ha, hb, hf, ht, hsm, ho, rfl, he, hei, htf, hh⟩

/-- A tick leaves a good state. -/
theorem tickStep_inv {s : State} (h : Inv s) : Inv (tickStep s) := by
  rcases tickStep_cases s with e | ⟨k, p, hp, -, e⟩ | ⟨p, hp, -, e⟩ <;> rw [e]
  exacts [h, h.wait_top hp _, h.poll_top hp _]

/-- Settles O60: every agent's step leads from a good state to a good state; the engine's, by the contract its bodies
keep. -/
theorem goodStatesStepToGoodStates : Obligations.GoodStatesStepToGoodStates := by
  intro s hs
  have h : Inv s.takeEvent := hs.with_env _
  rw [step_eq]
  cases nextEvent s with
  | engine => exact engineTurn_good h
  | host a => exact ⟨_, rfl, hostStep_inv a h⟩
  | bus n r => exact ⟨_, rfl, busStep_inv n r h⟩
  | tick => exact ⟨_, rfl, tickStep_inv h⟩
  | sinkAccept => exact ⟨_, rfl, sinkStep_inv h⟩
  | powerOn => exact ⟨_, rfl, resetProcedure_inv _⟩

end Sys2Proof.Machine
end

section
/-! PROOFS. What every step does to the sticky STATUS.OVF (O22). -/

namespace Sys2Proof.Machine

/-! ### The bodies -/

/-- OVF is `b` after the step, however it goes on. -/
def Flow.Ovf {π : Type} (b : Bool) : Flow π → Prop
  | .goto _ t | .done t | .raise _ _ _ t => t.status.ovf = b
  | .hold => True

section

variable {π : Type} {b : Bool} {s : State}

theorem abortPoint_ovf {go : Flow π} (hs : s.status.ovf = b) (h : go.Ovf b) : (abortPoint s go).Ovf b := by
  rcases abortPoint_cases s go with ⟨-, e⟩ | ⟨-, e⟩ <;> rw [e]
  exacts [hs, h]

theorem issueAt_ovf (r : BusReq) (p : π) (hs : s.status.ovf = b) : (issueAt r p s).Ovf b := abortPoint_ovf hs hs

theorem onRead_ovf {err : BusKind → State → Flow π} {ok : List Byte → State → Flow π}
    (he : ∀ k, (err k s.busQuiet).Ovf b) (ho : ∀ bs, (ok bs s.busQuiet).Ovf b) : (onRead s err ok).Ovf b := by
  rcases onRead_cases s err ok with ⟨q, bs, -, e⟩ | ⟨q, k, -, e⟩ | e <;> rw [e]
  exacts [ho bs, he k, trivial]

theorem onWrite_ovf {err : BusKind → State → Flow π} {ok : State → Flow π} (he : ∀ k, (err k s.busQuiet).Ovf b)
    (ho : (ok s.busQuiet).Ovf b) : (onWrite s err ok).Ovf b := by
  rcases onWrite_cases s err ok with ⟨q, -, e⟩ | ⟨q, k, -, e⟩ | e <;> rw [e]
  exacts [ho, he k, trivial]

theorem needCal_ovf {go : Flow π} (hs : s.status.ovf = b) (h : go.Ovf b) : (needCal s go).Ovf b := by
  rcases needCal_cases s go with ⟨-, e⟩ | ⟨-, e⟩ <;> rw [e]
  exacts [h, hs]

theorem needTfine_ovf {go : Flow π} (hs : s.status.ovf = b) (h : go.Ovf b) : (needTfine s go).Ovf b := by
  rcases needTfine_cases s go with ⟨-, e⟩ | ⟨-, e⟩ <;> rw [e]
  exacts [h, hs]

theorem andThen_goto_ovf {f : Flow π} {p : π} (h : f.Ovf b) : (f.andThen (.goto p)).Ovf b := by
  cases f <;> exact h

/-! The bodies that do no checked arithmetic leave OVF as it is. -/

theorem calStep_ovf (p : CalPt) (hs : s.status.ovf = b) : (calStep p s).Ovf b := by
  cases p
  case invalidate => exact hs
  case got1 | got2 | got3 =>
    simp only [calStep]
    exact onRead_ovf (fun _ => hs) fun _ => hs
  all_goals exact issueAt_ovf _ _ hs

theorem osStep_ovf (p : OsPt) (hs : s.status.ovf = b) : (osStep p s).Ovf b := by
  cases p
  case gotHum | gotMeas =>
    simp only [osStep]
    exact onRead_ovf (fun _ => hs) fun _ => hs
  case wroteHum | wroteMeas =>
    simp only [osStep]
    exact onWrite_ovf (fun _ => hs) hs
  all_goals exact issueAt_ovf _ _ hs

theorem waitStep_ovf (p : WaitPt) (hs : s.status.ovf = b) : (waitStep p s).Ovf b := by
  rcases waitStep_cases p s with ⟨-, -, e⟩ | ⟨-, -, -, e⟩ | ⟨-, -, -, e⟩ | ⟨-, e⟩ <;> rw [e]
  exacts [hs, hs, hs, trivial]

theorem trigStep_ovf (n : BitVec 16) (p : TrigPt) (hs : s.status.ovf = b) : (trigStep n p s).Ovf b := by
  cases p
  case clear => exact hs
  case gotMode =>
    simp only [trigStep]
    refine onRead_ovf (fun _ => hs) fun _ => ?_
    unfold trigDecide
    split
    · exact hs
    · split <;> exact hs
  case wroteSleep | wroteForce =>
    simp only [trigStep]
    exact onWrite_ovf (fun _ => hs) hs
  case poll w =>
    have h := waitStep_ovf w hs
    simp only [trigStep]
    cases hw : waitStep w s <;> rw [hw] at h <;> exact h
  all_goals exact abortPoint_ovf hs hs

theorem rawStep_ovf (p : RawPt) (hs : s.status.ovf = b) : (rawStep p s).Ovf b := by
  cases p
  case read => exact issueAt_ovf _ _ hs
  case got =>
    simp only [rawStep]
    exact onRead_ovf (fun _ => hs) fun _ => hs

theorem aggclrBody_ovf (n : BitVec 16) (hs : s.status.ovf = b) : (aggclrBody n s : Flow π).Ovf b := by
  unfold aggclrBody
  split <;> exact hs

theorem aggaccBody_ovf (hs : s.status.ovf = b) : (aggaccBody s : Flow π).Ovf b := by
  unfold aggaccBody
  split <;> exact hs

theorem aggfinBody_ovf (hs : s.status.ovf = b) : (aggfinBody s : Flow π).Ovf b := by
  unfold aggfinBody
  split
  · exact hs
  · split <;> exact hs

theorem loadWait_ovf (k : WaitFor) (ms : BitVec 16) (hs : s.status.ovf = b) : (loadWait k ms s).Ovf b :=
  abortPoint_ovf hs hs

/-! The bodies that compute leave OVF set where it was set. -/

/-- A computation's overflow is added to OVF, and takes nothing from it (R37 10_state.md). -/
theorem ovf_sticks {s : State} (h : s.status.ovf = true) (b : Bool) : (s.withOvf b).status.ovf = true := by
  simp [h]

variable (hs : s.status.ovf = true)
include hs

theorem rhcodeBody_sticks (temp : Nat) : (rhcodeBody temp s : Flow π).Ovf true := by
  refine needCal_ovf hs ?_
  split <;> exact ovf_sticks (by exact hs) _

theorem htrStep_sticks (p : HtrPt) : (htrStep p s).Ovf true := by
  cases p
  case compute =>
    refine needCal_ovf hs ?_
    dsimp only
    split <;> exact ovf_sticks (by exact hs) _
  case wroteDur | wroteRes | wroteCtrl =>
    simp only [htrStep]
    exact onWrite_ovf (fun _ => hs) hs
  all_goals exact issueAt_ovf _ _ hs

theorem comptBody_sticks : (comptBody s : Flow π).Ovf true := needCal_ovf hs (ovf_sticks (by exact hs) _)

theorem comppBody_sticks : (comppBody s : Flow π).Ovf true := by
  refine needCal_ovf hs (needTfine_ovf hs ?_)
  split <;> exact ovf_sticks (by exact hs) _

theorem comphBody_sticks : (comphBody s : Flow π).Ovf true :=
  needCal_ovf hs (needTfine_ovf hs (ovf_sticks (by exact hs) _))

theorem compStep_sticks (p : CompPt) : (compStep p s).Ovf true := by
  cases p
  exacts [andThen_goto_ovf (comptBody_sticks hs), andThen_goto_ovf (comppBody_sticks hs), comphBody_sticks hs]

end

/-! ### The commands -/

section

variable {π : Type} {b : Bool} {s t : State} {here : π → Point} {after : State → State} {f : Flow π}

theorem finish_ovf (h : f.Ovf b) (hs : s.status.ovf = b) (e : finish here s f = .next t) : t.status.ovf = b := by
  rcases finish_next e with ⟨p, s', rfl, rfl⟩ | ⟨s', rfl, rfl⟩ | ⟨_, _, _, s', rfl, rfl⟩ | ⟨rfl, rfl⟩
  exacts [h, h, h, hs]

theorem finishInRun_ovf (h : f.Ovf b) (hs : s.status.ovf = b) (e : finishInRun here after s f = .next t)
    (ha : ∀ s', (after s').status.ovf = s'.status.ovf) : t.status.ovf = b := by
  rcases finishInRun_next e with ⟨p, s', rfl, rfl⟩ | ⟨s', rfl, rfl⟩ | ⟨_, _, _, s', rfl, rfl⟩ | ⟨rfl, rfl⟩
  exacts [h, by rw [ha]; exact h, h, hs]

theorem finishSample_ovf {own : ErrCode} (h : f.Ovf b) (hs : s.status.ovf = b)
    (e : finishSample own here after s f = .next t) (ha : ∀ s', (after s').status.ovf = s'.status.ovf) :
    t.status.ovf = b := by
  rcases finishSample_next e with
    ⟨p, s', rfl, rfl⟩ | ⟨s', rfl, rfl⟩ | ⟨a, k, s', rfl, rfl⟩ | ⟨_, _, _, s', rfl, -, rfl⟩ | ⟨rfl, rfl⟩
  exacts [h, by rw [ha]; exact h, h, h, hs]

end

theorem enterLoop_ovf (i : Nat) (s : State) : (enterLoop i s).status.ovf = s.status.ovf := by
  unfold enterLoop
  split <;> rfl

theorem runStep_ovf {p : RunPt} {s t : State} (e : runStep p s = .next t) : t.status.ovf = s.status.ovf := by
  cases p <;> simp only [runStep] at e
  case aggClr => exact finishInRun_ovf (aggclrBody_ovf _ rfl) rfl e (enterLoop_ovf 0)
  case aggAcc => exact finishInRun_ovf (aggaccBody_ovf rfl) rfl e fun _ => rfl
  case aggFin => exact finishInRun_ovf (aggfinBody_ovf rfl) rfl e fun _ => rfl
  case sampleEnd => cases e; exact enterLoop_ovf ..
  case delayLoad | settleLoad | final1Load | final2Load =>
    exact finishInRun_ovf (loadWait_ovf _ _ rfl) rfl e fun _ => rfl
  all_goals cases e; rfl

theorem runStart_ovf {s t : State} (e : finishInRun id id s (runStart s) = .next t) : t.status.ovf = s.status.ovf := by
  unfold runStart at e
  dsimp only at e
  split at e
  · cases e; rfl
  · split at e <;> cases e <;> rfl

/-- RUN never clears OVF. -/
theorem execRun_sticks {s t : State} (hs : s.status.ovf = true) (e : execRun s = .next t) : t.status.ovf = true := by
  rcases unlessOffering_next e with ⟨-, rfl⟩ | ⟨-, e⟩
  · exact hs
  cases hp : s.hid.pos.point <;> simp only [hp] at e
  case noCommand => cases e
  case start => exact (runStart_ovf e).trans hs
  case run => exact (runStep_ovf e).trans hs
  case cal p => exact finishInRun_ovf (calStep_ovf p hs) hs e fun _ => rfl
  case os p => exact finishInRun_ovf (osStep_ovf p hs) hs e fun _ => rfl
  case htr p => exact finishInRun_ovf (htrStep_sticks hs p) hs e fun _ => rfl
  case trig p => exact finishInRun_ovf (trigStep_ovf _ p hs) hs e fun _ => rfl
  case raw p => exact finishSample_ovf (rawStep_ovf p hs) hs e fun _ => rfl
  case comp p => exact finishSample_ovf (compStep_sticks hs p) hs e fun _ => rfl
  case wait k p =>
    cases k
    case command => cases e
    all_goals exact finishInRun_ovf (waitStep_ovf p hs) hs e fun _ => rfl

/-- The commands that compute (R37 10_state.md). -/
def Computing (i : Instr) : Prop :=
  i = .compt ∨ i = .compp ∨ i = .comph ∨ i = .compall ∨ (∃ temp, i = .rhcode temp) ∨ i = .cfghtr ∨ i = .run

/-- What holds of a command that computes holds of one of R37's list. -/
theorem Computing.elim {i : Instr} {P : Instr → Prop} (h : Computing i) (hi : P i) :
    P .compt ∨ P .compp ∨ P .comph ∨ P .compall ∨ (∃ temp, P (.rhcode temp)) ∨ P .cfghtr ∨ P .run := by
  rcases h with rfl | rfl | rfl | rfl | ⟨temp, rfl⟩ | rfl | rfl
  case inr.inr.inr.inr.inl => exact .inr (.inr (.inr (.inr (.inl ⟨temp, hi⟩))))
  all_goals simp only [hi, true_or, or_true]

/-- What a command's step does to OVF: nothing, unless the command computes, which never clears it, or resets. -/
theorem exec_ovf {i : Instr} {s t : State} (e : exec i s = .next t) :
    t.status.ovf = s.status.ovf ∨ (Computing i ∧ (s.status.ovf = true → t.status.ovf = true)) ∨
      (i = .sreset ∧ t.status.ovf = false) := by
  have held {o : Result} {P : Prop} (e : unlessOffering s o = .next t)
      (h : o = .next t → t.status.ovf = s.status.ovf ∨ P) : t.status.ovf = s.status.ovf ∨ P := by
    rcases unlessOffering_next e with ⟨-, rfl⟩ | ⟨-, e⟩
    exacts [.inl rfl, h e]
  cases i
  case sreset =>
    cases hp : s.hid.pos.point <;> simp only [exec, execSreset, hp] at e <;> cases e
    exact .inr (.inr ⟨rfl, rfl⟩)
  case run => exact .inr (.inl ⟨by simp [Computing], fun hs => execRun_sticks hs e⟩)
  all_goals
    refine held e fun e => ?_
    cases hp : s.hid.pos.point <;> simp only [hp] at e <;> try cases e
  case nop.start | abort.start | gwcode.start | wait.start => exact .inl rfl
  case wait.wait k p =>
    cases k
    case command => exact .inl (finish_ovf (waitStep_ovf p rfl) rfl e)
    all_goals cases e
  case loadcal.start => exact .inl rfl
  case loadcal.cal p => exact .inl (finish_ovf (calStep_ovf p rfl) rfl e)
  case cfgos.start | cfgos.os => exact .inl (finish_ovf (osStep_ovf _ rfl) rfl e)
  case trig.start => exact .inl rfl
  case trig.trig p => exact .inl (finish_ovf (trigStep_ovf _ p rfl) rfl e)
  case readraw.start | readraw.raw => exact .inl (finish_ovf (rawStep_ovf _ rfl) rfl e)
  case aggclr.start => exact .inl (finish_ovf (aggclrBody_ovf _ rfl) rfl e)
  case aggacc.start => exact .inl (finish_ovf (aggaccBody_ovf rfl) rfl e)
  case aggfin.start => exact .inl (finish_ovf (aggfinBody_ovf rfl) rfl e)
  all_goals refine .inr (.inl ⟨by simp [Computing], fun hs => ?_⟩)
  case cfghtr.start | cfghtr.htr => exact finish_ovf (htrStep_sticks hs _) hs e
  case rhcode.start => exact finish_ovf (rhcodeBody_sticks hs _) hs e
  case compt.start => exact finish_ovf (comptBody_sticks hs) hs e
  case compp.start => exact finish_ovf (comppBody_sticks hs) hs e
  case comph.start => exact finish_ovf (comphBody_sticks hs) hs e
  case compall.start | compall.comp => exact finish_ovf (compStep_sticks hs _) hs e

/-! ### The other agents -/

/-- A host's write clears OVF by bit 4 of a STATUS write while BUSY = 0, and otherwise leaves it (R36, R37
10_state.md). -/
theorem hostWrite_ovf (c : Csr) (w : Word) (s : State) : (hostWrite c w s).status.ovf = s.status.ovf ∨
    (c = .status ∧ w.getLsbD 4 = true ∧ s.status.busy = false ∧ (hostWrite c w s).status.ovf = false) := by
  by_cases hc : c = .cmd
  · subst hc
    rw [hostWrite_cmd]
    rcases writeCmd_cases w s with ⟨-, -, e⟩ | ⟨-, -, e⟩ | ⟨-, -, e⟩ | ⟨-, -, e⟩ <;> simp [e]
  cases hb : s.status.busy with
  | true => exact .inl (by rw [hostWrite_busy hc w hb])
  | false =>
    rw [hostWrite_idle hc w hb]
    cases c
    case status =>
      rw [csrWrite_status, writeStatus_eq]
      cases h4 : w.getLsbD 4
      exacts [.inl (by simp), .inr ⟨rfl, rfl, rfl, by simp⟩]
    all_goals exact .inl rfl

/-- A host access likewise. -/
theorem hostStep_ovf (a : HostAccess) (s : State) : (hostStep a s).status.ovf = s.status.ovf ∨
    ((∃ w, a = ⟨.w32, 0x004, .write w⟩ ∧ w.getLsbD 4 = true) ∧ s.status.busy = false ∧
      (hostStep a s).status.ovf = false) := by
  unfold hostStep
  dsimp only
  split
  next c w hc hop =>
    refine (hostWrite_ovf c w s).imp_right ?_
    rintro ⟨rfl, h4, hb, hovf⟩
    obtain ⟨hw, hat⟩ := target_eq_some hc
    have hoff := csrAt_injective hat csrAt_status
    exact ⟨⟨w, by cases a; simp_all, h4⟩, hb, hovf⟩
  all_goals exact .inl rfl

theorem busStep_ovf (n : Nat) (r : BusResp) (s : State) : (busStep n r s).status.ovf = s.status.ovf := by
  rcases busStep_cases n r s with ⟨q, -, -, -, e⟩ | e <;> rw [e]

theorem tickStep_ovf (s : State) : (tickStep s).status.ovf = s.status.ovf := by
  rcases tickStep_cases s with e | ⟨k, p, -, -, e⟩ | ⟨p, -, -, e⟩ <;> rw [e] <;> rfl

theorem sinkStep_ovf (s : State) : (sinkStep s).status.ovf = s.status.ovf := by
  rcases sinkStep_cases s with ⟨r, -, e⟩ | ⟨-, e⟩ <;> rw [e]

/-- Settles O22: of all events only a STATUS write and the reset procedure clear OVF, and only a command that computes
sets it. -/
theorem overflowIsSticky : Obligations.OverflowIsSticky := by
  intro s t e
  rw [step_eq] at e
  have same (h : t.status.ovf = s.status.ovf) {P Q : Prop} :
      (s.status.ovf = true → t.status.ovf = false → P) ∧ (s.status.ovf = false → t.status.ovf = true → Q) :=
    ⟨fun h1 h0 => by simp [h, h1] at h0, fun h0 h1 => by simp [h, h0] at h1⟩
  have cleared (h : t.status.ovf = false) {P Q : Prop} (hp : P) :
      (s.status.ovf = true → t.status.ovf = false → P) ∧ (s.status.ovf = false → t.status.ovf = true → Q) :=
    ⟨fun _ _ => hp, fun _ h1 => by simp [h] at h1⟩
  cases he : nextEvent s <;> rw [he, eventStep] at e
  case engine =>
    rcases engineTurn_next e with ⟨-, rfl⟩ | ⟨hb, i, hi, e⟩
    · exact same rfl
    rcases exec_ovf e with h | ⟨hc, h⟩ | ⟨rfl, h⟩
    · exact same h
    · exact ⟨fun h1 h0 => by simp [h h1] at h0, fun _ _ =>
        hc.elim (P := fun j => Event.engine = .engine ∧ s.status.busy = true ∧ decode s.hid.cmdCur = .legal j)
          ⟨rfl, hb, hi⟩⟩
    · exact cleared h (.inr (.inl ⟨rfl, hb, hi⟩))
  case host a =>
    cases e
    rcases hostStep_ovf a s.takeEvent with h | ⟨⟨w, rfl, h4⟩, hb, h⟩
    · exact same h
    · exact cleared h (.inr (.inr ⟨w, rfl, h4, hb⟩))
  case bus n r => cases e; exact same (busStep_ovf n r _)
  case tick => cases e; exact same (tickStep_ovf _)
  case sinkAccept => cases e; exact same (sinkStep_ovf _)
  case powerOn => cases e; exact cleared rfl (.inl rfl)

end Sys2Proof.Machine
end

section
/-! PROOFS. The accesses that reach no CSR, and the writes that a CSR ignores (O13, O14). -/

namespace Sys2Proof.Machine

/-! ### The mapped offsets (R34, R52 10_state.md) -/

/-- The offsets of the CSR window at which a CSR stands (R34, R52 10_state.md). -/
abbrev MappedOffset (o : Nat) : Prop :=
  o % 4 = 0 ∧ (o ≤ 0x060 ∨ (0x068 ≤ o ∧ o ≤ 0x084) ∨ (0x100 ≤ o ∧ o ≤ 0x160))

theorem csrMap_mappedOffset : ∀ e ∈ csrMap, MappedOffset e.1 := by decide

/-- `MappedOffset` leaves no word offset out of the map; 0x160 is word offset 88. -/
theorem wordOffset_mem_csrMap : ∀ k < 89, MappedOffset (4 * k) → ∃ e ∈ csrMap, e.1 = 4 * k := by decide

theorem mappedOffset_iff {o : Nat} : MappedOffset o ↔ ∃ e ∈ csrMap, e.1 = o := by
  constructor
  · intro h
    obtain ⟨k, rfl⟩ : 4 ∣ o := Nat.dvd_of_mod_eq_zero h.1
    exact wordOffset_mem_csrMap k (by omega) h
  · rintro ⟨e, he, rfl⟩
    exact csrMap_mappedOffset e he

theorem csrAt_isSome_iff {off : BitVec 12} : (csrAt off).isSome ↔ MappedOffset off.toNat := by
  rw [mappedOffset_iff, csrAt, Option.isSome_map, List.find?_isSome]
  simp only [beq_iff_eq]

theorem csrAt_eq_none_iff {off : BitVec 12} : csrAt off = none ↔ ¬MappedOffset off.toNat := by
  rw [← csrAt_isSome_iff, Option.not_isSome_iff_eq_none]

/-- Only a 32-bit access at a mapped offset reaches a CSR (R105, R106 20_memory.md). -/
theorem target_eq_none_iff {a : HostAccess} : a.target = none ↔ a.width ≠ .w32 ∨ ¬MappedOffset a.off.toNat := by
  rw [← csrAt_eq_none_iff]
  cases hw : a.width <;> simp [HostAccess.target, hw]

/-- Only an access that reaches no CSR is answered with a bus error (R105, R106 20_memory.md). -/
theorem hostAnswer_eq_slverr_iff {a : HostAccess} {s : State} : hostAnswer a s = .slverr ↔ a.target = none := by
  unfold hostAnswer
  split <;> simp [*]

/-- Settles O13: R34's gaps are exactly the offsets that are not mapped. -/
theorem offMapAccesses : Obligations.OffMapAccesses := by
  intro s a o offMap
  have htarget : offMap ↔ a.target = none := by
    have hgaps : (o % 4 ≠ 0 ∨ o = 0x064 ∨ (0x088 ≤ o ∧ o ≤ 0x0FC) ∨ 0x164 ≤ o) ↔ ¬MappedOffset o := by omega
    rw [target_eq_none_iff, ← hgaps]
  rw [htarget]
  refine ⟨fun h => ?_, fun h => mt hostAnswer_eq_slverr_iff.mp h⟩
  rw [eventStep, hostStep_offMap h]; rfl

/-! ### The read-only CSRs (R34, R52 10_state.md; R109 20_memory.md) -/

/-- The CSRs that take no write (R34, R52 10_state.md). -/
def Csr.readOnly : Csr → Bool
  | .errInfo | .lo _ | .hi _ | .gwCode | .rhCode | .sampleIdx | .validCnt | .nAgg | .cal _ => true
  | .cmd | .status | .window | .sampleDelay | .settle | .pollBudget | .heatTemp | .heatDur | .rawT | .rawP | .rawH =>
    false

theorem csrMap_readOnly_iff : ∀ e ∈ csrMap, e.2.readOnly = true ↔
    e.1 = 0x008 ∨ (0x030 ≤ e.1 ∧ e.1 ≤ 0x060) ∨ (0x068 ≤ e.1 ∧ e.1 ≤ 0x084) ∨ (0x100 ≤ e.1 ∧ e.1 ≤ 0x160) := by decide

theorem csrWrite_readOnly {c : Csr} (h : c.readOnly = true) (w : Word) (s : State) : csrWrite c w s = s := by
  cases c with
  | errInfo | lo | hi | gwCode | rhCode | sampleIdx | validCnt | nAgg | cal => rfl
  | cmd | status | window | sampleDelay | settle | pollBudget | heatTemp | heatDur | rawT | rawP | rawH => contradiction

/-- A write is ignored by a read-only CSR, and while BUSY = 1 by every CSR but CMD (R109 20_memory.md). -/
theorem hostWrite_ignored {c : Csr} {s : State} (hcmd : c ≠ .cmd) (h : c.readOnly = true ∨ s.status.busy = true)
    (w : Word) : hostWrite c w s = s := by
  cases hb : s.status.busy with
  | true => exact hostWrite_busy hcmd w hb
  | false => rw [hostWrite_idle hcmd w hb, csrWrite_readOnly (h.resolve_right (by simp [hb]))]

/-- Settles O14: the offset has a CSR, which is not CMD, and read-only CSRs stand at the read-only offsets. -/
theorem ignoredWrites : Obligations.IgnoredWrites := by
  intro s off w a o readOnly halign h
  have hmapped : MappedOffset off.toNat := by omega
  obtain ⟨c, hat⟩ := Option.isSome_iff_exists.mp (csrAt_isSome_iff.mpr hmapped)
  have hcmd : c ≠ .cmd := by
    rintro rfl
    have hzero : off.toNat = 0 := by rw [csrAt_injective hat csrAt_cmd]; rfl
    omega
  have hignored : c.readOnly = true ∨ s.status.busy = true :=
    h.imp (csrMap_readOnly_iff _ (csrAt_mem hat)).mpr And.left
  rw [eventStep, hostStep_write hat, hostWrite_ignored hcmd hignored]; rfl

end Sys2Proof.Machine
end

section
/-! PROOFS. The command word: its fields, the rows it matches, what it decodes to, and what the assembler writes
(O1 to O6, O10). -/

namespace Sys2Proof

/-! ### The fields of a word (R151 30_encoding.md) -/

theorem toNat_opcodeOf (w : Word) : (opcodeOf w).toNat = w.toNat / 2 ^ 24 := by
  have hw : w.toNat < 2 ^ 32 := w.isLt
  simp only [opcodeOf, BitVec.extractLsb'_toNat, Nat.shiftRight_eq_div_pow]
  omega

theorem imm16Of_eq_mod (w : Word) : imm16Of w = w.toNat % 2 ^ 16 := by
  simp only [imm16Of, BitVec.extractLsb'_toNat, Nat.shiftRight_zero]

/-- No bit of a word is outside its three fields. -/
theorem toNat_eq_fields (w : Word) :
    w.toNat = 2 ^ 24 * (opcodeOf w).toNat + 2 ^ 16 * (w.toNat / 2 ^ 16 % 2 ^ 8) + imm16Of w := by
  rw [toNat_opcodeOf, imm16Of_eq_mod]
  omega

/-- The fields of a command's word (R151, R167 30_encoding.md). -/
theorem encode_fields {i : Instr} (h : i.WellFormed) : opcodeOf (encode i) = i.opcode ∧
    (encode i).toNat / 2 ^ 16 % 2 ^ 8 = 0 ∧ imm16Of (encode i) = i.imm16.getD 0 := by
  have hstatement : Laws.WordFields.Statement i := by
    cases himm : i.imm16 with
    | none => exact Laws.WordFields.statement_of_none himm
    | some n => exact Laws.WordFields.statement_of_some himm
  obtain ⟨hop, hzero, himm⟩ := hstatement
  have hzero' := congrArg BitVec.toNat hzero
  rw [BitVec.extractLsb'_toNat, Nat.shiftRight_eq_div_pow] at hzero'
  exact ⟨hop, hzero', himm h⟩

theorem toNat_encode {i : Instr} (h : i.WellFormed) :
    (encode i).toNat = 2 ^ 24 * i.opcode.toNat + i.imm16.getD 0 := by
  obtain ⟨hop, hzero, himm⟩ := encode_fields h
  rw [toNat_eq_fields, hop, hzero, himm, Nat.mul_zero, Nat.add_zero]

/-! ### The rows of the opcode map (R151, R155 30_encoding.md) -/

/-- The mask of a format: every bit but those of an IMM16 (R155 30_encoding.md). -/
def Format.mask : Format → Word
  | .n => BitVec.allOnes 32
  | .i16 => BitVec.allOnes 32 <<< 16

/-- The number in the bits that a format wants 0: ZERO24 or ZERO8 (R151 30_encoding.md). -/
def Format.zeroField : Format → Word → Nat
  | .n, w => w.toNat % 2 ^ 24
  | .i16, w => w.toNat / 2 ^ 16 % 2 ^ 8

/-- The immediate a format reads from a word (R152 30_encoding.md). -/
def Format.imm : Format → Word → Option Nat
  | .n, _ => none
  | .i16, w => some (imm16Of w)

/-- A word with a clear ZERO field has nothing below its opcode but the format's immediate. -/
theorem Format.zeroField_eq_zero_iff (f : Format) (w : Word) :
    f.zeroField w = 0 ↔ w.toNat / 2 ^ 16 % 2 ^ 8 = 0 ∧ (f.imm w).getD 0 = imm16Of w := by
  cases f with
  | n => rw [zeroField, imm, Option.getD_none, imm16Of_eq_mod]; omega
  | i16 => simp only [zeroField, imm, Option.getD_some, and_true]

/-- The kind of a word whose ZERO field is not 0 (R161 30_encoding.md). -/
def Format.nonzero : Format → Illegal
  | .n => .nonzeroZero24
  | .i16 => .nonzeroZero8

/-- A row's mask is its format's, and its pattern holds the opcode alone. -/
theorem opRows_layout : ∀ r ∈ opRows,
    r.mask = r.format.mask ∧ r.pattern.toNat = 2 ^ 24 * (opcodeOf r.pattern).toNat := by decide

theorem opRows_imm16 : ∀ r ∈ opRows, ∀ w, (r.build w).imm16 = r.format.imm w := by
  simp [opRows, Instr.imm16, Format.imm]

/-- The opcodes differ (R155 30_encoding.md). -/
theorem opRows_opcode_injective {r q : OpRow} (hr : r ∈ opRows) (hq : q ∈ opRows)
    (h : opcodeOf r.pattern = opcodeOf q.pattern) : r = q := by
  have hnodup : (opRows.map fun r => opcodeOf r.pattern).Nodup := by decide
  exact List.inj_on_of_nodup_map hnodup hr hq h

/-- A search of the opcode map for one opcode finds its row. -/
theorem find?_opRows {p : OpRow → Bool} {r : OpRow} (hr : r ∈ opRows) (hp : p r = true)
    (hop : ∀ q ∈ opRows, p q = true → opcodeOf q.pattern = opcodeOf r.pattern) : opRows.find? p = some r := by
  obtain ⟨q, hq⟩ := Option.isSome_iff_exists.mp (List.find?_isSome.mpr ⟨r, hr, hp⟩)
  have hmem := List.mem_of_find?_eq_some hq
  rw [hq, opRows_opcode_injective hmem hr (hop q hmem (List.find?_some hq))]

theorem toNat_and_mask_i16 (w : Word) : (w &&& Format.mask .i16).toNat = w.toNat / 2 ^ 16 * 2 ^ 16 := by
  have hw : w.toNat < 2 ^ 32 := w.isLt
  rw [Format.mask, ← BitVec.shiftLeft_ushiftRight, BitVec.toNat_shiftLeft, BitVec.toNat_ushiftRight,
    Nat.shiftLeft_eq, Nat.shiftRight_eq_div_pow, Nat.mod_eq_of_lt (by omega)]

/-- A word matches a row exactly when it has the row's opcode and its ZERO field is 0 (R155, R161 30_encoding.md). -/
theorem matches_iff {r : OpRow} (hr : r ∈ opRows) (w : Word) :
    w &&& r.mask = r.pattern ↔ opcodeOf w = opcodeOf r.pattern ∧ r.format.zeroField w = 0 := by
  obtain ⟨hmask, hpattern⟩ := opRows_layout r hr
  rw [← BitVec.toNat_inj, ← BitVec.toNat_inj, hmask, hpattern, toNat_opcodeOf w]
  cases r.format with
  | n => rw [Format.mask, BitVec.and_allOnes, Format.zeroField]; omega
  | i16 => rw [toNat_and_mask_i16, Format.zeroField]; omega

/-! ### Decoding, row by row (R160, R161 30_encoding.md) -/

/-- A word is the command of a row it matches: no other row has its opcode. -/
theorem decode_of_matches {r : OpRow} {w : Word} (hr : r ∈ opRows) (h : w &&& r.mask = r.pattern) :
    decode w = .legal (r.build w) := by
  have hfind : opRows.find? (fun q => w &&& q.mask == q.pattern) = some r :=
    find?_opRows hr (by simpa using h) fun q hq hm => by
      obtain ⟨hop, -⟩ := (matches_iff hq w).mp (by simpa using hm)
      exact hop.symm.trans ((matches_iff hr w).mp h).1
  simp [decode, hfind]

theorem decode_of_no_match {w : Word} (h : ∀ r ∈ opRows, w &&& r.mask ≠ r.pattern) :
    decode w = .illegal (illegalKind w) := by
  have hfind : opRows.find? (fun q => w &&& q.mask == q.pattern) = none := by simpa using h
  simp [decode, hfind]

theorem illegalKind_of_no_row {w : Word} (h : ∀ r ∈ opRows, opcodeOf r.pattern ≠ opcodeOf w) :
    illegalKind w = .unassignedOpcode (opcodeOf w) := by
  have hfind : opRows.find? (fun r => opcodeOf r.pattern == opcodeOf w) = none := by simpa using h
  simp [illegalKind, hfind]

theorem illegalKind_of_row {r : OpRow} {w : Word} (hr : r ∈ opRows) (h : opcodeOf r.pattern = opcodeOf w) :
    illegalKind w = r.format.nonzero := by
  have hfind : opRows.find? (fun q => opcodeOf q.pattern == opcodeOf w) = some r :=
    find?_opRows hr (by simpa using h) fun q _ hq => by
      have hop : opcodeOf q.pattern = opcodeOf w := by simpa using hq
      exact hop.trans h.symm
  simp only [illegalKind, hfind]
  cases r.format <;> rfl

/-- A word whose opcode no row has is illegal, by kind (a) of R161 (30_encoding.md). -/
theorem decode_of_no_row {w : Word} (h : ∀ r ∈ opRows, opcodeOf r.pattern ≠ opcodeOf w) :
    decode w = .illegal (.unassignedOpcode (opcodeOf w)) := by
  rw [decode_of_no_match fun r hr hm => h r hr ((matches_iff hr w).mp hm).1.symm, illegalKind_of_no_row h]

/-- A word with a row's opcode is that row's command, or illegal by its ZERO field: kinds (b) and (c) of R161
(30_encoding.md). -/
theorem decode_of_row {r : OpRow} {w : Word} (hr : r ∈ opRows) (h : opcodeOf r.pattern = opcodeOf w) :
    decode w = if r.format.zeroField w = 0 then .legal (r.build w) else .illegal r.format.nonzero := by
  split
  next hz => exact decode_of_matches hr ((matches_iff hr w).mpr ⟨h.symm, hz⟩)
  next hz =>
    have hnone : ∀ q ∈ opRows, w &&& q.mask ≠ q.pattern := fun q hq hm => by
      obtain ⟨hop, hzq⟩ := (matches_iff hq w).mp hm
      rw [opRows_opcode_injective hr hq (h.trans hop)] at hz
      exact hz hzq
    rw [decode_of_no_match hnone, illegalKind_of_row hr h]

theorem exists_row_of_decode {w : Word} {i : Instr} (h : decode w = .legal i) :
    ∃ r ∈ opRows, w &&& r.mask = r.pattern ∧ r.build w = i := by
  by_contra! hnone
  have hno : ∀ r ∈ opRows, w &&& r.mask ≠ r.pattern := fun r hr hm => by
    have hlegal := (decode_of_matches hr hm).symm.trans h
    exact hnone r hr hm (Decoded.legal.inj hlegal)
  rw [decode_of_no_match hno] at h
  cases h

/-! ### Decode and encode (R160, R167 30_encoding.md) -/

/-- Every command has a row, which builds it from its immediate (R155 30_encoding.md). -/
theorem exists_row_of_instr (i : Instr) : ∃ r ∈ opRows, opcodeOf r.pattern = i.opcode ∧
    ∀ w, imm16Of w = i.imm16.getD 0 → r.build w = i := by
  cases i <;> simp [opRows, opcodeOf, Instr.opcode, Instr.imm16]

/-- Settles O1: a command's word has the command's opcode, a ZERO field that is 0, and its immediate. -/
theorem decodeInvertsEncode : Obligations.DecodeInvertsEncode := by
  intro i hwf
  obtain ⟨hop, hzero, himm⟩ := encode_fields hwf
  obtain ⟨r, hr, hrow, hbuild⟩ := exists_row_of_instr i
  have himm_row : (r.format.imm (encode i)).getD 0 = imm16Of (encode i) := by
    rw [← opRows_imm16 r hr, hbuild _ himm, himm]
  have hclear : r.format.zeroField (encode i) = 0 := (r.format.zeroField_eq_zero_iff _).mpr ⟨hzero, himm_row⟩
  rw [decode_of_row hr (hrow.trans hop.symm), if_pos hclear, hbuild _ himm]

/-- Settles O2: the command has the word's opcode and its immediate, and the rest of the word is a ZERO field. -/
theorem encodeInvertsDecode : Obligations.EncodeInvertsDecode := by
  intro w i h
  obtain ⟨r, hr, hmatch, rfl⟩ := exists_row_of_decode h
  have hclear := ((matches_iff hr w).mp hmatch).2
  obtain ⟨hzero, himm⟩ := (r.format.zeroField_eq_zero_iff w).mp hclear
  rw [← opRows_imm16 r hr w] at himm
  have hwf : (r.build w).WellFormed := by
    rw [Instr.WellFormed, himm, imm16Of_eq_mod]
    omega
  refine ⟨hwf, BitVec.eq_of_toNat_eq ?_⟩
  rw [toNat_encode hwf, ← Machine.opcodeOf_of_decode h, himm, toNat_eq_fields w, hzero, Nat.mul_zero, Nat.add_zero]

/-- Settles O3: a second row that matches has the same opcode, so it is the same row. -/
theorem decodeIsTheMatchedRow : Obligations.DecodeIsTheMatchedRow := by
  refine fun w => ⟨fun r hr hm => ⟨decode_of_matches hr hm, fun q hq hmq => ?_⟩,
    fun hno => ⟨_, decode_of_no_match hno⟩⟩
  have hop := ((matches_iff hr w).mp hm).1
  have hopq := ((matches_iff hq w).mp hmq).1
  rw [opRows_opcode_injective hq hr (hopq.symm.trans hop)]

/-! ### The kinds of illegal words (R161 30_encoding.md) -/

/-- The opcodes of format N (R155 30_encoding.md). -/
abbrev OpcodeN (op : Nat) : Prop :=
  op ≤ 0x02 ∨ op = 0x10 ∨ (0x20 ≤ op ∧ op ≤ 0x22) ∨ (0x30 ≤ op ∧ op ≤ 0x33) ∨ (0x40 ≤ op ∧ op ≤ 0x44)

/-- The opcodes of format I16 (R155 30_encoding.md). -/
abbrev OpcodeI16 (op : Nat) : Prop := op = 0x03 ∨ op = 0x23 ∨ op = 0x24

theorem opRows_opcode_range : ∀ r ∈ opRows, r.format = .n ∧ OpcodeN (opcodeOf r.pattern).toNat ∨
    r.format = .i16 ∧ OpcodeI16 (opcodeOf r.pattern).toNat := by decide

theorem exists_row_of_opcode : ∀ op < 0x45, OpcodeN op ∨ OpcodeI16 op →
    ∃ r ∈ opRows, (opcodeOf r.pattern).toNat = op := by decide

theorem not_opcode_of_no_row {w : Word} (h : ∀ r ∈ opRows, opcodeOf r.pattern ≠ opcodeOf w) :
    ¬OpcodeN (opcodeOf w).toNat ∧ ¬OpcodeI16 (opcodeOf w).toNat := by
  rw [← not_or]
  intro hop
  obtain ⟨r, hr, he⟩ := exists_row_of_opcode _ (by omega) hop
  exact h r hr (BitVec.eq_of_toNat_eq he)

/-- Settles O4: a word has no row, or the row of its opcode is of format N, or of format I16. -/
theorem illegalWordsByKind : Obligations.IllegalWordsByKind := by
  intro w op unassigned withImm
  have hop : (opcodeOf w).toNat = op := toNat_opcodeOf w
  by_cases hrow : ∃ r ∈ opRows, opcodeOf r.pattern = opcodeOf w
  · obtain ⟨r, hr, hr_op⟩ := hrow
    have hdecode := decode_of_row hr hr_op
    have hrange := opRows_opcode_range r hr
    rw [hr_op, hop] at hrange
    rcases hrange with ⟨hf, hrange⟩ | ⟨hf, hrange⟩ <;> rw [hf, Format.zeroField, Format.nonzero] at hdecode
    · have hassigned : ¬unassigned ∧ ¬withImm := by omega
      by_cases hzero : w.toNat % 2 ^ 24 = 0 <;> simp [hdecode, hassigned, hzero, -Nat.reducePow]
    · have hassigned : ¬unassigned ∧ withImm := by omega
      by_cases hzero : w.toNat / 2 ^ 16 % 2 ^ 8 = 0 <;> simp [hdecode, hassigned, hzero, -Nat.reducePow]
  · push Not at hrow
    have hrange := not_opcode_of_no_row hrow
    have hunassigned : unassigned ∧ ¬withImm := by rw [hop] at hrange; omega
    rw [decode_of_no_row hrow]
    simp [hunassigned]

/-! ### The assembler (R167 30_encoding.md) -/

/-- A command's word is its match pattern with the immediate in it (R167 30_encoding.md). -/
theorem encode_eq_or {i : Instr} {p : Word} (h : i.WellFormed) (hp : p.toNat = 2 ^ 24 * i.opcode.toNat) :
    encode i = p ||| BitVec.ofNat 32 (i.imm16.getD 0) := by
  have hlt : i.imm16.getD 0 < 2 ^ 24 := by omega
  apply BitVec.eq_of_toNat_eq
  rw [toNat_encode h, BitVec.toNat_or, hp, BitVec.toNat_ofNat, Nat.mod_eq_of_lt (by omega),
    Nat.two_pow_add_eq_or_of_lt hlt]

theorem assemble_of_le {i : Instr} {n : Nat} {p : Word} (hi : i.imm16 = some n)
    (hp : p.toNat = 2 ^ 24 * i.opcode.toNat) (h : n ≤ 65535) : assemble i = some (p ||| BitVec.ofNat 32 n) := by
  have hwf : i.WellFormed := by simpa [Instr.WellFormed, hi] using h
  rw [assemble, if_pos hwf, encode_eq_or hwf hp, hi, Option.getD_some]

theorem assemble_of_lt {i : Instr} {n : Nat} (hi : i.imm16 = some n) (h : 65535 < n) : assemble i = none := by
  have hwf : ¬i.WellFormed := by simpa [Instr.WellFormed, hi] using h
  rw [assemble, if_neg hwf]

/-- Settles O6: the pattern of a row of format I16 with the immediate in it; the words of format N are closed. -/
theorem assembledWords : Obligations.AssembledWords := by
  refine ⟨fun n h => ⟨?_, ?_, ?_⟩, fun n h => ⟨?_, ?_, ?_⟩, by decide⟩
  · exact assemble_of_le (i := .wait n) rfl rfl h
  · exact assemble_of_le (i := .gwcode n) rfl rfl h
  · exact assemble_of_le (i := .rhcode n) rfl rfl h
  · exact assemble_of_lt (i := .wait n) rfl h
  · exact assemble_of_lt (i := .gwcode n) rfl h
  · exact assemble_of_lt (i := .rhcode n) rfl h

/-- Settles O5: eleven closed words, evaluated. -/
theorem writtenWordsDecode : Obligations.WrittenWordsDecode := by
  unfold Obligations.WrittenWordsDecode
  decide

end Sys2Proof

namespace Sys2Proof.Machine

/-! ### An illegal word at CMD (R162 30_encoding.md) -/

/-- The ERR_INFO word of an error with an address alone (R39 10_state.md). -/
theorem ErrInfo.word_addr (a : Byte) : ErrInfo.word { addr := a, kind := none, sample := 0 } = a.zeroExtend 32 := by
  have hzero : (0 : BitVec 16) ++ (0 : BitVec 6) ++ busKindCode none = (0 : BitVec 24) := by decide
  rw [ErrInfo.word, hzero]
  exact (BitVec.setWidth_eq_append (w := 32) (x := a) (by decide)).symm

/-- Settles O10: idle, the error record with the opcode; busy, the word is not ABORT's, which is legal. -/
theorem illegalWordIsRecorded : Obligations.IllegalWordIsRecorded := by
  intro s w why hw
  refine ⟨_, eventStep_writeCmd w s, fun hb => ?_, fun hb => ?_⟩
  · rw [writeCmd_illegal hb hw, hostAnswer_read csrAt_errInfo, csrRead_answering]
    exact ⟨rfl, congrArg HostAnswer.data (ErrInfo.word_addr (opcodeOf w)), rfl, rfl, rfl, rfl, rfl, rfl, rfl⟩
  · have habort : w ≠ encode .abort := by
      rintro rfl
      rw [decodeInvertsEncode .abort (by decide)] at hw
      cases hw
    rw [writeCmd_dropped hb habort]
    rfl

end Sys2Proof.Machine
end

section
/-! PROOFS. One engine step of a command at each position of its body, as the body's own step; how RUN begins, loads and
ends its waits, and ends (O54); and what ends a command and the run it happens in (O32). -/

namespace Sys2Proof.Machine

/-! ### The engine's step at a position -/

section

variable {s : State}

theorem exec_loadcal_start (h : s.ready .start) : exec .loadcal s = finish .cal s (calStep .invalidate s) := by
  simp only [exec, execLoadcal, unlessOffering_none h.2, h.1]

theorem exec_loadcal_cal {p : CalPt} (h : s.ready (.cal p)) : exec .loadcal s = finish .cal s (calStep p s) := by
  simp only [exec, execLoadcal, unlessOffering_none h.2, h.1]

theorem exec_cfgos_os {p : OsPt} (h : s.ready (.os p)) : exec .cfgos s = finish .os s (osStep p s) := by
  simp only [exec, execCfgos, unlessOffering_none h.2, h.1]

theorem exec_cfghtr_htr {p : HtrPt} (h : s.ready (.htr p)) : exec .cfghtr s = finish .htr s (htrStep p s) := by
  simp only [exec, execCfghtr, unlessOffering_none h.2, h.1]

theorem exec_trig_trig {p : TrigPt} (h : s.ready (.trig p)) :
    exec .trig s = finish .trig s (trigStep s.ctl.pollBudget p s) := by
  simp only [exec, execTrig, unlessOffering_none h.2, h.1]

theorem exec_run_start (h : s.ready .start) : exec .run s = finishInRun id id s (runStart s) := by
  simp only [exec, execRun, unlessOffering_none h.2, h.1]

theorem exec_run_cal {p : CalPt} (h : s.ready (.cal p)) :
    exec .run s = finishInRun .cal (·.goto (.os .readHum)) s (calStep p s) := by
  simp only [exec, execRun, unlessOffering_none h.2, h.1]

theorem exec_run_os {p : OsPt} (h : s.ready (.os p)) :
    exec .run s = finishInRun .os (·.goto (.htr .compute)) s (osStep p s) := by
  simp only [exec, execRun, unlessOffering_none h.2, h.1]

theorem exec_run_htr {p : HtrPt} (h : s.ready (.htr p)) :
    exec .run s = finishInRun .htr (·.goto (.run .aggClr)) s (htrStep p s) := by
  simp only [exec, execRun, unlessOffering_none h.2, h.1]

theorem exec_run_trig {p : TrigPt} (h : s.ready (.trig p)) :
    exec .run s = finishInRun .trig enterSettling s (trigStep s.hid.lBudget p s) := by
  simp only [exec, execRun, unlessOffering_none h.2, h.1]

theorem exec_run_raw {p : RawPt} (h : s.ready (.raw p)) :
    exec .run s = finishSample .sampleReadFailure .raw enterCompensating s (rawStep p s) := by
  simp only [exec, execRun, unlessOffering_none h.2, h.1]

theorem exec_run_comp {p : CompPt} (h : s.ready (.comp p)) :
    exec .run s = finishSample .divideByZero .comp enterAggregating s (compStep p s) := by
  simp only [exec, execRun, unlessOffering_none h.2, h.1]

theorem exec_run_run {p : RunPt} (h : s.ready (.run p)) : exec .run s = runStep p s := by
  simp only [exec, execRun, unlessOffering_none h.2, h.1]

/-- What RUN goes on with when one of its waits is over (R340 43_acquisition.md). -/
def afterWait : WaitFor → State → State
  | .command => id
  | .delay => enterTriggering
  | .settle => enterReading
  | .final1 => (·.goto (.run .aggFin))
  | .final2 => endRun

theorem exec_run_wait {k : WaitFor} {p : WaitPt} (hk : k ≠ .command) (h : s.ready (.wait k p)) :
    exec .run s = finishInRun (.wait k) (afterWait k) s (waitStep p s) := by
  cases k
  case command => exact absurd rfl hk
  all_goals simp only [exec, execRun, unlessOffering_none h.2, h.1, afterWait]

/-! ### Abort points and answers -/

theorem abortPoint_go {π : Type} (h : s.status.abortPend = false) (go : Flow π) : abortPoint s go = go := by
  simp [abortPoint, h]

theorem issueAt_go {π : Type} (h : s.status.abortPend = false) (r : BusReq) (p : π) :
    issueAt r p s = .goto p (s.issue r) := abortPoint_go h _

section

variable {π : Type} {q : BusReq} {err : BusKind → State → Flow π}

theorem onRead_bytes {b : List Byte} {ok : List Byte → State → Flow π} (h : s.hid.bus = .answered q (.bytes b)) :
    onRead s err ok = ok b s.busQuiet := by
  simp only [onRead, h]

theorem onRead_err {k : BusKind} {ok : List Byte → State → Flow π} (h : s.hid.bus = .answered q (.err k)) :
    onRead s err ok = err k s.busQuiet := by
  simp only [onRead, h]

theorem onWrite_ok_eq {ok : State → Flow π} (h : s.hid.bus = .answered q .ok) : onWrite s err ok = ok s.busQuiet := by
  simp only [onWrite, h]

theorem onWrite_err {k : BusKind} {ok : State → Flow π} (h : s.hid.bus = .answered q (.err k)) :
    onWrite s err ok = err k s.busQuiet := by
  simp only [onWrite, h]

end

/-! ### RUN's own steps (R340 43_acquisition.md) -/

/-- P_MAX_WINDOW is the largest 16-bit number, so only a window of 0 is rejected (R317 43_acquisition.md). -/
theorem badWindow_iff (n : BitVec 16) : badWindow n = true ↔ n = 0 := by
  have h : ¬Config.maxWindow < n.toNat := by rw [Config.maxWindow]; omega
  simp [badWindow, h]

theorem exec_run_badWindow (h : s.ready .start) (hw : s.ctl.window = 0) :
    exec .run s = .next (takeError true .invalidWindow 0 none s) := by
  rw [exec_run_start h, runStart]
  simp only [State.enter_ctl, (badWindow_iff _).2 hw, if_true]
  rfl

/-- RUN's first step with a window that is accepted: the latches of R341 (43_acquisition.md), and the first body. -/
theorem exec_run_latches (h : s.ready .start) (hw : s.ctl.window ≠ 0) : exec .run s = .next { s with
    status := { s.status with fsm := .configuring }
    agg := { s.agg with sampleIdx := 0 }
    hid := { s.hid with
      lN := s.ctl.window, lSdelay := s.ctl.sampleDelay, lSettle := s.ctl.settle, lBudget := s.ctl.pollBudget
      pos := ⟨if s.status.calValid = true then .os .readHum else .cal .invalidate, s.hid.pos.sample⟩ } } := by
  have hbad : badWindow s.ctl.window = false := by simpa using mt (badWindow_iff _).1 hw
  rw [exec_run_start h, runStart]
  cases hc : s.status.calValid <;> simp only [State.enter_ctl, State.enter_status, hbad, hc, Bool.false_eq_true, if_false,
    if_true] <;> rfl

/-- The last read of RUN's LOADCAL body (R205 40_calibration.md). -/
theorem exec_run_got3 {q : BusReq} {b1 b2 b3 : List Byte} (h : s.ready (.cal (.got3 b1 b2)))
    (hb : s.hid.bus = .answered q (.bytes b3)) : exec .run s = .next { s with
      cal := Cal.assemble b1 b2 b3
      status := { s.status with calValid := true }
      hid := { s.hid with bus := .quiet, pos := ⟨.os .readHum, s.hid.pos.sample⟩ } } := by
  rw [exec_run_cal h, calStep, onRead_bytes hb]
  rfl

/-- An abort point with no ABORT pending, and the load of a wait. -/
theorem finishInRun_loadWait (ha : s.status.abortPend = false) (k : WaitFor) (ms : BitVec 16) :
    finishInRun id id s (loadWait k ms s) = .next ((s.loadDelay ms).goto (.wait k .top)) := by
  rw [loadWait, abortPoint_go ha]
  rfl

theorem exec_run_waitOver {k : WaitFor} (hk : k ≠ .command) (h : s.ready (.wait k .top)) (hd : s.hid.dlyCnt = 0) :
    exec .run s = .next (afterWait k s) := by
  rw [exec_run_wait hk h, waitStep, if_pos hd]
  rfl

end

/-- Settles O54: RUN's first step, the end of its calibration load, and the load and end of each wait, position by
position. -/
theorem runStartsAndEnds : Obligations.RunStartsAndEnds := by
  intro s
  refine ⟨exec_run_badWindow, exec_run_latches, fun _ _ _ _ => exec_run_got3, ?_, ?_, exec_run_waitOver (k := .final2) nofun⟩
  · simp only [List.forall_mem_cons]
    refine ⟨fun h ha => ?_, fun h ha => ?_, fun h ha => ?_, fun h ha => ?_, by simp⟩ <;>
    · rw [exec_run_run h, runStep, finishInRun_loadWait ha]
      rfl
  · simp only [List.forall_mem_cons]
    exact ⟨exec_run_waitOver (k := .delay) nofun, exec_run_waitOver (k := .settle) nofun,
      exec_run_waitOver (k := .final1) nofun, by simp⟩

/-! ### What ends a command and its run -/

/-- The error of a bus error of kind `k` outside LOADCAL and READRAW (R401 60_exceptions.md). -/
def busErrorCode : BusKind → ErrCode
  | .timeout => .busTimeout
  | .nack => .busNack

theorem raiseBus_eq {π : Type} (a : Byte) (k : BusKind) (s : State) :
    (raiseBus a k s : Flow π) = .raise (busErrorCode k) a (some k) s := by
  cases k <;> rfl

section

variable {π : Type} {s : State} {q : BusReq} {k : BusKind} {a : Byte}

theorem onRead_busError {ok : List Byte → State → Flow π} (hb : s.hid.bus = .answered q (.err k)) :
    onRead s (raiseBus a) ok = .raise (busErrorCode k) a (some k) s.busQuiet := by
  rw [onRead_err hb, raiseBus_eq]

theorem onWrite_busError {ok : State → Flow π} (hb : s.hid.bus = .answered q (.err k)) :
    onWrite s (raiseBus a) ok = .raise (busErrorCode k) a (some k) s.busQuiet := by
  rw [onWrite_err hb, raiseBus_eq]

theorem onRead_calError {ok : List Byte → State → Flow π} (hb : s.hid.bus = .answered q (.err k)) :
    onRead s (raiseCal a) ok = .raise .calUnavailable a (some k) s.busQuiet := by
  rw [onRead_err hb, raiseCal]

/-- A raise of a body's step ends the command, and the RUN that is in the same body. -/
theorem ends_of_raise {i : Instr} {t : State} {here : π → Point} {after : State → State} {f g : Flow π} {e : ErrCode}
    {x : Option BusKind} (hc : exec i s = finish here s f) (hr : exec .run s = finishInRun here after s g)
    (hf : f = .raise e a x t) (hg : g = .raise e a x t) :
    exec i s = .next (takeError false e a x t) ∧ exec .run s = .next (takeError true e a x t) := by
  rw [hc, hr, hf, hg]
  exact ⟨rfl, rfl⟩

end

section

variable {s : State} {q : BusReq} {k : BusKind} (hb : s.hid.bus = .answered q (.err k))
include hb

theorem osStep_busError :
    osStep .gotHum s = .raise (busErrorCode k) 0x72 (some k) s.busQuiet ∧
    osStep .wroteHum s = .raise (busErrorCode k) 0x72 (some k) s.busQuiet ∧
    osStep .gotMeas s = .raise (busErrorCode k) 0x74 (some k) s.busQuiet ∧
    osStep .wroteMeas s = .raise (busErrorCode k) 0x74 (some k) s.busQuiet := by
  simp only [osStep, onRead_busError hb, onWrite_busError hb, and_self]

theorem htrStep_busError (r : Byte) :
    htrStep (.wroteDur r) s = .raise (busErrorCode k) 0x64 (some k) s.busQuiet ∧
    htrStep .wroteRes s = .raise (busErrorCode k) 0x5A (some k) s.busQuiet ∧
    htrStep .wroteCtrl s = .raise (busErrorCode k) 0x71 (some k) s.busQuiet := by
  simp only [htrStep, onWrite_busError hb, and_self]

theorem trigStep_busError :
    (∀ n, trigStep n .gotMode s = .raise (busErrorCode k) 0x74 (some k) s.busQuiet) ∧
    (∀ n, trigStep n .wroteSleep s = .raise (busErrorCode k) 0x74 (some k) s.busQuiet) ∧
    ∀ n, trigStep n .wroteForce s = .raise (busErrorCode k) 0x74 (some k) s.busQuiet := by
  simp only [trigStep, onRead_busError hb, onWrite_busError hb, and_self, implies_true]

theorem calStep_busError (b1 b2 : List Byte) :
    calStep .got1 s = .raise .calUnavailable 0x8A (some k) s.busQuiet ∧
    calStep (.got2 b1) s = .raise .calUnavailable 0xE1 (some k) s.busQuiet ∧
    calStep (.got3 b1 b2) s = .raise .calUnavailable 0x00 (some k) s.busQuiet := by
  simp only [calStep, onRead_calError hb, and_self]

end

/-- A read of ctrl_meas that shows no sleep when the poll budget is spent (R250, R251 41_configurator.md). -/
theorem trigStep_pollTimeout {s : State} {q : BusReq} {x : Byte} {n : BitVec 16} (hb : s.hid.bus = .answered q (.bytes [x]))
    (hm : modeBits x ≠ 0) (hn : n ≠ 0) (hc : s.hid.pollCnt = n) : trigStep n .gotMode s =
      .raise .pollTimeout 0x74 none { s with hid := { s.hid with bus := .quiet, modeByte := x } } := by
  rw [trigStep, onRead_bytes hb]
  exact (if_neg hm).trans (if_pos ⟨hn, hc⟩)

theorem aggfinBody_noValidSamples {π : Type} {s : State} (hn : s.agg.nAgg ≠ 0) (hv : s.agg.validCnt = 0) :
    (aggfinBody s : Flow π) = .raise .noValidSamples 0 none s := by
  rw [aggfinBody, if_neg hn, if_pos hv]

/-- Settles O32: at each position the body's step raises, and a raise ends the command and the run. -/
theorem busErrorsEndTheCommand : Obligations.BusErrorsEndTheCommand := by
  intro s q s'
  refine ⟨fun k r p hp h hb => ?_, fun k b1 b2 p hp h hb => ?_, fun x h hb hm hn hc => ?_, fun h hn hv => ?_,
    fun _ _ _ => rfl⟩
  · obtain ⟨gotHum, wroteHum, gotMeas, wroteMeas⟩ := osStep_busError hb
    obtain ⟨wroteDur, wroteRes, wroteCtrl⟩ := htrStep_busError hb r
    obtain ⟨gotMode, wroteSleep, wroteForce⟩ := trigStep_busError hb
    revert p
    simp only [List.forall_mem_cons]
    cases k
    all_goals
      exact ⟨fun h => ends_of_raise (exec_cfgos_os h) (exec_run_os h) gotHum gotHum,
        fun h => ends_of_raise (exec_cfgos_os h) (exec_run_os h) wroteHum wroteHum,
        fun h => ends_of_raise (exec_cfgos_os h) (exec_run_os h) gotMeas gotMeas,
        fun h => ends_of_raise (exec_cfgos_os h) (exec_run_os h) wroteMeas wroteMeas,
        fun h => ends_of_raise (exec_cfghtr_htr h) (exec_run_htr h) wroteDur wroteDur,
        fun h => ends_of_raise (exec_cfghtr_htr h) (exec_run_htr h) wroteRes wroteRes,
        fun h => ends_of_raise (exec_cfghtr_htr h) (exec_run_htr h) wroteCtrl wroteCtrl,
        fun h => ends_of_raise (exec_trig_trig h) (exec_run_trig h) (gotMode _) (gotMode _),
        fun h => ends_of_raise (exec_trig_trig h) (exec_run_trig h) (wroteSleep _) (wroteSleep _),
        fun h => ends_of_raise (exec_trig_trig h) (exec_run_trig h) (wroteForce _) (wroteForce _), by simp⟩
  · obtain ⟨got1, got2, got3⟩ := calStep_busError hb b1 b2
    revert p
    simp only [List.forall_mem_cons]
    exact ⟨fun h => ends_of_raise (exec_loadcal_cal h) (exec_run_cal h) got1 got1,
      fun h => ends_of_raise (exec_loadcal_cal h) (exec_run_cal h) got2 got2,
      fun h => ends_of_raise (exec_loadcal_cal h) (exec_run_cal h) got3 got3, by simp⟩
  · rw [exec_run_trig h, trigStep_pollTimeout hb hm hn hc]
    rfl
  · rw [exec_run_run h, runStep, aggfinBody_noValidSamples hn hv]
    rfl

end Sys2Proof.Machine
end

section
/-! PROOFS. The calibration fields as numbers of their bytes (O28). -/

namespace Sys2Proof.Machine

/-- A two's complement pattern's value from its unsigned one (R15 00_scope.md). -/
theorem toInt_eq_sext {n : Nat} (x : BitVec (n + 1)) : x.toInt = sext (n + 1) x.toNat := by
  have half : 2 * x.toNat < 2 ^ (n + 1) ↔ x.toNat < 2 ^ n := by rw [pow_succ]; omega
  simp only [BitVec.toInt_eq_toNat_cond, sext, Nat.add_sub_cancel, half]
  push_cast
  rfl

/-- Two fields side by side, as numbers. -/
theorem toNat_append_eq {m n : Nat} (x : BitVec m) (y : BitVec n) : (x ++ y).toNat = x.toNat * 2 ^ n + y.toNat := by
  rw [BitVec.toNat_append, ← Nat.shiftLeft_add_eq_or_of_lt y.isLt, Nat.shiftLeft_eq]

/-- A 16-bit field's bytes, least significant first (R113 20_memory.md). -/
theorem toNat_le16 (b : List Byte) (i : Nat) : (le16 b i).toNat = (b.getD (i + 1) 0).toNat * 256 + (b.getD i 0).toNat :=
  toNat_append_eq ..

/-- A 12-bit humidity field: a byte above the low nibble of another (R203 40_calibration.md). -/
theorem toNat_append_lowNibble (x y : Byte) : (x ++ y.extractLsb' 0 4).toNat = x.toNat * 16 + y.toNat % 16 := by
  rw [toNat_append_eq, BitVec.extractLsb'_toNat, Nat.shiftRight_zero]
  rfl

/-- A 12-bit humidity field: a byte above the high nibble of another (R203 40_calibration.md). -/
theorem toNat_append_highNibble (x y : Byte) : (x ++ y.extractLsb' 4 4).toNat = x.toNat * 16 + y.toNat / 16 := by
  have hy : y.toNat < 256 := y.isLt
  rw [toNat_append_eq, BitVec.extractLsb'_toNat, Nat.shiftRight_eq_div_pow]
  omega

/-- Bits 5:4 of a byte. -/
theorem toNat_bits5_4 (x : Byte) : (x.extractLsb' 4 2).toNat = x.toNat / 16 % 4 := by
  rw [BitVec.extractLsb'_toNat, Nat.shiftRight_eq_div_pow]

/-- Settles O28: each of the 25 fields is a byte, a pair of bytes, or bits of a byte. -/
theorem calibrationFieldsFromBytes : Obligations.CalibrationFieldsFromBytes := by
  intro b1 b2 b3 _ _ _ c u pair
  have pair16 (b : List Byte) (i : Nat) : (le16 b i).toInt = sext 16 (pair b i) := by
    rw [toInt_eq_sext, toNat_le16]
  have byte (b : List Byte) (i : Nat) : (byteAt b i).toInt = sext 8 (u b i) := toInt_eq_sext _
  exact ⟨toNat_le16 .., pair16 .., byte .., toNat_le16 .., pair16 .., byte .., pair16 .., pair16 .., byte .., byte ..,
    pair16 .., pair16 .., rfl, toNat_append_lowNibble .., toNat_append_highNibble .., byte .., byte .., byte .., rfl,
    byte .., byte .., pair16 .., byte .., toNat_bits5_4 _, byte ..⟩

end Sys2Proof.Machine
end

section
/-! PROOFS. Playing a schedule of events in pieces, the piece of one sensor transaction, and LOADCAL as four such pieces
(O29, O30). -/

namespace Sys2Proof.Machine

/-! ### Schedules in pieces -/

/-- The events `es` lead from `s` to `t`, whatever events come after them. -/
def Leads (es : List Event) (s t : State) : Prop := ∀ fs, play (es ++ fs) s = play fs t

/-- The event `e` leads from `s` to `t`, whatever events come after it. -/
def Does (e : Event) (s t : State) : Prop := ∀ fs, eventStep e (s.facing fs) = .next (t.facing fs)

theorem Leads.nil (s : State) : Leads [] s s := fun _ => rfl

theorem Leads.append {es fs : List Event} {s t u : State} (h : Leads es s t) (h' : Leads fs t u) :
    Leads (es ++ fs) s u := fun gs => by
  rw [List.append_assoc, h, h']

theorem Leads.cons {e : Event} {es : List Event} {s t u : State} (h : Does e s t) (h' : Leads es t u) :
    Leads (e :: es) s u := fun fs => by
  rw [List.cons_append, play_cons (h _) rfl]
  exact h' fs

theorem Leads.one {e : Event} {s t : State} (h : Does e s t) : Leads [e] s t := .cons h (.nil t)

theorem Leads.play {es : List Event} {s t : State} (h : Leads es s t) : play es s = .next (t.facing []) := by
  have := h []
  rwa [List.append_nil] at this

/-! ### The engine's turn and the answer of the bus -/

/-- Command `i` executes, its next step is at `p`, and neither the sink nor an ABORT is in its way. -/
structure Active (i : Instr) (p : Point) (s : State) : Prop where
  busy : s.status.busy = true
  cmd : decode s.hid.cmdCur = .legal i
  ready : s.ready p
  abort : s.status.abortPend = false

/-- The state as it is with no transaction in flight, `tr` added to the bus trace and the engine at `p`. -/
def State.after (s : State) (tr : List BusTx) (p : Point) : State :=
  { s with
    hid := { s.hid with bus := .quiet, pos := ⟨p, s.hid.pos.sample⟩ }
    env := { s.env with trace := s.env.trace ++ tr } }

@[simp] theorem State.after_after (s : State) (tr tr' : List BusTx) (p q : Point) :
    (s.after tr p).after tr' q = s.after (tr ++ tr') q := by
  simp only [State.after, List.append_assoc]

theorem Active.after {i : Instr} {p q : Point} {s : State} (h : Active i p s) (tr : List BusTx) :
    Active i q (s.after tr q) := ⟨h.busy, h.cmd, ⟨rfl, h.ready.2⟩, h.abort⟩

section

variable {i : Instr} {p q : Point} {s t u : State} {r : BusReq} {resp : BusResp}

/-- The engine's turn while a command is active is the command's step. -/
theorem Active.does (h : Active i p s) (he : ∀ fs, exec i (s.facing fs) = .next (t.facing fs)) : Does .engine s t := by
  intro fs
  rw [eventStep, engineTurn, if_pos (show (s.facing fs).status.busy = true from h.busy),
    show decode (s.facing fs).hid.cmdCur = .legal i from h.cmd]
  exact he fs

/-- The state with the transaction `r` in flight answered. -/
def State.answeredBy (s : State) (r : BusReq) (resp : BusResp) : State :=
  { s with
    hid := { s.hid with bus := .answered r resp }
    env := { s.env with trace := s.env.trace ++ [⟨r, some resp⟩] } }

/-- The bus answers the transaction in flight by its number. -/
theorem does_bus (hb : s.hid.bus = .inFlight r) (hf : resp.fits r = true) :
    Does (.bus s.env.trace.length resp) s (s.answeredBy r resp) := by
  intro fs
  rw [eventStep, busStep, show (s.facing fs).hid.bus = .inFlight r from hb]
  have hn : (s.env.trace.length == (s.facing fs).env.trace.length && resp.fits r) = true := by
    rw [hf, Bool.and_true]; exact beq_self_eq_true _
  exact congrArg Host.Outcome.next (if_pos hn)

/-- A whole transaction: its issue leads to `u`, and the use of its answer to `t`. -/
theorem Active.exchange {n : Nat} (h : Active i p s) (hu : Active i q u) (hb : u.hid.bus = .inFlight r)
    (htr : u.env.trace = s.env.trace) (hf : resp.fits r = true) (hn : n = s.env.trace.length)
    (issue : ∀ fs, exec i (s.facing fs) = .next (u.facing fs))
    (use : ∀ fs, exec i ((u.answeredBy r resp).facing fs) = .next (t.facing fs)) : Leads (exchange n resp) s t := by
  have hbus := does_bus hb hf
  rw [htr, ← hn] at hbus
  have hanswered : Active i q (u.answeredBy r resp) := ⟨hu.busy, hu.cmd, hu.ready, hu.abort⟩
  exact .cons (h.does issue) (.cons hbus (.one (hanswered.does use)))

/-- Command `i` takes the steps of a body: where one goes on, the command does. -/
def RunsBody {π : Type} (i : Instr) (here : π → Point) (body : π → State → Flow π) : Prop :=
  ∀ (s t : State) (p q : π), s.ready (here p) → body p s = .goto q t → exec i s = .next (t.goto (here q))

section

variable {π : Type} {here : π → Point} {body : π → State → Flow π} {a b c : π} {n : Nat}

/-- `g` neither reads nor changes the events to come. -/
def Blind (g : State → State) : Prop := ∀ x fs, g (x.facing fs) = (g x).facing fs

/-- A transaction of a body whose answer the command uses as `g` says. -/
theorem RunsBody.exchange_use {g : State → State} (hi : RunsBody i here body) (h : Active i (here a) s)
    (hn : n = s.env.trace.length) (hf : resp.fits r = true) (hg : Blind g)
    (issue : ∀ x : State, body a x = issueAt r b x)
    (use : ∀ x : State, x.ready (here b) → x.hid.bus = .answered r resp → exec i x = .next (g x)) :
    Leads (Sys2Proof.Machine.exchange n resp) s (g (((s.issue r).goto (here b)).answeredBy r resp)) := by
  have ready : ((s.issue r).goto (here b)).ready (here b) := ⟨rfl, h.ready.2⟩
  have active : Active i (here b) ((s.issue r).goto (here b)) := ⟨h.busy, h.cmd, ready, h.abort⟩
  refine h.exchange active rfl rfl hf hn (fun fs => ?_) fun fs => ?_
  · exact hi (s.facing fs) ((s.issue r).facing fs) a b h.ready ((issue _).trans (issueAt_go (s := s.facing fs) h.abort r b))
  · rw [← hg]
    exact use _ ready rfl

/-- Going on with an answer leaves the transaction in the trace, and nothing in flight. -/
theorem answeredBy_busQuiet_goto (s : State) (r : BusReq) (resp : BusResp) (p q : Point) :
    (((s.issue r).goto p).answeredBy r resp).busQuiet.goto q = s.after [⟨r, some resp⟩] q := rfl

/-- A transaction of a body that goes on with its answer. -/
theorem RunsBody.exchange (hi : RunsBody i here body) (h : Active i (here a) s) (hn : n = s.env.trace.length)
    (hf : resp.fits r = true) (issue : ∀ x : State, body a x = issueAt r b x)
    (use : ∀ x : State, x.hid.bus = .answered r resp → body b x = .goto c x.busQuiet) :
    Leads (Sys2Proof.Machine.exchange n resp) s (s.after [⟨r, some resp⟩] (here c)) := by
  rw [← answeredBy_busQuiet_goto s r resp (here b)]
  exact hi.exchange_use (g := fun x => x.busQuiet.goto (here c)) h hn hf (fun _ _ => rfl) issue
    fun x hx hb => hi x x.busQuiet b c hx (use x hb)

end

end

/-! ### The host's command -/

/-- The host writes command `i` to CMD between commands: acceptance, and an entry in HOST_LOG (R40 10_state.md). -/
theorem does_cmdWrite {s : State} {i : Instr} (hb : s.status.busy = false) (hi : decode (encode i) = .legal i) :
    Does (.host (cmdWrite i)) s ((accept (encode i) s).answering (cmdWrite i) .done) := by
  intro fs
  rw [cmdWrite, eventStep_writeCmd, writeCmd_legal (s := s.facing fs) hb hi]
  rfl

/-- The accepted command is active at its first step. -/
theorem active_accept {s : State} {i : Instr} (ho : s.hid.outPend = none) (hi : decode (encode i) = .legal i)
    (a : HostAccess) (v : HostAnswer) : Active i .start ((accept (encode i) s).answering a v) :=
  ⟨rfl, hi, ⟨rfl, ho⟩, rfl⟩

/-- A state with no transaction in flight is not changed by ending one. -/
theorem busQuiet_of_quiet {s : State} (h : s.hid.bus = .quiet) : s.busQuiet = s := by
  rw [State.busQuiet, ← h]

/-! ### LOADCAL (R205 40_calibration.md) -/

/-- CAL_VALID and TF_VALID fall: the first step of the LOADCAL body (R204 40_calibration.md). -/
def State.invalidated (s : State) : State := { s with status := { s.status with calValid := false, tfValid := false } }

section

variable {s : State} {b1 b2 b3 : List Byte} {q : BusReq} {k : BusKind}

/-- LOADCAL's first step. -/
theorem exec_loadcal_invalidate (h : s.ready .start) :
    exec .loadcal s = .next (s.invalidated.goto (.cal .read1)) := by
  rw [exec_loadcal_start h, calStep]
  rfl

/-- The use of the answer to LOADCAL's third read: the 25 fields and CAL_VALID (R205 40_calibration.md). -/
def State.calibrated (s : State) (c : Cal) : State :=
  { s with cal := c, status := { s.status with calValid := true }, hid := { s.hid with bus := .quiet } }

/-- LOADCAL's last step. -/
theorem exec_loadcal_got3 (h : s.ready (.cal (.got3 b1 b2))) (hb : s.hid.bus = .answered q (.bytes b3)) :
    exec .loadcal s = .next (complete (s.calibrated (Cal.assemble b1 b2 b3))) := by
  rw [exec_loadcal_cal h, calStep, onRead_bytes hb]
  rfl

/-- A bus error of one of LOADCAL's reads (R206 40_calibration.md). -/
theorem exec_loadcal_busError {p : CalPt} {a : Byte} (h : s.ready (.cal p))
    (hf : calStep p s = .raise .calUnavailable a (some k) s.busQuiet) :
    exec .loadcal s = .next (takeError false .calUnavailable a (some k) s.busQuiet) := by
  rw [exec_loadcal_cal h, hf]
  rfl

theorem runsBody_loadcal : RunsBody .loadcal .cal calStep := fun s t p q h hf => by
  rw [exec_loadcal_cal h, hf]
  rfl

end

/-- The trace entry of a burst read answered with bytes (R127 20_memory.md). -/
abbrev readTx (a : Byte) (n : Nat) (b : List Byte) : BusTx := ⟨.read a n, some (.bytes b)⟩

/-! The reads of the LOADCAL body, in LOADCAL or in RUN. -/

section

variable {i : Instr} {s : State} {b1 b2 b3 : List Byte} {n : Nat} (hi : RunsBody i .cal calStep)
include hi

theorem leads_read1 (h : Active i (.cal .read1) s) (hn : n = s.env.trace.length) (h1 : b1.length = 23) :
    Leads (exchange n (.bytes b1)) s (s.after [readTx 0x8A 23 b1] (.cal (.read2 b1))) :=
  hi.exchange h hn (by simpa [BusResp.fits] using h1) (fun _ => rfl) fun _ hb => by rw [calStep, onRead_bytes hb]

/-- The first two reads. -/
theorem leads_read1_read2 (h : Active i (.cal .read1) s) (hn : n = s.env.trace.length) (h1 : b1.length = 23)
    (h2 : b2.length = 14) : Leads (exchange n (.bytes b1) ++ exchange (n + 1) (.bytes b2)) s
      (s.after [readTx 0x8A 23 b1, readTx 0xE1 14 b2] (.cal (.read3 b1 b2))) := by
  have second := hi.exchange (a := .read2 b1) (b := .got2 b1) (c := .read3 b1 b2) (n := n + 1) (resp := .bytes b2)
    (h.after [readTx 0x8A 23 b1]) (by simp [State.after, hn]) (by simpa [BusResp.fits] using h2) (fun _ => rfl)
    fun _ hb => by rw [calStep, onRead_bytes hb]
  have both := (leads_read1 hi h hn h1).append second
  rwa [State.after_after] at both

/-- All three reads; the answer to the third is the calibration file, and the command goes on as `g` says. -/
theorem leads_cal_reads {g : State → State} (h : Active i (.cal .read1) s) (hn : n = s.env.trace.length)
    (h1 : b1.length = 23) (h2 : b2.length = 14) (h3 : b3.length = 3) (hg : Blind g)
    (use : ∀ x : State, x.ready (.cal (.got3 b1 b2)) → x.hid.bus = .answered (.read 0x00 3) (.bytes b3) →
      exec i x = .next (g (x.calibrated (Cal.assemble b1 b2 b3)))) :
    Leads (exchange n (.bytes b1) ++ exchange (n + 1) (.bytes b2) ++ exchange (n + 2) (.bytes b3)) s
      (g ((s.after [readTx 0x8A 23 b1, readTx 0xE1 14 b2, readTx 0x00 3 b3] (.cal (.got3 b1 b2))).calibrated
        (Cal.assemble b1 b2 b3))) := by
  have third := hi.exchange_use (a := .read3 b1 b2) (b := .got3 b1 b2) (n := n + 2)
    (g := fun x => g (x.calibrated (Cal.assemble b1 b2 b3))) (h.after [readTx 0x8A 23 b1, readTx 0xE1 14 b2])
    (by simp [State.after, hn]) (by simpa [BusResp.fits] using h3) (fun x => hg (x.calibrated _)) (fun _ => rfl) use
  have after3 := State.after_after s [readTx 0x8A 23 b1, readTx 0xE1 14 b2] [readTx 0x00 3 b3] (.cal (.read3 b1 b2))
    (.cal (.got3 b1 b2))
  rw [show [readTx 0x8A 23 b1, readTx 0xE1 14 b2, readTx 0x00 3 b3] =
    [readTx 0x8A 23 b1, readTx 0xE1 14 b2] ++ [readTx 0x00 3 b3] from rfl, ← after3]
  exact (leads_read1_read2 hi h hn h1 h2).append third

end

/-- LOADCAL is accepted and invalidates: its reads are still to come. -/
theorem leads_loadcal_accepted {s : State} (h : s.free) :
    let t := ((accept (encode .loadcal) s).answering (cmdWrite .loadcal) .done).invalidated.goto (.cal .read1)
    Leads (command .loadcal [.engine]) s t ∧ Active .loadcal (.cal .read1) t := by
  obtain ⟨hb, -, ho⟩ := h
  have hi : decode (encode .loadcal) = .legal .loadcal := by decide
  have ha := active_accept ho hi (cmdWrite .loadcal) .done
  exact ⟨.cons (does_cmdWrite hb hi) (.one (ha.does fun fs => exec_loadcal_invalidate ha.ready)),
    ⟨rfl, hi, ⟨rfl, ho⟩, rfl⟩⟩

/-- Settles O29: LOADCAL's first step, its last one, and between them one transaction after another. -/
theorem loadcalReadsThreeBlocks : Obligations.LoadcalReadsThreeBlocks := by
  intro s b1 b2 b3 h1 h2 h3
  refine ⟨exec_loadcal_invalidate, fun q => exec_loadcal_got3, fun hfree => ?_⟩
  obtain ⟨accepted, active⟩ := leads_loadcal_accepted hfree
  have reads := leads_cal_reads runsBody_loadcal active rfl h1 h2 h3 (fun _ _ => rfl) fun _ => exec_loadcal_got3
  refine (accepted.append reads).play.trans (congrArg _ ?_)
  rw [← busQuiet_of_quiet hfree.2.1]
  rfl

/-- A read of LOADCAL that the bus answers with an error is its last transaction (R206 40_calibration.md). -/
theorem leads_loadcal_fails {s : State} {p q : CalPt} {r : BusReq} {a : Byte} {k : BusKind} {n : Nat}
    (h : Active .loadcal (.cal p) s) (hn : n = s.env.trace.length) (issue : ∀ x : State, calStep p x = issueAt r q x)
    (fails : ∀ x : State, x.hid.bus = .answered r (.err k) →
      calStep q x = .raise .calUnavailable a (some k) x.busQuiet) :
    Leads (exchange n (.err k)) s
      (takeError false .calUnavailable a (some k) (s.after [⟨r, some (.err k)⟩] (.cal q))) :=
  runsBody_loadcal.exchange_use (g := fun x => takeError false .calUnavailable a (some k) x.busQuiet) h hn
    (by cases r <;> rfl) (fun _ _ => rfl) issue fun x hx hb => exec_loadcal_busError hx (fails x hb)

/-- Settles O30: the transactions before the one that fails, and that one. -/
theorem loadcalFailure : Obligations.LoadcalFailure := by
  intro s b1 b2 k hfree h1 h2
  obtain ⟨accepted, active⟩ := leads_loadcal_accepted hfree
  have read1 := leads_read1 runsBody_loadcal active rfl h1
  have read2 := leads_read1_read2 runsBody_loadcal active rfl h1 h2
  have fail1 := leads_loadcal_fails (p := .read1) (k := k) active rfl (fun _ => rfl) fun _ hb => by
    rw [calStep, onRead_calError hb]
  have fail2 := leads_loadcal_fails (p := .read2 b1) (k := k) (n := s.env.trace.length + 1)
    (active.after [readTx 0x8A 23 b1]) (by simp [State.after]; rfl) (fun _ => rfl)
    fun _ hb => by
    rw [calStep, onRead_calError hb]
  have fail3 := leads_loadcal_fails (p := .read3 b1 b2) (k := k) (n := s.env.trace.length + 2)
    (active.after [readTx 0x8A 23 b1, readTx 0xE1 14 b2]) (by simp [State.after]; rfl) (fun _ => rfl) fun _ hb => by
    rw [calStep, onRead_calError hb]
  rw [State.after_after] at fail2 fail3
  have quiet := busQuiet_of_quiet hfree.2.1
  refine ⟨(accepted.append fail1).play.trans ?_, ((accepted.append read1).append fail2).play.trans ?_,
    ((accepted.append read2).append fail3).play.trans ?_⟩ <;>
  · rw [← quiet]
    rfl

end Sys2Proof.Machine
end

section
/-! PROOFS. What every step does to the calibration file and CAL_VALID (O23). -/

namespace Sys2Proof.Machine

/-! ### The bodies -/

/-- The calibration file is the same, and CAL_VALID is not set anew. -/
def CalKept (s t : State) : Prop := t.cal = s.cal ∧ (t.status.calValid = true → s.status.calValid = true)

/-- The step keeps the calibration, however it goes on. -/
def Flow.KeepsCal {π : Type} (s : State) : Flow π → Prop
  | .goto _ t | .done t | .raise _ _ _ t => CalKept s t
  | .hold => True

theorem CalKept.refl (s : State) : CalKept s s := ⟨rfl, id⟩

theorem CalKept.trans {s t u : State} (h : CalKept s t) (h' : CalKept t u) : CalKept s u :=
  ⟨h'.1.trans h.1, h.2 ∘ h'.2⟩

section

variable {π : Type} {s : State}

theorem abortPoint_keepsCal {go : Flow π} (h : go.KeepsCal s) : (abortPoint s go).KeepsCal s := by
  rcases abortPoint_cases s go with ⟨-, e⟩ | ⟨-, e⟩ <;> rw [e]
  exacts [.refl s, h]

theorem issueAt_keepsCal (r : BusReq) (p : π) : (issueAt r p s).KeepsCal s := abortPoint_keepsCal (.refl s)

theorem onRead_keepsCal {err : BusKind → State → Flow π} {ok : List Byte → State → Flow π}
    (he : ∀ k, (err k s.busQuiet).KeepsCal s) (ho : ∀ b, (ok b s.busQuiet).KeepsCal s) :
    (onRead s err ok).KeepsCal s := by
  rcases onRead_cases s err ok with ⟨q, b, -, e⟩ | ⟨q, k, -, e⟩ | e <;> rw [e]
  exacts [ho b, he k, trivial]

theorem onWrite_keepsCal {err : BusKind → State → Flow π} {ok : State → Flow π}
    (he : ∀ k, (err k s.busQuiet).KeepsCal s) (ho : (ok s.busQuiet).KeepsCal s) : (onWrite s err ok).KeepsCal s := by
  rcases onWrite_cases s err ok with ⟨q, -, e⟩ | ⟨q, k, -, e⟩ | e <;> rw [e]
  exacts [ho, he k, trivial]

theorem needCal_keepsCal {go : Flow π} (h : go.KeepsCal s) : (needCal s go).KeepsCal s := by
  rcases needCal_cases s go with ⟨-, e⟩ | ⟨-, e⟩ <;> rw [e]
  exacts [h, .refl s]

theorem needTfine_keepsCal {go : Flow π} (h : go.KeepsCal s) : (needTfine s go).KeepsCal s := by
  rcases needTfine_cases s go with ⟨-, e⟩ | ⟨-, e⟩ <;> rw [e]
  exacts [h, .refl s]

theorem andThen_goto_keepsCal {f : Flow π} {p : π} (h : f.KeepsCal s) : (f.andThen (.goto p)).KeepsCal s := by
  cases f <;> exact h

theorem osStep_keepsCal (p : OsPt) : (osStep p s).KeepsCal s := by
  cases p
  case gotHum | gotMeas =>
    simp only [osStep]
    exact onRead_keepsCal (fun _ => .refl s) fun _ => .refl s
  case wroteHum | wroteMeas =>
    simp only [osStep]
    exact onWrite_keepsCal (fun _ => .refl s) (.refl s)
  all_goals exact issueAt_keepsCal ..

theorem htrStep_keepsCal (p : HtrPt) : (htrStep p s).KeepsCal s := by
  cases p
  case compute =>
    refine needCal_keepsCal ?_
    dsimp only
    split <;> exact .refl s
  case wroteDur | wroteRes | wroteCtrl =>
    simp only [htrStep]
    exact onWrite_keepsCal (fun _ => .refl s) (.refl s)
  all_goals exact issueAt_keepsCal ..

theorem waitStep_keepsCal (p : WaitPt) : (waitStep p s).KeepsCal s := by
  rcases waitStep_cases p s with ⟨-, -, e⟩ | ⟨-, -, -, e⟩ | ⟨-, -, -, e⟩ | ⟨-, e⟩ <;> rw [e]
  exacts [.refl s, .refl s, .refl s, trivial]

theorem trigStep_keepsCal (n : BitVec 16) (p : TrigPt) : (trigStep n p s).KeepsCal s := by
  cases p
  case clear => exact .refl s
  case gotMode =>
    simp only [trigStep]
    refine onRead_keepsCal (fun _ => .refl s) fun _ => ?_
    unfold trigDecide
    split
    · exact .refl s
    · split <;> exact .refl s
  case wroteSleep | wroteForce =>
    simp only [trigStep]
    exact onWrite_keepsCal (fun _ => .refl s) (.refl s)
  case poll w =>
    have h := waitStep_keepsCal (s := s) w
    simp only [trigStep]
    cases hw : waitStep w s <;> rw [hw] at h <;> exact h
  all_goals exact abortPoint_keepsCal (.refl s)

theorem rawStep_keepsCal (p : RawPt) : (rawStep p s).KeepsCal s := by
  cases p
  case read => exact issueAt_keepsCal ..
  case got =>
    simp only [rawStep]
    exact onRead_keepsCal (fun _ => .refl s) fun _ => .refl s

theorem rhcodeBody_keepsCal (temp : Nat) : (rhcodeBody temp s : Flow π).KeepsCal s := by
  refine needCal_keepsCal ?_
  split <;> exact .refl s

theorem comptBody_keepsCal : (comptBody s : Flow π).KeepsCal s := needCal_keepsCal (.refl s)

theorem comppBody_keepsCal : (comppBody s : Flow π).KeepsCal s := by
  refine needCal_keepsCal (needTfine_keepsCal ?_)
  split <;> exact .refl s

theorem comphBody_keepsCal : (comphBody s : Flow π).KeepsCal s := needCal_keepsCal (needTfine_keepsCal (.refl s))

theorem compStep_keepsCal (p : CompPt) : (compStep p s).KeepsCal s := by
  cases p
  exacts [andThen_goto_keepsCal comptBody_keepsCal, andThen_goto_keepsCal comppBody_keepsCal, comphBody_keepsCal]

theorem aggclrBody_keepsCal (n : BitVec 16) : (aggclrBody n s : Flow π).KeepsCal s := by
  unfold aggclrBody
  split <;> exact .refl s

theorem aggaccBody_keepsCal : (aggaccBody s : Flow π).KeepsCal s := by
  unfold aggaccBody
  split <;> exact .refl s

theorem aggfinBody_keepsCal : (aggfinBody s : Flow π).KeepsCal s := by
  unfold aggfinBody
  split
  · exact .refl s
  · split <;> exact .refl s

theorem loadWait_keepsCal (k : WaitFor) (ms : BitVec 16) : (loadWait k ms s).KeepsCal s := abortPoint_keepsCal (.refl s)

/-- The last step of a LOADCAL body: the state it has been taken in, and what it leaves (R205 40_calibration.md). -/
def Calibrates (s t : State) : Prop :=
  ∃ b1 b2 b3 q, s.hid.pos.point = .cal (.got3 b1 b2) ∧ s.hid.bus = .answered q (.bytes b3) ∧
    t.cal = Cal.assemble b1 b2 b3 ∧ t.status.calValid = true

/-- A step of the LOADCAL body keeps the calibration, or is its last one. -/
theorem calStep_keepsCal {p : CalPt} (hp : s.hid.pos.point = .cal p) :
    (calStep p s).KeepsCal s ∨ ∃ t, calStep p s = .done t ∧ Calibrates s t := by
  cases p
  case invalidate => exact .inl ⟨rfl, by simp⟩
  case got3 b1 b2 =>
    rcases onRead_cases s (raiseCal 0x00) fun b3 s' => (.done { s' with
      cal := Cal.assemble b1 b2 b3, status := { s'.status with calValid := true } } : Flow CalPt) with
      ⟨q, b3, hb, e⟩ | ⟨q, k, -, e⟩ | e <;> rw [calStep, e]
    · exact .inr ⟨_, rfl, b1, b2, b3, q, hp, hb, rfl, rfl⟩
    · exact .inl (.refl s)
    · exact .inl trivial
  case got1 | got2 =>
    simp only [calStep]
    exact .inl (onRead_keepsCal (fun _ => .refl s) fun _ => .refl s)
  all_goals exact .inl (issueAt_keepsCal ..)

end

/-! ### The commands -/

section

variable {π : Type} {s t : State} {here : π → Point} {after : State → State} {f : Flow π}

theorem finish_keepsCal (h : f.KeepsCal s) (e : finish here s f = .next t) : CalKept s t := by
  rcases finish_next e with ⟨p, s', rfl, rfl⟩ | ⟨s', rfl, rfl⟩ | ⟨_, _, _, s', rfl, rfl⟩ | ⟨rfl, rfl⟩
  exacts [h, h, h, .refl _]

theorem finishInRun_keepsCal (h : f.KeepsCal s) (e : finishInRun here after s f = .next t)
    (ha : ∀ s', CalKept s' (after s')) : CalKept s t := by
  rcases finishInRun_next e with ⟨p, s', rfl, rfl⟩ | ⟨s', rfl, rfl⟩ | ⟨_, _, _, s', rfl, rfl⟩ | ⟨rfl, rfl⟩
  exacts [h, .trans h (ha s'), h, .refl _]

theorem finishSample_keepsCal {own : ErrCode} (h : f.KeepsCal s) (e : finishSample own here after s f = .next t)
    (ha : ∀ s', CalKept s' (after s')) : CalKept s t := by
  rcases finishSample_next e with
    ⟨p, s', rfl, rfl⟩ | ⟨s', rfl, rfl⟩ | ⟨a, k, s', rfl, rfl⟩ | ⟨_, _, _, s', rfl, -, rfl⟩ | ⟨rfl, rfl⟩
  exacts [h, .trans h (ha s'), h, h, .refl _]

end

theorem enterLoop_calKept (i : Nat) (s : State) : CalKept s (enterLoop i s) := by
  unfold enterLoop
  split <;> exact .refl s

section

variable {s t : State}

theorem runStart_calKept (e : finishInRun id id s (runStart s) = .next t) : CalKept s t := by
  unfold runStart at e
  dsimp only at e
  split at e
  · cases e; exact .refl s
  · split at e <;> cases e <;> exact .refl s

theorem runStep_calKept {p : RunPt} (e : runStep p s = .next t) : CalKept s t := by
  cases p <;> simp only [runStep] at e
  case aggClr => exact finishInRun_keepsCal (aggclrBody_keepsCal _) e (enterLoop_calKept 0)
  case aggAcc => exact finishInRun_keepsCal aggaccBody_keepsCal e .refl
  case aggFin => exact finishInRun_keepsCal aggfinBody_keepsCal e .refl
  case sampleEnd => cases e; exact enterLoop_calKept ..
  case delayLoad | settleLoad | final1Load | final2Load => exact finishInRun_keepsCal (loadWait_keepsCal ..) e .refl
  all_goals cases e; exact .refl s

/-- A step of RUN keeps the calibration, or is the last step of its LOADCAL body. -/
theorem execRun_calibration (e : execRun s = .next t) : CalKept s t ∨ Calibrates s t := by
  rcases unlessOffering_next e with ⟨-, rfl⟩ | ⟨-, e⟩
  · exact .inl (.refl _)
  cases hp : s.hid.pos.point <;> simp only [hp] at e
  case noCommand => cases e
  case cal p =>
    rcases calStep_keepsCal hp with h | ⟨u, hu, h⟩
    · exact .inl (finishInRun_keepsCal h e .refl)
    · rw [hu] at e; cases e; exact .inr h
  case start => exact .inl (runStart_calKept e)
  case run => exact .inl (runStep_calKept e)
  case os p => exact .inl (finishInRun_keepsCal (osStep_keepsCal p) e .refl)
  case htr p => exact .inl (finishInRun_keepsCal (htrStep_keepsCal p) e .refl)
  case trig p => exact .inl (finishInRun_keepsCal (trigStep_keepsCal _ p) e .refl)
  case raw p => exact .inl (finishSample_keepsCal (rawStep_keepsCal p) e .refl)
  case comp p => exact .inl (finishSample_keepsCal (compStep_keepsCal p) e .refl)
  case wait k p =>
    cases k
    case command => cases e
    all_goals exact .inl (finishInRun_keepsCal (waitStep_keepsCal p) e .refl)

/-- A step of LOADCAL keeps the calibration, or is its last. -/
theorem execLoadcal_calibration (e : execLoadcal s = .next t) : CalKept s t ∨ Calibrates s t := by
  rcases unlessOffering_next e with ⟨-, rfl⟩ | ⟨-, e⟩
  · exact .inl (.refl _)
  cases hp : s.hid.pos.point <;> simp only [hp] at e
  case start => cases e; exact .inl ⟨rfl, by simp⟩
  case cal p =>
    rcases calStep_keepsCal hp with h | ⟨u, hu, h⟩
    · exact .inl (finish_keepsCal h e)
    · rw [hu] at e; cases e; exact .inr h
  all_goals cases e

/-- What a command's step does to the calibration: nothing, unless the command is LOADCAL or RUN, at the last step of the
LOADCAL body, or SRESET. -/
theorem exec_calibration {i : Instr} (e : exec i s = .next t) :
    CalKept s t ∨ i = .sreset ∨ ((i = .loadcal ∨ i = .run) ∧ Calibrates s t) := by
  have held {o : Result} {P : Prop} (e : unlessOffering s o = .next t) (h : o = .next t → CalKept s t) :
      CalKept s t ∨ P := by
    rcases unlessOffering_next e with ⟨-, rfl⟩ | ⟨-, e⟩
    exacts [.inl (.refl _), .inl (h e)]
  cases i
  case sreset => exact .inr (.inl rfl)
  case run => exact (execRun_calibration e).imp_right fun h => .inr ⟨.inr rfl, h⟩
  case loadcal => exact (execLoadcal_calibration e).imp_right fun h => .inr ⟨.inl rfl, h⟩
  all_goals
    refine held e fun e => ?_
    cases hp : s.hid.pos.point <;> simp only [hp] at e <;> try cases e
  case nop.start | abort.start | gwcode.start | wait.start | trig.start => exact .refl s
  case wait.wait k p =>
    cases k
    case command => exact finish_keepsCal (waitStep_keepsCal p) e
    all_goals cases e
  case cfgos.start | cfgos.os => exact finish_keepsCal (osStep_keepsCal _) e
  case cfghtr.start | cfghtr.htr => exact finish_keepsCal (htrStep_keepsCal _) e
  case trig.trig p => exact finish_keepsCal (trigStep_keepsCal _ p) e
  case readraw.start | readraw.raw => exact finish_keepsCal (rawStep_keepsCal _) e
  case compall.start | compall.comp => exact finish_keepsCal (compStep_keepsCal _) e
  case rhcode.start => exact finish_keepsCal (rhcodeBody_keepsCal _) e
  case compt.start => exact finish_keepsCal comptBody_keepsCal e
  case compp.start => exact finish_keepsCal comppBody_keepsCal e
  case comph.start => exact finish_keepsCal comphBody_keepsCal e
  case aggclr.start => exact finish_keepsCal (aggclrBody_keepsCal _) e
  case aggacc.start => exact finish_keepsCal aggaccBody_keepsCal e
  case aggfin.start => exact finish_keepsCal aggfinBody_keepsCal e

end

/-! ### The other agents -/

theorem csrWrite_calKept (c : Csr) (w : Word) (s : State) : CalKept s (csrWrite c w s) := by
  cases c
  case status => rw [csrWrite_status, writeStatus_eq]; exact .refl s
  all_goals exact .refl s

/-- No host access touches the calibration. -/
theorem hostStep_calKept (a : HostAccess) (s : State) : CalKept s (hostStep a s) := by
  unfold hostStep
  dsimp only
  split
  next c w _ _ =>
    unfold hostWrite
    split
    · rcases writeCmd_cases w s with ⟨-, -, e⟩ | ⟨-, -, e⟩ | ⟨-, -, e⟩ | ⟨-, -, e⟩ <;> rw [e] <;> exact .refl s
    · split
      · exact .refl s
      · exact csrWrite_calKept c w s
  all_goals exact .refl s

theorem busStep_calKept (n : Nat) (r : BusResp) (s : State) : CalKept s (busStep n r s) := by
  rcases busStep_cases n r s with ⟨q, -, -, -, e⟩ | e <;> rw [e] <;> exact .refl s

theorem tickStep_calKept (s : State) : CalKept s (tickStep s) := by
  rcases tickStep_cases s with e | ⟨k, p, -, -, e⟩ | ⟨p, -, -, e⟩ <;> rw [e] <;> exact .refl s

theorem sinkStep_calKept (s : State) : CalKept s (sinkStep s) := by
  rcases sinkStep_cases s with ⟨r, -, e⟩ | ⟨-, e⟩ <;> rw [e] <;> exact .refl s

/-- What a step does to the calibration. -/
theorem step_calibration {s t : State} (e : step s = .next t) :
    CalKept s t ∨ nextEvent s = .powerOn ∨ (nextEvent s = .engine ∧ s.status.busy = true ∧
      ∃ i, decode s.hid.cmdCur = .legal i ∧ (i = .sreset ∨ ((i = .loadcal ∨ i = .run) ∧ Calibrates s t))) := by
  rw [step_eq] at e
  cases he : nextEvent s <;> rw [he, eventStep] at e
  case engine =>
    rcases engineTurn_next e with ⟨-, rfl⟩ | ⟨hb, i, hi, e⟩
    · exact .inl (.refl s)
    · exact (exec_calibration e).imp_right fun h => .inr ⟨rfl, hb, i, hi, h⟩
  case powerOn => exact .inr (.inl rfl)
  case host a => cases e; exact .inl (hostStep_calKept a s.takeEvent)
  case bus n r => cases e; exact .inl (busStep_calKept n r s.takeEvent)
  case tick => cases e; exact .inl (tickStep_calKept s.takeEvent)
  case sinkAccept => cases e; exact .inl (sinkStep_calKept s.takeEvent)

/-- Settles O23: a step that changes the calibration or sets CAL_VALID does not keep it. -/
theorem calibrationChangesOnlyByLoad : Obligations.CalibrationChangesOnlyByLoad := by
  intro s t e changed
  rcases step_calibration e with ⟨hcal, hvalid⟩ | h | ⟨he, hb, i, hi, rfl | ⟨rfl | rfl, h⟩⟩
  · rcases changed with h | ⟨h0, h1⟩
    · exact absurd hcal h
    · simp [hvalid h1] at h0
  · exact .inl h
  · exact .inr (.inl ⟨he, hb, hi⟩)
  · exact .inr (.inr ⟨.inl ⟨he, hb, hi⟩, h⟩)
  · exact .inr (.inr ⟨.inr ⟨he, hb, hi⟩, h⟩)

end Sys2Proof.Machine
end

section
/-! PROOFS. The formulas a RUN evaluates on a sample and for its heater: their checked arithmetic is exact. -/

namespace Sys2Proof.Machine

/-- A literal divisor of at least 2^j takes j bits off. -/
theorem Checked.Within.divLit {a : Checked} {v : Int} {n : Nat} (ha : a.Within v n) (j : Nat) {k : Int} (hk : 2 ^ j ≤ k)
    (hj : j ≤ n := by norm_num) (hn : n ≤ 62 := by norm_num) : (a.divLit k).Within (v.tdiv k) (n - j) := by
  obtain ⟨rfl, hv⟩ := ha
  have hj0 : (0 : Int) < 2 ^ j := by positivity
  have bound : |v.tdiv k| ≤ 2 ^ (n - j) := by
    have hprod : |v.tdiv k| * 2 ^ j ≤ 2 ^ (n - j) * 2 ^ j := by
      rw [← pow_add, Nat.sub_add_cancel hj]
      refine le_trans ?_ hv
      calc |v.tdiv k| * 2 ^ j ≤ |v.tdiv k| * |k| := by
            exact mul_le_mul_of_nonneg_left (hk.trans (le_abs_self k)) (abs_nonneg _)
        _ = |v.tdiv k * k| := (abs_mul ..).symm
        _ ≤ |v| := by
            rw [Int.abs_eq_natAbs, Int.abs_eq_natAbs, Int.natAbs_mul, Int.natAbs_tdiv]
            exact_mod_cast Nat.div_mul_le_self ..
    exact le_of_mul_le_mul_right hprod hj0
  exact .chk bound (by omega)

/-! ### Temperature (R273, R274 42_compensation.md) -/

/-- t_fine is exact. -/
theorem ctFine_eq (c : Cal) (raw : BitVec 20) : ctFine c (unsigned raw) = .lit (plainFine c raw.toNat) := by
  have var1 := ((unsigned_within raw).shr 3).sub ((unsigned_within c.t1).shl 1)
  have var2 := (var1.mul (signed_within c.t2)).shr 11
  have var3 := ((var1.shr 1).mul (var1.shr 1)).shr 12
  have var3 := (var3.mul ((signed_within c.t3).shl 4)).shr 14
  exact (var2.add var3).eq

/-- A product's bounds, from the corners of its factors' ranges. -/
theorem mul_mem_corners {x y a b c d l u : Int} (hx : a ≤ x ∧ x ≤ b) (hy : c ≤ y ∧ y ≤ d)
    (hl : l ≤ a * c ∧ l ≤ a * d ∧ l ≤ b * c ∧ l ≤ b * d)
    (hu : a * c ≤ u ∧ a * d ≤ u ∧ b * c ≤ u ∧ b * d ≤ u) :
    l ≤ x * y ∧ x * y ≤ u := by
  obtain ⟨hxa, hxb⟩ := hx
  obtain ⟨hyc, hyd⟩ := hy
  rcases le_or_gt 0 y with h | h
  · have h1 := mul_le_mul_of_nonneg_right hxa h
    have h2 := mul_le_mul_of_nonneg_right hxb h
    constructor
    · rcases le_or_gt 0 a with ha | ha <;> nlinarith
    · rcases le_or_gt 0 b with ha | ha <;> nlinarith
  · have h1 := mul_le_mul_of_nonpos_right hxa h.le
    have h2 := mul_le_mul_of_nonpos_right hxb h.le
    constructor
    · rcases le_or_gt 0 b with ha | ha <;> nlinarith
    · rcases le_or_gt 0 a with ha | ha <;> nlinarith

/-- The range of t_fine. -/
theorem plainFine_inRange (c : Cal) (raw : BitVec 20) : fineInRange (plainFine c raw.toNat) := by
  have hraw := raw.isLt
  have ht1 := c.t1.isLt
  have hvar1 : -131070 ≤ plainVar1 c raw.toNat ∧ plainVar1 c raw.toNat ≤ 131071 := by unfold plainVar1; omega
  have ht2 : -32768 ≤ c.t2.toInt ∧ c.t2.toInt ≤ 32767 := ⟨BitVec.le_toInt c.t2, Int.le_of_lt_add_one BitVec.toInt_lt⟩
  have ht3 : -128 ≤ c.t3.toInt ∧ c.t3.toInt ≤ 127 := ⟨BitVec.le_toInt c.t3, Int.le_of_lt_add_one BitVec.toInt_lt⟩
  unfold plainFine
  generalize plainVar1 c raw.toNat = v at *
  generalize c.t2.toInt = t2 at *
  generalize c.t3.toInt = t3 at *
  have hlin := mul_mem_corners (l := -4294934528) (u := 4294901760) hvar1 ht2 (by norm_num) (by norm_num)
  have hhalf : -65535 ≤ v / 2 ∧ v / 2 ≤ 65535 := by omega
  have hsq := mul_mem_corners (l := -4294836225) (u := 4294836225) hhalf hhalf (by norm_num) (by norm_num)
  have hsq0 := mul_self_nonneg (v / 2)
  have hquad : 0 ≤ v / 2 * (v / 2) / 2 ^ 12 ∧ v / 2 * (v / 2) / 2 ^ 12 ≤ 1048544 := by omega
  have hprod := mul_mem_corners (l := -134213632) (u := 133165088) hquad ht3 (by norm_num) (by norm_num)
  dsimp only
  rw [← mul_assoc]
  omega

theorem plainTemp_range {tf : Int} (h : fineInRange tf) : -43520 ≤ plainTemp tf ∧ plainTemp tf ≤ 43499 := by
  unfold plainTemp
  omega

/-- The scaled temperature is exact, and has 16 bits. -/
theorem tempScaled_within {tf : Int} (h : fineInRange tf) : (tempScaled (.lit tf)).Within (plainTemp tf) 16 := by
  have fine : (Checked.lit tf).Within tf 22 := .lit (abs_le.2 ⟨by omega, by omega⟩)
  have five : (Checked.lit 5).Within 5 3 := .lit (by norm_num)
  have half : (Checked.lit 128).Within 128 7 := .lit (by norm_num)
  obtain ⟨h1, h2⟩ := plainTemp_range h
  exact ⟨(((fine.mul five).add half).shr 8).eq, abs_le.2 ⟨by omega, by omega⟩⟩

/-! ### Humidity (R290, R292 42_compensation.md) -/

theorem clampHum_ovf (h : Checked) : (clampHum h).ovf = h.ovf := by
  simp only [clampHum]
  split <;> split <;> rfl

/-- Nothing in chum overflows while T_FINE is in its range. -/
theorem chum_ovf (c : Cal) (raw : BitVec 16) {tf : Int} (h : fineInRange tf) :
    (chum c (unsigned raw) (.lit tf)).ovf = false := by
  have ts := tempScaled_within h
  have part (x : Byte) := (ts.mul (signed_within x)).divLit 6 (k := 100) (by norm_num)
  have sixteen : (Checked.lit 16).Within 16 4 := .lit (by norm_num)
  have one : (Checked.lit 1).Within 1 0 := .lit (by norm_num)
  have thousand : (Checked.lit 1000).Within 1000 10 := .lit (by norm_num)
  have var1 := ((unsigned_within raw).sub ((unsigned_within c.h1).mul sixteen)).sub ((part c.h3).shr 1)
  have square := ((ts.mul (part c.h5)).shr 6).divLit 6 (k := 100) (by norm_num)
  have var2 := ((unsigned_within c.h2).mul (((part c.h4).add square).add (one.shl 14))).shr 10
  have var3 := var1.mul var2
  have var4 := (((unsigned_within c.h6).shl 7).add (part c.h7)).shr 4
  have var5 := ((var3.shr 14).mul (var3.shr 14)).shr 10
  have var6 := (var4.mul var5).shr 1
  have hum := (((var3.add var6).shr 10).mul thousand).shr 12
  rw [chum, clampHum_ovf]
  exact congrArg Checked.ovf hum.eq

/-! ### The heater resistance (R238 41_configurator.md) -/

/-- rh has a value for every calibration file: neither divisor is 0, and every operation is exact. -/
theorem rhFormula_eq (c : Cal) (temp : Nat) : rhFormula c temp = .value (.lit (plainResistance c temp)) := by
  have lit (v : Int) (n : Nat) (h : |v| ≤ 2 ^ n := by norm_num) : (Checked.lit v).Within v n := .lit h
  have clamp : (if Config.heaterTempMax < temp then Config.heaterTempMax else temp) = min temp 400 := by
    rw [Config.heaterTempMax]; split <;> omega
  have t : (Checked.lit ((min temp 400 : Nat) : Int)).Within (min temp 400 : Nat) 9 :=
    .lit (by rw [Nat.abs_cast]; omega)
  have var1 := (((lit 25 5).mul (signed_within c.g3)).divLit 9 (k := 1000) (by norm_num)).mul (lit 256 8)
  have scale := ((((signed_within c.g2).add (lit 154009 18)).mul t).mul (lit 5 3)).divLit 6 (k := 100) (by norm_num)
  have var2 := ((signed_within c.g1).add (lit 784 10)).mul ((scale.add (lit 3276800 22)).divLit 3 (k := 10) (by norm_num))
  have var3 := var1.add (var2.divLit 1 (k := 2) (by norm_num))
  -- RES_HEAT_RANGE is a name here, and rh is unfolded as a function: else the kernel would evaluate the division.
  obtain ⟨range, hrange⟩ : ∃ range, range = unsigned c.resHeatRange := ⟨_, rfl⟩
  have rhr4 := (hrange ▸ unsigned_within c.resHeatRange : range.Within _ _).add (lit 4 2)
  obtain ⟨var4, h4, within4⟩ := var3.div rhr4 (by omega)
  have hval : -128 ≤ c.resHeatVal.toInt := BitVec.le_toInt c.resHeatVal
  have var5 := ((lit 131 8).mul (signed_within c.resHeatVal)).add (lit 65536 16)
  obtain ⟨q, hq, within⟩ := within4.div var5 (by omega)
  have x100 := ((within.mono (m := 34) (by norm_num)).sub (lit 250 8)).mul (lit 34 6)
  have unfolded : rhFormula = rhFormula := rfl
  conv at unfolded => rhs; delta rhFormula
  rw [unfolded]
  beta_reduce
  rw [← hrange, clamp]
  dsimp only
  rw [show Config.ambientC = 25 from rfl, h4]
  dsimp only
  rw [hq]
  exact congrArg Formula.value ((x100.add (lit 50 6)).divLit 6 (k := 100) (by norm_num)).eq

end Sys2Proof.Machine
end

section
/-! PROOFS. A RUN and its ticks: no schedule of engine turns, bus answers, ticks and acceptances completes a RUN without an
error before the ticks of R471 have come. -/

namespace Sys2Proof.Machine

/-! ### What a RUN owes, event by event (R471 70_reset_and_hazards.md) -/

/-- An event of the engine, the sensor bus, the tick source or the sink (R12 00_scope.md). -/
abbrev OfAgents (e : Event) : Prop := e = .engine ∨ e = .tick ∨ e = .sinkAccept ∨ ∃ n r, e = .bus n r

theorem Owes.mono {m n : Nat} {s : State} (h : Owes n s) (hmn : m ≤ n) : Owes m s := by
  rcases h with ⟨hr, hd⟩ | ⟨hb, he | hn⟩
  exacts [.inl ⟨hr, hmn.trans hd⟩, .inr ⟨hb, .inl he⟩, .inr ⟨hb, .inr (by omega)⟩]

/-- The bus and the sink leave a RUN its position, latches, counters and error record. -/
theorem Owes.of_same {n : Nat} {s t : State} (h : Owes n s) (hs : t.status = s.status) (hc : t.ctl = s.ctl)
    (hh : ∃ b o, t.hid = { s.hid with bus := b, outPend := o }) : Owes n t := by
  obtain ⟨b, o, hh⟩ := hh
  rcases h with ⟨⟨hb, hcmd, home⟩, hd⟩ | h
  · refine .inl ⟨⟨hs ▸ hb, by rw [hh]; exact hcmd, by rw [hh]; exact home⟩, ?_⟩
    have : t.ticksDue = s.ticksDue := by simp only [State.ticksDue, State.ticksAfter, hh, hc]
    omega
  · exact .inr (by rw [hs]; exact h)

theorem busStep_owes {n m : Nat} {r : BusResp} {s : State} (h : Owes n s) : Owes n (busStep m r s) := by
  rcases busStep_cases m r s with ⟨q, -, -, -, e⟩ | e <;> rw [e]
  exacts [h.of_same rfl rfl ⟨_, _, rfl⟩, h]

theorem sinkStep_owes {n : Nat} {s : State} (h : Owes n s) : Owes n (sinkStep s) := by
  rcases sinkStep_cases s with ⟨r, -, e⟩ | ⟨-, e⟩ <;> rw [e]
  exacts [h.of_same rfl rfl ⟨_, _, rfl⟩, h]

theorem engineTurn_owes {n : Nat} {s : State} (h : Owes n s) : ∃ t, engineTurn s = .next t ∧ Owes n t := by
  rcases h with ⟨hr, hd⟩ | ⟨hb, he⟩
  · obtain ⟨t, ht⟩ := execRun_answers hr
    refine ⟨t, ?_, (execRun_owes hr ht).mono hd⟩
    rw [engineTurn, if_pos hr.busy, hr.cmd]
    exact ht
  · exact ⟨s, by simp [engineTurn, hb], .inr ⟨hb, he⟩⟩

/-- A tick takes at most one tick from what is owed. -/
theorem tickStep_owes_pred {n : Nat} {s : State} (h : Owes n s) : Owes (n - 1) (tickStep s) := by
  rcases h with ⟨hr, hd⟩ | ⟨hb, he⟩
  · exact (tickStep_owes hr).mono (by omega)
  · have hstatus : (tickStep s).status = s.status := by
      rcases tickStep_cases s with e | ⟨k, p, -, -, e⟩ | ⟨p, -, -, e⟩ <;> rw [e] <;> rfl
    exact .inr ⟨hstatus ▸ hb, he.imp (fun h => hstatus ▸ h) (by omega)⟩

/-- One event of these agents takes from what is owed at most the tick that it is. -/
theorem eventStep_owes {n : Nat} {e : Event} {s : State} (he : OfAgents e) (h : Owes n s) :
    ∃ t, eventStep e s = .next t ∧ Owes (n - tickCount [e]) t := by
  rcases he with rfl | rfl | rfl | ⟨m, r, rfl⟩
  · exact engineTurn_owes h
  · exact ⟨_, rfl, tickStep_owes_pred h⟩
  · exact ⟨_, rfl, sinkStep_owes h⟩
  · exact ⟨_, rfl, busStep_owes h⟩

@[simp] theorem tickCount_nil : tickCount [] = 0 := rfl

theorem tickCount_cons (e : Event) (es : List Event) : tickCount (e :: es) = tickCount [e] + tickCount es := by
  simp only [tickCount, List.countP_cons, List.countP_nil]
  omega

/-- A whole schedule takes at most its ticks from what is owed. -/
theorem play_owes {n : Nat} {es : List Event} {s : State} (hes : ∀ e ∈ es, OfAgents e) (h : Owes n s) :
    ∃ t, play es s = .next t ∧ Owes (n - tickCount es) t := by
  induction es generalizing n s with
  | nil => exact ⟨_, play_nil s, h.of_same rfl rfl ⟨_, _, rfl⟩⟩
  | cons e es ih =>
    obtain ⟨he, hes⟩ := List.forall_mem_cons.1 hes
    obtain ⟨u, hu, howes⟩ := eventStep_owes he (h.of_same (t := s.facing es) rfl rfl ⟨_, _, rfl⟩)
    obtain ⟨t, ht, howes⟩ := ih hes howes
    refine ⟨t, ?_, howes.mono ?_⟩
    · rw [play_cons hu (eventStep_env hu).1, ht]
    · rw [tickCount_cons]
      omega

theorem decode_encode_run : decode (encode .run) = .legal .run := by decide

/-- No RUN completes without an error in fewer ticks than it owes at its start. -/
theorem run_busy_or_err {s : State} (hfree : s.free) {es : List Event} (hes : ∀ e ∈ es, OfAgents e)
    (hn : tickCount es < s.ctl.window.toNat * (s.ctl.sampleDelay.toNat + s.ctl.settle.toNat) + 2 * s.ctl.settle.toNat) :
    ∃ t, play (command .run es) s = .next t ∧ (t.status.busy = true ∨ t.status.err = true) := by
  obtain ⟨hb, -, -⟩ := hfree
  have accepted : Leads [.host (cmdWrite .run)] s _ := .one (does_cmdWrite hb decode_encode_run)
  have owes : Owes _ ((accept (encode .run) s).answering (cmdWrite .run) .done) :=
    .inl ⟨⟨rfl, decode_encode_run, rfl⟩, le_rfl⟩
  obtain ⟨t, ht, howes⟩ := play_owes hes owes
  refine ⟨t, (accepted es).trans ht, ?_⟩
  rcases howes with ⟨hr, -⟩ | ⟨-, herr | hz⟩
  · exact .inl hr.busy
  · exact .inr herr
  · simp [State.ticksDue, State.answering] at hz
    omega

end Sys2Proof.Machine
end

section
/-! PROOFS. The configuration of a RUN, piece by piece: what each body leaves to the next (O58). -/

namespace Sys2Proof.Machine

/-! ### What a RUN keeps from one of its bodies to the next -/

/-- The fields that no body of a RUN changes between its calibration and its accumulation. -/
structure Unchanged (s t : State) : Prop where
  err : t.status.err = s.status.err
  ovf : t.status.ovf = s.status.ovf
  calValid : t.status.calValid = s.status.calValid
  ctl : t.ctl = s.ctl
  cal : t.cal = s.cal
  agg : t.agg = s.agg
  lN : t.hid.lN = s.hid.lN
  lSdelay : t.hid.lSdelay = s.hid.lSdelay
  lSettle : t.hid.lSettle = s.hid.lSettle
  sample : t.hid.pos.sample = s.hid.pos.sample
  sinkLog : t.env.sinkLog = s.env.sinkLog

theorem Unchanged.trans {s t u : State} (h : Unchanged s t) (h' : Unchanged t u) : Unchanged s u where
  err := h'.err.trans h.err
  ovf := h'.ovf.trans h.ovf
  calValid := h'.calValid.trans h.calValid
  ctl := h'.ctl.trans h.ctl
  cal := h'.cal.trans h.cal
  agg := h'.agg.trans h.agg
  lN := h'.lN.trans h.lN
  lSdelay := h'.lSdelay.trans h.lSdelay
  lSettle := h'.lSettle.trans h.lSettle
  sample := h'.sample.trans h.sample
  sinkLog := h'.sinkLog.trans h.sinkLog

/-- The events `es` lead a RUN from `s` to `t` at position `p` through `k` transactions, and nothing reaches the
aggregator or the sink. -/
structure Onward (es : List Event) (k : Nat) (p : Point) (s t : State) : Prop where
  leads : Leads es s t
  active : Active .run p t
  same : Unchanged s t
  trace : t.env.trace.length = s.env.trace.length + k

theorem Onward.append {es fs : List Event} {j k : Nat} {p q : Point} {s t u : State} (h : Onward es j p s t)
    (h' : Onward fs k q t u) : Onward (es ++ fs) (j + k) q s u :=
  ⟨h.leads.append h'.leads, h'.active, h.same.trans h'.same, by rw [h'.trace, h.trace, Nat.add_assoc]⟩

/-- An engine step of RUN that goes on to `q`. -/
theorem Active.onward {p q : Point} {s t : State} (h : Active .run p s) (he : ∀ fs, exec .run (s.facing fs) =
    .next (t.facing fs)) (ht : Active .run q t) (hs : Unchanged s t) (htr : t.env.trace = s.env.trace) :
    Onward [.engine] 0 q s t :=
  ⟨.one (h.does he), ht, hs, by rw [htr]; rfl⟩

/-- A transaction after which RUN stands at `q`. -/
theorem Active.onward_after {p q : Point} {s : State} {es : List Event} {tr : List BusTx} (h : Active .run p s)
    (hl : Leads es s (s.after tr q)) : Onward es tr.length q s (s.after tr q) :=
  ⟨hl, h.after tr, by constructor <;> rfl, List.length_append⟩

/-! ### CFGOS inside RUN (R231 41_configurator.md) -/

theorem runsBody_run_cal : RunsBody .run .cal calStep := fun s t p q h hf => by
  rw [exec_run_cal h, hf]
  rfl

theorem runsBody_run_os : RunsBody .run .os osStep := fun s t p q h hf => by
  rw [exec_run_os h, hf]
  rfl

theorem runsBody_run_htr : RunsBody .run .htr htrStep := fun s t p q h hf => by
  rw [exec_run_htr h, hf]
  rfl

theorem exec_run_wroteMeas {s : State} {q : BusReq} (h : s.ready (.os .wroteMeas)) (hb : s.hid.bus = .answered q .ok) :
    exec .run s = .next (s.busQuiet.goto (.htr .compute)) := by
  rw [exec_run_os h, osStep, onWrite_ok_eq hb]
  rfl

section

variable {s : State} {n : Nat}

/-- CFGOS reads ctrl_hum and writes it back. -/
theorem onward_ctrlHum (h : Active .run (.os .readHum) s) (hn : n = s.env.trace.length) (x : Byte) :
    ∃ t, Onward (exchange n (.bytes [x]) ++ exchange (n + 1) .ok) 2 (.os .readMeas) s t := by
  have read := runsBody_run_os.exchange (r := .read 0x72 1) (resp := .bytes [x]) (b := .gotHum) (c := .writeHum x) h hn rfl
    (fun _ => rfl) fun _ hb => by rw [osStep, onRead_bytes hb]; rfl
  have active := h.after (q := .os (.writeHum x)) [readTx 0x72 1 [x]]
  have write := runsBody_run_os.exchange (n := n + 1) (resp := .ok) (b := .wroteHum) (c := .readMeas) active
    (by simp [State.after, hn]) rfl (fun _ => rfl) fun _ hb => by rw [osStep, onWrite_ok_eq hb]
  exact ⟨_, (h.onward_after read).append (active.onward_after write)⟩

/-- CFGOS reads ctrl_meas and writes it back, and RUN goes on to CFGHTR. -/
theorem onward_ctrlMeas (h : Active .run (.os .readMeas) s) (hn : n = s.env.trace.length) (x : Byte) :
    ∃ t, Onward (exchange n (.bytes [x]) ++ exchange (n + 1) .ok) 2 (.htr .compute) s t := by
  have read := runsBody_run_os.exchange (r := .read 0x74 1) (resp := .bytes [x]) (b := .gotMeas) (c := .writeMeas x) h hn
    rfl (fun _ => rfl) fun _ hb => by rw [osStep, onRead_bytes hb]; rfl
  have active := h.after (q := .os (.writeMeas x)) [readTx 0x74 1 [x]]
  have write := runsBody_run_os.exchange_use (n := n + 1) (resp := .ok) (b := .wroteMeas)
    (g := fun x => x.busQuiet.goto (.htr .compute)) active (by simp [State.after, hn]) rfl (fun _ _ => rfl)
    (fun _ => rfl) fun _ => exec_run_wroteMeas
  rw [answeredBy_busQuiet_goto] at write
  exact ⟨_, (h.onward_after read).append (active.onward_after write)⟩

/-- The whole CFGOS body. -/
theorem onward_cfgos (h : Active .run (.os .readHum) s) (hn : n = s.env.trace.length) (x y : Byte) :
    ∃ t, Onward (exchange n (.bytes [x]) ++ exchange (n + 1) .ok ++ (exchange (n + 2) (.bytes [y]) ++ exchange (n + 3) .ok))
      4 (.htr .compute) s t := by
  obtain ⟨t, hum⟩ := onward_ctrlHum h hn x
  obtain ⟨u, meas⟩ := onward_ctrlMeas (n := n + 2) hum.active (by rw [hum.trace, hn]) y
  exact ⟨u, hum.append meas⟩

/-! ### CFGHTR inside RUN (R245 41_configurator.md) -/

theorem State.withOvf_false (s : State) : s.withOvf false = s := by
  simp [State.withOvf, Status.withOvf]

/-- The computation of CFGHTR with a valid calibration: the configuration and the calibration give two codes, whatever
they are, and nothing overflows. -/
theorem htrStep_compute (ctl : Control) (c : Cal) : ∃ g r, ∀ s : State, s.ctl = ctl → s.cal = c →
    s.status.calValid = true → htrStep .compute s = .goto (.writeDur g r) { s with heat := ⟨g, r⟩ } := by
  refine ⟨gw ctl.heatDur.toNat, low8 (.lit (plainResistance c ctl.heatTemp.toNat)), ?_⟩
  rintro s rfl rfl hc
  rw [htrStep, needCal, if_pos hc, rhFormula_eq]
  dsimp only
  rw [Checked.lit_ovf, State.withOvf_false]

theorem exec_run_wroteCtrl {q : BusReq} (h : s.ready (.htr .wroteCtrl)) (hb : s.hid.bus = .answered q .ok) :
    exec .run s = .next (s.busQuiet.goto (.run .aggClr)) := by
  rw [exec_run_htr h, htrStep, onWrite_ok_eq hb]
  rfl

/-- The three writes of CFGHTR, after which RUN goes on to AGGCLR. -/
theorem onward_heaterWrites {g r : Byte} (h : Active .run (.htr (.writeDur g r)) s) (hn : n = s.env.trace.length) :
    ∃ t, Onward (exchange n .ok ++ exchange (n + 1) .ok ++ exchange (n + 2) .ok) 3 (.run .aggClr) s t := by
  have dur := runsBody_run_htr.exchange (resp := .ok) (b := .wroteDur r) (c := .writeRes r) h hn rfl (fun _ => rfl)
    fun _ hb => by rw [htrStep, onWrite_ok_eq hb]
  have active := h.after (q := .htr (.writeRes r)) [⟨.write 0x64 g, some .ok⟩]
  have res := runsBody_run_htr.exchange (n := n + 1) (resp := .ok) (b := .wroteRes) (c := .writeCtrl) active
    (by simp [State.after, hn]) rfl (fun _ => rfl) fun _ hb => by rw [htrStep, onWrite_ok_eq hb]
  have active' := active.after (q := .htr .writeCtrl) [⟨.write 0x5A r, some .ok⟩]
  have ctrl := runsBody_run_htr.exchange_use (n := n + 2) (resp := .ok) (b := .wroteCtrl)
    (g := fun x => x.busQuiet.goto (.run .aggClr)) active' (by simp [State.after, hn]) rfl (fun _ _ => rfl)
    (fun _ => rfl) fun _ => exec_run_wroteCtrl
  rw [answeredBy_busQuiet_goto] at ctrl
  exact ⟨_, ((h.onward_after dur).append (active.onward_after res)).append (active'.onward_after ctrl)⟩

/-- The whole CFGHTR body. -/
theorem onward_cfghtr (h : Active .run (.htr .compute) s) (hc : s.status.calValid = true) (hn : n = s.env.trace.length) :
    ∃ t, Onward ([.engine] ++ (exchange n .ok ++ exchange (n + 1) .ok ++ exchange (n + 2) .ok)) 3 (.run .aggClr) s t := by
  obtain ⟨g, r, codes⟩ := htrStep_compute s.ctl s.cal
  have compute := h.onward (t := ({ s with heat := ⟨g, r⟩ } : State).goto (.htr (.writeDur g r)))
    (fun fs => runsBody_run_htr (s.facing fs) _ .compute (.writeDur g r) h.ready (codes (s.facing fs) rfl rfl hc))
    ⟨h.busy, h.cmd, ⟨rfl, h.ready.2⟩, h.abort⟩ (by constructor <;> rfl) rfl
  obtain ⟨t, writes⟩ := onward_heaterWrites compute.active hn
  exact ⟨t, by simpa using compute.append writes⟩

end

end Sys2Proof.Machine
end

section
/-! PROOFS. One good sample of a RUN, piece by piece: the waits, the trigger, the reading, the compensation and the
records (O58). -/

namespace Sys2Proof.Machine

/-! ### The waits of RUN (R340, R431) -/

/-- The latch from which RUN loads a wait (R340, R341 43_acquisition.md). -/
def latchOf : WaitFor → State → BitVec 16
  | .delay, s => s.hid.lSdelay
  | .command, s | .settle, s | .final1, s | .final2, s => s.hid.lSettle

/-- The step of RUN that loads a wait. -/
def loadPoint : WaitFor → RunPt
  | .command | .delay => .delayLoad
  | .settle => .settleLoad
  | .final1 => .final1Load
  | .final2 => .final2Load

section

variable {s : State} {k : WaitFor}

theorem exec_run_load (h : s.ready (.run (loadPoint k))) (hk : k ≠ .command) (ha : s.status.abortPend = false) :
    exec .run s = .next ((s.loadDelay (latchOf k s)).goto (.wait k .top)) := by
  cases k
  case command => exact absurd rfl hk
  all_goals exact (exec_run_run h).trans (finishInRun_loadWait ha ..)

theorem exec_run_waitHolds (hk : k ≠ .command) (h : s.ready (.wait k .top)) (hd : s.hid.dlyCnt ≠ 0)
    (ha : s.status.abortPend = false) : exec .run s = .next (s.goto (.wait k .hold)) := by
  rw [exec_run_wait hk h, waitStep, if_neg hd, abortPoint_go ha]
  rfl

theorem does_tick_hold (h : s.hid.pos.point = .wait k .hold) :
    Does .tick s ((s.loadDelay (s.hid.dlyCnt - 1)).goto (.wait k .top)) := by
  intro fs
  rw [eventStep, tickStep, show (s.facing fs).hid.pos.point = .wait k .hold from h]
  rfl

theorem loadDelay_of_eq {d : BitVec 16} (h : s.hid.dlyCnt = d) : s.loadDelay d = s := by
  rw [State.loadDelay, ← h]

theorem goto_of_eq {p : Point} (h : s.hid.pos.point = p) : s.goto p = s := by
  rw [State.goto, ← h]

/-- A wait that has counted to `ms` consumes `ms` ticks, and RUN goes on as after this wait. -/
theorem leads_waiting (hk : k ≠ .command) (ha : Blind (afterWait k)) {ms : Nat} (h : Active .run (.wait k .top) s)
    (hms : s.hid.dlyCnt.toNat = ms) : Leads (waiting ms) s (afterWait k (s.loadDelay 0)) := by
  induction ms generalizing s with
  | zero =>
    have hz : s.hid.dlyCnt = 0 := BitVec.eq_of_toNat_eq hms
    rw [loadDelay_of_eq hz]
    exact .one (h.does fun fs => by rw [exec_run_waitOver (s := s.facing fs) hk h.ready hz, ha])
  | succ ms ih =>
    have hnz : s.hid.dlyCnt ≠ 0 := fun e => by simp [e] at hms
    have hlt : s.hid.dlyCnt.toNat < 65536 := s.hid.dlyCnt.isLt
    have hpred : (s.hid.dlyCnt - 1).toNat = ms := by
      rw [BitVec.toNat_sub_of_le (by simp [BitVec.le_def]; omega), hms]
      simp
    have holds : Does .engine s (s.goto (.wait k .hold)) := h.does fun fs => exec_run_waitHolds hk h.ready hnz h.abort
    have ticks := does_tick_hold (s := s.goto (.wait k .hold)) (k := k) rfl
    have rest := ih (s := ((s.goto (.wait k .hold)).loadDelay (s.hid.dlyCnt - 1)).goto (.wait k .top))
      ⟨h.busy, h.cmd, ⟨rfl, h.ready.2⟩, h.abort⟩ hpred
    have whole := Leads.cons holds (.cons ticks rest)
    rwa [show (((s.goto (.wait k .hold)).loadDelay (s.hid.dlyCnt - 1)).goto (.wait k .top)).loadDelay 0 =
      (s.loadDelay 0).goto (.wait k .top) from rfl, goto_of_eq (s := s.loadDelay 0) h.ready.1] at whole

/-- RUN loads a wait from its latch and waits. -/
theorem leads_wait (hk : k ≠ .command) (ha : Blind (afterWait k)) (h : Active .run (.run (loadPoint k)) s) :
    Leads (.engine :: waiting (latchOf k s).toNat) s (afterWait k ((s.loadDelay 0).goto (.wait k .top))) := by
  have load : Does .engine s ((s.loadDelay (latchOf k s)).goto (.wait k .top)) :=
    h.does fun fs => by
      rw [exec_run_load (s := s.facing fs) h.ready hk h.abort]
      cases k <;> rfl
  exact .cons load (leads_waiting (s := (s.loadDelay (latchOf k s)).goto (.wait k .top)) hk ha
    ⟨h.busy, h.cmd, ⟨rfl, h.ready.2⟩, h.abort⟩ rfl)

/-- The delay before a sample. -/
theorem onward_delay (h : Active .run (.run .delayLoad) s) :
    ∃ t, Onward (.engine :: waiting s.hid.lSdelay.toNat) 0 (.trig .clear) s t :=
  ⟨_, leads_wait (k := .delay) nofun (fun _ _ => rfl) h, ⟨h.busy, h.cmd, ⟨rfl, h.ready.2⟩, h.abort⟩,
    by constructor <;> rfl, rfl⟩

/-- The settle wait of a sample. -/
theorem onward_settle (h : Active .run (.run .settleLoad) s) :
    ∃ t, Onward (.engine :: waiting s.hid.lSettle.toNat) 0 (.raw .read) s t :=
  ⟨_, leads_wait (k := .settle) nofun (fun _ _ => rfl) h, ⟨h.busy, h.cmd, ⟨rfl, h.ready.2⟩, h.abort⟩,
    by constructor <;> rfl, rfl⟩

/-- The settle wait after the last sample. -/
theorem onward_final1 (h : Active .run (.run .final1Load) s) :
    ∃ t, Onward (.engine :: waiting s.hid.lSettle.toNat) 0 (.run .aggFin) s t :=
  ⟨_, leads_wait (k := .final1) nofun (fun _ _ => rfl) h, ⟨h.busy, h.cmd, ⟨rfl, h.ready.2⟩, h.abort⟩,
    by constructor <;> rfl, rfl⟩

/-! ### The trigger of a sample whose sensor shows sleep (R250 41_configurator.md) -/

theorem exec_run_clear (h : s.ready (.trig .clear)) :
    exec .run s = .next (({ s with hid := { s.hid with pollCnt := 0 } } : State).goto (.trig .readMode)) := by
  rw [exec_run_trig h]
  rfl

theorem exec_run_readMode (h : s.ready (.trig .readMode)) (ha : s.status.abortPend = false) :
    exec .run s = .next (((s.setTrig .read).issue (.read 0x74 1)).goto (.trig .gotMode)) := by
  rw [exec_run_trig h, trigStep, abortPoint_go ha]
  rfl

theorem exec_run_gotMode {q : BusReq} {m : Byte} (h : s.ready (.trig .gotMode))
    (hb : s.hid.bus = .answered q (.bytes [m])) (hm : modeBits m = 0) : exec .run s = .next
      (({ s with hid := { s.hid with bus := .quiet, modeByte := m } } : State).goto (.trig .writeForce)) := by
  rw [exec_run_trig h, trigStep, onRead_bytes hb, trigDecide, if_pos (show modeBits (byteAt [m] 0) = 0 from hm)]
  rfl

/-- The forced-mode write of a trigger whose mode byte is `m`. -/
abbrev forceReq (m : Byte) : BusReq := .write 0x74 ((m &&& 0xFC) ||| 0x01)

theorem exec_run_writeForce (h : s.ready (.trig .writeForce)) (ha : s.status.abortPend = false) :
    exec .run s = .next (((s.setTrig .force).issue (forceReq s.hid.modeByte)).goto (.trig .wroteForce)) := by
  rw [exec_run_trig h, trigStep, abortPoint_go ha]
  rfl

theorem exec_run_wroteForce {q : BusReq} (h : s.ready (.trig .wroteForce)) (hb : s.hid.bus = .answered q .ok) :
    exec .run s = .next (enterSettling (s.busQuiet.setTrig .idle)) := by
  rw [exec_run_trig h, trigStep, onWrite_ok_eq hb]
  rfl

variable {n : Nat}

/-- The mode register is read, and shows sleep. -/
theorem onward_readMode (h : Active .run (.trig .readMode) s) (hn : n = s.env.trace.length) {m : Byte}
    (hm : modeBits m = 0) : ∃ t, Onward (exchange n (.bytes [m])) 1 (.trig .writeForce) s t := by
  let u := ((s.setTrig .read).issue (.read 0x74 1)).goto (.trig .gotMode)
  have ready : u.ready (.trig .gotMode) := ⟨rfl, h.ready.2⟩
  refine ⟨_, h.exchange (u := u) (q := .trig .gotMode) (r := .read 0x74 1) ⟨h.busy, h.cmd, ready, h.abort⟩ rfl rfl rfl hn
    (fun fs => exec_run_readMode (s := s.facing fs) h.ready h.abort)
    (t := ({ s with
      status := { s.status with trig := .read }
      hid := { s.hid with bus := .quiet, modeByte := m, pos := ⟨.trig .writeForce, s.hid.pos.sample⟩ }
      env := { s.env with trace := s.env.trace ++ [readTx 0x74 1 [m]] } } : State))
    (fun fs => ?_), ⟨h.busy, h.cmd, ⟨rfl, h.ready.2⟩, h.abort⟩, by constructor <;> rfl, List.length_append⟩
  exact exec_run_gotMode (q := .read 0x74 1) ready rfl hm

/-- Forced mode is written, and RUN goes on to SETTLING. -/
theorem onward_writeForce (h : Active .run (.trig .writeForce) s) (hn : n = s.env.trace.length) :
    ∃ t, Onward (exchange n .ok) 1 (.run .settleLoad) s t := by
  let r := forceReq s.hid.modeByte
  let u := ((s.setTrig .force).issue r).goto (.trig .wroteForce)
  have ready : u.ready (.trig .wroteForce) := ⟨rfl, h.ready.2⟩
  refine ⟨_, h.exchange (u := u) (q := .trig .wroteForce) (r := r) ⟨h.busy, h.cmd, ready, h.abort⟩ rfl rfl rfl hn
    (fun fs => exec_run_writeForce (s := s.facing fs) h.ready h.abort)
    (t := ({ s with
      status := { s.status with trig := .idle, fsm := .settling }
      hid := { s.hid with bus := .quiet, pos := ⟨.run .settleLoad, s.hid.pos.sample⟩ }
      env := { s.env with trace := s.env.trace ++ [⟨r, some .ok⟩] } } : State))
    (fun fs => ?_), ⟨h.busy, h.cmd, ⟨rfl, h.ready.2⟩, h.abort⟩, by constructor <;> rfl, List.length_append⟩
  exact exec_run_wroteForce (q := r) ready rfl

/-- The whole TRIG body. -/
theorem onward_trigger (h : Active .run (.trig .clear) s) (hn : n = s.env.trace.length) {m : Byte} (hm : modeBits m = 0) :
    ∃ t, Onward ([.engine] ++ (exchange n (.bytes [m]) ++ exchange (n + 1) .ok)) 2 (.run .settleLoad) s t := by
  have clear := h.onward (q := .trig .readMode)
    (t := ({ s with hid := { s.hid with pollCnt := 0 } } : State).goto (.trig .readMode))
    (fun fs => exec_run_clear (s := s.facing fs) h.ready) ⟨h.busy, h.cmd, ⟨rfl, h.ready.2⟩, h.abort⟩
    (by constructor <;> rfl) rfl
  obtain ⟨t, read⟩ := onward_readMode (n := n) clear.active hn hm
  obtain ⟨u, write⟩ := onward_writeForce (n := n + 1) read.active (by rw [read.trace, clear.trace, hn])
  exact ⟨u, clear.append (read.append write)⟩

end

end Sys2Proof.Machine
end

section
/-! PROOFS. One good sample of a RUN: its reading and its compensation (O58). -/

namespace Sys2Proof.Machine

section

variable {s : State} {n : Nat}

/-! ### The reading (R311, R312 43_acquisition.md) -/

theorem exec_run_read (h : s.ready (.raw .read)) (ha : s.status.abortPend = false) :
    exec .run s = .next ((s.issue (.read 0x1F 8)).goto (.raw .got)) := by
  rw [exec_run_raw h, rawStep, issueAt_go ha]
  rfl

/-- The use of the reading's bytes. -/
def State.gotRaw (s : State) (raw : Raw) : State :=
  enterCompensating { s.busQuiet with raw := raw, status := { s.status with tfValid := false } }

theorem exec_run_got {q : BusReq} {b : List Byte} {raw : Raw} (h : s.ready (.raw .got))
    (hb : s.hid.bus = .answered q (.bytes b)) (hraw : Raw.assemble b = raw) : exec .run s = .next (s.gotRaw raw) := by
  rw [exec_run_raw h, rawStep, onRead_bytes hb, hraw]
  rfl

/-- The whole READRAW body, and RUN goes on to COMPENSATING. -/
theorem onward_read (h : Active .run (.raw .read) s) (hn : n = s.env.trace.length) {b : List Byte} (h8 : b.length = 8)
    {raw : Raw} (hraw : Raw.assemble b = raw) :
    ∃ t, Onward (exchange n (.bytes b)) 1 (.comp .temp) s t ∧ t.raw = raw := by
  let u := (s.issue (.read 0x1F 8)).goto (.raw .got)
  have ready : u.ready (.raw .got) := ⟨rfl, h.ready.2⟩
  have answered := h.exchange (n := n) (u := u) (q := .raw .got) (r := .read 0x1F 8) (resp := .bytes b)
    (t := (u.answeredBy (.read 0x1F 8) (.bytes b)).gotRaw raw) ⟨h.busy, h.cmd, ready, h.abort⟩ rfl rfl
    (by simpa [BusResp.fits] using h8) hn (fun fs => exec_run_read (s := s.facing fs) h.ready h.abort)
    fun fs => exec_run_got (q := .read 0x1F 8) ready rfl hraw
  exact ⟨_, ⟨answered, ⟨h.busy, h.cmd, ⟨rfl, h.ready.2⟩, h.abort⟩, by constructor <;> rfl, List.length_append⟩, rfl⟩

/-! ### The compensation (R275, R284, R291 42_compensation.md) -/

/-- A register holds a number of 64 bits. -/
theorem toInt_ofInt_of_inInt64 {v : Int} (h : inInt64 v = true) : (BitVec.ofInt 64 v).toInt = v := by
  rw [BitVec.toInt_ofInt, bmod_of_inInt64 h]

theorem toInt_ofInt_fine {tf : Int} (h : fineInRange tf) : (BitVec.ofInt 64 tf).toInt = tf :=
  toInt_ofInt_of_inInt64 (inInt64_iff.2 (by omega))

theorem toInt_ofInt_temp {tf : Int} (h : fineInRange tf) : (BitVec.ofInt 64 (plainTemp tf)).toInt = plainTemp tf := by
  obtain ⟨lo, hi⟩ := plainTemp_range h
  exact toInt_ofInt_of_inInt64 (inInt64_iff.2 (by omega))

/-- A pressure without overflow is a number of 64 bits. -/
theorem toInt_ofInt_press {c : Cal} {raw tf : Int} (h : pressureFits c raw tf = true) :
    (BitVec.ofInt 64 (plainPressure c raw tf)).toInt = plainPressure c raw tf := by
  refine toInt_ofInt_of_inInt64 ?_
  simp only [pressureFits, List.all_cons, Bool.and_eq_true] at h
  simp only [plainPressure]
  tauto

/-- The COMPT body with a valid calibration. -/
theorem comptBody_eq {π : Type} (hc : s.status.calValid = true) : (comptBody s : Flow π) =
    .done { s with
      res := { s.res with
        tFine := BitVec.ofInt 64 (plainFine s.cal s.raw.t.toNat)
        compT := BitVec.ofInt 64 (plainTemp (plainFine s.cal s.raw.t.toNat)) }
      status := { s.status with tfValid := true } } := by
  rw [comptBody, needCal, if_pos hc, ctFine_eq]
  dsimp only
  rw [(tempScaled_within (plainFine_inRange s.cal s.raw.t)).eq]
  exact congrArg Flow.done (State.withOvf_false _)

/-- The COMPP body of a sample with a divisor and no overflow. -/
theorem comppBody_eq {π : Type} {tf : Int} (hc : s.status.calValid = true) (ht : s.status.tfValid = true)
    (htf : s.res.tFine = BitVec.ofInt 64 tf) (hf : fineInRange tf) (hd : plainDivisor s.cal tf ≠ 0)
    (fits : pressureFits s.cal s.raw.p.toNat tf = true) : (comppBody s : Flow π) =
    .done { s with res := { s.res with compP := BitVec.ofInt 64 (plainPressure s.cal s.raw.p.toNat tf) } } := by
  obtain ⟨hovf, hval⟩ := cpAfter_exactIf s.cal s.raw.p.toNat tf
  rw [comppBody, needCal, if_pos hc, needTfine, if_pos ht, signed, htf, toInt_ofInt_fine hf, cp_eq_value s.cal s.raw.p hf hd]
  simp only [hovf, fits, Checked.toReg, hval fits, Bool.not_true, State.withOvf_false]

/-- The COMPH body while T_FINE is in its range. -/
theorem comphBody_eq {π : Type} {tf : Int} (hc : s.status.calValid = true) (ht : s.status.tfValid = true)
    (htf : s.res.tFine = BitVec.ofInt 64 tf) (hf : fineInRange tf) : (comphBody s : Flow π) =
    .done { s with res := { s.res with compH := (chum s.cal (unsigned s.raw.h) (.lit tf)).toReg } } := by
  rw [comphBody, needCal, if_pos hc, needTfine, if_pos ht, signed, htf, toInt_ofInt_fine hf]
  dsimp only
  rw [chum_ovf s.cal s.raw.h hf, State.withOvf_false]

theorem finishSample_done {π : Type} {own : ErrCode} {here : π → Point} {after : State → State} {t : State} :
    finishSample own here after s (.done t) = .next (after t) := rfl

theorem finishSample_goto {π : Type} {own : ErrCode} {here : π → Point} {after : State → State} {p : π} {t : State} :
    finishSample own here after s (.goto p t) = .next (t.goto (here p)) := rfl

/-- The temperature of a sample. -/
theorem onward_compTemp (h : Active .run (.comp .temp) s) (hc : s.status.calValid = true) {tf : Int}
    (htf : plainFine s.cal s.raw.t.toNat = tf) : ∃ t, Onward [.engine] 0 (.comp .press) s t ∧
      t.status.tfValid = true ∧ t.raw = s.raw ∧ t.res.tFine = BitVec.ofInt 64 tf ∧
      t.res.compT = BitVec.ofInt 64 (plainTemp tf) := by
  subst htf
  refine ⟨_, h.onward (q := .comp .press) (t := ({ s with
    res := { s.res with
      tFine := BitVec.ofInt 64 (plainFine s.cal s.raw.t.toNat)
      compT := BitVec.ofInt 64 (plainTemp (plainFine s.cal s.raw.t.toNat)) }
    status := { s.status with tfValid := true } } : State).goto (.comp .press)) (fun fs => ?_)
    ⟨h.busy, h.cmd, ⟨rfl, h.ready.2⟩, h.abort⟩ (by constructor <;> rfl) rfl, rfl, rfl, rfl, rfl⟩
  rw [exec_run_comp (s := s.facing fs) h.ready, compStep, comptBody_eq (s := s.facing fs) hc, Flow.andThen, finishSample_goto]
  rfl

variable {tf : Int} (hc : s.status.calValid = true) (ht : s.status.tfValid = true)
  (htf : s.res.tFine = BitVec.ofInt 64 tf) (hf : fineInRange tf)
include hc ht htf hf

/-- The pressure of a sample with a divisor and no overflow. -/
theorem onward_compPress (h : Active .run (.comp .press) s) (hd : plainDivisor s.cal tf ≠ 0)
    (fits : pressureFits s.cal s.raw.p.toNat tf = true) : ∃ t, Onward [.engine] 0 (.comp .hum) s t ∧
      t.status.tfValid = true ∧ t.res.tFine = s.res.tFine ∧ t.res.compT = s.res.compT ∧
      t.res.compP = BitVec.ofInt 64 (plainPressure s.cal s.raw.p.toNat tf) := by
  refine ⟨_, h.onward (q := .comp .hum) (t := ({ s with
    res := { s.res with compP := BitVec.ofInt 64 (plainPressure s.cal s.raw.p.toNat tf) } } : State).goto (.comp .hum))
    (fun fs => ?_) ⟨h.busy, h.cmd, ⟨rfl, h.ready.2⟩, h.abort⟩ (by constructor <;> rfl) rfl, ht, rfl, rfl, rfl⟩
  rw [exec_run_comp (s := s.facing fs) h.ready, compStep, comppBody_eq (s := s.facing fs) hc ht htf hf hd fits, Flow.andThen,
    finishSample_goto]
  rfl

/-- The humidity of a sample, after which RUN goes on to AGGREGATING. -/
theorem onward_compHum (h : Active .run (.comp .hum) s) : ∃ t, Onward [.engine] 0 (.run .aggAcc) s t ∧
    t.res.compT = s.res.compT ∧ t.res.compP = s.res.compP := by
  obtain ⟨v, hv⟩ : ∃ v, v = (chum s.cal (unsigned s.raw.h) (.lit tf)).toReg := ⟨_, rfl⟩
  refine ⟨_, h.onward (q := .run .aggAcc) (t := enterAggregating { s with res := { s.res with compH := v } })
    (fun fs => ?_) ⟨h.busy, h.cmd, ⟨rfl, h.ready.2⟩, h.abort⟩ (by constructor <;> rfl) rfl, rfl, rfl⟩
  rw [exec_run_comp (s := s.facing fs) h.ready, compStep, comphBody_eq (s := s.facing fs) hc ht htf hf, finishSample_done]
  simp only [State.facing, ← hv]
  rfl

end

/-- The whole compensation of a good sample. -/
theorem onward_compensation {s : State} {x : Sample} (h : Active .run (.comp .temp) s) (hc : s.status.calValid = true)
    (hraw : s.raw = x.raw) (good : x.Good s.cal) : ∃ t, Onward [.engine, .engine, .engine] 0 (.run .aggAcc) s t ∧
      t.res.compT = BitVec.ofInt 64 (x.temp s.cal) ∧ t.res.compP = BitVec.ofInt 64 (x.press s.cal) := by
  obtain ⟨-, -, hd, fits⟩ := good
  have hf : fineInRange (x.fine s.cal) := plainFine_inRange s.cal x.raw.t
  obtain ⟨t, temp, ht, htr, htf, htemp⟩ := onward_compTemp (tf := x.fine s.cal) h hc (by rw [hraw]; rfl)
  have htc := temp.same.cal
  obtain ⟨u, press, hu, huf, hut, hup⟩ := onward_compPress (temp.same.calValid.trans hc) ht htf hf temp.active
    (by rwa [htc]) (by rwa [htr, htc, hraw])
  obtain ⟨v, hum, hvt, hvp⟩ := onward_compHum ((temp.append press).same.calValid.trans hc) hu (huf.trans htf) hf
    press.active
  exact ⟨v, temp.append (press.append hum), by rw [hvt, hut, htemp]; rfl, by rw [hvp, hup, htr, htc, hraw]; rfl⟩

end Sys2Proof.Machine
end

section
/-! PROOFS. The sampling loop of a RUN over good samples (O58). -/

namespace Sys2Proof.Machine

/-! ### Accumulation and records (R319, R350, R351 43_acquisition.md) -/

/-- The state after the sink has accepted `r`. -/
def State.recorded (s : State) (r : Record) : State :=
  { s with env := { s.env with sinkLog := s.env.sinkLog ++ [r] } }

section

variable {s : State}

theorem outPend_of_none (h : s.hid.outPend = none) : ({ s with hid := { s.hid with outPend := none } } : State) = s := by
  rw [← h]

/-- A step of RUN that offers a record, and the sink's acceptance. -/
theorem Active.leads_record {p q : Point} {t : Tag} {v : Word64} (h : Active .run p s)
    (he : ∀ fs, exec .run (s.facing fs) = .next (((s.emit t v).goto q).facing fs)) :
    Leads [.engine, .sinkAccept] s ((s.recorded ⟨t, v⟩).goto q) := by
  have accepts : Does .sinkAccept ((s.emit t v).goto q) ((s.recorded ⟨t, v⟩).goto q) := fun fs => by
    rw [eventStep, sinkStep, show (((s.emit t v).goto q).facing fs).hid.outPend = some ⟨t, v⟩ from rfl]
    conv_rhs => rw [← outPend_of_none h.ready.2]
    rfl
  exact .cons (h.does he) (.one accepts)

/-- The state after AGGACC has added one sample. -/
def State.accumulated (s : State) : State :=
  { s with agg := { s.agg with
      accT := accumulate s.agg.accT (toF64 s.agg.nAgg.toNat) s.res.compT.toInt
      accP := accumulate s.agg.accP (toF64 s.agg.nAgg.toNat) s.res.compP.toInt
      validCnt := s.agg.validCnt + 1 } }

theorem exec_run_aggAcc (h : s.ready (.run .aggAcc)) (hn : s.agg.nAgg ≠ 0) :
    exec .run s = .next (s.accumulated.goto (.run .emitT)) := by
  rw [exec_run_run h, runStep, aggaccBody, if_neg hn]
  rfl

theorem exec_run_sampleEnd (h : s.ready (.run .sampleEnd)) :
    exec .run s = .next (enterLoop (s.hid.pos.sample.getD 0 + 1) s) := by
  rw [exec_run_run h]
  rfl

theorem enterLoop_facing (i : Nat) (fs : List Event) : enterLoop i (s.facing fs) = (enterLoop i s).facing fs := by
  simp only [enterLoop, show (s.facing fs).hid.lN = s.hid.lN from rfl]
  split <;> rfl

end

/-! ### One sample -/

/-- The sampling loop runs with a valid calibration and a window, and nothing is in its way. -/
structure Sampling (s : State) : Prop where
  busy : s.status.busy = true
  cmd : decode s.hid.cmdCur = .legal .run
  offer : s.hid.outPend = none
  abort : s.status.abortPend = false
  calValid : s.status.calValid = true
  window : s.agg.nAgg ≠ 0

/-- From `s` to `t` the good samples `xs` have been added to the aggregator and sent to the sink, and of what a RUN keeps
nothing else has changed. -/
structure Sampled (xs : List Sample) (s t : State) : Prop where
  err : t.status.err = s.status.err
  ovf : t.status.ovf = s.status.ovf
  calValid : t.status.calValid = s.status.calValid
  ctl : t.ctl = s.ctl
  cal : t.cal = s.cal
  nAgg : t.agg.nAgg = s.agg.nAgg
  lN : t.hid.lN = s.hid.lN
  lSdelay : t.hid.lSdelay = s.hid.lSdelay
  lSettle : t.hid.lSettle = s.hid.lSettle
  validCnt : t.agg.validCnt = s.agg.validCnt + BitVec.ofNat 32 xs.length
  accT : t.agg.accT = xs.foldl (fun acc x => accumulate acc (toF64 s.agg.nAgg.toNat) (x.temp s.cal)) s.agg.accT
  accP : t.agg.accP = xs.foldl (fun acc x => accumulate acc (toF64 s.agg.nAgg.toNat) (x.press s.cal)) s.agg.accP
  sinkLog : t.env.sinkLog = s.env.sinkLog ++ xs.flatMap (Sample.records s.cal)
  trace : t.env.trace.length = s.env.trace.length + 3 * xs.length

theorem Sampled.nil (s : State) : Sampled [] s s := by
  constructor <;> simp

theorem Sampled.cons {x : Sample} {xs : List Sample} {s t u : State} (h : Sampled [x] s t) (h' : Sampled xs t u) :
    Sampled (x :: xs) s u where
  err := h'.err.trans h.err
  ovf := h'.ovf.trans h.ovf
  calValid := h'.calValid.trans h.calValid
  ctl := h'.ctl.trans h.ctl
  cal := h'.cal.trans h.cal
  nAgg := h'.nAgg.trans h.nAgg
  lN := h'.lN.trans h.lN
  lSdelay := h'.lSdelay.trans h.lSdelay
  lSettle := h'.lSettle.trans h.lSettle
  validCnt := by
    rw [h'.validCnt, h.validCnt, BitVec.add_assoc, ← BitVec.ofNat_add, List.length_cons, Nat.add_comm]
    rfl
  accT := by rw [h'.accT, h.accT, h.nAgg, h.cal]; rfl
  accP := by rw [h'.accP, h.accP, h.nAgg, h.cal]; rfl
  sinkLog := by rw [h'.sinkLog, h.sinkLog, h.cal]; simp
  trace := by rw [h'.trace, h.trace]; simp; omega

section

variable {s : State} {n i : Nat} {x : Sample}

theorem active_enterDelaying (h : Sampling s) : Active .run (.run .delayLoad) (enterDelaying i s) :=
  ⟨h.busy, h.cmd, ⟨rfl, h.offer⟩, h.abort⟩

/-- A good sample from its delay to its compensation. -/
theorem onward_sample (h : Active .run (.run .delayLoad) s) (hc : s.status.calValid = true) (hn : n = s.env.trace.length)
    (good : x.Good s.cal) : ∃ t, Onward (.engine :: waiting s.hid.lSdelay.toNat ++
        ([.engine] ++ (exchange n (.bytes [x.mode]) ++ exchange (n + 1) .ok)) ++
        (.engine :: waiting s.hid.lSettle.toNat) ++ exchange (n + 2) (.bytes x.data) ++ [.engine, .engine, .engine])
      3 (.run .aggAcc) s t ∧
      t.res.compT = BitVec.ofInt 64 (x.temp s.cal) ∧ t.res.compP = BitVec.ofInt 64 (x.press s.cal) := by
  have ⟨hmode, h8, _⟩ := good
  obtain ⟨a, delay⟩ := onward_delay h
  obtain ⟨b, trigger⟩ := onward_trigger (n := n) delay.active (by rw [delay.trace, hn]; rfl) hmode
  have toB := delay.append trigger
  obtain ⟨c, settle⟩ := onward_settle toB.active
  have toC := toB.append settle
  obtain ⟨d, read, hraw⟩ := onward_read (n := n + 2) (b := x.data) toC.active (by rw [toC.trace, hn]) h8 rfl
  have toD := toC.append read
  obtain ⟨e, comp, ht, hp⟩ := onward_compensation toD.active (toD.same.calValid.trans hc) hraw (by rwa [toD.same.cal])
  rw [toD.same.cal] at ht hp
  rw [toB.same.lSettle] at toD
  exact ⟨e, toD.append comp, ht, hp⟩

/-- The state after a sample has been accumulated and its two records accepted. -/
def State.aggregated (s : State) : State :=
  (((s.accumulated.recorded ⟨.sampleT, s.res.compT⟩).recorded ⟨.sampleP, s.res.compP⟩)).goto (.run .sampleEnd)

/-- The accumulation of a sample and its two records, after which the loop goes on. -/
theorem leads_aggregation (h : Active .run (.run .aggAcc) s) (hn : s.agg.nAgg ≠ 0) (hi : s.hid.pos.sample = some i) :
    Leads [.engine, .engine, .sinkAccept, .engine, .sinkAccept, .engine] s (enterLoop (i + 1) s.aggregated) := by
  let a := s.accumulated.goto (.run .emitT)
  let b := (a.recorded ⟨.sampleT, s.res.compT⟩).goto (.run .emitP)
  have ha : Active .run (.run .emitT) a := ⟨h.busy, h.cmd, ⟨rfl, h.ready.2⟩, h.abort⟩
  have hb : Active .run (.run .emitP) b := ⟨h.busy, h.cmd, ⟨rfl, h.ready.2⟩, h.abort⟩
  have hend : Active .run (.run .sampleEnd) s.aggregated := ⟨h.busy, h.cmd, ⟨rfl, h.ready.2⟩, h.abort⟩
  have accumulates : Does .engine s a := h.does fun fs => exec_run_aggAcc (s := s.facing fs) h.ready hn
  have first : Leads [.engine, .sinkAccept] a b := ha.leads_record fun fs => exec_run_run (s := a.facing fs) ha.ready
  have second : Leads [.engine, .sinkAccept] b s.aggregated :=
    hb.leads_record fun fs => exec_run_run (s := b.facing fs) hb.ready
  have goesOn : Does .engine s.aggregated (enterLoop (i + 1) s.aggregated) := hend.does fun fs => by
    rw [exec_run_sampleEnd (s := s.aggregated.facing fs) hend.ready,
      show (s.aggregated.facing fs).hid.pos.sample = some i from hi, enterLoop_facing]
    rfl
  exact .cons accumulates (first.append (second.append (.one goesOn)))

/-- A good sample. -/
theorem leads_sample (h : Sampling s) (hn : n = s.env.trace.length) (good : x.Good s.cal) :
    ∃ t, Leads (sampleEvents s.hid.lSdelay.toNat s.hid.lSettle.toNat n x) (enterDelaying i s) (enterLoop (i + 1) t) ∧
      Sampling t ∧ Sampled [x] s t ∧ t.agg.sampleIdx = BitVec.ofNat 16 (i + 1) := by
  obtain ⟨t, onward, ht, hp⟩ := onward_sample (active_enterDelaying (i := i) h) h.calValid hn good
  have same := onward.same
  have hagg : t.agg = (enterDelaying i s).agg := same.agg
  have hnAgg : t.agg.nAgg = s.agg.nAgg := by rw [hagg]; rfl
  have hnz : t.agg.nAgg ≠ 0 := by rw [hnAgg]; exact h.window
  have active := onward.active
  have whole := onward.leads.append (leads_aggregation active hnz same.sample)
  refine ⟨t.aggregated, by simpa [sampleEvents] using whole,
    ⟨active.busy, active.cmd, active.ready.2, active.abort, same.calValid.trans h.calValid, hnz⟩, ?_,
    by exact congrArg Agg.sampleIdx hagg⟩
  obtain ⟨-, -, -, fits⟩ := good
  have hfine := plainFine_inRange s.cal x.raw.t
  have temp : t.res.compT.toInt = x.temp s.cal := by rw [ht]; exact toInt_ofInt_temp hfine
  have press : t.res.compP.toInt = x.press s.cal := by rw [hp]; exact toInt_ofInt_press fits
  exact
    { err := same.err, ovf := same.ovf, calValid := same.calValid, ctl := same.ctl, cal := same.cal, nAgg := hnAgg
      lN := same.lN, lSdelay := same.lSdelay, lSettle := same.lSettle
      validCnt := by
        change t.agg.validCnt + 1 = _
        rw [hagg]; rfl
      accT := by
        change accumulate t.agg.accT (toF64 t.agg.nAgg.toNat) t.res.compT.toInt = _
        rw [temp, hagg]; rfl
      accP := by
        change accumulate t.agg.accP (toF64 t.agg.nAgg.toNat) t.res.compP.toInt = _
        rw [press, hagg]; rfl
      sinkLog := by
        change t.env.sinkLog ++ [⟨.sampleT, t.res.compT⟩] ++ [⟨.sampleP, t.res.compP⟩] = _
        rw [ht, hp, same.sinkLog, List.append_assoc]; rfl
      trace := onward.trace }

/-! ### The whole loop -/

theorem enterLoop_of_lt (h : i < s.hid.lN.toNat) : enterLoop i s = enterDelaying i s := if_pos h

theorem enterLoop_of_eq (h : i = s.hid.lN.toNat) : enterLoop i s = enterFinalizing s := if_neg (by omega)

/-- The loop over the good samples `xs`, the last of the window. -/
theorem leads_loop {xs : List Sample} (h : Sampling s) (hn : n = s.env.trace.length) (good : ∀ x ∈ xs, x.Good s.cal)
    (hi : i + xs.length = s.hid.lN.toNat) (hidx : s.agg.sampleIdx = BitVec.ofNat 16 i) :
    ∃ t, Leads (loopEvents s.hid.lSdelay.toNat s.hid.lSettle.toNat n xs) (enterLoop i s) (enterFinalizing t) ∧
      Sampling t ∧ Sampled xs s t ∧ t.agg.sampleIdx = BitVec.ofNat 16 (i + xs.length) := by
  induction xs generalizing s n i with
  | nil => exact ⟨s, by rw [enterLoop_of_eq (i := i) hi]; exact .nil _, h, .nil s, hidx⟩
  | cons x xs ih =>
    rw [List.length_cons] at hi
    obtain ⟨hx, hxs⟩ := List.forall_mem_cons.1 good
    obtain ⟨t, leads, ht, sampled, hidx'⟩ := leads_sample (i := i) h hn hx
    obtain ⟨u, rest, hu, sampled', hidx''⟩ := ih (n := n + 3) (i := i + 1) ht (by rw [sampled.trace, hn]; rfl)
      (by rwa [sampled.cal]) (by rw [sampled.lN]; omega) hidx'
    rw [sampled.lSdelay, sampled.lSettle] at rest
    refine ⟨u, ?_, hu, sampled.cons sampled', by rw [hidx'', List.length_cons, Nat.add_right_comm, Nat.add_assoc]⟩
    rw [enterLoop_of_lt (by omega), loopEvents]
    exact leads.append rest

end

end Sys2Proof.Machine
end

section
/-! PROOFS. A RUN of good samples from its acceptance to DONE (O58). -/

namespace Sys2Proof.Machine

section

variable {s : State} {n : Nat}

/-! ### The end of the run (R346, R347 43_acquisition.md) -/

/-- The state after AGGFIN with every sample of the window valid. -/
def State.finished (s : State) : State :=
  { s with
    agg := { s.agg with rmsT := sqrtF64 s.agg.accT, rmsP := sqrtF64 s.agg.accP }
    status := { s.status with aggDone := true } }

theorem exec_run_aggFin (h : s.ready (.run .aggFin)) (hn : s.agg.nAgg ≠ 0)
    (hv : s.agg.validCnt.toNat = s.agg.nAgg.toNat) : exec .run s = .next (s.finished.goto (.run .emitRmsT)) := by
  have hvz : s.agg.validCnt ≠ 0 := fun hz => hn (BitVec.eq_of_toNat_eq (by rw [← hv, hz]; rfl))
  have hrms (acc : Word64) : rms acc s.agg.nAgg s.agg.validCnt = sqrtF64 acc := if_pos hv
  rw [exec_run_run h, runStep, aggfinBody, if_neg hn, if_neg hvz, hrms, hrms]
  rfl

/-- The state after the two RMS records have been accepted. -/
def State.reported (s : State) : State :=
  (((s.finished.recorded ⟨.rmsT, s.finished.agg.rmsT⟩).recorded ⟨.rmsP, s.finished.agg.rmsP⟩)).goto (.run .final2Load)

/-- AGGFIN and the two RMS records. -/
theorem leads_report (h : Active .run (.run .aggFin) s) (hn : s.agg.nAgg ≠ 0)
    (hv : s.agg.validCnt.toNat = s.agg.nAgg.toNat) :
    Leads [.engine, .engine, .sinkAccept, .engine, .sinkAccept] s s.reported := by
  let a := s.finished.goto (.run .emitRmsT)
  let b := (a.recorded ⟨.rmsT, s.finished.agg.rmsT⟩).goto (.run .emitRmsP)
  have ha : Active .run (.run .emitRmsT) a := ⟨h.busy, h.cmd, ⟨rfl, h.ready.2⟩, h.abort⟩
  have hb : Active .run (.run .emitRmsP) b := ⟨h.busy, h.cmd, ⟨rfl, h.ready.2⟩, h.abort⟩
  have finishes : Does .engine s a := h.does fun fs => exec_run_aggFin (s := s.facing fs) h.ready hn hv
  have first : Leads [.engine, .sinkAccept] a b := ha.leads_record fun fs => exec_run_run (s := a.facing fs) ha.ready
  have second : Leads [.engine, .sinkAccept] b s.reported :=
    hb.leads_record fun fs => exec_run_run (s := b.facing fs) hb.ready
  exact .cons finishes (first.append second)

/-- What a completed RUN over the good samples `xs` leaves, `s` being the state in which it was configured. -/
structure RunDone (xs : List Sample) (s t : State) : Prop where
  busy : t.status.busy = false
  fsm : t.status.fsm = .done
  err : t.status.err = s.status.err
  aggDone : t.status.aggDone = true
  calValid : t.status.calValid = s.status.calValid
  ovf : t.status.ovf = s.status.ovf
  validCnt : t.agg.validCnt.toNat = xs.length
  nAgg : t.agg.nAgg = s.hid.lN
  sampleIdx : t.agg.sampleIdx = s.hid.lN
  cal : t.cal = s.cal
  ctl : t.ctl = s.ctl
  sinkLog : t.env.sinkLog =
    s.env.sinkLog ++ xs.flatMap (Sample.records s.cal) ++ [⟨.rmsT, t.agg.rmsT⟩, ⟨.rmsP, t.agg.rmsP⟩]
  rmsT : t.agg.rmsT = sqrtF64 (xs.foldl (fun acc x => accumulate acc (toF64 xs.length) (x.temp s.cal)) 0)
  rmsP : t.agg.rmsP = sqrtF64 (xs.foldl (fun acc x => accumulate acc (toF64 xs.length) (x.press s.cal)) 0)

/-- The run from FINALIZING to DONE. -/
theorem leads_finalizing (h : Sampling s) (hv : s.agg.validCnt.toNat = s.agg.nAgg.toNat) : ∃ t,
    Leads (.engine :: waiting s.hid.lSettle.toNat ++ [.engine, .engine, .sinkAccept, .engine, .sinkAccept, .engine] ++
      waiting s.hid.lSettle.toNat) (enterFinalizing s) t ∧
    t.status.busy = false ∧ t.status.fsm = .done ∧ t.status.aggDone = true ∧ t.status.err = s.status.err ∧
    t.status.ovf = s.status.ovf ∧ t.status.calValid = s.status.calValid ∧ t.ctl = s.ctl ∧ t.cal = s.cal ∧
    t.agg = s.finished.agg ∧ t.env.sinkLog = s.env.sinkLog ++ [⟨.rmsT, t.agg.rmsT⟩, ⟨.rmsP, t.agg.rmsP⟩] := by
  have active : Active .run (.run .final1Load) (enterFinalizing s) := ⟨h.busy, h.cmd, ⟨rfl, h.offer⟩, h.abort⟩
  obtain ⟨t, settled⟩ := onward_final1 active
  have same := settled.same
  have hagg : t.agg = s.agg := same.agg
  have report := leads_report settled.active (by rw [hagg]; exact h.window) (by rw [hagg]; exact hv)
  have hat := settled.active
  have ended := leads_wait (s := t.reported) (k := .final2) nofun (fun _ _ => rfl)
    ⟨hat.busy, hat.cmd, ⟨rfl, hat.ready.2⟩, hat.abort⟩
  rw [show latchOf .final2 t.reported = s.hid.lSettle from same.lSettle] at ended
  have whole := settled.leads.append (report.append ended)
  refine ⟨afterWait .final2 ((t.reported.loadDelay 0).goto (.wait .final2 .top)), by simpa using whole, rfl, rfl, rfl,
    same.err, same.ovf, same.calValid, same.ctl, same.cal, ?_, ?_⟩
  · change t.finished.agg = s.finished.agg
    rw [State.finished, State.finished, hagg]
  · change t.env.sinkLog ++ [_] ++ [_] = _
    rw [same.sinkLog, List.append_assoc]
    rfl

/-! ### From AGGCLR to DONE -/

/-- The state after AGGCLR for the window of the run. -/
def State.cleared (s : State) : State :=
  { s with
    agg := { s.agg with nAgg := s.hid.lN, accT := 0, accP := 0, rmsT := 0, rmsP := 0, validCnt := 0 }
    status := { s.status with aggDone := false } }

theorem exec_run_aggClr (h : s.ready (.run .aggClr)) (hw : s.hid.lN ≠ 0) : exec .run s = .next (enterLoop 0 s.cleared) := by
  have ok : badWindow s.hid.lN = false := by simpa using mt (badWindow_iff _).1 hw
  rw [exec_run_run h, runStep, aggclrBody, ok]
  rfl

/-- The sampling loop and the end of the run. -/
theorem leads_sampling {xs : List Sample} (h : Active .run (.run .aggClr) s) (hc : s.status.calValid = true)
    (hw : s.hid.lN ≠ 0) (hn : n = s.env.trace.length) (hlen : xs.length = s.hid.lN.toNat) (hidx : s.agg.sampleIdx = 0)
    (good : ∀ x ∈ xs, x.Good s.cal) : ∃ t,
    Leads (.engine :: loopEvents s.hid.lSdelay.toNat s.hid.lSettle.toNat n xs ++ (.engine :: waiting s.hid.lSettle.toNat ++
      [.engine, .engine, .sinkAccept, .engine, .sinkAccept, .engine] ++ waiting s.hid.lSettle.toNat)) s t ∧
    RunDone xs s t := by
  have clear : Does .engine s (enterLoop 0 s.cleared) := h.does fun fs => by
    rw [exec_run_aggClr (s := s.facing fs) h.ready hw]
    exact congrArg _ (enterLoop_facing (s := s.cleared) 0 fs)
  obtain ⟨t, loop, ht, sampled, htidx⟩ := leads_loop (s := s.cleared) (n := n) (i := 0) (xs := xs)
    ⟨h.busy, h.cmd, h.ready.2, h.abort, hc, hw⟩ hn good (by rw [Nat.zero_add]; exact hlen) hidx
  have hcnt : t.agg.validCnt.toNat = xs.length := by
    rw [sampled.validCnt, show s.cleared.agg.validCnt = 0 from rfl]
    simp
    omega
  have hnAgg : t.agg.nAgg = s.hid.lN := sampled.nAgg
  obtain ⟨u, final, hbusy, hfsm, hdone, herr, hovf, hcal, hctl, hfile, hagg, hlog⟩ :=
    leads_finalizing ht (by rw [hcnt, hnAgg, hlen])
  rw [sampled.lSettle] at final
  have hterm : s.cleared.agg.nAgg.toNat = xs.length := hlen.symm
  refine ⟨u, (Leads.cons clear loop).append final, ?_⟩
  exact
    { busy := hbusy, fsm := hfsm, aggDone := hdone, err := herr.trans sampled.err, ovf := hovf.trans sampled.ovf
      calValid := hcal.trans sampled.calValid, cal := hfile.trans sampled.cal, ctl := hctl.trans sampled.ctl
      validCnt := by rw [hagg]; exact hcnt
      nAgg := by rw [hagg]; exact hnAgg
      sampleIdx := by
        rw [hagg]
        refine htidx.trans ?_
        rw [Nat.zero_add, hlen, BitVec.ofNat_toNat, BitVec.setWidth_eq]
      sinkLog := by rw [hlog, sampled.sinkLog]; rfl
      rmsT := by rw [hagg, State.finished, sampled.accT, hterm]; rfl
      rmsP := by rw [hagg, State.finished, sampled.accP, hterm]; rfl }

end

end Sys2Proof.Machine
end

section
/-! PROOFS. A whole RUN of good samples, and the ticks of its schedule (O58). -/

namespace Sys2Proof.Machine

/-! ### From acceptance to CFGOS (R341, R342 43_acquisition.md) -/

/-- RUN, accepted in `s`, stands in `t` before CFGOS, with calibration `c` valid, after `k` transactions. -/
structure Configured (c : Cal) (k : Nat) (s t : State) : Prop where
  active : Active .run (.os .readHum) t
  err : t.status.err = false
  ovf : t.status.ovf = s.status.ovf
  calValid : t.status.calValid = true
  ctl : t.ctl = s.ctl
  cal : t.cal = c
  lN : t.hid.lN = s.ctl.window
  lSdelay : t.hid.lSdelay = s.ctl.sampleDelay
  lSettle : t.hid.lSettle = s.ctl.settle
  sampleIdx : t.agg.sampleIdx = 0
  sinkLog : t.env.sinkLog = s.env.sinkLog
  trace : t.env.trace.length = s.env.trace.length + k

/-- The state after RUN's first step. -/
def State.latched (s : State) : State :=
  { s with
    status := { s.status with fsm := .configuring }
    agg := { s.agg with sampleIdx := 0 }
    hid := { s.hid with
      lN := s.ctl.window, lSdelay := s.ctl.sampleDelay, lSettle := s.ctl.settle, lBudget := s.ctl.pollBudget
      pos := ⟨if s.status.calValid = true then .os .readHum else .cal .invalidate, s.hid.pos.sample⟩ } }

section

variable {s : State} (hfree : s.free) (hw : s.ctl.window ≠ 0)
include hfree hw

/-- RUN is accepted and takes its first step. -/
theorem leads_run_latched : let t := ((accept (encode .run) s).answering (cmdWrite .run) .done).latched
    Leads (command .run [.engine]) s t ∧ Active .run t.hid.pos.point t := by
  obtain ⟨hb, -, ho⟩ := hfree
  have active := active_accept ho decode_encode_run (cmdWrite .run) .done
  exact ⟨.cons (does_cmdWrite hb decode_encode_run) (.one (active.does fun fs => exec_run_latches active.ready hw)),
    rfl, decode_encode_run, ⟨rfl, ho⟩, rfl⟩

/-- With a valid calibration RUN goes on to CFGOS. -/
theorem leads_configured (hc : s.status.calValid = true) :
    ∃ t, Leads (command .run [.engine]) s t ∧ Configured s.cal 0 s t := by
  obtain ⟨leads, active⟩ := leads_run_latched hfree hw
  have point : (if s.status.calValid = true then Point.os .readHum else .cal .invalidate) = .os .readHum := if_pos hc
  exact ⟨_, leads,
    { active := ⟨active.busy, active.cmd, ⟨point, active.ready.2⟩, active.abort⟩
      err := rfl, ovf := rfl, calValid := hc, ctl := rfl, cal := rfl, lN := rfl, lSdelay := rfl, lSettle := rfl
      sampleIdx := rfl, sinkLog := rfl, trace := rfl }⟩

/-- Without one RUN loads it first. -/
theorem leads_configured_load (hc : s.status.calValid ≠ true) {b1 b2 b3 : List Byte} (h1 : b1.length = 23)
    (h2 : b2.length = 14) (h3 : b3.length = 3) :
    ∃ t, Leads (command .run ([.engine] ++ loadcalEvents s.env.trace.length b1 b2 b3)) s t ∧
      Configured (Cal.assemble b1 b2 b3) 3 s t := by
  obtain ⟨leads, active⟩ := leads_run_latched hfree hw
  have point : (if s.status.calValid = true then Point.os .readHum else .cal .invalidate) = .cal .invalidate := if_neg hc
  let t := ((accept (encode .run) s).answering (cmdWrite .run) .done).latched
  let u := t.invalidated.goto (.cal .read1)
  have invalidates : Does .engine t u := active.does fun fs =>
    runsBody_run_cal (t.facing fs) (t.invalidated.facing fs) .invalidate .read1 ⟨point, active.ready.2⟩ rfl
  have hu : Active .run (.cal .read1) u := ⟨active.busy, active.cmd, ⟨rfl, active.ready.2⟩, active.abort⟩
  have reads := leads_cal_reads (g := fun x => x.goto (.os .readHum)) (n := s.env.trace.length) runsBody_run_cal hu rfl h1 h2
    h3 (fun _ _ => rfl) fun _ hx hb => exec_run_got3 hx hb
  have whole := leads.append (Leads.cons invalidates reads)
  exact ⟨_, whole,
    { active := ⟨active.busy, active.cmd, ⟨rfl, active.ready.2⟩, active.abort⟩
      err := rfl, ovf := rfl, calValid := rfl, ctl := rfl, cal := rfl, lN := rfl, lSdelay := rfl, lSettle := rfl
      sampleIdx := rfl, sinkLog := rfl, trace := List.length_append }⟩

end

/-! ### The whole run -/

/-- The run after its calibration: CFGOS, CFGHTR, the sampling loop and the end. -/
theorem leads_runEvents {s t : State} {c : Cal} {k n : Nat} {load : List Event} {xs : List Sample}
    (ht : Configured c k s t) (hl : Leads (command .run (.engine :: load)) s t) (hw : s.ctl.window ≠ 0)
    (hlen : xs.length = s.ctl.window.toNat) (good : ∀ x ∈ xs, x.Good c) (hn : n = s.env.trace.length + k) (h m : Byte) :
    ∃ u, Leads (command .run (runEvents s.ctl.sampleDelay.toNat s.ctl.settle.toNat n load h m xs)) s u ∧
      RunDone xs t u := by
  have hnt : n = t.env.trace.length := by rw [ht.trace, hn]
  obtain ⟨a, os⟩ := onward_cfgos ht.active hnt h m
  obtain ⟨b, htr⟩ := onward_cfghtr (n := n + 4) os.active (os.same.calValid.trans ht.calValid) (by rw [os.trace, hnt])
  have conf := os.append htr
  have same := conf.same
  have hN : b.hid.lN = s.ctl.window := same.lN.trans ht.lN
  obtain ⟨u, sampling, done⟩ := leads_sampling (n := n + 7) (xs := xs) conf.active (same.calValid.trans ht.calValid)
    (by rwa [hN]) (by rw [conf.trace, hnt]) (by rw [hN, hlen]) (by rw [same.agg, ht.sampleIdx])
    (by rwa [same.cal, ht.cal])
  rw [same.lSdelay, ht.lSdelay, same.lSettle, ht.lSettle] at sampling
  have whole := (hl.append conf.leads).append sampling
  refine ⟨u, by simpa [command, runEvents] using whole, ?_⟩
  exact
    { done with
      err := done.err.trans same.err, calValid := done.calValid.trans same.calValid, ovf := done.ovf.trans same.ovf
      nAgg := done.nAgg.trans same.lN, sampleIdx := done.sampleIdx.trans same.lN, cal := done.cal.trans same.cal
      ctl := done.ctl.trans same.ctl
      sinkLog := by rw [done.sinkLog, same.sinkLog, same.cal]
      rmsT := by rw [done.rmsT, same.cal]
      rmsP := by rw [done.rmsP, same.cal] }

/-! ### The ticks of the schedule (R471 70_reset_and_hazards.md) -/

theorem tickCount_append (es fs : List Event) : tickCount (es ++ fs) = tickCount es + tickCount fs := List.countP_append

theorem tickCount_exchange (n : Nat) (r : BusResp) : tickCount (exchange n r) = 0 := rfl

theorem tickCount_engine (es : List Event) : tickCount (.engine :: es) = tickCount es := rfl

theorem tickCount_waiting (ms : Nat) : tickCount (waiting ms) = ms := by
  induction ms with
  | zero => rfl
  | succ ms ih => rw [waiting, tickCount_engine, tickCount_cons .tick, ih, Nat.add_comm]; rfl

theorem tickCount_sampleEvents (delay settle n : Nat) (x : Sample) :
    tickCount (sampleEvents delay settle n x) = delay + settle := by
  simp only [sampleEvents, tickCount_append, tickCount_engine, tickCount_waiting, tickCount_exchange]
  rfl

theorem tickCount_loopEvents (delay settle n : Nat) (xs : List Sample) :
    tickCount (loopEvents delay settle n xs) = xs.length * (delay + settle) := by
  induction xs generalizing n with
  | nil => rw [loopEvents, tickCount_nil, List.length_nil, Nat.zero_mul]
  | cons x xs ih =>
    rw [loopEvents, tickCount_append, tickCount_sampleEvents, ih, List.length_cons, Nat.succ_mul, Nat.add_comm]

theorem tickCount_loadcalEvents (n : Nat) (b1 b2 b3 : List Byte) : tickCount (loadcalEvents n b1 b2 b3) = 0 := rfl

theorem tickCount_runEvents {load : List Event} (hload : tickCount load = 0) (delay settle n : Nat) (h m : Byte)
    (xs : List Sample) : tickCount (runEvents delay settle n load h m xs) = xs.length * (delay + settle) + 2 * settle := by
  have records : tickCount [.engine, .engine, .sinkAccept, .engine, .sinkAccept, .engine] = 0 := rfl
  simp only [runEvents, tickCount_append, tickCount_engine, tickCount_waiting, tickCount_exchange, tickCount_loopEvents,
    records, hload]
  omega

/-- Both schedules of the statement are a run's, after a calibration without ticks. -/
theorem exists_runDone {s : State} (hfree : s.free) {b1 b2 b3 : List Byte} (h1 : b1.length = 23) (h2 : b2.length = 14)
    (h3 : b3.length = 3) (h m : Byte) {xs : List Sample} (hpos : 0 < xs.length) (hlen : xs.length = s.ctl.window.toNat) :
    let c : Cal := if s.status.calValid = true then s.cal else Cal.assemble b1 b2 b3
    let n := s.env.trace.length
    let es := if s.status.calValid = true
      then runEvents s.ctl.sampleDelay.toNat s.ctl.settle.toNat n [] h m xs
      else runEvents s.ctl.sampleDelay.toNat s.ctl.settle.toNat (n + 3) (loadcalEvents n b1 b2 b3) h m xs
    (∀ x ∈ xs, x.Good c) →
      tickCount es = xs.length * (s.ctl.sampleDelay.toNat + s.ctl.settle.toNat) + 2 * s.ctl.settle.toNat ∧
      ∃ k t u, Configured c k s t ∧ Leads (command .run es) s u ∧ RunDone xs t u := by
  have hw : s.ctl.window ≠ 0 := fun hz => by simp [hlen, hz] at hpos
  intro c n es good
  by_cases hc : s.status.calValid = true
  · obtain ⟨t, leads, conf⟩ := leads_configured hfree hw hc
    have hcal : c = s.cal := if_pos hc
    have hes : es = _ := if_pos hc
    rw [hcal] at good ⊢
    obtain ⟨u, whole, done⟩ := leads_runEvents (load := []) (xs := xs) conf leads hw hlen good rfl h m
    rw [hes]
    exact ⟨tickCount_runEvents rfl .., 0, t, u, conf, whole, done⟩
  · obtain ⟨t, leads, conf⟩ := leads_configured_load hfree hw hc h1 h2 h3
    have hcal : c = Cal.assemble b1 b2 b3 := if_neg hc
    have hes : es = _ := if_neg hc
    rw [hcal] at good ⊢
    obtain ⟨u, whole, done⟩ := leads_runEvents (xs := xs) conf leads hw hlen good rfl h m
    rw [hes]
    exact ⟨tickCount_runEvents (tickCount_loadcalEvents ..) .., 3, t, u, conf, whole, done⟩

/-- Settles O58: the run is its pieces one after another, and a RUN owes its ticks from its start. -/
theorem runOfGoodSamples : Obligations.RunOfGoodSamples := by
  intro s hfree
  refine ⟨fun b1 b2 b3 h m xs h1 h2 h3 hpos hlen => ?_, fun es hes hn => run_busy_or_err hfree hes hn⟩
  intro c good n es
  obtain ⟨ticks, k, t, u, conf, leads, done⟩ := exists_runDone hfree h1 h2 h3 h m hpos hlen good
  refine ⟨hlen ▸ ticks, u.facing [], leads.play, done.busy, done.fsm, done.err.trans conf.err, done.aggDone,
    done.calValid.trans conf.calValid, done.ovf.trans conf.ovf, done.validCnt, done.nAgg.trans conf.lN,
    done.sampleIdx.trans conf.lN, done.cal.trans conf.cal, done.ctl.trans conf.ctl, ?_, ?_, ?_⟩
  · exact done.sinkLog.trans (by rw [conf.sinkLog, conf.cal]; rfl)
  · exact done.rmsT.trans (by rw [conf.cal])
  · exact done.rmsP.trans (by rw [conf.cal])

end Sys2Proof.Machine
end

section
/-! PROOFS. What one event can do to a trigger in progress, and the two invariants of its positions: forced mode is
written only after sleep was read (O39), and never more sleep writes than the budget (O40). -/

namespace Sys2Proof.Machine

/-! ### The steps of the TRIG body (R250 41_configurator.md) -/

/-- The mode register has been read, with mode byte `m`. -/
def State.modeRead (s : State) (m : Byte) : State := { s with hid := { s.hid with bus := .quiet, modeByte := m } }

/-- How the TRIG body goes on: with poll budget `b`, from one position in `s` to another in a new state. The guard of an
abort point, that no ABORT is pending, is left out. -/
inductive TrigGoes (b : BitVec 16) (s : State) : TrigPt → TrigPt → State → Prop
  | clear : TrigGoes b s .clear .readMode { s with hid := { s.hid with pollCnt := 0 } }
  | readMode : TrigGoes b s .readMode .gotMode ((s.setTrig .read).issue (.read 0x74 1))
  | asleep (r : BusReq) (bs : List Byte) (hb : s.hid.bus = .answered r (.bytes bs)) (hm : modeBits (byteAt bs 0) = 0) :
      TrigGoes b s .gotMode .writeForce (s.modeRead (byteAt bs 0))
  | awake (r : BusReq) (bs : List Byte) (hb : s.hid.bus = .answered r (.bytes bs)) (hm : modeBits (byteAt bs 0) ≠ 0)
      (hc : b ≠ 0 → s.hid.pollCnt ≠ b) :
      TrigGoes b s .gotMode (.writeSleep (byteAt bs 0)) (s.modeRead (byteAt bs 0))
  | writeSleep (m : Byte) :
      TrigGoes b s (.writeSleep m) .wroteSleep ((s.setTrig .sleep).issue (.write 0x74 (m &&& 0xFC)))
  | wroteSleep (r : BusReq) (hb : s.hid.bus = .answered r .ok) : TrigGoes b s .wroteSleep (.poll .top)
      { s with hid := { s.hid with bus := .quiet, pollCnt := s.hid.pollCnt + 1, dlyCnt := Config.pollIntervalMs } }
  | pollHolds (hd : s.hid.dlyCnt ≠ 0) : TrigGoes b s (.poll .top) (.poll .hold) s
  | pollOver (hd : s.hid.dlyCnt = 0) : TrigGoes b s (.poll .top) .readMode s
  | writeForce : TrigGoes b s .writeForce .wroteForce
      ((s.setTrig .force).issue (.write 0x74 ((s.hid.modeByte &&& 0xFC) ||| 0x01)))

theorem abortPoint_goto {π : Type} {s u v : State} {p q : π} (e : abortPoint s (.goto p u) = .goto q v) :
    q = p ∧ v = u := by
  rcases abortPoint_cases s (Flow.goto p u) with ⟨-, h⟩ | ⟨-, h⟩ <;> rw [h] at e <;> cases e
  exact ⟨rfl, rfl⟩

theorem trigDecide_goto {b : BitVec 16} {m : Byte} {s u : State} {q : TrigPt} (e : trigDecide b m s = .goto q u) :
    u = s ∧ ((modeBits m = 0 ∧ q = .writeForce) ∨
      (modeBits m ≠ 0 ∧ (b ≠ 0 → s.hid.pollCnt ≠ b) ∧ q = .writeSleep m)) := by
  unfold trigDecide at e
  split at e
  next hm => cases e; exact ⟨rfl, .inl ⟨hm, rfl⟩⟩
  next hm =>
    split at e
    next => cases e
    next hc => cases e; exact ⟨rfl, .inr ⟨hm, fun hb h => hc ⟨hb, h⟩, rfl⟩⟩

/-- Where the TRIG body's step goes on, it is one of these. -/
theorem trigStep_goes {b : BitVec 16} {p q : TrigPt} {s u : State} (e : trigStep b p s = .goto q u) :
    TrigGoes b s p q u := by
  cases p <;> simp only [trigStep] at e
  case clear => cases e; exact .clear
  case readMode => obtain ⟨rfl, rfl⟩ := abortPoint_goto e; exact .readMode
  case writeSleep m => obtain ⟨rfl, rfl⟩ := abortPoint_goto e; exact .writeSleep m
  case writeForce => obtain ⟨rfl, rfl⟩ := abortPoint_goto e; exact .writeForce
  case gotMode =>
    rcases onRead_cases s _ _ with ⟨r, bs, hb, h⟩ | ⟨r, k, -, h⟩ | h <;> rw [h] at e
    · obtain ⟨rfl, ⟨hm, rfl⟩ | ⟨hm, hc, rfl⟩⟩ := trigDecide_goto e
      exacts [.asleep r bs hb hm, .awake r bs hb hm hc]
    · cases k <;> cases e
    · cases e
  case wroteSleep =>
    rcases onWrite_cases s _ _ with ⟨r, hb, h⟩ | ⟨r, k, -, h⟩ | h <;> rw [h] at e <;> cases e
    exact .wroteSleep r hb
  case poll w =>
    rcases waitStep_cases w s with ⟨rfl, hd, h⟩ | ⟨-, -, -, h⟩ | ⟨rfl, hd, -, h⟩ | ⟨-, h⟩ <;>
      rw [h] at e <;> cases e
    exacts [.pollOver hd, .pollHolds hd]
  case wroteForce =>
    rcases onWrite_cases s _ _ with ⟨r, -, h⟩ | ⟨r, k, -, h⟩ | h <;> rw [h] at e <;> cases e

/-! ### Steps that leave the trigger alone -/

/-- The position is inside a trigger, past its first step. -/
def midTrigger : Point → Bool
  | .trig .clear => false
  | .trig _ => true
  | _ => false

/-- Everything the trigger's position, its registers and its transactions can tell is the same. -/
structure SameTrigger (s t : State) : Prop where
  point : t.hid.pos.point = s.hid.pos.point
  pollCnt : t.hid.pollCnt = s.hid.pollCnt
  modeByte : t.hid.modeByte = s.hid.modeByte
  bus : t.hid.bus = s.hid.bus
  trace : t.env.trace = s.env.trace
  budget : t.budget = s.budget

/-- The step is none of a trigger: it changes nothing the trigger can tell, or the engine is outside a trigger after
it. -/
def Aside (s t : State) : Prop := SameTrigger s t ∨ midTrigger t.hid.pos.point = false

theorem Aside.refl (s : State) : Aside s s := .inl ⟨rfl, rfl, rfl, rfl, rfl, rfl⟩

section

variable {π : Type} {here : π → Point} {after : State → State} {s t : State} {f : Flow π}

theorem finish_aside (e : finish here s f = .next t) (hh : ∀ p u, f = .goto p u → midTrigger (here p) = false) :
    Aside s t := by
  rcases finish_next e with ⟨p, u, hf, rfl⟩ | ⟨u, -, rfl⟩ | ⟨_, _, _, u, -, rfl⟩ | ⟨-, rfl⟩
  exacts [.inr (hh p u hf), .inr rfl, .inr rfl, .refl _]

theorem finishInRun_aside (e : finishInRun here after s f = .next t)
    (hh : ∀ p u, f = .goto p u → midTrigger (here p) = false) (ha : ∀ u, midTrigger (after u).hid.pos.point = false) :
    Aside s t := by
  rcases finishInRun_next e with ⟨p, u, hf, rfl⟩ | ⟨u, -, rfl⟩ | ⟨_, _, _, u, -, rfl⟩ | ⟨-, rfl⟩
  exacts [.inr (hh p u hf), .inr (ha u), .inr rfl, .refl _]

theorem finishSample_aside {own : ErrCode} (e : finishSample own here after s f = .next t)
    (hh : ∀ p u, f = .goto p u → midTrigger (here p) = false) (ha : ∀ u, midTrigger (after u).hid.pos.point = false) :
    Aside s t := by
  rcases finishSample_next e with
    ⟨p, u, hf, rfl⟩ | ⟨u, -, rfl⟩ | ⟨a, k, u, -, rfl⟩ | ⟨_, _, _, u, -, -, rfl⟩ | ⟨-, rfl⟩
  exacts [.inr (hh p u hf), .inr (ha u), .inr rfl, .inr rfl, .refl _]

end

theorem enterLoop_outside (i : Nat) (s : State) : midTrigger (enterLoop i s).hid.pos.point = false := by
  unfold enterLoop
  split <;> rfl

theorem runStart_aside {s t : State} (e : finishInRun id id s (runStart s) = .next t) : Aside s t := by
  unfold runStart at e
  dsimp only at e
  split at e
  · cases e; exact .inr rfl
  · split at e <;> cases e <;> exact .inr rfl

theorem loadWait_aside {k : WaitFor} {ms : BitVec 16} {s t : State}
    (e : finishInRun id id s (loadWait k ms s) = .next t) : Aside s t := by
  rcases abortPoint_cases s (Flow.goto (Point.wait k .top) (s.loadDelay ms)) with ⟨-, h⟩ | ⟨-, h⟩ <;>
    rw [loadWait, h] at e <;> cases e <;> exact .inr rfl

/-- RUN's own steps never enter a trigger: the delay before it does. -/
theorem runStep_aside {p : RunPt} {s t : State} (hs : Still s) (e : runStep p s = .next t) : Aside s t := by
  have oneStep {f : Flow Point} {after : State → State} (e : finishInRun id after s f = .next t)
      (hok : ∀ here : Point → Point, BodyOk here s f) (ha : ∀ u, midTrigger (after u).hid.pos.point = false) :
      Aside s t := finishInRun_aside e (fun p u hf => absurd hf (ne_goto_of_ok hok p u)) ha
  cases p <;> simp only [runStep] at e
  case aggClr => exact oneStep e (fun _ => aggclrBody_ok _ s hs) (enterLoop_outside 0)
  case aggAcc => exact oneStep e (fun _ => aggaccBody_ok s hs) fun _ => rfl
  case aggFin => exact oneStep e (fun _ => aggfinBody_ok s hs) fun _ => rfl
  case sampleEnd => cases e; exact .inr (enterLoop_outside ..)
  case delayLoad | settleLoad | final1Load | final2Load => exact loadWait_aside e
  all_goals cases e; exact .inr rfl

/-! ### What one event can do to a trigger -/

/-- One event, as a trigger sees it. -/
inductive TriggerEvent (s t : State) : Prop
  /-- no step of the trigger -/
  | aside (h : Aside s t)
  /-- a tick in its poll wait -/
  | tick (p : WaitPt) (hp : s.hid.pos.point = .trig (.poll p))
      (ht : t = (s.loadDelay (s.hid.dlyCnt - 1)).goto (.trig (.poll .top)))
  /-- the answer to its transaction -/
  | answer (q : BusReq) (r : BusResp) (hb : s.hid.bus = .inFlight q) (hf : r.fits q = true) (ht : t = s.answeredBy q r)
  /-- a step of its body -/
  | body (p q : TrigPt) (u : State) (hp : s.hid.pos.point = .trig p ∨ p = .clear) (hu : TrigGoes s.budget s p q u)
      (ht : t = u.goto (.trig q))

section

variable {i : Instr} {s t : State}

theorem Turn.budget_eq (h : Turn i s) (hi : i ≠ .run) : s.budget = s.ctl.pollBudget := by
  simp [State.budget, h.not_running hi]

theorem Turn.budget_run (h : Turn .run s) : s.budget = s.hid.lBudget := by
  simp [State.budget, h.running_iff.2 rfl]

/-- A step of the TRIG command. -/
theorem execTrig_event (h : Turn .trig s) (e : execTrig s = .next t) : TriggerEvent s t := by
  rw [execTrig, unlessOffering_none h.sink, ← h.budget_eq nofun] at e
  have step {p : TrigPt} (hp : s.hid.pos.point = .trig p ∨ p = .clear)
      (e : finish .trig s (trigStep s.budget p s) = .next t) : TriggerEvent s t := by
    rcases finish_next e with ⟨q, u, hf, rfl⟩ | ⟨u, -, rfl⟩ | ⟨_, _, _, u, -, rfl⟩ | ⟨-, rfl⟩
    exacts [.body p q u hp (trigStep_goes hf) rfl, .aside (.inr rfl), .aside (.inr rfl), .aside (.refl _)]
  rcases atHome_cases h.home nofun with hp | h | h | h | ⟨-, p, hp⟩ | h | h | h
  case inr.inr.inr.inr.inl => rw [hp] at e; exact step (.inl hp) e
  case inl => rw [hp] at e; exact step (.inr rfl) e
  all_goals simp at h

/-- A step of RUN. -/
theorem execRun_event (h : Turn .run s) (e : execRun s = .next t) : TriggerEvent s t := by
  have home := h.home
  rw [execRun, unlessOffering_none h.sink] at e
  cases hp : s.hid.pos.point <;> simp only [hp] at home e
  case noCommand => cases home
  case trig p =>
    rw [← h.budget_run] at e
    rcases finishInRun_next e with ⟨q, u, hf, rfl⟩ | ⟨u, -, rfl⟩ | ⟨_, _, _, u, -, rfl⟩ | ⟨-, rfl⟩
    exacts [.body p q u (.inl hp) (trigStep_goes hf) rfl, .aside (.inr rfl), .aside (.inr rfl), .aside (.refl _)]
  case run p =>
    have hs : Still s := h.still (by rw [hp]; rfl) (fun _ => by rw [hp]; rfl) (fun _ => by rw [hp]; rfl)
    exact .aside (runStep_aside hs e)
  case start => exact .aside (runStart_aside e)
  case cal | os | htr => exact .aside (finishInRun_aside e (fun _ _ _ => rfl) fun _ => rfl)
  case raw | comp => exact .aside (finishSample_aside e (fun _ _ _ => rfl) fun _ => rfl)
  case wait k p =>
    cases k
    case command => cases home
    all_goals exact .aside (finishInRun_aside e (fun _ _ _ => rfl) fun _ => rfl)

/-- A step of a command that has no trigger. -/
theorem exec_aside (h : Turn i s) (ht : i ≠ .trig) (hr : i ≠ .run) (e : exec i s = .next t) : Aside s t := by
  have oneStep {f : Flow Point} (hp : s.hid.pos.point = .start) (e : finish id s f = .next t)
      (hok : Still s → ∀ here : Point → Point, BodyOk here s f) : Aside s t :=
    finish_aside e fun p u hf => absurd hf (ne_goto_of_ok (hok (h.still_of_start hp)) p u)
  cases i
  case trig => exact absurd rfl ht
  case run => exact absurd rfl hr
  case sreset =>
    cases hp : s.hid.pos.point <;> simp only [exec, execSreset, hp] at e <;> cases e
    exact .inr rfl
  all_goals
    simp only [exec, execNop, execAbort, execWait, execLoadcal, execCfgos, execCfghtr, execGwcode, execRhcode,
      execCompt, execCompp, execComph, execCompall, execReadraw, execAggclr, execAggacc, execAggfin,
      unlessOffering_none h.sink] at e
    cases hp : s.hid.pos.point <;> simp only [hp] at e <;> try cases e
  case nop.start | abort.start | gwcode.start | wait.start | loadcal.start => exact .inr rfl
  case rhcode.start temp => exact oneStep hp e fun hs _ => rhcodeBody_ok temp s hs
  case compt.start => exact oneStep hp e fun hs _ => comptBody_ok s hs
  case compp.start => exact oneStep hp e fun hs _ => comppBody_ok s hs
  case comph.start => exact oneStep hp e fun hs _ => comphBody_ok s hs
  case aggclr.start => exact oneStep hp e fun hs _ => aggclrBody_ok _ s hs
  case aggacc.start => exact oneStep hp e fun hs _ => aggaccBody_ok s hs
  case aggfin.start => exact oneStep hp e fun hs _ => aggfinBody_ok s hs
  case wait.wait k p =>
    cases k
    case command => exact finish_aside e fun _ _ _ => rfl
    all_goals cases e
  all_goals exact finish_aside e fun _ _ _ => rfl

/-- The engine's turn. -/
theorem engineTurn_event (h : Inv s) (e : engineTurn s = .next t) : TriggerEvent s t := by
  rcases engineTurn_next e with ⟨-, rfl⟩ | ⟨hb, i, hi, e⟩
  · exact .aside (.refl _)
  cases ho : s.hid.outPend with
  | some r =>
    have hr := h.offer
    simp only [offerAgrees, ho, State.running, hb, hi, Bool.true_and, Bool.and_eq_true, beq_iff_eq] at hr
    obtain ⟨hrun, -⟩ := hr
    cases hrun
    rcases unlessOffering_next e with ⟨-, rfl⟩ | ⟨hn, -⟩
    · exact .aside (.refl _)
    · simp [ho] at hn
  | none =>
    have turn : Turn i s := ⟨h, hb, hi, ho⟩
    by_cases ht : i = .trig
    · subst ht; exact execTrig_event turn e
    · by_cases hr : i = .run
      · subst hr; exact execRun_event turn e
      · exact .aside (exec_aside turn ht hr e)

end

/-- A write that a command's BUSY lets through does not touch the trigger; between commands there is none. -/
theorem hostWrite_aside {s : State} (c : Csr) (w : Word) (h : Inv s) : Aside s (hostWrite c w s) := by
  cases hb : s.status.busy with
  | true =>
    by_cases hc : c = .cmd
    · subst hc
      rw [hostWrite_cmd]
      rcases writeCmd_cases w s with ⟨-, -, e⟩ | ⟨-, -, e⟩ | ⟨hn, -⟩ | ⟨hn, -⟩
      · rw [e]; exact .inl ⟨rfl, rfl, rfl, rfl, rfl, rfl⟩
      · rw [e]; exact .inl ⟨rfl, rfl, rfl, rfl, rfl, rfl⟩
      all_goals simp [hb] at hn
    · rw [hostWrite_busy hc w hb]; exact .refl s
  | false =>
    have hout : midTrigger s.hid.pos.point = false := by rw [h.idlePos hb]; rfl
    by_cases hc : c = .cmd
    · subst hc
      rw [hostWrite_cmd]
      rcases writeCmd_cases w s with ⟨hn, -⟩ | ⟨hn, -⟩ | ⟨-, -, e⟩ | ⟨-, -, e⟩
      · simp [hb] at hn
      · simp [hb] at hn
      · rw [e]; exact .inr rfl
      · rw [e]; exact .inr hout
    · rw [hostWrite_idle hc w hb]
      cases c
      case status => rw [csrWrite_status, writeStatus_eq]; exact .inr hout
      all_goals exact .inr hout

/-- A host access is no step of a trigger. -/
theorem hostStep_aside {s : State} (a : HostAccess) (h : Inv s) : Aside s (hostStep a s) := by
  have logged {t : State} (ht : Aside s t) (v : HostAnswer) : Aside s (t.answering a v) :=
    ht.imp_left fun ⟨hp, hc, hm, hb, htr, hbu⟩ => ⟨hp, hc, hm, hb, htr, hbu⟩
  refine logged ?_ _
  split
  next c w _ _ => exact hostWrite_aside c w h
  all_goals exact .refl s

theorem tickStep_event (s : State) : TriggerEvent s (tickStep s) := by
  rcases tickStep_cases s with e | ⟨k, p, -, -, e⟩ | ⟨p, hp, -, e⟩ <;> rw [e]
  exacts [.aside (.refl s), .aside (.inr rfl), .tick p hp rfl]

theorem busStep_event (n : Nat) (r : BusResp) (s : State) : TriggerEvent s (busStep n r s) := by
  rcases busStep_cases n r s with ⟨q, hb, -, hf, e⟩ | e <;> rw [e]
  exacts [.answer q r hb hf rfl, .aside (.refl s)]

theorem sinkStep_aside (s : State) : Aside s (sinkStep s) := by
  rcases sinkStep_cases s with ⟨r, -, e⟩ | ⟨-, e⟩ <;> rw [e]
  exacts [.inl ⟨rfl, rfl, rfl, rfl, rfl, rfl⟩, .refl s]

/-- What any step does to a trigger. -/
theorem step_event {s t : State} (h : Inv s) (e : step s = .next t) : TriggerEvent s.takeEvent t := by
  have h : Inv s.takeEvent := h.with_env _
  rw [step_eq] at e
  cases he : nextEvent s <;> rw [he, eventStep] at e
  case engine => exact engineTurn_event h e
  all_goals cases e
  case host a => exact .aside (hostStep_aside a h)
  case bus n r => exact busStep_event n r _
  case tick => exact tickStep_event _
  case sinkAccept => exact .aside (sinkStep_aside _)
  case powerOn => exact .aside (.inr rfl)

/-! ### Forced mode only after sleep (R252 41_configurator.md) -/

theorem forcedAfterSleep_of_outside {s : State} (h : midTrigger s.hid.pos.point = false) : forcedAfterSleep s := by
  unfold forcedAfterSleep
  split <;> simp_all [midTrigger]

theorem forcedAfterSleep_of_same {s t : State} (h : SameTrigger s t) (hs : forcedAfterSleep s) :
    forcedAfterSleep t := by
  obtain ⟨point, -, mode, bus, trace, -⟩ := h
  simpa only [forcedAfterSleep, lastReadMode, point, mode, bus, trace] using hs

/-- An answered read of the mode register is the last entry of the trace. -/
theorem forcedAfterSleep_of_answer {s : State} {q : BusReq} {r : BusResp} (h : Inv s) (hb : s.hid.bus = .inFlight q)
    (hf : r.fits q = true) : forcedAfterSleep (s.answeredBy q r) := by
  have hbus := h.bus
  unfold forcedAfterSleep
  split
  next hp =>
    intro req bs hans
    cases hans
    have hp : s.hid.pos.point = .trig .gotMode := hp
    rw [hp, hb] at hbus
    cases q <;> simp [busAgrees, awaited, BusReq.shape] at hbus
    obtain ⟨rfl, rfl⟩ := hbus
    obtain ⟨m, rfl⟩ := List.length_eq_one_iff.mp (by simpa [BusResp.fits] using hf)
    exact ⟨m, rfl, List.getLast?_concat⟩
  next hp =>
    have hp : s.hid.pos.point = .trig .writeForce := hp
    rw [hp, hb] at hbus
    cases hbus
  next => exact fun _ hfl => by cases hfl
  next => trivial

/-- A step of the TRIG body: only the use of a mode byte leads to the forced-mode write, and only that to its flight. -/
theorem forcedAfterSleep_of_body {s u : State} {b : BitVec 16} {p q : TrigPt}
    (hp : s.hid.pos.point = .trig p ∨ p = .clear) (hu : TrigGoes b s p q u) (hs : forcedAfterSleep s) : forcedAfterSleep (u.goto (.trig q)) := by
  cases hu
  case readMode => exact fun _ _ h => by cases h
  case asleep r bs hb hm =>
    have hp : s.hid.pos.point = .trig .gotMode := hp.resolve_right nofun
    rw [forcedAfterSleep, hp] at hs
    obtain ⟨m, rfl, hlast⟩ := hs r bs hb
    exact ⟨hm, hlast⟩
  case writeForce =>
    have hp : s.hid.pos.point = .trig .writeForce := hp.resolve_right nofun
    rw [forcedAfterSleep, hp] at hs
    obtain ⟨hm, hlast⟩ := hs
    exact fun _ h => by cases h; exact ⟨rfl, hm, hlast⟩
  all_goals trivial

/-- Settles O39: every event keeps what the forced-mode write rests on, the answered read as the last transaction. -/
theorem sleepBeforeForced : Obligations.SleepBeforeForced := by
  intro s t hinv hs e
  have hs : forcedAfterSleep s.takeEvent := hs
  cases step_event hinv e
  case aside h => exact h.elim (forcedAfterSleep_of_same · hs) forcedAfterSleep_of_outside
  case tick p _ ht => rw [ht]; trivial
  case answer q r hb hf ht => rw [ht]; exact forcedAfterSleep_of_answer (hinv.with_env _) hb hf
  case body p q u hp hu ht => rw [ht]; exact forcedAfterSleep_of_body hp hu hs

/-! ### The poll budget (R251 41_configurator.md) -/

theorem pollWithin_of_outside {s : State} (h : midTrigger s.hid.pos.point = false) : pollWithin s := by
  intro _
  split <;> simp_all [midTrigger]

theorem pollWithin_of_same {s t : State} (h : SameTrigger s t) (hs : pollWithin s) : pollWithin t := by
  obtain ⟨point, count, -, -, -, budget⟩ := h
  simpa only [pollWithin, point, count, budget] using hs

/-- A step of the TRIG body keeps the budget. -/
theorem TrigGoes.budget {s u : State} {b : BitVec 16} {p q : TrigPt} (h : TrigGoes b s p q u) :
    u.budget = s.budget := by
  cases h <;> rfl

/-- A step of the TRIG body with the budget `b`: POLL_CNT is below it before a sleep write, and one write is counted. -/
theorem pollWithin_of_body {s u : State} {p q : TrigPt} (hp : s.hid.pos.point = .trig p ∨ p = .clear)
    (hu : TrigGoes s.budget s p q u) (hs : pollWithin s) : pollWithin (u.goto (.trig q)) := by
  intro hb
  rw [show (u.goto (.trig q)).budget = s.budget from hu.budget] at hb ⊢
  have hs := hs hb
  cases hu
  case clear => exact Nat.zero_le _
  all_goals rw [hp.resolve_right nofun] at hs
  case awake r bs _ _ hc => exact BitVec.lt_of_le_ne (x := s.hid.pollCnt) hs (hc hb)
  case wroteSleep =>
    show s.hid.pollCnt + 1 ≤ s.budget
    have hs : s.hid.pollCnt < s.budget := hs
    bv_omega
  case writeSleep => exact hs
  case pollHolds | pollOver | readMode | asleep | writeForce => exact hs

/-- Settles O40: the count rises only after a sleep write, which is due only below the budget. -/
theorem pollBudgetHolds : Obligations.PollBudgetHolds := by
  intro s t hinv hs e
  have hs : pollWithin s.takeEvent := hs
  cases step_event hinv e
  case aside h => exact h.elim (pollWithin_of_same · hs) pollWithin_of_outside
  case tick p hp ht =>
    rw [pollWithin, hp] at hs
    rw [ht]
    exact hs
  case answer q r hb hf ht => rw [ht]; exact hs
  case body p q u hp hu ht => rw [ht]; exact pollWithin_of_body hp hu hs

end Sys2Proof.Machine
end

section
/-! PROOFS. The heater codes (O33, O34), and CFGOS and CFGHTR as one transaction after another (O31, O35). -/

namespace Sys2Proof.Machine

/-! ### The gas-wait code (R235, R236 41_configurator.md) -/

/-- Below the special case three passes of the loop are enough. -/
theorem gwLoop_eq {dur : Nat} (h : dur < 4032) : gwLoop 3 dur 0 = plainGasWait dur := by
  simp only [gwLoop, plainGasWait]
  split_ifs <;> omega

theorem plainGasWait_le (dur : Nat) : plainGasWait dur ≤ 255 := by
  unfold plainGasWait
  split_ifs <;> omega

theorem plainGasWait_eq_iff (dur : Nat) : plainGasWait dur = 255 ↔ 4032 ≤ dur := by
  unfold plainGasWait
  split_ifs <;> omega

theorem plainGasWait_mono {a b : Nat} (h : a ≤ b) : plainGasWait a ≤ plainGasWait b := by
  unfold plainGasWait
  split_ifs <;> omega

theorem gw_eq (dur : Nat) : gw dur = BitVec.ofNat 8 (plainGasWait dur) := by
  unfold gw
  split
  next h => rw [(plainGasWait_eq_iff dur).2 h]; rfl
  next h => rw [gwLoop_eq (Nat.lt_of_not_le h)]

theorem toNat_gw (dur : Nat) : (gw dur).toNat = plainGasWait dur := by
  have h := plainGasWait_le dur
  rw [gw_eq, BitVec.toNat_ofNat, Nat.mod_eq_of_lt (by omega)]

/-- Settles O33: the code by ranges is exact, so its special case and its order are those of the ranges. -/
theorem gasWaitCode : Obligations.GasWaitCode := by
  refine ⟨fun s dur h => ?_, fun dur _ => ⟨toNat_gw dur, ?_⟩, fun a b hab _ => ?_⟩
  · simp only [exec, execGwcode, unlessOffering_none h.2, h.1]
  · rw [← BitVec.toNat_inj, toNat_gw]
    exact plainGasWait_eq_iff dur
  · rw [toNat_gw, toNat_gw]
    exact plainGasWait_mono hab

/-! ### The resistance code (R238, R240 41_configurator.md) -/

/-- The resistance code of a target temperature. -/
def resCode (c : Cal) (temp : Nat) : Byte := BitVec.ofInt 8 (plainResistance c temp)

theorem rhcodeBody_eq {π : Type} {s : State} (hc : s.status.calValid = true) (temp : Nat) :
    (rhcodeBody temp s : Flow π) = .done { s with heat := { s.heat with rhCode := resCode s.cal temp } } := by
  rw [rhcodeBody, needCal, if_pos hc, rhFormula_eq]
  dsimp only
  rw [Checked.lit_ovf, State.withOvf_false]
  rfl

/-- Settles O34: the formula is exact and its divisors are not 0. -/
theorem rhcodeStoresTheCode : Obligations.RhcodeStoresTheCode := by
  intro s temp h hc
  simp only [exec, execRhcode, unlessOffering_none h.2, h.1]
  rw [rhcodeBody_eq hc]
  rfl

/-! ### A field of a register, read and written back (R232 41_configurator.md) -/

section

variable {x mask bits : Byte} {i n : Nat}

theorem extractLsb'_and_or : (x &&& mask ||| bits).extractLsb' i n =
    x.extractLsb' i n &&& mask.extractLsb' i n ||| bits.extractLsb' i n := by
  rw [BitVec.extractLsb'_or, BitVec.extractLsb'_and]

theorem field_kept (hm : mask.extractLsb' i n = BitVec.allOnes n) (hb : bits.extractLsb' i n = 0) :
    (x &&& mask ||| bits).extractLsb' i n = x.extractLsb' i n := by
  rw [extractLsb'_and_or, hm, hb, BitVec.and_allOnes]
  exact BitVec.or_zero

theorem field_set (hm : mask.extractLsb' i n = 0) :
    (x &&& mask ||| bits).extractLsb' i n = bits.extractLsb' i n := by
  rw [extractLsb'_and_or, hm]
  simp

end

/-! ### The transactions of a command -/

/-- The trace entry of a write that the bus took (R127 20_memory.md). -/
abbrev writeTx (a v : Byte) : BusTx := ⟨.write a v, some .ok⟩

theorem State.length_trace_after (s : State) (tr : List BusTx) (p : Point) :
    (s.after tr p).env.trace.length = s.env.trace.length + tr.length := List.length_append

section

variable {i : Instr} {s : State} {n : Nat}

/-- The last transaction of a command whose use completes it. -/
theorem RunsBody.exchange_done {π : Type} {here : π → Point} {body : π → State → Flow π} {a b : π} {r : BusReq}
    {resp : BusResp} (hi : RunsBody i here body) (h : Active i (here a) s) (hn : n = s.env.trace.length)
    (hf : resp.fits r = true) (issue : ∀ x : State, body a x = issueAt r b x)
    (use : ∀ x : State, x.ready (here b) → x.hid.bus = .answered r resp → exec i x = .next (complete x.busQuiet)) :
    Leads (Sys2Proof.Machine.exchange n resp) s (complete (s.after [⟨r, some resp⟩] (here b))) := by
  rw [← answeredBy_busQuiet_goto s r resp (here b)]
  exact hi.exchange_use (g := fun x => complete (x.busQuiet.goto (here b))) h hn hf (fun _ _ => rfl) issue use

/-- A command that has made the transactions `tr` and completes has no other effect. -/
theorem complete_after_accept (h : s.hid.bus = .quiet) (tr : List BusTx) (p : Point) :
    (complete (((accept (encode i) s).answering (cmdWrite i) .done).after tr p)).facing [] = completed i tr s := by
  rw [← busQuiet_of_quiet h]
  rfl

end

/-! ### CFGOS (R231 41_configurator.md) -/

section

variable {s : State} {n : Nat}

theorem runsBody_cfgos : RunsBody .cfgos .os osStep := fun s t p q h hf => by
  rw [exec_cfgos_os h, hf]
  rfl

theorem exec_cfgos_wroteMeas {q : BusReq} (h : s.ready (.os .wroteMeas)) (hb : s.hid.bus = .answered q .ok) :
    exec .cfgos s = .next (complete s.busQuiet) := by
  rw [exec_cfgos_os h, osStep, onWrite_ok_eq hb]
  rfl

/-- CFGOS's first step is the issue of its first read. -/
theorem exec_cfgos_start (h : s.ready .start) (ha : s.status.abortPend = false) :
    exec .cfgos s = .next ((s.issue (.read 0x72 1)).goto (.os .gotHum)) := by
  simp only [exec, execCfgos, unlessOffering_none h.2, h.1]
  rw [osStep, issueAt_go ha]
  rfl

/-- ctrl_hum is read and written back. -/
theorem leads_ctrlHum (h : Active .cfgos .start s) (hn : n = s.env.trace.length) (x : Byte) :
    Leads (exchange n (.bytes [x]) ++ exchange (n + 1) .ok) s
      (s.after [readTx 0x72 1 [x], writeTx 0x72 ((x &&& 0xF8) ||| 0x01)] (.os .readMeas)) := by
  let u := (s.issue (.read 0x72 1)).goto (.os .gotHum)
  have ready : u.ready (.os .gotHum) := ⟨rfl, h.ready.2⟩
  have read : Leads (exchange n (.bytes [x])) s (s.after [readTx 0x72 1 [x]] (.os (.writeHum x))) :=
    h.exchange (u := u) ⟨h.busy, h.cmd, ready, h.abort⟩ rfl rfl rfl hn
      (fun fs => exec_cfgos_start (s := s.facing fs) h.ready h.abort) fun fs =>
        runsBody_cfgos _ (s.after [readTx 0x72 1 [x]] (.os .gotHum) |>.facing fs) .gotHum (.writeHum x) ready rfl
  have write := runsBody_cfgos.exchange (n := n + 1) (resp := .ok) (a := .writeHum x) (b := .wroteHum) (c := .readMeas)
    (h.after [readTx 0x72 1 [x]]) (by rw [State.length_trace_after, hn]; rfl) rfl (fun _ => rfl) fun _ hb => by
      rw [osStep, onWrite_ok_eq hb]
  rw [State.after_after] at write
  exact read.append write

/-- ctrl_meas is read and written back, and CFGOS completes. -/
theorem leads_ctrlMeas (h : Active .cfgos (.os .readMeas) s) (hn : n = s.env.trace.length) (x : Byte) :
    Leads (exchange n (.bytes [x]) ++ exchange (n + 1) .ok) s
      (complete (s.after [readTx 0x74 1 [x], writeTx 0x74 ((x &&& 0x03) ||| 0x54)] (.os .wroteMeas))) := by
  have read := runsBody_cfgos.exchange (r := .read 0x74 1) (resp := .bytes [x]) (b := .gotMeas) (c := .writeMeas x) h hn
    rfl (fun _ => rfl) fun _ hb => by rw [osStep, onRead_bytes hb]; rfl
  have write := runsBody_cfgos.exchange_done (n := n + 1) (resp := .ok) (a := .writeMeas x) (b := .wroteMeas)
    (h.after [readTx 0x74 1 [x]]) (by rw [State.length_trace_after, hn]; rfl) rfl (fun _ => rfl)
    fun _ => exec_cfgos_wroteMeas
  rw [State.after_after] at write
  exact read.append write

end

/-- Settles O31: two registers, each read and written back; the masks keep every bit outside the fields. -/
theorem cfgosWritesOversampling : Obligations.CfgosWritesOversampling := by
  intro s
  refine ⟨fun q => exec_cfgos_wroteMeas, fun h m hfree => ⟨(h &&& 0xF8) ||| 0x01, (m &&& 0x03) ||| 0x54, ?_⟩⟩
  refine ⟨field_set (by decide), field_kept (by decide) (by decide), field_set (by decide), field_set (by decide),
    field_kept (by decide) (by decide), ?_⟩
  obtain ⟨hb, hq, ho⟩ := hfree
  have hi : decode (encode .cfgos) = .legal .cfgos := by decide
  have active := active_accept ho hi (cmdWrite .cfgos) .done
  have hum := leads_ctrlHum active rfl h
  have meas := leads_ctrlMeas (n := s.env.trace.length + 2) 
    (active.after [readTx 0x72 1 [h], writeTx 0x72 ((h &&& 0xF8) ||| 0x01)]) (by rw [State.length_trace_after]; rfl) m
  rw [State.after_after] at meas
  have both := Leads.cons (does_cmdWrite hb hi) (hum.append meas)
  exact both.play.trans (congrArg _ (complete_after_accept hq _ _))

/-! ### CFGHTR (R245 41_configurator.md) -/

section

variable {s : State} {n : Nat}

theorem runsBody_cfghtr : RunsBody .cfghtr .htr htrStep := fun s t p q h hf => by
  rw [exec_cfghtr_htr h, hf]
  rfl

theorem exec_cfghtr_wroteCtrl {q : BusReq} (h : s.ready (.htr .wroteCtrl)) (hb : s.hid.bus = .answered q .ok) :
    exec .cfghtr s = .next (complete s.busQuiet) := by
  rw [exec_cfghtr_htr h, htrStep, onWrite_ok_eq hb]
  rfl

/-- The two codes of the configuration, in GW_CODE and RH_CODE. -/
def State.coded (s : State) : State :=
  { s with heat := {
      gwCode := BitVec.ofNat 8 (plainGasWait s.ctl.heatDur.toNat)
      rhCode := resCode s.cal s.ctl.heatTemp.toNat } }

/-- CFGHTR's first step computes both codes. -/
theorem exec_cfghtr_start (h : s.ready .start) (hc : s.status.calValid = true) :
    exec .cfghtr s = .next (s.coded.goto (.htr (.writeDur s.coded.heat.gwCode s.coded.heat.rhCode))) := by
  simp only [exec, execCfghtr, unlessOffering_none h.2, h.1]
  rw [htrStep, needCal, if_pos hc, rhFormula_eq, gw_eq]
  dsimp only
  rw [Checked.lit_ovf, State.withOvf_false]
  rfl

/-- The three heater registers are written, and CFGHTR completes. -/
theorem leads_heaterWrites {g r : Byte} (h : Active .cfghtr (.htr (.writeDur g r)) s) (hn : n = s.env.trace.length) :
    Leads (exchange n .ok ++ exchange (n + 1) .ok ++ exchange (n + 2) .ok) s
      (complete (s.after [writeTx 0x64 g, writeTx 0x5A r, writeTx 0x71 0x20] (.htr .wroteCtrl))) := by
  have dur := runsBody_cfghtr.exchange (resp := .ok) (b := .wroteDur r) (c := .writeRes r) h hn rfl (fun _ => rfl)
    fun _ hb => by rw [htrStep, onWrite_ok_eq hb]
  have res := runsBody_cfghtr.exchange (n := n + 1) (resp := .ok) (a := .writeRes r) (b := .wroteRes) (c := .writeCtrl)
    (h.after [writeTx 0x64 g]) (by rw [State.length_trace_after, hn]; rfl) rfl (fun _ => rfl)
    fun _ hb => by rw [htrStep, onWrite_ok_eq hb]
  have ctrl := runsBody_cfghtr.exchange_done (n := n + 2) (resp := .ok) (a := .writeCtrl) (b := .wroteCtrl)
    (h.after [writeTx 0x64 g, writeTx 0x5A r]) (by rw [State.length_trace_after, hn]; rfl) rfl (fun _ => rfl)
    fun _ => exec_cfghtr_wroteCtrl
  rw [State.after_after] at res ctrl
  exact (dur.append res).append ctrl

end

/-- Settles O35: the codes, by their exact formulas, and the three writes. -/
theorem cfghtrWritesTheHeater : Obligations.CfghtrWritesTheHeater := by
  intro s
  refine ⟨fun q => exec_cfghtr_wroteCtrl, fun ⟨hb, hq, ho⟩ hc => ?_⟩
  have hi : decode (encode .cfghtr) = .legal .cfghtr := by decide
  let a := (accept (encode .cfghtr) s).answering (cmdWrite .cfghtr) .done
  have active : Active .cfghtr .start a := active_accept ho hi _ _
  have compute : Does .engine a (a.coded.goto (.htr (.writeDur a.coded.heat.gwCode a.coded.heat.rhCode))) :=
    active.does fun fs => exec_cfghtr_start (s := a.facing fs) active.ready hc
  have writes := leads_heaterWrites (n := s.env.trace.length)
    (s := a.coded.goto (.htr (.writeDur a.coded.heat.gwCode a.coded.heat.rhCode)))
    ⟨rfl, hi, ⟨rfl, ho⟩, rfl⟩ rfl
  have whole := Leads.cons (does_cmdWrite hb hi) (.cons compute writes)
  refine whole.play.trans (congrArg _ ?_)
  rw [← complete_after_accept hq _ (.htr .wroteCtrl)]
  rfl

end Sys2Proof.Machine
end

section
/-! PROOFS. TRIG from its acceptance on: poll after poll, and then forced mode, POLL_TIMEOUT or the next poll (O36 to
O38). -/

namespace Sys2Proof.Machine

/-! ### One step of TRIG at each position (R250 41_configurator.md) -/

section

variable {s : State}

/-- A trigger at position `p` with no transaction in flight and `tr` added to the trace: STATUS.TRIG, DLY_CNT, POLL_CNT
and the mode byte, the registers it changes from poll to poll, are given, and the rest is as in `s`. -/
def State.polling (s : State) (f : TrigState) (d k : BitVec 16) (m : Byte) (tr : List BusTx) (p : TrigPt) : State :=
  { s with
    status := { s.status with trig := f }
    hid := { s.hid with bus := .quiet, dlyCnt := d, pollCnt := k, modeByte := m, pos := ⟨.trig p, s.hid.pos.sample⟩ }
    env := { s.env with trace := s.env.trace ++ tr } }

theorem goto_eq_polling (h : s.hid.bus = .quiet) (k : BitVec 16) (p : TrigPt) :
    ({ s with hid := { s.hid with pollCnt := k } } : State).goto (.trig p) =
      s.polling s.status.trig s.hid.dlyCnt k s.hid.modeByte [] p := by
  rw [State.polling, List.append_nil, ← h]
  rfl

theorem Active.polling {p : Point} (h : Active .trig p s) (f : TrigState) (d k : BitVec 16) (m : Byte) (tr : List BusTx)
    (q : TrigPt) : Active .trig (.trig q) (s.polling f d k m tr q) := ⟨h.busy, h.cmd, ⟨rfl, h.ready.2⟩, h.abort⟩

/-- A step of TRIG that goes on. -/
theorem exec_trig_goto {p q : TrigPt} {u : State} (h : s.ready (.trig p))
    (e : trigStep s.ctl.pollBudget p s = .goto q u) : exec .trig s = .next (u.goto (.trig q)) := by
  rw [exec_trig_trig h, e]
  rfl

theorem exec_trig_start (h : s.ready .start) :
    exec .trig s = .next (({ s with hid := { s.hid with pollCnt := 0 } } : State).goto (.trig .readMode)) := by
  simp only [exec, execTrig, unlessOffering_none h.2, h.1]
  rfl

theorem exec_trig_wroteForce {q : BusReq} (h : s.ready (.trig .wroteForce)) (hb : s.hid.bus = .answered q .ok) :
    exec .trig s = .next (complete s.busQuiet) := by
  rw [exec_trig_trig h, trigStep, onWrite_ok_eq hb]
  rfl

/-- The answer to the read of the mode register is used as `trigDecide` says. -/
theorem trigStep_gotMode {b : BitVec 16} {q : BusReq} {m : Byte} (hb : s.hid.bus = .answered q (.bytes [m])) :
    trigStep b .gotMode s = trigDecide b m (s.modeRead m) := by
  rw [trigStep, onRead_bytes hb]
  rfl

end

/-! ### The transactions of TRIG -/

section

variable {s : State} {p : Point} (h : Active .trig p s) {n : Nat} {f : TrigState} {d k : BitVec 16} {m x : Byte}
  {tr : List BusTx}
include h

/-- A transaction of TRIG: its issue sets STATUS.TRIG, and the use of its answer leads to `t`. -/
theorem leads_trigExchange {a b : TrigPt} {g : TrigState} {r : BusReq} {resp : BusResp} {t : State}
    (hn : n = s.env.trace.length + tr.length) (hf : resp.fits r = true)
    (issue : ∀ y : State, y.status.abortPend = false → y.hid.modeByte = m →
      trigStep y.ctl.pollBudget a y = .goto b ((y.setTrig g).issue r))
    (use : ∀ fs y, y = ((s.polling g d k m tr b).answeredBy r resp).facing fs → y.ready (.trig b) →
      exec .trig y = .next (t.facing fs)) : Leads (exchange n resp) (s.polling f d k m tr a) t := by
  have before := h.polling f d k m tr a
  have after := h.polling g d k m tr b
  refine before.exchange (u := (s.polling g d k m tr b).issue r) (q := .trig b)
    ⟨after.busy, after.cmd, after.ready, after.abort⟩ rfl rfl hf (by rw [hn]; exact List.length_append.symm)
    (fun fs => ?_) fun fs => use fs _ rfl after.ready
  exact exec_trig_goto (s := (s.polling f d k m tr a).facing fs) before.ready (issue _ h.abort rfl)

/-- A read of the mode register, used as `trigDecide` says. -/
theorem leads_readMode {t : State} (hn : n = s.env.trace.length + tr.length)
    (use : ∀ fs, finish .trig (((s.polling .read d k m tr .gotMode).answeredBy (.read 0x74 1) (.bytes [x])).facing fs)
      (trigDecide s.ctl.pollBudget x ((s.polling .read d k x (tr ++ [readTx 0x74 1 [x]]) .gotMode).facing fs)) =
        .next (t.facing fs)) : Leads (exchange n (.bytes [x])) (s.polling f d k m tr .readMode) t := by
  refine leads_trigExchange h hn rfl (fun _ ha _ => by rw [trigStep, abortPoint_go ha]) fun fs y hy ready => ?_
  rw [exec_trig_trig ready, trigStep_gotMode (by rw [hy]; rfl), ← use fs, hy]
  simp only [State.polling, State.answeredBy, List.append_assoc]
  rfl

/-- A read that shows sleep: forced mode is due. -/
theorem leads_readMode_asleep (hn : n = s.env.trace.length + tr.length) (hx : modeBits x = 0) :
    Leads (exchange n (.bytes [x])) (s.polling f d k m tr .readMode)
      (s.polling .read d k x (tr ++ [readTx 0x74 1 [x]]) .writeForce) :=
  leads_readMode h hn fun fs => by rw [trigDecide, if_pos hx]; rfl

/-- A read that does not, within the budget: a sleep write is due. -/
theorem leads_readMode_awake (hn : n = s.env.trace.length + tr.length) (hx : modeBits x ≠ 0)
    (hk : s.ctl.pollBudget = 0 ∨ k ≠ s.ctl.pollBudget) :
    Leads (exchange n (.bytes [x])) (s.polling f d k m tr .readMode)
      (s.polling .read d k x (tr ++ [readTx 0x74 1 [x]]) (.writeSleep x)) :=
  leads_readMode h hn fun fs => by
    have hspent : ¬(s.ctl.pollBudget ≠ 0 ∧ k = s.ctl.pollBudget) := fun ⟨hb, he⟩ => hk.elim hb (absurd he)
    rw [trigDecide, if_neg hx]
    exact congrArg _ (if_neg hspent)

/-- A read that does not, when the budget is spent: POLL_TIMEOUT. -/
theorem leads_readMode_spent (hn : n = s.env.trace.length + tr.length) (hx : modeBits x ≠ 0) (hb : s.ctl.pollBudget ≠ 0)
    (hk : k = s.ctl.pollBudget) : Leads (exchange n (.bytes [x])) (s.polling f d k m tr .readMode)
      (takeError false .pollTimeout 0x74 none (s.polling .read d k x (tr ++ [readTx 0x74 1 [x]]) .gotMode)) :=
  leads_readMode h hn fun fs => by
    rw [trigDecide, if_neg hx]
    exact congrArg _ (if_pos ⟨hb, hk⟩)

/-- A sleep write: it is counted, and the poll wait of 0 ms begins. -/
theorem leads_writeSleep (hn : n = s.env.trace.length + tr.length) :
    Leads (exchange n .ok) (s.polling f d k m tr (.writeSleep x))
      (s.polling .sleep 0 (k + 1) m (tr ++ [writeTx 0x74 (x &&& 0xFC)]) (.poll .top)) := by
  refine leads_trigExchange h hn rfl (fun _ ha _ => by rw [trigStep, abortPoint_go ha]) fun fs y hy ready => ?_
  have used : trigStep y.ctl.pollBudget .wroteSleep y = .goto (.poll .top)
      { y with
        hid := { y.hid with bus := .quiet, pollCnt := y.hid.pollCnt + 1, dlyCnt := Config.pollIntervalMs } } := by
    rw [trigStep, onWrite_ok_eq (by rw [hy]; rfl)]
    rfl
  rw [exec_trig_goto ready used, hy]
  simp only [State.polling, State.answeredBy, List.append_assoc]
  rfl

/-- The poll wait of 0 ms is over at once. -/
theorem does_pollOver : Does .engine (s.polling f 0 k m tr (.poll .top)) (s.polling f 0 k m tr .readMode) := by
  have active := h.polling f 0 k m tr (.poll .top)
  exact active.does fun fs => exec_trig_goto (s := (s.polling f 0 k m tr (.poll .top)).facing fs) active.ready rfl

/-- The forced-mode write, after which TRIG completes. -/
theorem leads_writeForce (hn : n = s.env.trace.length + tr.length) :
    Leads (exchange n .ok) (s.polling f d k m tr .writeForce)
      (complete (s.polling .force d k m (tr ++ [⟨forceReq m, some .ok⟩]) .wroteForce)) := by
  refine leads_trigExchange h hn rfl (fun _ ha hm => by rw [trigStep, abortPoint_go ha, hm]) fun fs y hy ready => ?_
  rw [exec_trig_wroteForce ready (by rw [hy]; rfl), hy]
  simp only [State.polling, State.answeredBy, List.append_assoc]
  rfl

/-- One poll: a read that shows no sleep, a sleep write, and the wait of 0 ms. -/
theorem leads_poll (hn : n = s.env.trace.length + tr.length) (hx : modeBits x ≠ 0)
    (hk : s.ctl.pollBudget = 0 ∨ k ≠ s.ctl.pollBudget) :
    Leads (exchange n (.bytes [x]) ++ exchange (n + 1) .ok ++ [.engine]) (s.polling f d k m tr .readMode)
      (s.polling .sleep 0 (k + 1) x (tr ++ pollTrace [x]) .readMode) := by
  have read := leads_readMode_awake (f := f) (d := d) (m := m) h hn hx hk
  have write := leads_writeSleep (n := n + 1) (f := .read) (d := d) (k := k) (m := x) (x := x)
    (tr := tr ++ [readTx 0x74 1 [x]]) h (by rw [List.length_append, hn]; rfl)
  rw [List.append_assoc] at write
  exact (read.append write).append (.one (does_pollOver h))

end

section

variable {s : State} {p : Point} (h : Active .trig p s)
include h

/-- Polls within the budget: only STATUS.TRIG, DLY_CNT and the mode byte depend on whether there was one. -/
theorem leads_polls {xs : List Byte} {n : Nat} {f : TrigState} {d k : BitVec 16} {m : Byte} {tr : List BusTx}
    (hn : n = s.env.trace.length + tr.length) (hxs : ∀ x ∈ xs, modeBits x ≠ 0)
    (hk : s.ctl.pollBudget = 0 ∨ k.toNat + xs.length ≤ s.ctl.pollBudget.toNat) :
    ∃ f' d' m', Leads (pollEvents n xs) (s.polling f d k m tr .readMode)
      (s.polling f' d' (k + BitVec.ofNat 16 xs.length) m' (tr ++ pollTrace xs) .readMode) := by
  induction xs generalizing n f d k m tr with
  | nil => exact ⟨f, d, m, by simpa [pollTrace, pollEvents] using Leads.nil _⟩
  | cons x xs ih =>
    obtain ⟨hx, hxs⟩ := List.forall_mem_cons.mp hxs
    rw [List.length_cons] at hk
    have hbelow : s.ctl.pollBudget = 0 ∨ k ≠ s.ctl.pollBudget :=
      hk.imp_right fun hle e => by rw [← e] at hle; omega
    have poll := leads_poll (f := f) (d := d) (m := m) h hn hx hbelow
    have hsucc : s.ctl.pollBudget = 0 ∨ (k + 1).toNat + xs.length ≤ s.ctl.pollBudget.toNat :=
      hk.imp_right fun hle => by
        have hlt := s.ctl.pollBudget.isLt
        rw [BitVec.toNat_add_of_lt (by simp; omega)]
        simp; omega
    obtain ⟨f', d', m', rest⟩ := ih (n := n + 2) (f := .sleep) (d := 0) (k := k + 1) (m := x)
      (tr := tr ++ pollTrace [x]) (by rw [List.length_append, hn]; rfl) hxs hsucc
    have hcount : k + 1 + BitVec.ofNat 16 xs.length = k + BitVec.ofNat 16 (x :: xs).length := by
      rw [List.length_cons, Nat.add_comm, BitVec.ofNat_add, ← BitVec.add_assoc]; rfl
    rw [hcount, List.append_assoc] at rest
    refine ⟨f', d', m', ?_⟩
    have whole := poll.append rest
    rwa [List.append_assoc] at whole

end

theorem length_pollTrace (xs : List Byte) : (pollTrace xs).length = 2 * xs.length := by
  simp [pollTrace, Nat.mul_comm]

/-! ### TRIG from its acceptance -/

/-- TRIG accepted in `s`, and not yet begun. -/
def State.triggered (s : State) : State := (accept (encode .trig) s).answering (cmdWrite .trig) .done

theorem active_triggered {s : State} (hfree : s.free) : Active .trig .start s.triggered :=
  active_accept hfree.2.2 (by decide) _ _

/-- TRIG is accepted, clears POLL_CNT, and makes the polls `xs`. -/
theorem leads_trig_polls {s : State} {xs : List Byte} (hfree : s.free) (hxs : ∀ x ∈ xs, modeBits x ≠ 0)
    (hk : s.ctl.pollBudget = 0 ∨ xs.length ≤ s.ctl.pollBudget.toNat) :
    ∃ f d m, Leads (command .trig (.engine :: pollEvents s.env.trace.length xs)) s
      (s.triggered.polling f d (BitVec.ofNat 16 xs.length) m (pollTrace xs) .readMode) := by
  have active := active_triggered hfree
  obtain ⟨f, d, m, polls⟩ := leads_polls (s := s.triggered) (n := s.env.trace.length) (f := s.status.trig)
    (d := s.hid.dlyCnt) (k := 0#16) (m := s.hid.modeByte) (tr := []) active rfl hxs
    (hk.imp_right fun hle => (Nat.zero_add _).trans_le hle)
  rw [BitVec.zero_add, List.nil_append] at polls
  have clear : Does .engine s.triggered
      (s.triggered.polling s.status.trig s.hid.dlyCnt 0 s.hid.modeByte [] .readMode) :=
    active.does fun fs => by
      rw [exec_trig_start (s := s.triggered.facing fs) active.ready,
        goto_eq_polling (s := s.triggered.facing fs) hfree.2.1]
      rfl
  exact ⟨f, d, m, .cons (does_cmdWrite hfree.1 (by decide)) (.cons clear polls)⟩

/-- Settles O38: with budget 0 every poll is within the budget. -/
theorem unboundedPolling : Obligations.UnboundedPolling := by
  intro s xs hfree hxs hb
  obtain ⟨f, d, m, polls⟩ := leads_trig_polls hfree hxs (.inl hb)
  exact ⟨_, polls.play, rfl, rfl, rfl, rfl⟩

/-- Settles O36: the polls, the read that shows sleep, and the forced-mode write with the byte it read. -/
theorem trigSequence : Obligations.TrigSequence := by
  intro s
  refine ⟨fun q => exec_trig_wroteForce, fun xs m hfree hxs hm hk => ?_⟩
  obtain ⟨f, d, y, polls⟩ := leads_trig_polls hfree hxs hk
  have active := active_triggered hfree
  have hlen : (pollTrace xs).length = 2 * xs.length := length_pollTrace xs
  have read := leads_readMode_asleep (n := s.env.trace.length + 2 * xs.length) (f := f) (d := d)
    (k := BitVec.ofNat 16 xs.length) (m := y) (tr := pollTrace xs) active (by rw [hlen]; rfl) hm
  have force := leads_writeForce (n := s.env.trace.length + 2 * xs.length + 1) (f := .read) (d := d)
    (k := BitVec.ofNat 16 xs.length) (m := m) (tr := pollTrace xs ++ [readTx 0x74 1 [m]]) active
    (by rw [List.length_append, hlen]; rfl)
  have whole := (polls.append read).append force
  refine Eq.trans ?_ (whole.play.trans (congrArg _ ?_))
  · simp [command]
  · rw [← busQuiet_of_quiet hfree.2.1, List.append_assoc]
    rfl

/-- Settles O37: the polls spend the budget, and the next read shows no sleep. -/
theorem trigPollTimeout : Obligations.TrigPollTimeout := by
  intro s xs x hfree hxs hx hb hlen
  obtain ⟨f, d, y, polls⟩ := leads_trig_polls hfree hxs (.inr hlen.le)
  have hcount : BitVec.ofNat 16 xs.length = s.ctl.pollBudget := by rw [hlen, BitVec.ofNat_toNat, BitVec.setWidth_eq]
  have spent := leads_readMode_spent (n := s.env.trace.length + 2 * xs.length) (f := f) (d := d)
    (k := BitVec.ofNat 16 xs.length) (m := y) (tr := pollTrace xs) (active_triggered hfree)
    (by rw [length_pollTrace]; rfl) hx hb hcount
  rw [hcount] at polls spent
  have whole := polls.append spent
  refine Eq.trans ?_ (whole.play.trans (congrArg _ ?_))
  · simp [command]
  · rw [← busQuiet_of_quiet hfree.2.1]
    rfl

end Sys2Proof.Machine
end

section
/-! PROOFS. The compensation commands at their first step: what they raise without a calibration or without T_FINE (O44),
the temperature (O41, O42), the humidity (O47), and the pressure whose divisor is 0 (O46). -/

namespace Sys2Proof.Machine

/-! ### The engine's first step of a command that computes -/

section

variable {s : State} (h : s.ready .start)
include h

theorem exec_compt_start : exec .compt s = finish id s (comptBody s) := by
  simp only [exec, execCompt, unlessOffering_none h.2, h.1]

theorem exec_compp_start : exec .compp s = finish id s (comppBody s) := by
  simp only [exec, execCompp, unlessOffering_none h.2, h.1]

theorem exec_comph_start : exec .comph s = finish id s (comphBody s) := by
  simp only [exec, execComph, unlessOffering_none h.2, h.1]

theorem exec_compall_start : exec .compall s = finish .comp s (compStep .temp s) := by
  simp only [exec, execCompall, unlessOffering_none h.2, h.1]

theorem exec_rhcode_start (temp : Nat) : exec (.rhcode temp) s = finish id s (rhcodeBody temp s) := by
  simp only [exec, execRhcode, unlessOffering_none h.2, h.1]

theorem exec_cfghtr_compute : exec .cfghtr s = finish .htr s (htrStep .compute s) := by
  simp only [exec, execCfghtr, unlessOffering_none h.2, h.1]

end

/-! ### Without a calibration, without T_FINE (R276 42_compensation.md, R456 70_reset_and_hazards.md) -/

section

variable {π : Type} {s : State}

theorem needCal_unavailable (hc : s.status.calValid = false) (go : Flow π) :
    needCal s go = .raise .calUnavailable 0 none s := by
  simp [needCal, hc]

theorem needTfine_violated (ht : s.status.tfValid = false) (go : Flow π) :
    needTfine s go = .raise .orderViolation 0 none s := by
  simp [needTfine, ht]

/-- A command that asks for the calibration first ends by CAL_UNAVAILABLE while there is none. -/
theorem finish_needCal_unavailable (hc : s.status.calValid = false) (here : π → Point) (go : Flow π) :
    finish here s (needCal s go) = .next (takeError false .calUnavailable 0 none s) := by
  rw [needCal_unavailable hc]
  rfl

/-- With a calibration, a command that asks for T_FINE next ends by ORDER_VIOLATION while there is none. -/
theorem finish_needTfine_violated (hc : s.status.calValid = true) (ht : s.status.tfValid = false) (here : π → Point)
    (go : Flow π) :
    finish here s (needCal s (needTfine s go)) = .next (takeError false .orderViolation 0 none s) := by
  rw [needCal, if_pos hc, needTfine_violated ht]
  rfl

end

/-- Settles O44: each of the six bodies begins by asking for the calibration, and COMPP and COMPH ask for T_FINE next. -/
theorem calibrationAndOrderNeeded : Obligations.CalibrationAndOrderNeeded := by
  intro s temp h
  refine ⟨fun hc => ⟨?_, fun hw => ⟨_, exec_run_latches h hw, by simp [hc], rfl⟩⟩, fun hc ht => ⟨?_, ?_⟩⟩
  · simp only [List.forall_mem_cons]
    refine ⟨?_, ?_, ?_, ?_, ?_, ?_, by simp⟩
    · exact (exec_rhcode_start h temp).trans (finish_needCal_unavailable hc ..)
    · exact (exec_cfghtr_compute h).trans (finish_needCal_unavailable hc ..)
    · exact (exec_compt_start h).trans (finish_needCal_unavailable hc ..)
    · exact (exec_compp_start h).trans (finish_needCal_unavailable hc ..)
    · exact (exec_comph_start h).trans (finish_needCal_unavailable hc ..)
    · rw [exec_compall_start h, compStep, comptBody, needCal_unavailable hc]
      rfl
  · exact (exec_compp_start h).trans (finish_needTfine_violated hc ht ..)
  · exact (exec_comph_start h).trans (finish_needTfine_violated hc ht ..)

/-! ### Temperature (R273, R274, R275 42_compensation.md) -/

/-- Settles O41: the body of COMPT is the formula over unbounded integers. -/
theorem temperatureResult : Obligations.TemperatureResult := by
  intro s h hc
  rw [exec_compt_start h, comptBody_eq hc]
  rfl

/-- The range of var1 of ct, from the widths of the raw value and CAL_T1. -/
theorem plainVar1_range (c : Cal) (raw : BitVec 20) :
    -131071 ≤ plainVar1 c raw.toNat ∧ plainVar1 c raw.toNat ≤ 131071 := by
  have hraw := raw.isLt
  have ht1 := c.t1.isLt
  unfold plainVar1
  omega

/-- Settles O42: the products by the corners of their factors' ranges, the results by the exactness of the checked
formula. -/
theorem temperatureRange : Obligations.TemperatureRange := by
  intro c raw
  have hvar1 := plainVar1_range c raw
  have ht2 : -32768 ≤ c.t2.toInt ∧ c.t2.toInt ≤ 32767 := ⟨BitVec.le_toInt c.t2, Int.le_of_lt_add_one BitVec.toInt_lt⟩
  have ht3 : -128 ≤ c.t3.toInt ∧ c.t3.toInt ≤ 127 := ⟨BitVec.le_toInt c.t3, Int.le_of_lt_add_one BitVec.toInt_lt⟩
  have hfine := plainFine_inRange c raw
  refine ⟨hvar1, ?_, ?_, ?_, hfine, plainTemp_range hfine, ctFine_eq c raw, (tempScaled_within hfine).eq⟩
  all_goals generalize plainVar1 c raw.toNat = v at *
  · have := mul_mem_corners (l := -4294967296) (u := 4294967296) hvar1 ht2 (by norm_num) (by norm_num)
    omega
  all_goals
    have hhalf : -65536 ≤ v / 2 ∧ v / 2 ≤ 65535 := by omega
    have hsq := mul_mem_corners (l := -4294967296) (u := 4294967296) hhalf hhalf (by norm_num) (by norm_num)
  · omega
  · have hquad : -1048576 ≤ v / 2 * (v / 2) / 2 ^ 12 ∧ v / 2 * (v / 2) / 2 ^ 12 ≤ 1048576 := by omega
    have hslope : -2048 ≤ c.t3.toInt * 2 ^ 4 ∧ c.t3.toInt * 2 ^ 4 ≤ 2032 := by omega
    have := mul_mem_corners (l := -2147483648) (u := 2147483648) hquad hslope (by norm_num) (by norm_num)
    omega

/-! ### Humidity (R290, R291, R292 42_compensation.md) -/

/-- The clamp of an exact value is the clamp of unbounded integers. -/
theorem clampHum_lit (h : Int) : clampHum (.lit h) = .lit (max 0 (min 100000 h)) := by
  rcases lt_or_ge 100000 h with hi | hi
  · have : max 0 (min 100000 h) = 100000 := by omega
    simp [clampHum, Checked.lit, hi, this]
  rcases lt_or_ge h 0 with lo | lo
  · have : max 0 (min 100000 h) = 0 := by omega
    simp [clampHum, Checked.lit, hi.not_gt, lo, this]
  · have : max 0 (min 100000 h) = h := by omega
    simp [clampHum, Checked.lit, hi.not_gt, lo.not_gt, this]

/-- chum is exact while T_FINE is in its range: each operation has fewer than 62 bits. -/
theorem chum_eq (c : Cal) (raw : BitVec 16) {tf : Int} (h : fineInRange tf) :
    chum c (unsigned raw) (.lit tf) = .lit (plainHumidity c raw.toNat tf) := by
  have ts := tempScaled_within h
  have part (x : Byte) := (ts.mul (signed_within x)).divLit 6 (k := 100) (by norm_num)
  have sixteen : (Checked.lit 16).Within 16 4 := .lit (by norm_num)
  have one : (Checked.lit 1).Within 1 0 := .lit (by norm_num)
  have thousand : (Checked.lit 1000).Within 1000 10 := .lit (by norm_num)
  have var1 := ((unsigned_within raw).sub ((unsigned_within c.h1).mul sixteen)).sub ((part c.h3).shr 1)
  have square := ((ts.mul (part c.h5)).shr 6).divLit 6 (k := 100) (by norm_num)
  have var2 := ((unsigned_within c.h2).mul (((part c.h4).add square).add (one.shl 14))).shr 10
  have var3 := var1.mul var2
  have var4 := (((unsigned_within c.h6).shl 7).add (part c.h7)).shr 4
  have var5 := ((var3.shr 14).mul (var3.shr 14)).shr 10
  have var6 := (var4.mul var5).shr 1
  have hum := (((var3.add var6).shr 10).mul thousand).shr 12
  rw [chum]
  exact (congrArg clampHum hum.eq).trans (clampHum_lit _)

/-- The COMPH body while T_FINE is in its range writes the humidity of unbounded integers. -/
theorem comphBody_plain {π : Type} {s : State} {tf : Int} (hc : s.status.calValid = true)
    (ht : s.status.tfValid = true) (htf : s.res.tFine = BitVec.ofInt 64 tf) (hf : fineInRange tf) :
    (comphBody s : Flow π) =
      .done { s with res := { s.res with compH := BitVec.ofInt 64 (plainHumidity s.cal s.raw.h.toNat tf) } } := by
  rw [comphBody_eq hc ht htf hf, chum_eq s.cal s.raw.h hf]
  rfl

/-- The COMPH body writes a humidity of 0 to 100000 whatever T_FINE is. -/
theorem comphBody_clamped {π : Type} {s : State} (hc : s.status.calValid = true) (ht : s.status.tfValid = true) :
    ∃ t, (comphBody s : Flow π) = .done t ∧ 0 ≤ t.res.compH.toInt ∧ t.res.compH.toInt ≤ 100000 := by
  rw [comphBody, needCal, if_pos hc, needTfine, if_pos ht]
  exact ⟨_, rfl, clampHum_toReg _⟩

/-- Settles O47: the formula is exact in T_FINE's range, and the clamp is its last operation. -/
theorem humidityResult : Obligations.HumidityResult := by
  intro s h hc ht
  rw [exec_comph_start h]
  refine ⟨fun hf => ?_, ?_⟩
  · rw [comphBody_plain hc ht (BitVec.ofInt_toInt.symm) hf]
    rfl
  · obtain ⟨t, ht, hrange⟩ := comphBody_clamped (π := Point) hc ht
    exact ⟨complete t, by rw [ht]; rfl, hrange⟩

/-! ### A pressure divisor of 0 (R285 42_compensation.md) -/

theorem Checked.Within.ovf {a : Checked} {v : Int} {n : Nat} (h : a.Within v n) : a.ovf = false := by
  rw [h.eq, Checked.lit_ovf]

/-- The branch of cp has no quotient for a divisor of 0, whichever way it goes. -/
theorem cpDivide_zero (pc : Checked) : cpDivide (.lit 0) pc = none := by
  unfold cpDivide
  split <;> rfl

/-- cp with a divisor of 0 divides by zero, and nothing has overflowed before. -/
theorem cp_eq_divideByZero (c : Cal) (raw : BitVec 20) {tf : Int} (h : fineInRange tf) (hd : plainDivisor c tf = 0) :
    cp c (unsigned raw) (.lit tf) = .divideByZero false := by
  obtain ⟨hvar1, hpc⟩ := cpBefore_within c raw h
  unfold cp
  generalize cpBefore c (unsigned raw) (.lit tf) = before at hvar1 hpc ⊢
  obtain ⟨var1, pc⟩ := before
  have hzero : var1 = .lit 0 := hvar1.eq.trans (by rw [hd])
  have hovf : pc.ovf = false := hpc.ovf
  have hshl : (pc.shl 1).ovf = false := (hpc.shl 1).ovf
  simp only [hzero, cpDivide_zero, hovf, hshl, Checked.lit_ovf, ite_self, Bool.or_self]

/-- The COMPP body with a divisor of 0 raises, and has changed nothing. -/
theorem comppBody_zero {π : Type} {s : State} {tf : Int} (hc : s.status.calValid = true) (ht : s.status.tfValid = true)
    (htf : s.res.tFine = BitVec.ofInt 64 tf) (hf : fineInRange tf) (hd : plainDivisor s.cal tf = 0) :
    (comppBody s : Flow π) = .raise .divideByZero 0 none s := by
  rw [comppBody, needCal, if_pos hc, needTfine, if_pos ht, signed, htf, toInt_ofInt_fine hf,
    cp_eq_divideByZero s.cal s.raw.p hf hd]
  dsimp only
  rw [State.withOvf_false]

/-- Settles O46: cp has no value for a divisor of 0; CAL_P1 is the last factor of the divisor. -/
theorem pressureDivideByZero : Obligations.PressureDivideByZero := by
  intro s h hc ht hf
  refine ⟨fun hd => ?_, fun hp => ?_⟩
  · rw [exec_compp_start h, comppBody_zero hc ht (BitVec.ofInt_toInt.symm) hf hd]
    rfl
  · simp [plainDivisor, hp]

end Sys2Proof.Machine
end

section
/-! PROOFS. COMPALL as its three engine steps (O48). -/

namespace Sys2Proof.Machine

/-! ### The pressure where an operation leaves int64 (R286 42_compensation.md) -/

/-- The COMPP body with a divisor other than 0 where an operation leaves int64: the wrapped pressure, and OVF. -/
theorem comppBody_wraps {π : Type} {s : State} {tf : Int} (hc : s.status.calValid = true) (ht : s.status.tfValid = true)
    (htf : s.res.tFine = BitVec.ofInt 64 tf) (hf : fineInRange tf) (hd : plainDivisor s.cal tf ≠ 0)
    (fits : pressureFits s.cal s.raw.p.toNat tf = false) : (comppBody s : Flow π) =
    .done { s with
      res := { s.res with compP := BitVec.ofInt 64 (wrappedPressure s.cal s.raw.p.toNat tf) }
      status := { s.status with ovf := true } } := by
  obtain ⟨hovf, -⟩ := cpAfter_exactIf s.cal s.raw.p.toNat tf
  rw [comppBody, needCal, if_pos hc, needTfine, if_pos ht, signed, htf, toInt_ofInt_fine hf, cp_eq_value s.cal s.raw.p hf hd]
  simp only [hovf, fits, Checked.toReg, cpAfter_val, Bool.not_false, State.withOvf, Status.withOvf, Bool.or_true]

/-! ### One step of COMPALL (R296 42_compensation.md) -/

section

variable {s : State}

theorem exec_compall_comp {p : CompPt} (h : s.ready (.comp p)) : exec .compall s = finish .comp s (compStep p s) := by
  simp only [exec, execCompall, unlessOffering_none h.2, h.1]

/-- The registers of the temperature step: T_FINE, COMP_T and TF_VALID. -/
def State.withTemp (s : State) (tf : Int) : State :=
  { s with
    res := { s.res with tFine := BitVec.ofInt 64 tf, compT := BitVec.ofInt 64 (plainTemp tf) }
    status := { s.status with tfValid := true } }

/-- The registers of the pressure step: COMP_P, and OVF where an operation has left int64. -/
def State.withPress (s : State) (p : Int) (o : Bool) : State :=
  { s with
    res := { s.res with compP := BitVec.ofInt 64 p }
    status := { s.status with ovf := s.status.ovf || o } }

/-- The register of the humidity step. -/
def State.withHum (s : State) (h : Int) : State := { s with res := { s.res with compH := BitVec.ofInt 64 h } }

/-- The temperature step. -/
theorem exec_compall_temp (h : s.ready .start) (hc : s.status.calValid = true) :
    exec .compall s = .next ((s.withTemp (plainFine s.cal s.raw.t.toNat)).goto (.comp .press)) := by
  rw [exec_compall_start h, compStep, comptBody_eq hc]
  rfl

variable {tf : Int} (hc : s.status.calValid = true) (ht : s.status.tfValid = true)
  (htf : s.res.tFine = BitVec.ofInt 64 tf) (hf : fineInRange tf)
include hc ht htf hf

/-- The pressure step where every operation fits. -/
theorem exec_compall_press (h : s.ready (.comp .press)) (hd : plainDivisor s.cal tf ≠ 0)
    (fits : pressureFits s.cal s.raw.p.toNat tf = true) : exec .compall s =
      .next ((s.withPress (plainPressure s.cal s.raw.p.toNat tf) false).goto (.comp .hum)) := by
  rw [exec_compall_comp h, compStep, comppBody_eq hc ht htf hf hd fits, State.withPress, Bool.or_false]
  rfl

/-- The pressure step where an operation leaves int64. -/
theorem exec_compall_wraps (h : s.ready (.comp .press)) (hd : plainDivisor s.cal tf ≠ 0)
    (fits : pressureFits s.cal s.raw.p.toNat tf = false) : exec .compall s =
      .next ((s.withPress (wrappedPressure s.cal s.raw.p.toNat tf) true).goto (.comp .hum)) := by
  rw [exec_compall_comp h, compStep, comppBody_wraps hc ht htf hf hd fits, State.withPress, Bool.or_true]
  rfl

/-- The pressure step with a divisor of 0. -/
theorem exec_compall_zero (h : s.ready (.comp .press)) (hd : plainDivisor s.cal tf = 0) :
    exec .compall s = .next (takeError false .divideByZero 0 none s) := by
  rw [exec_compall_comp h, compStep, comppBody_zero hc ht htf hf hd]
  rfl

/-- The humidity step, which completes the command. -/
theorem exec_compall_hum (h : s.ready (.comp .hum)) : exec .compall s =
    .next (complete (s.withHum (plainHumidity s.cal s.raw.h.toNat tf))) := by
  rw [exec_compall_comp h, compStep, comphBody_plain hc ht htf hf]
  rfl

end

/-! ### The whole command -/

theorem decode_encode_compall : decode (encode .compall) = .legal .compall := by decide

/-- COMPALL accepted in `s`, and its temperature written: the pressure is next. -/
def State.compensated (s : State) : State :=
  (((accept (encode .compall) s).answering (cmdWrite .compall) .done).withTemp
    (plainFine s.cal s.raw.t.toNat)).goto (.comp .press)

section

variable {s : State} (hfree : s.free) (hc : s.status.calValid = true)
include hfree

theorem active_compensated : Active .compall (.comp .press) s.compensated :=
  ⟨rfl, decode_encode_compall, ⟨rfl, hfree.2.2⟩, rfl⟩

include hc

/-- COMPALL is accepted and writes the temperature. -/
theorem leads_compensated : Leads (command .compall [.engine]) s s.compensated := by
  have active := active_accept hfree.2.2 decode_encode_compall (cmdWrite .compall) .done
  exact .cons (does_cmdWrite hfree.1 decode_encode_compall) (.one (active.does fun fs => exec_compall_temp active.ready hc))

/-- A pressure step that goes on to the humidity, and the humidity step, end COMPALL. -/
theorem play_compall {p : Int} {o : Bool}
    (press : Does .engine s.compensated ((s.compensated.withPress p o).goto (.comp .hum))) :
    let tf := plainFine s.cal s.raw.t.toNat
    let t := completed .compall [] s
    play (command .compall [.engine, .engine, .engine]) s = .next { t with
      res := ⟨BitVec.ofInt 64 tf, BitVec.ofInt 64 (plainTemp tf), BitVec.ofInt 64 p,
        BitVec.ofInt 64 (plainHumidity s.cal s.raw.h.toNat tf)⟩
      status := { t.status with tfValid := true, ovf := s.status.ovf || o } } := by
  intro tf t
  let u := (s.compensated.withPress p o).goto (.comp .hum)
  have active : Active .compall (.comp .hum) u := ⟨rfl, decode_encode_compall, ⟨rfl, hfree.2.2⟩, rfl⟩
  have hum : Does .engine u (complete (u.withHum (plainHumidity s.cal s.raw.h.toNat tf))) :=
    active.does fun fs =>
      exec_compall_hum (s := u.facing fs) hc rfl rfl (plainFine_inRange s.cal s.raw.t) active.ready
  have whole := (leads_compensated hfree hc).append (.cons press (.one hum))
  refine whole.play.trans (congrArg _ ?_)
  simp only [t, completed, List.append_nil]
  rfl

end

/-- Settles O48: the last step alone, and from the acceptance on the three steps, of which the second decides. -/
theorem compallResults : Obligations.CompallResults := by
  intro s
  refine ⟨fun h hc ht hf => exec_compall_hum hc ht BitVec.ofInt_toInt.symm hf h, fun hfree hc => ?_⟩
  have active := active_compensated hfree
  have hf := plainFine_inRange s.cal s.raw.t
  refine ⟨fun hd fits => ?_, fun hd fits => ?_, fun hd => ?_⟩
  · have whole := play_compall (p := plainPressure s.cal s.raw.p.toNat _) (o := false) hfree hc <| active.does fun fs =>
      exec_compall_press (s := s.compensated.facing fs) hc rfl rfl hf active.ready hd fits
    rwa [Bool.or_false] at whole
  · have whole := play_compall (p := wrappedPressure s.cal s.raw.p.toNat _) (o := true) hfree hc <| active.does fun fs =>
      exec_compall_wraps (s := s.compensated.facing fs) hc rfl rfl hf active.ready hd fits
    rwa [Bool.or_true] at whole
  · have zero : Does .engine s.compensated (takeError false .divideByZero 0 none s.compensated) := active.does fun fs =>
      exec_compall_zero (s := s.compensated.facing fs) hc rfl rfl hf active.ready hd
    refine ((leads_compensated hfree hc).append (.one zero)).play.trans (congrArg _ ?_)
    simp only [failed, completed, List.append_nil]
    rfl

end Sys2Proof.Machine
end

section
/-! PROOFS. T_FINE stays in the range of the temperature formula (O43). -/

namespace Sys2Proof.Machine

/-- T_FINE is in the range of ct's results (R274 42_compensation.md). -/
def State.FineOk (s : State) : Prop := fineInRange s.res.tFine.toInt

/-- T_FINE is in its range after the step, however it goes on. -/
def Flow.FineOk {π : Type} : Flow π → Prop
  | .goto _ t | .done t | .raise _ _ _ t => t.FineOk
  | .hold => True

/-! ### The bodies -/

section

variable {π : Type} {s : State}

theorem onRead_fineOk {err : BusKind → State → Flow π} {ok : List Byte → State → Flow π}
    (he : ∀ k, (err k s.busQuiet).FineOk) (ho : ∀ bs, (ok bs s.busQuiet).FineOk) : (onRead s err ok).FineOk := by
  rcases onRead_cases s err ok with ⟨q, bs, -, e⟩ | ⟨q, k, -, e⟩ | e <;> rw [e]
  exacts [ho bs, he k, trivial]

theorem onWrite_fineOk {err : BusKind → State → Flow π} {ok : State → Flow π} (he : ∀ k, (err k s.busQuiet).FineOk)
    (ho : (ok s.busQuiet).FineOk) : (onWrite s err ok).FineOk := by
  rcases onWrite_cases s err ok with ⟨q, -, e⟩ | ⟨q, k, -, e⟩ | e <;> rw [e]
  exacts [ho, he k, trivial]

variable (hs : s.FineOk)
include hs

theorem abortPoint_fineOk {go : Flow π} (h : go.FineOk) : (abortPoint s go).FineOk := by
  rcases abortPoint_cases s go with ⟨-, e⟩ | ⟨-, e⟩ <;> rw [e]
  exacts [hs, h]

theorem issueAt_fineOk (r : BusReq) (p : π) : (issueAt r p s).FineOk := abortPoint_fineOk hs hs

theorem needCal_fineOk {go : Flow π} (h : go.FineOk) : (needCal s go).FineOk := by
  rcases needCal_cases s go with ⟨-, e⟩ | ⟨-, e⟩ <;> rw [e]
  exacts [h, hs]

theorem needTfine_fineOk {go : Flow π} (h : go.FineOk) : (needTfine s go).FineOk := by
  rcases needTfine_cases s go with ⟨-, e⟩ | ⟨-, e⟩ <;> rw [e]
  exacts [h, hs]

omit hs in
theorem andThen_goto_fineOk {f : Flow π} {p : π} (h : f.FineOk) : (f.andThen (.goto p)).FineOk := by
  cases f <;> exact h

theorem calStep_fineOk (p : CalPt) : (calStep p s).FineOk := by
  cases p
  case invalidate => exact hs
  case got1 | got2 | got3 =>
    simp only [calStep]
    exact onRead_fineOk (fun _ => hs) fun _ => hs
  all_goals exact issueAt_fineOk hs ..

theorem osStep_fineOk (p : OsPt) : (osStep p s).FineOk := by
  cases p
  case gotHum | gotMeas =>
    simp only [osStep]
    exact onRead_fineOk (fun _ => hs) fun _ => hs
  case wroteHum | wroteMeas =>
    simp only [osStep]
    exact onWrite_fineOk (fun _ => hs) hs
  all_goals exact issueAt_fineOk hs ..

theorem htrStep_fineOk (p : HtrPt) : (htrStep p s).FineOk := by
  cases p
  case compute =>
    refine needCal_fineOk hs ?_
    dsimp only
    split <;> exact hs
  case wroteDur | wroteRes | wroteCtrl =>
    simp only [htrStep]
    exact onWrite_fineOk (fun _ => hs) hs
  all_goals exact issueAt_fineOk hs ..

theorem waitStep_fineOk (p : WaitPt) : (waitStep p s).FineOk := by
  rcases waitStep_cases p s with ⟨-, -, e⟩ | ⟨-, -, -, e⟩ | ⟨-, -, -, e⟩ | ⟨-, e⟩ <;> rw [e]
  exacts [hs, hs, hs, trivial]

theorem trigStep_fineOk (n : BitVec 16) (p : TrigPt) : (trigStep n p s).FineOk := by
  cases p
  case clear => exact hs
  case gotMode =>
    simp only [trigStep]
    refine onRead_fineOk (fun _ => hs) fun _ => ?_
    unfold trigDecide
    split
    · exact hs
    · split <;> exact hs
  case wroteSleep | wroteForce =>
    simp only [trigStep]
    exact onWrite_fineOk (fun _ => hs) hs
  case poll w =>
    have h := waitStep_fineOk hs w
    simp only [trigStep]
    cases hw : waitStep w s <;> rw [hw] at h <;> exact h
  all_goals exact abortPoint_fineOk hs hs

theorem rawStep_fineOk (p : RawPt) : (rawStep p s).FineOk := by
  cases p
  case read => exact issueAt_fineOk hs ..
  case got =>
    simp only [rawStep]
    exact onRead_fineOk (fun _ => hs) fun _ => hs

theorem rhcodeBody_fineOk (temp : Nat) : (rhcodeBody temp s : Flow π).FineOk := by
  refine needCal_fineOk hs ?_
  split <;> exact hs

/-- COMPT is the one body that writes T_FINE, and writes a result of ct (R274 42_compensation.md). -/
theorem comptBody_fineOk : (comptBody s : Flow π).FineOk := by
  rcases Bool.eq_false_or_eq_true s.status.calValid with hc | hc
  · have hf := plainFine_inRange s.cal s.raw.t
    rw [comptBody_eq hc]
    simpa only [Flow.FineOk, State.FineOk, toInt_ofInt_fine hf] using hf
  · rw [comptBody, needCal_unavailable hc]
    exact hs

theorem comppBody_fineOk : (comppBody s : Flow π).FineOk := by
  refine needCal_fineOk hs (needTfine_fineOk hs ?_)
  split <;> exact hs

theorem comphBody_fineOk : (comphBody s : Flow π).FineOk := needCal_fineOk hs (needTfine_fineOk hs hs)

theorem compStep_fineOk (p : CompPt) : (compStep p s).FineOk := by
  cases p
  exacts [andThen_goto_fineOk (comptBody_fineOk hs), andThen_goto_fineOk (comppBody_fineOk hs), comphBody_fineOk hs]

theorem aggclrBody_fineOk (n : BitVec 16) : (aggclrBody n s : Flow π).FineOk := by
  unfold aggclrBody
  split <;> exact hs

theorem aggaccBody_fineOk : (aggaccBody s : Flow π).FineOk := by
  unfold aggaccBody
  split <;> exact hs

theorem aggfinBody_fineOk : (aggfinBody s : Flow π).FineOk := by
  unfold aggfinBody
  split
  · exact hs
  · split <;> exact hs

theorem runStart_fineOk : (runStart s).FineOk := by
  unfold runStart
  dsimp only
  split
  · exact hs
  · split <;> exact hs

theorem loadWait_fineOk (k : WaitFor) (ms : BitVec 16) : (loadWait k ms s).FineOk := abortPoint_fineOk hs hs

end

/-! ### The commands -/

section

variable {π : Type} {s t : State} {here : π → Point} {after : State → State} {f : Flow π}

theorem takeError_fineOk {r : Bool} {e : ErrCode} {a : Byte} {k : Option BusKind} (h : s.FineOk) :
    (takeError r e a k s).FineOk := by
  rwa [State.FineOk, takeError_res]

theorem enterLoop_fineOk (i : Nat) (h : s.FineOk) : (enterLoop i s).FineOk := by
  unfold enterLoop
  split <;> exact h

variable (hs : s.FineOk)
include hs

theorem finish_fineOk (h : f.FineOk) (e : finish here s f = .next t) : t.FineOk := by
  rcases finish_next e with ⟨p, s', rfl, rfl⟩ | ⟨s', rfl, rfl⟩ | ⟨_, _, _, s', rfl, rfl⟩ | ⟨rfl, rfl⟩
  exacts [h, h, takeError_fineOk h, hs]

theorem finishInRun_fineOk (h : f.FineOk) (e : finishInRun here after s f = .next t)
    (ha : ∀ s' : State, s'.FineOk → (after s').FineOk) : t.FineOk := by
  rcases finishInRun_next e with ⟨p, s', rfl, rfl⟩ | ⟨s', rfl, rfl⟩ | ⟨_, _, _, s', rfl, rfl⟩ | ⟨rfl, rfl⟩
  exacts [h, ha s' h, takeError_fineOk h, hs]

theorem finishSample_fineOk {own : ErrCode} (h : f.FineOk) (e : finishSample own here after s f = .next t)
    (ha : ∀ s' : State, s'.FineOk → (after s').FineOk) : t.FineOk := by
  rcases finishSample_next e with
    ⟨p, s', rfl, rfl⟩ | ⟨s', rfl, rfl⟩ | ⟨a, k, s', rfl, rfl⟩ | ⟨_, _, _, s', rfl, -, rfl⟩ | ⟨rfl, rfl⟩
  exacts [h, ha s' h, h, takeError_fineOk h, hs]

theorem runStep_fineOk {p : RunPt} (e : runStep p s = .next t) : t.FineOk := by
  cases p <;> simp only [runStep] at e
  case aggClr => exact finishInRun_fineOk hs (aggclrBody_fineOk hs _) e fun _ => enterLoop_fineOk 0
  case aggAcc => exact finishInRun_fineOk hs (aggaccBody_fineOk hs) e fun _ => id
  case aggFin => exact finishInRun_fineOk hs (aggfinBody_fineOk hs) e fun _ => id
  case delayLoad | settleLoad | final1Load | final2Load =>
    exact finishInRun_fineOk hs (loadWait_fineOk hs ..) e fun _ => id
  case sampleEnd => cases e; exact enterLoop_fineOk _ hs
  all_goals cases e; exact hs

theorem execRun_fineOk (e : execRun s = .next t) : t.FineOk := by
  rcases unlessOffering_next e with ⟨-, rfl⟩ | ⟨-, e⟩
  · exact hs
  cases hp : s.hid.pos.point <;> simp only [hp] at e
  case noCommand => cases e
  case start => exact finishInRun_fineOk hs (runStart_fineOk hs) e fun _ => id
  case run => exact runStep_fineOk hs e
  case cal p => exact finishInRun_fineOk hs (calStep_fineOk hs p) e fun _ => id
  case os p => exact finishInRun_fineOk hs (osStep_fineOk hs p) e fun _ => id
  case htr p => exact finishInRun_fineOk hs (htrStep_fineOk hs p) e fun _ => id
  case trig p => exact finishInRun_fineOk hs (trigStep_fineOk hs _ p) e fun _ => id
  case raw p => exact finishSample_fineOk hs (rawStep_fineOk hs p) e fun _ => id
  case comp p => exact finishSample_fineOk hs (compStep_fineOk hs p) e fun _ => id
  case wait k p =>
    cases k
    case command => cases e
    all_goals exact finishInRun_fineOk hs (waitStep_fineOk hs p) e fun _ => id

end

theorem reset_fineOk : State.reset.FineOk := by
  unfold State.FineOk
  decide

/-- Every command's step keeps T_FINE in its range. -/
theorem exec_fineOk {i : Instr} {s t : State} (hs : s.FineOk) (e : exec i s = .next t) : t.FineOk := by
  have held {o : Result} (e : unlessOffering s o = .next t) (h : o = .next t → t.FineOk) : t.FineOk := by
    rcases unlessOffering_next e with ⟨-, rfl⟩ | ⟨-, e⟩
    exacts [hs, h e]
  cases i
  case sreset =>
    cases hp : s.hid.pos.point <;> simp only [exec, execSreset, hp] at e <;> cases e
    exact reset_fineOk
  case run => exact execRun_fineOk hs e
  all_goals
    refine held e fun e => ?_
    cases hp : s.hid.pos.point <;> simp only [hp] at e <;> try cases e
  case nop.start | abort.start | gwcode.start | wait.start | loadcal.start | trig.start => exact hs
  case wait.wait k p =>
    cases k
    case command => exact finish_fineOk hs (waitStep_fineOk hs p) e
    all_goals cases e
  case loadcal.cal p => exact finish_fineOk hs (calStep_fineOk hs p) e
  case cfgos.start | cfgos.os => exact finish_fineOk hs (osStep_fineOk hs _) e
  case cfghtr.start | cfghtr.htr => exact finish_fineOk hs (htrStep_fineOk hs _) e
  case trig.trig p => exact finish_fineOk hs (trigStep_fineOk hs _ p) e
  case readraw.start | readraw.raw => exact finish_fineOk hs (rawStep_fineOk hs _) e
  case compall.start | compall.comp => exact finish_fineOk hs (compStep_fineOk hs _) e
  case rhcode.start => exact finish_fineOk hs (rhcodeBody_fineOk hs _) e
  case compt.start => exact finish_fineOk hs (comptBody_fineOk hs) e
  case compp.start => exact finish_fineOk hs (comppBody_fineOk hs) e
  case comph.start => exact finish_fineOk hs (comphBody_fineOk hs) e
  case aggclr.start => exact finish_fineOk hs (aggclrBody_fineOk hs _) e
  case aggacc.start => exact finish_fineOk hs (aggaccBody_fineOk hs) e
  case aggfin.start => exact finish_fineOk hs (aggfinBody_fineOk hs) e

/-! ### The other agents -/

/-- No host access touches the results. -/
theorem hostStep_res (a : HostAccess) (s : State) : (hostStep a s).res = s.res := by
  unfold hostStep
  dsimp only
  split
  next c w _ _ =>
    unfold hostWrite
    split
    · rcases writeCmd_cases w s with ⟨-, -, e⟩ | ⟨-, -, e⟩ | ⟨-, -, e⟩ | ⟨-, -, e⟩ <;> rw [e] <;> rfl
    · split
      · rfl
      · cases c
        case status => rw [csrWrite_status, writeStatus_eq]
        all_goals rfl
  all_goals rfl

theorem busStep_res (n : Nat) (r : BusResp) (s : State) : (busStep n r s).res = s.res := by
  rcases busStep_cases n r s with ⟨q, -, -, -, e⟩ | e <;> rw [e]

theorem tickStep_res (s : State) : (tickStep s).res = s.res := by
  rcases tickStep_cases s with e | ⟨k, p, -, -, e⟩ | ⟨p, -, -, e⟩ <;> rw [e] <;> rfl

theorem sinkStep_res (s : State) : (sinkStep s).res = s.res := by
  rcases sinkStep_cases s with ⟨r, -, e⟩ | ⟨-, e⟩ <;> rw [e]

/-- Every step keeps T_FINE in its range: of all events only an engine step writes it, and the reset procedure. -/
theorem step_fineOk {s t : State} (hs : s.FineOk) (e : step s = .next t) : t.FineOk := by
  have kept (h : t.res = s.res) : t.FineOk := by rwa [State.FineOk, h]
  rw [step_eq] at e
  cases he : nextEvent s <;> rw [he, eventStep] at e
  case engine =>
    rcases engineTurn_next e with ⟨-, rfl⟩ | ⟨-, i, -, e⟩
    · exact hs
    · exact exec_fineOk (s := s.takeEvent) hs e
  case powerOn => cases e; exact reset_fineOk
  case host a => cases e; exact kept (hostStep_res a _)
  case bus n r => cases e; exact kept (busStep_res n r _)
  case tick => cases e; exact kept (tickStep_res _)
  case sinkAccept => cases e; exact kept (sinkStep_res _)

/-- Settles O43: the range holds at reset, and every step keeps it. -/
theorem tfineStaysInRange : Obligations.TfineStaysInRange := ⟨reset_fineOk, fun _ _ => step_fineOk⟩

end Sys2Proof.Machine
end

section
/-! PROOFS. STATUS.FSM changes only by the transitions of the table (O57). -/

namespace Sys2Proof.Machine

/-! ### The step that ends a body -/

section

variable {s t : State}

theorem abortPoint_goto_ne_done {π : Type} {p : π} {u : State} : abortPoint s (.goto p u) ≠ .done t := by
  rcases abortPoint_cases s (Flow.goto p u) with ⟨-, h⟩ | ⟨-, h⟩ <;> rw [h] <;> nofun

/-- A wait ends at its loop head, with DLY_CNT counted down. -/
theorem waitStep_done {p : WaitPt} (e : waitStep p s = .done t) : p = .top ∧ s.hid.dlyCnt = 0 := by
  rcases waitStep_cases p s with ⟨hp, hd, -⟩ | ⟨-, -, -, h⟩ | ⟨-, -, -, h⟩ | ⟨-, h⟩
  · exact ⟨hp, hd⟩
  all_goals rw [h] at e; cases e

/-- A trigger ends with the use of the answer to its forced-mode write. -/
theorem trigStep_done {b : BitVec 16} {p : TrigPt} (e : trigStep b p s = .done t) :
    p = .wroteForce ∧ ∃ r, s.hid.bus = .answered r .ok := by
  cases p <;> simp only [trigStep] at e
  case clear => cases e
  case readMode | writeSleep | writeForce => exact absurd e abortPoint_goto_ne_done
  case gotMode =>
    rcases onRead_cases s _ _ with ⟨r, bs, -, h⟩ | ⟨r, k, -, h⟩ | h <;> rw [h] at e
    · unfold trigDecide at e
      split at e
      · cases e
      · split at e <;> cases e
    · cases k <;> cases e
    · cases e
  case wroteSleep =>
    rcases onWrite_cases s _ _ with ⟨r, -, h⟩ | ⟨r, k, -, h⟩ | h <;> rw [h] at e <;> cases e
  case poll w => cases hw : waitStep w s <;> rw [hw] at e <;> cases e
  case wroteForce =>
    rcases onWrite_cases s _ _ with ⟨r, hb, -⟩ | ⟨r, k, -, h⟩ | h
    · exact ⟨rfl, r, hb⟩
    all_goals rw [h] at e; cases e

/-- A reading ends with the use of its bytes. -/
theorem rawStep_done {p : RawPt} (e : rawStep p s = .done t) :
    p = .got ∧ ∃ r b, s.hid.bus = .answered r (.bytes b) := by
  cases p <;> simp only [rawStep] at e
  case read => exact absurd e abortPoint_goto_ne_done
  case got =>
    rcases onRead_cases s _ _ with ⟨r, b, hb, -⟩ | ⟨r, k, -, h⟩ | h
    · exact ⟨rfl, r, b, hb⟩
    all_goals rw [h] at e; cases e

/-- The compensation ends with the humidity. -/
theorem compStep_done {p : CompPt} (e : compStep p s = .done t) : p = .hum := by
  have goesOn {f : Flow CompPt} {q : CompPt} : f.andThen (.goto q) ≠ .done t := by cases f <;> nofun
  cases p
  case hum => rfl
  all_goals exact absurd e goesOn

theorem aggclrBody_done {π : Type} {n : BitVec 16} (e : (aggclrBody n s : Flow π) = .done t) : n ≠ 0 := by
  rintro rfl
  rw [aggclrBody, if_pos ((badWindow_iff 0).2 rfl)] at e
  cases e

end

/-! ### What a step of a body does to STATUS.FSM -/

/-- A RUN has ended by a fatal error (R344 43_acquisition.md). -/
structure Fatal (t : State) : Prop where
  fsm : t.status.fsm = .idle
  busy : t.status.busy = false
  err : t.status.err = true

theorem takeError_fatal (e : ErrCode) (a : Byte) (k : Option BusKind) (s : State) : Fatal (takeError true e a k s) := by
  constructor <;> simp

/-- What a step of a RUN does to STATUS.FSM: nothing, the fall to IDLE with a fatal error, or a row of the table,
whatever the events to come. -/
def LoopMove (s t : State) : Prop :=
  t.status.fsm = s.status.fsm ∨ Fatal t ∨ ∀ e : Env, fsmTransition { s with env := e } t

section

variable {π : Type} {here : π → Point} {after : State → State} {f : Flow π} {s t : State}

theorem finish_fsm (hok : BodyOk here s f) (e : finish here s f = .next t) : t.status.fsm = s.status.fsm := by
  rcases finish_next e with ⟨p, u, rfl, rfl⟩ | ⟨u, rfl, rfl⟩ | ⟨_, _, _, u, rfl, rfl⟩ | ⟨rfl, rfl⟩
  exacts [hok.1.fsm, hok.1.fsm, hok.1.fsm, rfl]

/-- A body inside RUN leaves STATUS.FSM to what RUN does after it. -/
theorem finishInRun_move (hok : BodyOk here s f) (e : finishInRun here after s f = .next t)
    (ha : ∀ u, f = .done u → BodyFrame s u → LoopMove s (after u)) : LoopMove s t := by
  rcases finishInRun_next e with ⟨p, u, rfl, rfl⟩ | ⟨u, rfl, rfl⟩ | ⟨_, _, _, u, rfl, rfl⟩ | ⟨rfl, rfl⟩
  exacts [.inl hok.1.fsm, ha u rfl hok.1, .inr (.inl (takeError_fatal ..)), .inl rfl]

/-- A sample's body likewise; its own error leaves STATUS.FSM to the end of the sample. -/
theorem finishSample_move {own : ErrCode} (hok : BodyOk here s f) (e : finishSample own here after s f = .next t)
    (ha : ∀ u, f = .done u → BodyFrame s u → LoopMove s (after u)) : LoopMove s t := by
  rcases finishSample_next e with
    ⟨p, u, rfl, rfl⟩ | ⟨u, rfl, rfl⟩ | ⟨_, _, u, rfl, rfl⟩ | ⟨_, _, _, u, rfl, -, rfl⟩ | ⟨rfl, rfl⟩
  exacts [.inl hok.1.fsm, ha u rfl hok.1, .inl hok.1.fsm, .inr (.inl (takeError_fatal ..)), .inl rfl]

end

/-! ### RUN -/

section

variable {s t : State}

/-- Inside the sampling loop there is an index, below L_N. -/
theorem Turn.sample_some (h : Turn .run s) (hl : inLoop s.hid.pos.point = true) :
    ∃ i, s.hid.pos.sample = some i ∧ i < s.hid.lN.toNat := by
  have hs := h.inv.sample
  unfold sampleAgrees at hs
  split at hs
  next i hi =>
    simp only [Bool.and_eq_true, decide_eq_true_eq] at hs
    obtain ⟨⟨-, hlt⟩, -⟩ := hs
    exact ⟨i, hi, hlt⟩
  next => simp [h.running_iff.2 rfl, hl] at hs

/-- RUN's first step enters CONFIGURING, unless the window is rejected. -/
theorem runStart_move (h : Turn .run s) (hp : s.hid.pos.point = .start)
    (e : finishInRun id id s (runStart s) = .next t) : LoopMove s t := by
  have hidle : s.status.fsm = .idle := by simpa [hp, runFsm] using h.runFsm_point
  have hready : s.ready .start := ⟨hp, h.sink⟩
  rw [← exec_run_start hready] at e
  by_cases hw : s.ctl.window = 0
  · rw [exec_run_badWindow hready hw] at e
    cases e
    exact .inr (.inl (takeError_fatal ..))
  · rw [exec_run_latches hready hw] at e
    cases e
    refine .inr (.inr fun _ => ?_)
    simp only [fsmTransition, hidle]
    exact ⟨h.running_iff.2 rfl, hp⟩

/-- From CONFIGURING the loop begins with sample 0: its window is not empty. -/
theorem aggClr_move {u : State} (hp : s.hid.pos.point = .run .aggClr) (hfsm : s.status.fsm = .configuring)
    (hf : BodyFrame s u) (hn : s.hid.lN ≠ 0) : LoopMove s (enterLoop 0 u) := by
  have hpos : 0 < u.hid.lN.toNat := by
    rw [hf.lN]
    exact Nat.pos_of_ne_zero fun h0 => hn (BitVec.eq_of_toNat_eq h0)
  rw [enterLoop, if_pos hpos]
  refine .inr (.inr fun _ => ?_)
  simp only [fsmTransition, hfsm, enterDelaying_status]
  exact ⟨hp, hn⟩

/-- At the end of sample i the loop goes on with sample i + 1, or is over (R343 43_acquisition.md). -/
theorem sampleEnd_move (h : Turn .run s) (hp : s.hid.pos.point = .run .sampleEnd) :
    LoopMove s (enterLoop (s.hid.pos.sample.getD 0 + 1) s) := by
  obtain ⟨i, hi, hlt⟩ := h.sample_some (by rw [hp]; rfl)
  have hfsm : (s.status.fsm = .reading ∨ s.status.fsm = .compensating) ∨ s.status.fsm = .aggregating := by
    simpa [hp, runFsm] using h.runFsm_point
  rw [hi, Option.getD_some, enterLoop]
  refine .inr (.inr fun _ => ?_)
  split
  next hnext =>
    rcases hfsm with (hfsm | hfsm) | hfsm <;> simp only [fsmTransition, hfsm, enterDelaying_status] <;>
      exact ⟨hp, h.sink, i, hi, hnext⟩
  next hlast =>
    have heq : i + 1 = s.hid.lN.toNat := Nat.le_antisymm hlt (Nat.not_lt.1 hlast)
    rcases hfsm with (hfsm | hfsm) | hfsm <;> simp only [fsmTransition, hfsm, enterFinalizing_status] <;>
      exact ⟨hp, h.sink, i, hi, heq⟩

/-- RUN's steps outside the bodies of the other commands. -/
theorem runStep_move {p : RunPt} (h : Turn .run s) (hp : s.hid.pos.point = .run p) (e : runStep p s = .next t) :
    LoopMove s t := by
  have hs : Still s := h.still (by rw [hp]; rfl) (fun _ => by rw [hp]; rfl) (fun _ => by rw [hp]; rfl)
  have loads {k : WaitFor} {ms : BitVec 16} (e : finishInRun id id s (loadWait k ms s) = .next t) : LoopMove s t := by
    rcases abortPoint_cases s (Flow.goto (Point.wait k .top) (s.loadDelay ms)) with ⟨-, hl⟩ | ⟨-, hl⟩ <;>
      rw [loadWait, hl] at e <;> cases e
    exacts [.inr (.inl (takeError_fatal ..)), .inl rfl]
  cases p <;> simp only [runStep] at e
  case aggClr =>
    have hfsm : s.status.fsm = .configuring := by simpa [hp, runFsm] using h.runFsm_point
    exact finishInRun_move (here := id) (aggclrBody_ok _ s hs) e fun u hu hf =>
      aggClr_move hp hfsm hf (aggclrBody_done hu)
  case aggAcc => exact finishInRun_move (here := id) (aggaccBody_ok s hs) e fun u _ hf => .inl hf.fsm
  case aggFin => exact finishInRun_move (here := id) (aggfinBody_ok s hs) e fun u _ hf => .inl hf.fsm
  case sampleEnd => cases e; exact sampleEnd_move h hp
  case delayLoad | settleLoad | final1Load | final2Load => exact loads e
  case emitT | emitP | emitRmsT | emitRmsP => cases e; exact .inl rfl

/-- A wait of RUN that is over enters the next state (R340 43_acquisition.md). -/
theorem wait_move {k : WaitFor} {p : WaitPt} (h : Turn .run s) (hk : k ≠ .command) (hp : s.hid.pos.point = .wait k p)
    (e : exec .run s = .next t) : LoopMove s t := by
  have hat := h.inv.at
  have hfsm := h.runFsm_point
  rw [hp] at hat hfsm
  rw [exec_run_wait hk ⟨hp, h.sink⟩] at e
  refine finishInRun_move (waitStep_ok p s hat) e fun u hu hf => ?_
  obtain ⟨rfl, hd⟩ := waitStep_done hu
  cases k
  case command => exact absurd rfl hk
  case final1 => exact .inl hf.fsm
  all_goals
    simp only [runFsm, beq_iff_eq] at hfsm
    refine .inr (.inr fun _ => ?_)
    simp only [fsmTransition, hfsm, afterWait]
    exact ⟨hp, hd⟩

/-- A step of RUN. -/
theorem execRun_move (h : Turn .run s) (e : exec .run s = .next t) : LoopMove s t := by
  have home := h.home
  have hat := h.inv.at
  have hfsm := h.runFsm_point
  cases hp : s.hid.pos.point <;> rw [hp] at home hat hfsm
  case noCommand => cases home
  case start => exact runStart_move h hp (exec_run_start ⟨hp, h.sink⟩ ▸ e)
  case run p => exact runStep_move h hp (exec_run_run ⟨hp, h.sink⟩ ▸ e)
  case wait k p => exact wait_move h (by rintro rfl; cases home) hp e
  case cal p =>
    rw [exec_run_cal ⟨hp, h.sink⟩] at e
    exact finishInRun_move (calStep_ok p s hat) e fun u _ hf => .inl hf.fsm
  case os p =>
    rw [exec_run_os ⟨hp, h.sink⟩] at e
    exact finishInRun_move (osStep_ok p s hat) e fun u _ hf => .inl hf.fsm
  case htr p =>
    rw [exec_run_htr ⟨hp, h.sink⟩] at e
    exact finishInRun_move (htrStep_ok p s hat) e fun u _ hf => .inl hf.fsm
  all_goals simp only [runFsm, beq_iff_eq] at hfsm
  case trig p =>
    rw [exec_run_trig ⟨hp, h.sink⟩] at e
    refine finishInRun_move (trigStep_ok _ p s hat) e fun u hu _ => .inr (.inr fun _ => ?_)
    obtain ⟨rfl, hanswer⟩ := trigStep_done hu
    simp only [fsmTransition, hfsm]
    exact ⟨hp, hanswer⟩
  case raw p =>
    rw [exec_run_raw ⟨hp, h.sink⟩] at e
    refine finishSample_move (rawStep_ok p s hat) e fun u hu _ => .inr (.inr fun _ => ?_)
    obtain ⟨rfl, hanswer⟩ := rawStep_done hu
    simp only [fsmTransition, hfsm]
    exact ⟨hp, hanswer⟩
  case comp p =>
    rw [exec_run_comp ⟨hp, h.sink⟩] at e
    refine finishSample_move (compStep_ok p s hat) e fun u hu _ => .inr (.inr fun _ => ?_)
    obtain rfl := compStep_done hu
    simp only [fsmTransition, hfsm]
    exact hp

end

/-! ### The other commands -/

section

variable {i : Instr} {s t : State}

/-- The first step of a command other than RUN leaves the Acquisition Loop IDLE. -/
theorem exec_start_idle (h : Turn i s) (hi : i ≠ .run) (hp : s.hid.pos.point = .start) (e : exec i s = .next t) :
    t.status.fsm = .idle := by
  have hs := h.still_of_start hp
  have idle (ht : t.status.fsm = s.status.fsm) : t.status.fsm = .idle := ht.trans (h.fsm_idle hi)
  cases i <;> simp only [exec, execNop, execSreset, execAbort, execWait, execLoadcal, execCfgos, execCfghtr, execTrig,
    execGwcode, execRhcode, execCompt, execCompp, execComph, execCompall, execReadraw, execAggclr, execAggacc,
    execAggfin, unlessOffering_none h.sink, hp] at e
  case run => exact absurd rfl hi
  case sreset => cases e; rfl
  case nop | abort | gwcode | wait => cases e; exact h.fsm_idle hi
  case loadcal => exact idle (finish_fsm (calStep_ok _ s (.of_still hs)) e)
  case cfgos => exact idle (finish_fsm (osStep_ok _ s (.of_still hs)) e)
  case cfghtr => exact idle (finish_fsm (htrStep_ok _ s (.of_still hs)) e)
  case trig => exact idle (finish_fsm (trigStep_ok _ _ s (.of_still hs)) e)
  case compall => exact idle (finish_fsm (compStep_ok _ s (.of_still hs)) e)
  case readraw => exact idle (finish_fsm (rawStep_ok _ s (.of_still hs)) e)
  case rhcode temp => exact idle (finish_fsm (rhcodeBody_ok temp s hs) e)
  case compt => exact idle (finish_fsm (comptBody_ok s hs) e)
  case compp => exact idle (finish_fsm (comppBody_ok s hs) e)
  case comph => exact idle (finish_fsm (comphBody_ok s hs) e)
  case aggclr => exact idle (finish_fsm (aggclrBody_ok _ s hs) e)
  case aggacc => exact idle (finish_fsm (aggaccBody_ok s hs) e)
  case aggfin => exact idle (finish_fsm (aggfinBody_ok s hs) e)

/-- A step of a command other than RUN leaves it IDLE. -/
theorem exec_idle (h : Turn i s) (hi : i ≠ .run) (e : exec i s = .next t) : t.status.fsm = .idle := by
  have hat := h.inv.at
  rcases atHome_cases h.home hi with hp | ⟨rfl, q, hp⟩ | ⟨rfl, q, hp⟩ | ⟨rfl, q, hp⟩ | ⟨rfl, q, hp⟩ | ⟨rfl, q, hp⟩ |
    ⟨rfl, q, hp⟩ | ⟨⟨ms, rfl⟩, q, hp⟩
  · exact exec_start_idle h hi hp e
  all_goals
    rw [hp] at hat
    simp only [exec, execLoadcal, execCfgos, execCfghtr, execTrig, execReadraw, execCompall, execWait,
      unlessOffering_none h.sink, hp] at e
    refine Eq.trans ?_ (h.fsm_idle hi)
  · exact finish_fsm (calStep_ok q s hat) e
  · exact finish_fsm (osStep_ok q s hat) e
  · exact finish_fsm (htrStep_ok q s hat) e
  · exact finish_fsm (trigStep_ok _ q s hat) e
  · exact finish_fsm (rawStep_ok q s hat) e
  · exact finish_fsm (compStep_ok q s hat) e
  · exact finish_fsm (waitStep_ok q s hat) e

/-- The engine's turn in a good state changes nothing or is the step of a command that nothing holds. -/
theorem engineTurn_turn (h : Inv s) (e : engineTurn s = .next t) : t = s ∨ ∃ i, Turn i s ∧ exec i s = .next t := by
  rcases engineTurn_next e with ⟨-, rfl⟩ | ⟨hb, i, hi, e⟩
  · exact .inl rfl
  cases ho : s.hid.outPend with
  | none => exact .inr ⟨i, ⟨h, hb, hi, ho⟩, e⟩
  | some r =>
    have hr := h.offer
    simp only [offerAgrees, ho, State.running, hb, hi, Bool.true_and, Bool.and_eq_true, beq_iff_eq] at hr
    obtain ⟨hrun, -⟩ := hr
    cases hrun
    rcases unlessOffering_next e with ⟨-, rfl⟩ | ⟨hn, -⟩
    · exact .inl rfl
    · simp [ho] at hn

/-- A RUN is never in DONE while it executes. -/
theorem Turn.fsm_ne_done (h : Turn .run s) : s.status.fsm ≠ .done := by
  intro hd
  have hf := h.runFsm_point
  rw [hd] at hf
  unfold runFsm at hf
  split at hf <;> cases hf

/-- A fatal error takes the Acquisition Loop from any state of a RUN into IDLE. -/
theorem Fatal.transition (h : Fatal t) (hne : t.status.fsm ≠ s.status.fsm) (hd : s.status.fsm ≠ .done) :
    fsmTransition s t := by
  rw [h.fsm] at hne
  cases hs : s.status.fsm <;> simp only [fsmTransition, hs, h.fsm]
  case idle => exact absurd hs.symm hne
  case done => exact absurd hs hd
  all_goals exact ⟨h.busy, .inl h.err⟩

end

/-! ### The events -/

/-- The reset procedure of a power-on reset. -/
theorem fsmTransition_powerOn {s : State} (u : State) (he : nextEvent s = .powerOn) (hne : s.status.fsm ≠ .idle) :
    fsmTransition s (resetProcedure u) := by
  have ht : (resetProcedure u).status.fsm = .idle := rfl
  cases hs : s.status.fsm <;> simp only [fsmTransition, hs, ht]
  case idle => exact absurd hs hne
  case done => exact .inr he
  all_goals exact ⟨rfl, .inr he⟩

/-- A host access moves the Acquisition Loop only by the command accepted in DONE (R40 10_state.md). -/
theorem hostStep_fsm (a : HostAccess) (s : State) : (hostStep a s).status.fsm = s.status.fsm ∨
    (s.status.fsm = .done ∧ (hostStep a s).status.fsm = .idle ∧ (hostStep a s).status.busy = true) := by
  unfold hostStep
  dsimp only
  split
  next c w _ _ =>
    by_cases hc : c = .cmd
    · subst hc
      rw [hostWrite_cmd]
      rcases writeCmd_cases w s with ⟨-, -, e⟩ | ⟨-, -, e⟩ | ⟨-, -, e⟩ | ⟨-, -, e⟩ <;> rw [e]
      case inr.inr.inl =>
        by_cases hd : s.status.fsm = .done
        · exact .inr ⟨hd, by simp [hd], by simp⟩
        · exact .inl (by simp [hd])
      all_goals exact .inl rfl
    cases hb : s.status.busy with
    | true => exact .inl (by rw [hostWrite_busy hc w hb])
    | false =>
      rw [hostWrite_idle hc w hb]
      cases c
      case status => rw [csrWrite_status, writeStatus_eq]; exact .inl rfl
      all_goals exact .inl rfl
  all_goals exact .inl rfl

/-- Settles O57: the engine moves STATUS.FSM by RUN's steps alone, the host by an acceptance in DONE, power-on by the
reset procedure, and the other agents not at all. -/
theorem fsmTransitions : Obligations.FsmTransitions := by
  intro s t hinv e hne
  have h : Inv s.takeEvent := hinv.with_env _
  rw [step_eq] at e
  cases he : nextEvent s <;> rw [he, eventStep] at e
  case engine =>
    rcases engineTurn_turn h e with rfl | ⟨i, turn, e⟩
    · exact absurd rfl hne
    by_cases hi : i = .run
    · subst hi
      rcases execRun_move turn e with hsame | hfatal | hrow
      · exact absurd hsame hne
      · exact hfatal.transition hne turn.fsm_ne_done
      · exact hrow s.env
    · exact absurd ((exec_idle turn hi e).trans (turn.fsm_idle hi).symm) hne
  case host a =>
    cases e
    rcases hostStep_fsm a s.takeEvent with hsame | ⟨hd, hidle, hbusy⟩
    · exact absurd hsame hne
    · have hd : s.status.fsm = .done := hd
      simp only [fsmTransition, hd, hidle]
      exact .inl hbusy
  case bus n r =>
    cases e
    rcases busStep_cases n r s.takeEvent with ⟨q, -, -, -, h⟩ | h <;> exact absurd (by rw [h]; rfl) hne
  case tick =>
    cases e
    rcases tickStep_cases s.takeEvent with h | ⟨k, p, -, -, h⟩ | ⟨p, -, -, h⟩ <;> exact absurd (by rw [h]; rfl) hne
  case sinkAccept =>
    cases e
    rcases sinkStep_cases s.takeEvent with ⟨r, -, h⟩ | ⟨-, h⟩ <;> exact absurd (by rw [h]; rfl) hne
  case powerOn => cases e; exact fsmTransition_powerOn _ he fun hs => hne hs.symm

end Sys2Proof.Machine
end

section
/-! PROOFS. The raw values of a burst (O49), READRAW (O50), the aggregator's commands (O51), a failed sample of a RUN
(O55), and the engine held by an offered record (O56). -/

namespace Sys2Proof.Machine

/-! ### The raw values (R311 43_acquisition.md) -/

/-- A 20-bit raw value: two bytes above the high nibble of a third. -/
theorem toNat_raw20 (b : List Byte) (i : Nat) : (raw20 b i).toNat =
    (b.getD i 0).toNat * 2 ^ 12 + (b.getD (i + 1) 0).toNat * 2 ^ 4 + (b.getD (i + 2) 0).toNat / 2 ^ 4 := by
  have hlow : (b.getD (i + 2) 0).toNat < 256 := (b.getD (i + 2) 0).isLt
  rw [raw20, toNat_append_eq, toNat_append_eq, BitVec.extractLsb'_toNat, Nat.shiftRight_eq_div_pow]
  simp only [byteAt]
  omega

/-- Settles O49: a raw value is bytes side by side. -/
theorem rawValuesFromBytes : Obligations.RawValuesFromBytes := by
  intro b _ u
  exact ⟨toNat_raw20 b 0, toNat_raw20 b 3, toNat_append_eq ..⟩

/-! ### READRAW (R312 43_acquisition.md) -/

section

variable {s : State} {q : BusReq} {b : List Byte} {k : BusKind}

theorem exec_readraw_start (h : s.ready .start) : exec .readraw s = finish .raw s (rawStep .read s) := by
  simp only [exec, execReadraw, unlessOffering_none h.2, h.1]

theorem exec_readraw_raw {p : RawPt} (h : s.ready (.raw p)) : exec .readraw s = finish .raw s (rawStep p s) := by
  simp only [exec, execReadraw, unlessOffering_none h.2, h.1]

/-- The use of READRAW's bytes. -/
def State.rawRead (s : State) (b : List Byte) : State :=
  { s with raw := Raw.assemble b, status := { s.status with tfValid := false }, hid := { s.hid with bus := .quiet } }

theorem rawStep_bytes (hb : s.hid.bus = .answered q (.bytes b)) : rawStep .got s = .done (s.rawRead b) := by
  rw [rawStep, onRead_bytes hb]
  rfl

theorem rawStep_busError (hb : s.hid.bus = .answered q (.err k)) :
    rawStep .got s = .raise .sampleReadFailure 0x1F (some k) s.busQuiet := by
  rw [rawStep, onRead_err hb]

theorem exec_readraw_bytes (h : s.ready (.raw .got)) (hb : s.hid.bus = .answered q (.bytes b)) :
    exec .readraw s = .next (complete (s.rawRead b)) := by
  rw [exec_readraw_raw h, rawStep_bytes hb]
  rfl

theorem exec_readraw_busError (h : s.ready (.raw .got)) (hb : s.hid.bus = .answered q (.err k)) :
    exec .readraw s = .next (takeError false .sampleReadFailure 0x1F (some k) s.busQuiet) := by
  rw [exec_readraw_raw h, rawStep_busError hb]
  rfl

/-- READRAW is accepted, issues its burst, and uses the answer as `g` says. -/
theorem play_readraw {resp : BusResp} {g : State → State} (h : s.free) (hf : resp.fits (.read 0x1F 8) = true)
    (hg : Blind g) (use : ∀ x : State, x.ready (.raw .got) → x.hid.bus = .answered (.read 0x1F 8) resp →
      exec .readraw x = .next (g x)) :
    let a := (accept (encode .readraw) s).answering (cmdWrite .readraw) .done
    play (command .readraw (exchange s.env.trace.length resp)) s =
      .next (g ((((a.issue (.read 0x1F 8)).goto (.raw .got)).answeredBy (.read 0x1F 8) resp).facing [])) := by
  obtain ⟨hb, -, ho⟩ := h
  intro a
  have hi : decode (encode .readraw) = .legal .readraw := by decide
  have active : Active .readraw .start a := active_accept ho hi _ _
  have ready : ((a.issue (.read 0x1F 8)).goto (.raw .got)).ready (.raw .got) := ⟨rfl, ho⟩
  have burst := active.exchange (n := s.env.trace.length) (u := (a.issue (.read 0x1F 8)).goto (.raw .got))
    ⟨rfl, hi, ready, rfl⟩ rfl rfl hf rfl
    (fun fs => by
      rw [exec_readraw_start (s := a.facing fs) active.ready, rawStep, issueAt_go (s := a.facing fs) active.abort]
      rfl)
    (t := g (((a.issue (.read 0x1F 8)).goto (.raw .got)).answeredBy (.read 0x1F 8) resp))
    fun fs => by rw [← hg]; exact use _ ready rfl
  rw [hg]
  exact (Leads.cons (does_cmdWrite hb hi) burst).play

end

/-- Settles O50: the use of the answer, and before it the issue of the one burst. -/
theorem readrawReadsOneBurst : Obligations.ReadrawReadsOneBurst := by
  intro s b
  refine ⟨fun q => exec_readraw_bytes, fun h h8 => ?_, fun k h => ?_⟩
  · refine (play_readraw (g := fun x => complete (x.rawRead b)) h (by simpa [BusResp.fits] using h8) (fun _ _ => rfl)
      fun _ => exec_readraw_bytes).trans (congrArg _ ?_)
    rw [← busQuiet_of_quiet h.2.1]
    rfl
  · refine (play_readraw (g := fun x => takeError false .sampleReadFailure 0x1F (some k) x.busQuiet) h rfl
      (fun _ _ => rfl) fun _ => exec_readraw_busError).trans (congrArg _ ?_)
    rw [← busQuiet_of_quiet h.2.1]
    rfl

/-! ### The aggregator's commands (R316, R319, R322 43_acquisition.md) -/

section

variable {s : State} (h : s.ready .start)
include h

theorem exec_aggclr_start : exec .aggclr s = finish id s (aggclrBody s.ctl.window s) := by
  simp only [exec, execAggclr, unlessOffering_none h.2, h.1]

theorem exec_aggacc_start : exec .aggacc s = finish id s (aggaccBody s) := by
  simp only [exec, execAggacc, unlessOffering_none h.2, h.1]

theorem exec_aggfin_start : exec .aggfin s = finish id s (aggfinBody s) := by
  simp only [exec, execAggfin, unlessOffering_none h.2, h.1]

end

/-- Settles O51: each body's branches, one by one. -/
theorem aggregatorCommands : Obligations.AggregatorCommands := by
  intro s h g nd cd term root
  rw [exec_aggclr_start h, exec_aggacc_start h, exec_aggfin_start h]
  refine ⟨fun hw => ?_, fun hw => ?_, fun hn => ?_, fun hn hv => ?_, fun hn => ⟨?_, ?_⟩, fun hn hv => ?_⟩
  · rw [aggclrBody, if_neg (mt (badWindow_iff _).1 hw)]
    rfl
  · rw [aggclrBody, if_pos ((badWindow_iff _).2 hw)]
    rfl
  · rw [aggaccBody, if_neg hn]
    rfl
  · rw [aggfinBody, if_neg hn, if_neg hv]
    rfl
  · rw [aggaccBody, if_pos hn]
    rfl
  · rw [aggfinBody, if_pos hn]
    rfl
  · rw [aggfinBody_noValidSamples hn hv]
    rfl

/-! ### A failed sample of a RUN (R345, R350 43_acquisition.md) -/

/-- The payload's fields stand side by side, each in its own bits. -/
theorem sampleErrPayload_eq (e : ErrCode) (a : Byte) (k : Option BusKind) (i : Nat) :
    sampleErrPayload e a k i =
      BitVec.ofNat 64 (i % 2 ^ 32 * 2 ^ 32 + (busKindCode k).toNat * 2 ^ 16 + a.toNat * 2 ^ 8 + e.code.toNat) := by
  refine BitVec.eq_of_toNat_eq ?_
  have hk := (busKindCode k).isLt
  have ha := a.isLt
  have he := e.code.isLt
  have hz : (0 : BitVec 14).toNat = 0 := rfl
  simp only [sampleErrPayload, toNat_append_eq, BitVec.toNat_ofNat, hz]
  omega

section

variable {s : State} {q : BusReq} {k : BusKind}

theorem exec_run_readFails (h : s.ready (.raw .got)) (hb : s.hid.bus = .answered q (.err k)) :
    exec .run s = .next (sampleError .sampleReadFailure 0x1F (some k) s.busQuiet) := by
  rw [exec_run_raw h, rawStep_busError hb]
  rfl

theorem exec_run_divideByZero (h : s.ready (.comp .press)) (hc : s.status.calValid = true)
    (ht : s.status.tfValid = true) (hf : fineInRange s.res.tFine.toInt)
    (hd : plainDivisor s.cal s.res.tFine.toInt = 0) :
    exec .run s = .next (sampleError .divideByZero 0 none s) := by
  rw [exec_run_comp h, compStep, comppBody_zero hc ht BitVec.ofInt_toInt.symm hf hd]
  rfl

end

/-- Settles O55: the one error that is a sample's own, in its reading and in its pressure, and the loop's head after
it. -/
theorem perSampleErrors : Obligations.PerSampleErrors := by
  intro s i hi word offered
  have offers (e : ErrCode) (a : Byte) (k : Option BusKind) : sampleError e a k s.busQuiet =
      offered (word e.code.toNat a.toNat (busKindCode k).toNat) := by
    have hi' : s.busQuiet.hid.pos.sample = some i := hi
    rw [sampleError, hi', Option.getD_some, sampleErrPayload_eq, State.goto]
    simp only [State.emit_hid, hi']
    rfl
  refine ⟨fun q h hb => ?_, fun q h hb => ?_, fun h hq hc ht hf hd => ?_, fun h hlt => ?_, fun h hle => ?_⟩
  · rw [exec_run_readFails h hb, offers]
    rfl
  · rw [exec_run_readFails h hb, offers]
    rfl
  · rw [exec_run_divideByZero h hc ht hf hd, ← busQuiet_of_quiet hq, offers]
    rfl
  · rw [exec_run_sampleEnd h, hi, Option.getD_some, enterLoop, if_pos hlt]
    rfl
  · rw [exec_run_sampleEnd h, hi, Option.getD_some, enterLoop, if_neg (Nat.not_lt.2 hle)]
    rfl

/-! ### The engine held by an offered record (R351 43_acquisition.md, R452 70_reset_and_hazards.md) -/

theorem unlessOffering_some {s : State} {r : Record} (h : s.hid.outPend = some r) (o : Result) :
    unlessOffering s o = .next s := by
  simp [unlessOffering, h]

/-- Settles O56: every command's meaning but SRESET's asks first whether a record is offered. -/
theorem offerHoldsTheEngine : Obligations.OfferHoldsTheEngine := by
  intro s r h
  refine ⟨fun i hi => ?_, fun hp => ⟨resetProcedure s, ?_, rfl, rfl⟩, ⟨resetProcedure s, rfl, rfl, rfl⟩, ?_⟩
  · cases i
    case sreset => exact absurd rfl hi
    all_goals exact unlessOffering_some h _
  · simp only [exec, execSreset, hp]
  · simp only [eventStep, sinkStep, h]

end Sys2Proof.Machine
end

section
/-! PROOFS. The RMS of a window of one sample: every operation on the way is exact, and a positive number has one
pattern (O53). -/

namespace Sys2Proof.Machine

/-! ### A positive number has one pattern (R18 00_scope.md) -/

theorem F64.ext_fields {a b : Word64} (hn : F64.neg a = F64.neg b) (he : F64.expo a = F64.expo b)
    (hf : F64.frac a = F64.frac b) : a = b := by
  simp only [F64.neg, BitVec.msb_eq_decide, decide_eq_decide] at hn
  simp only [F64.expo, F64.frac, BitVec.extractLsb'_toNat, Nat.shiftRight_eq_div_pow] at he hf
  have ha := a.isLt
  have hb := b.isLt
  exact BitVec.eq_of_toNat_eq (by omega)

/-- A significand and its scale give back the two fields. -/
theorem F64.fields_eq (a : Word64) : F64.expo a = (if F64.mant a < 2 ^ 52 then 0 else F64.scale a) ∧
    F64.frac a = F64.mant a % 2 ^ 52 := by
  have hf := F64.frac_lt a
  by_cases he : F64.expo a = 0
  · have hm : F64.mant a = F64.frac a := if_pos he
    rw [hm, if_pos hf, Nat.mod_eq_of_lt hf]
    exact ⟨he, rfl⟩
  · have hm : F64.mant a = 2 ^ 52 + F64.frac a := if_neg he
    rw [hm, if_neg (by omega), Nat.add_mod_left, Nat.mod_eq_of_lt hf]
    exact ⟨(if_neg he).symm, rfl⟩

/-- Only at the lowest scale has a significand fewer than 53 bits. -/
theorem F64.le_mant_of_one_lt_scale {a : Word64} (h : 1 < F64.scale a) : 2 ^ 52 ≤ F64.mant a := by
  have he : F64.expo a ≠ 0 := fun he => h.ne' (if_pos he)
  rw [F64.mant, if_neg he]
  exact Nat.le_add_right ..

/-- So a larger scale means a larger number. -/
theorem F64.scale_le_of_eq {a b : Word64}
    (h : F64.mant a * 2 ^ F64.scale a = F64.mant b * 2 ^ F64.scale b) : F64.scale b ≤ F64.scale a := by
  by_contra hlt
  obtain ⟨d, hd⟩ := Nat.exists_eq_add_of_lt (not_le.1 hlt)
  have hb : 2 ^ 52 ≤ F64.mant b := F64.le_mant_of_one_lt_scale ((F64.one_le_scale a).trans_lt (not_le.1 hlt))
  have hshift : F64.mant a = F64.mant b * 2 ^ d * 2 := by
    refine Nat.eq_of_mul_eq_mul_right (show 0 < 2 ^ F64.scale a by positivity) ?_
    rw [h, hd]
    ring
  have hge : F64.mant b ≤ F64.mant b * 2 ^ d := Nat.le_mul_of_pos_right _ (by positivity)
  have ha := F64.mant_lt a
  omega

theorem F64.eq_of_magnitude_eq {a b : Word64} (hn : F64.neg a = F64.neg b)
    (h : F64.mant a * 2 ^ F64.scale a = F64.mant b * 2 ^ F64.scale b) : a = b := by
  have hs : F64.scale a = F64.scale b := le_antisymm (F64.scale_le_of_eq h.symm) (F64.scale_le_of_eq h)
  rw [hs] at h
  have hm : F64.mant a = F64.mant b := Nat.eq_of_mul_eq_mul_right (by positivity) h
  obtain ⟨hea, hfa⟩ := F64.fields_eq a
  obtain ⟨heb, hfb⟩ := F64.fields_eq b
  exact F64.ext_fields hn (by rw [hea, heb, hm, hs]) (by rw [hfa, hfb, hm])

theorem neg_eq_false_of_pos {a : Word64} (h : 0 < f64Value a) : F64.neg a = false := by
  refine neg_eq_false_of_nonneg h.le fun hn => ?_
  rw [f64Value_eq_div, hn] at h
  simp at h

theorem eq_of_f64Value_eq {a b : Word64} (h : 0 < f64Value a) (hv : f64Value a = f64Value b) : a = b := by
  have ha := neg_eq_false_of_pos h
  have hb := neg_eq_false_of_pos (hv ▸ h)
  refine F64.eq_of_magnitude_eq (ha.trans hb.symm) ?_
  rw [f64Value_eq, f64Value_eq, ha, hb, F64.sgn_false, Int.cast_one, one_mul, one_mul, zpow_sub₀ two_ne_zero,
    zpow_sub₀ two_ne_zero, zpow_natCast, zpow_natCast, ← mul_div_assoc, ← mul_div_assoc,
    div_left_inj' (by positivity)] at hv
  exact_mod_cast hv

/-! ### Operations whose exact result is an integer up to 2^53 -/

/-- The result of an operation is an integer that binary64 has: nothing is rounded. -/
structure ExactInt (r : Word64) (n : ℤ) : Prop where
  finite : f64Finite r
  value : f64Value r = n

theorem NearestEven.exactInt {x : ℝ} {r : Word64} {n : ℤ} (h : NearestEven x r) (hx : x = n) (hn : n.natAbs ≤ 2 ^ 53) :
    ExactInt r n := by
  obtain ⟨b, hb, hv⟩ := exists_f64Value_eq_int hn
  exact ⟨h.1, by rw [h.eq_of_exact hb (by rw [hv, hx]; simp), hv]⟩

theorem abs_int_le_f64Max {n : ℤ} (hn : n.natAbs ≤ 2 ^ 53) : |(n : ℚ)| ≤ f64Max := by
  have h := abs_int64_le_f64Max (v := n) (by omega) (by omega)
  exact_mod_cast h

theorem toF64_exactInt {v : ℤ} (hv : v.natAbs ≤ 2 ^ 53) : ExactInt (toF64 v) v :=
  (toF64_nearestEven (by exact_mod_cast abs_int_le_f64Max hv)).exactInt rfl hv

section

variable {a b : Word64} {m n : ℤ} (ha : ExactInt a m) (hb : ExactInt b n)
include ha hb

theorem F64.mul_exactInt (h : (m * n).natAbs ≤ 2 ^ 53) : ExactInt (F64.mul a b) (m * n) := by
  have hx : f64Value a * f64Value b = (m * n : ℤ) := by rw [ha.value, hb.value, Int.cast_mul]
  exact (F64.mul_nearestEven ha.finite hb.finite (hx ▸ abs_int_le_f64Max h)).exactInt (by rw [hx]; simp) h

theorem F64.add_exactInt (h : (m + n).natAbs ≤ 2 ^ 53) : ExactInt (F64.add a b) (m + n) := by
  have hx : f64Value a + f64Value b = (m + n : ℤ) := by rw [ha.value, hb.value, Int.cast_add]
  exact (F64.add_nearestEven ha.finite hb.finite (hx ▸ abs_int_le_f64Max h)).exactInt (by rw [hx]; simp) h

end

theorem F64.div_one_exactInt {a b : Word64} {m : ℤ} (ha : ExactInt a m) (hb : ExactInt b 1) (h : m.natAbs ≤ 2 ^ 53) :
    ExactInt (F64.div a b) m := by
  have hx : f64Value a / f64Value b = (m : ℤ) := by rw [ha.value, hb.value, Int.cast_one, div_one]
  have hne : f64Value b ≠ 0 := by rw [hb.value, Int.cast_one]; exact one_ne_zero
  exact (F64.div_nearestEven ha.finite hb.finite hne (hx ▸ abs_int_le_f64Max h)).exactInt (by rw [hx]; simp) h

theorem sqrtF64_exactInt {a : Word64} {v : ℤ} (ha : ExactInt a (v * v)) (h : v.natAbs ≤ 2 ^ 53) :
    ExactInt (sqrtF64 a) v.natAbs := by
  have h0 : 0 ≤ f64Value a := by rw [ha.value]; exact_mod_cast mul_self_nonneg v
  refine (sqrtF64_nearestEven ha.finite h0).exactInt ?_ (by rwa [Int.natAbs_natCast])
  rw [ha.value]
  push_cast
  exact Real.sqrt_mul_self_eq_abs _

/-! ### One sample (R319, R322, R324 43_acquisition.md) -/

/-- The mean square of a window of one sample is its square, exactly. -/
theorem accumulate_one_exactInt {v : ℤ} (hv : v.natAbs ≤ 2 ^ 26) : ExactInt (accumulate 0 (toF64 1) v) (v * v) := by
  have hsq : (v * v).natAbs ≤ 2 ^ 53 := by
    rw [Int.natAbs_mul]
    exact (Nat.mul_le_mul hv hv).trans (by norm_num)
  have value := toF64_exactInt (v := v) (by omega)
  have square := F64.mul_exactInt value value hsq
  have quotient := F64.div_one_exactInt square (toF64_exactInt (v := 1) (by norm_num)) hsq
  have zero : ExactInt 0 0 := toF64_exactInt (v := 0) (by norm_num)
  have sum := F64.add_exactInt zero quotient (by rwa [zero_add])
  rwa [zero_add] at sum

/-! A sample of 0 stays +0.0 through every operation. -/

theorem fl_zero (d : ℕ) : fl false 0 d = 0#64 := rfl

theorem toF64_zero : toF64 0 = 0#64 := rfl

theorem F64.finite_zero : F64.finite 0#64 = true := rfl

theorem F64.neg_zero : F64.neg 0#64 = false := rfl

theorem F64.num_zero : F64.num 0#64 = 0 := by simp [F64.num, F64.mant, F64.expo, F64.frac]

theorem F64.snum_zero : F64.snum 0#64 = 0 := by simp [F64.snum, F64.num_zero]

theorem F64.mul_zero_zero : F64.mul 0#64 0#64 = 0#64 := by
  simp [F64.mul, F64.finite_zero, F64.num_zero, fl_zero]

theorem F64.div_zero_of_pos {b : Word64} (hfin : f64Finite b) (hb : 0 < f64Value b) : F64.div 0#64 b = 0#64 := by
  have hn : F64.num b ≠ 0 := fun h => by
    rw [f64Value_eq_div, h] at hb
    simp at hb
  simp [F64.div, F64.finite_zero, (f64Finite_iff b).1 hfin, hn, F64.neg_zero, neg_eq_false_of_pos hb, F64.num_zero,
    fl_zero]

theorem F64.add_zero_zero : F64.add 0#64 0#64 = 0#64 := by
  simp only [F64.add, F64.finite_zero, F64.neg_zero, F64.snum_zero, zero_mul, add_zero, Bool.and_self, if_true,
    Int.natAbs_zero, fl_zero]

theorem sqrtF64_zero : sqrtF64 0#64 = 0#64 := by
  simp [sqrtF64, F64.finite_zero, F64.num_zero]

theorem accumulate_zero {nd : Word64} (hfin : f64Finite nd) (hnd : 0 < f64Value nd) : accumulate 0 nd 0 = 0#64 := by
  rw [accumulate, toF64_zero, F64.mul_zero_zero, F64.div_zero_of_pos hfin hnd]
  exact F64.add_zero_zero

/-- Settles O53: the root is the magnitude as a number, and so as a pattern; a sample of 0 is +0.0 all the way. -/
theorem singleSampleRms : Obligations.SingleSampleRms := by
  intro v h1 h2
  have hroot : rms (accumulate 0 (toF64 1) v) 1 1 = sqrtF64 (accumulate 0 (toF64 1) v) := if_pos rfl
  by_cases hv : v = 0
  · have one := toF64_exactInt (v := 1) (by norm_num)
    rw [hroot, hv, accumulate_zero one.finite (by rw [one.value]; norm_num), sqrtF64_zero]
    rfl
  have root := sqrtF64_exactInt (accumulate_one_exactInt (v := v) (by omega)) (by omega)
  have magnitude := toF64_exactInt (v := v.natAbs) (by omega)
  rw [hroot]
  refine eq_of_f64Value_eq ?_ (root.value.trans magnitude.value.symm)
  rw [root.value]
  exact_mod_cast Int.natAbs_pos.2 hv

end Sys2Proof.Machine
end

section
/-! PROOFS. The reset procedure and the late answers it discards (O20), the empty bodies of NOP and of an idle ABORT
(O24), and the WAIT command: its load, its end, and the ticks between them (O25, O26). -/

namespace Sys2Proof.Machine

/-! ### Reset (R371 44_control.md, R450, R451, R452 70_reset_and_hazards.md) -/

/-- The bus trace only grows along a run. -/
theorem steps_trace_grows {n : Nat} {s t : State} (h : steps n s = .next t) : s.env.trace <+: t.env.trace := by
  induction n generalizing s with
  | zero => cases h; exact ⟨[], List.append_nil _⟩
  | succ n ih =>
    rw [steps] at h
    split at h
    next u hu => exact (eventStep_env hu).2.trans (ih h)
    all_goals cases h

/-- A response to a transaction that already stands in the trace is discarded, whatever is in flight (R451
70_reset_and_hazards.md). -/
theorem busStep_of_answered {n : Nat} {s : State} (h : n < s.env.trace.length) (r : BusResp) : busStep n r s = s := by
  rcases busStep_cases n r s with ⟨q, -, hn, -, -⟩ | e
  exacts [absurd hn h.ne, e]

theorem exec_sreset_start {s : State} (h : s.hid.pos.point = .start) : exec .sreset s = .next (resetProcedure s) := by
  simp only [exec, execSreset, h]

/-- Settles O20: the reset writes the abandoned transaction into the trace, which only grows after it, so its number is
never again that of a transaction in flight. -/
theorem resetProcedure_spec : Obligations.ResetProcedure := by
  intro s cut t
  have ht : t = resetProcedure s := rfl
  refine ⟨rfl, fun h => exec_sreset_start h.1, fun req hreq es u r hu => ?_⟩
  have grown : s.env.trace ++ [⟨req, none⟩] <+: u.env.trace := by
    have := steps_trace_grows hu
    simpa only [ht, State.facing, resetProcedure_env, hreq, Bus.abandoned] using this
  have later : s.env.trace.length < u.env.trace.length := by simpa using grown.length_le
  exact congrArg _ (busStep_of_answered later r)

/-! ### NOP, and ABORT while idle (R370, R373 44_control.md) -/

/-- A command whose only step completes it. -/
def EmptyBody (i : Instr) : Prop := ∀ s : State, s.ready .start → exec i s = .next (complete s)

theorem emptyBody_nop : EmptyBody .nop := fun s h => by simp only [exec, execNop, unlessOffering_none h.2, h.1]

theorem emptyBody_abort : EmptyBody .abort := fun s h => by simp only [exec, execAbort, unlessOffering_none h.2, h.1]

/-- The state in which a command has been accepted and has completed, with no event left. -/
theorem complete_accept_facing (i : Instr) (s : State) :
    (complete ((accept (encode i) s).answering (cmdWrite i) .done)).facing [] = completed i [] s := by
  simp only [completed, State.facing, State.answering, List.append_nil]
  rfl

/-- A command with an empty body, from the host's write to its completion. -/
theorem EmptyBody.play {i : Instr} {s : State} (h : EmptyBody i) (hi : decode (encode i) = .legal i) (hfree : s.free) :
    play (command i [.engine]) s = .next (completed i [] s) := by
  obtain ⟨hb, -, ho⟩ := hfree
  have active := active_accept ho hi (cmdWrite i) .done
  have ends := active.does (t := complete ((accept (encode i) s).answering (cmdWrite i) .done))
    fun fs => h (State.facing _ fs) active.ready
  rw [← complete_accept_facing]
  exact (Leads.cons (does_cmdWrite hb hi) (.one ends)).play

/-- Settles O24: both bodies are empty. -/
theorem nopAndIdleAbortComplete : Obligations.NopAndIdleAbortComplete := by
  intro s
  exact ⟨fun h => ⟨emptyBody_nop s h, emptyBody_abort s h⟩, fun h =>
    ⟨emptyBody_nop.play (by decide) h, emptyBody_abort.play (by decide) h⟩⟩

/-! ### One step of WAIT (R377 44_control.md, R431 60_exceptions.md) -/

section

variable {s : State} {ms : Nat}

theorem exec_wait_start (h : s.ready .start) :
    exec (.wait ms) s = .next ((s.loadDelay (BitVec.ofNat 16 ms)).goto (.wait .command .top)) := by
  simp only [exec, execWait, unlessOffering_none h.2, h.1]

theorem exec_wait_wait {p : WaitPt} (h : s.ready (.wait .command p)) :
    exec (.wait ms) s = finish (.wait .command) s (waitStep p s) := by
  simp only [exec, execWait, unlessOffering_none h.2, h.1]

theorem exec_wait_over (h : s.ready (.wait .command .top)) (hd : s.hid.dlyCnt = 0) :
    exec (.wait ms) s = .next (complete s) := by
  rw [exec_wait_wait h, waitStep, if_pos hd]
  rfl

theorem exec_wait_holds {p : WaitPt} (h : s.ready (.wait .command p)) (hd : s.hid.dlyCnt ≠ 0)
    (ha : s.status.abortPend = false) : exec (.wait ms) s = .next (s.goto (.wait .command .hold)) := by
  rw [exec_wait_wait h]
  cases p with
  | top =>
    rw [waitStep, if_neg hd, abortPoint_go ha]
    rfl
  | hold => rw [goto_of_eq h.1, waitStep, finish]

end

/-- Settles O25: the first step of WAIT, and the one that finds DLY_CNT at 0. -/
theorem waitLoadsAndEnds : Obligations.WaitLoadsAndEnds := by
  intro s ms
  exact ⟨exec_wait_start, exec_wait_over⟩

/-! ### The ticks of a WAIT (R431 60_exceptions.md, R470 70_reset_and_hazards.md) -/

/-- A tick counts at both places of a wait's loop, unless the wait is over or an ABORT is pending. -/
theorem waitTick_counts {s : State} {p : WaitPt} (hd : s.hid.dlyCnt ≠ 0) (ha : s.status.abortPend = false) :
    waitTick p s = some (s.loadDelay (s.hid.dlyCnt - 1)) := by
  cases p with
  | hold => rfl
  | top => exact if_neg (by simpa [ha] using hd)

/-- A tick that counts brings a wait back to its loop head. -/
theorem tickStep_of_waitTick {s t : State} {k : WaitFor} {p : WaitPt} (hp : s.hid.pos.point = .wait k p)
    (h : waitTick p s = some t) : tickStep s = t.goto (.wait k .top) := by
  simp only [tickStep, hp, h]

/-- The state with `n` ticks of the WAIT still to come, at `p` of its loop. -/
def State.counting (s : State) (n : Nat) (p : WaitPt) : State :=
  (s.loadDelay (BitVec.ofNat 16 n)).goto (.wait .command p)

theorem counting_dlyCnt_toNat (s : State) {n : Nat} (p : WaitPt) (hn : n ≤ 65535) :
    (s.counting n p).hid.dlyCnt.toNat = n := Nat.mod_eq_of_lt (by omega)

theorem counting_dlyCnt_ne_zero (s : State) {n : Nat} (p : WaitPt) (h0 : n ≠ 0) (hn : n ≤ 65535) :
    (s.counting n p).hid.dlyCnt ≠ 0 := by
  exact fun h => h0 (by rw [← counting_dlyCnt_toNat s p hn, h]; rfl)

section

variable {s : State} {ms n : Nat} {p : WaitPt} {es : List Event}

theorem Active.counting (h : Active (.wait ms) .start s) (n : Nat) (p : WaitPt) :
    Active (.wait ms) (.wait .command p) (s.counting n p) := ⟨h.busy, h.cmd, ⟨rfl, h.ready.2⟩, h.abort⟩

/-- While ticks are still to come, the engine's turn takes none of them. -/
theorem does_engine_counting (h : Active (.wait ms) .start s) (h0 : n ≠ 0) (hn : n ≤ 65535) :
    Does .engine (s.counting n p) (s.counting n .hold) :=
  (h.counting n p).does fun fs =>
    exec_wait_holds (s := (s.counting n p).facing fs) (h.counting n p).ready (counting_dlyCnt_ne_zero s p h0 hn) h.abort

/-- A tick counts at the loop head as it does where the engine holds (R470 70_reset_and_hazards.md; log 5). -/
theorem does_tick_counting (h : Active (.wait ms) .start s) (hn : n + 1 ≤ 65535) :
    Does .tick (s.counting (n + 1) p) (s.counting n .top) := fun fs => by
  have hpred : (BitVec.ofNat 16 (n + 1) - 1 : BitVec 16) = BitVec.ofNat 16 n := by
    rw [BitVec.ofNat_add]
    exact BitVec.add_sub_cancel ..
  have counts := waitTick_counts (p := p) (s := (s.counting (n + 1) p).facing fs)
    (counting_dlyCnt_ne_zero s p n.succ_ne_zero hn) h.abort
  rw [eventStep, tickStep_of_waitTick (k := .command) rfl counts,
    show ((s.counting (n + 1) p).facing fs).hid.dlyCnt - 1 = BitVec.ofNat 16 n from hpred]
  rfl

/-- The step that finds the delay at 0. -/
theorem does_engine_counted (h : Active (.wait ms) .start s) : Does .engine (s.counting 0 .top) (complete s) :=
  (h.counting 0 .top).does fun fs =>
    exec_wait_over (s := (s.counting 0 .top).facing fs) (h.counting 0 .top).ready rfl

/-- Between commands the engine's turns change nothing. -/
theorem leads_idle (hb : s.status.busy = false) (hes : ∀ e ∈ es, e = .engine) : Leads es s s := by
  induction es with
  | nil => exact .nil s
  | cons e es ih =>
    obtain ⟨he, hrest⟩ := List.forall_mem_cons.1 hes
    refine .cons (fun fs => ?_) (ih hrest)
    rw [he, eventStep, engineTurn, if_neg (by simp [State.facing, hb])]

/-- Each tick of a schedule of engine turns and ticks takes one from the delay, as long as it has one to take. -/
theorem leads_counting (h : Active (.wait ms) .start s) (hes : ∀ e ∈ es, e = .engine ∨ e = .tick) (hn : n ≤ 65535)
    (hlt : tickCount es < n) : ∃ q, Leads es (s.counting n p) (s.counting (n - tickCount es) q) := by
  induction es generalizing n p with
  | nil => exact ⟨p, .nil _⟩
  | cons e es ih =>
    obtain ⟨he, hrest⟩ := List.forall_mem_cons.1 hes
    rw [tickCount_cons] at hlt ⊢
    rcases he with rfl | rfl
    · rw [show tickCount [.engine] = 0 from rfl, Nat.zero_add] at hlt ⊢
      obtain ⟨q, hq⟩ := ih (p := .hold) hrest hn hlt
      exact ⟨q, .cons (does_engine_counting h (by omega) hn) hq⟩
    · rw [show tickCount [.tick] = 1 from rfl] at hlt ⊢
      obtain ⟨n, rfl⟩ := Nat.exists_eq_succ_of_ne_zero (by omega : n ≠ 0)
      obtain ⟨q, hq⟩ := ih (n := n) (p := .top) hrest (by omega) (by omega)
      rw [show n.succ - (1 + tickCount es) = n - tickCount es by omega]
      exact ⟨q, .cons (does_tick_counting h hn) hq⟩

/-- A schedule with all the ticks still to come, and one engine turn after it, ends the WAIT. -/
theorem leads_counted (h : Active (.wait ms) .start s) (hes : ∀ e ∈ es, e = .engine ∨ e = .tick) (hn : n ≤ 65535)
    (heq : tickCount es = n) (hp : n = 0 → p = .top) : Leads (es ++ [.engine]) (s.counting n p) (complete s) := by
  induction es generalizing n p with
  | nil =>
    obtain rfl : n = 0 := heq.symm
    rw [hp rfl]
    exact .one (does_engine_counted h)
  | cons e es ih =>
    obtain ⟨he, hrest⟩ := List.forall_mem_cons.1 hes
    rw [tickCount_cons] at heq
    rw [List.cons_append]
    rcases he with rfl | rfl
    · rw [show tickCount [.engine] = 0 from rfl, Nat.zero_add] at heq
      by_cases h0 : n = 0
      · have engines : ∀ e ∈ es ++ [.engine], e = .engine := by
          have none : ∀ e ∈ es, ¬ (e == Event.tick) = true := List.countP_eq_zero.1 (heq.trans h0)
          intro e he
          rcases List.mem_append.1 he with he | he
          · exact (hrest e he).resolve_right fun ht => none e he (by simp [ht])
          · exact List.mem_singleton.1 he
        rw [hp h0, h0]
        exact .cons (does_engine_counted h) (leads_idle rfl engines)
      · exact .cons (does_engine_counting h h0 hn) (ih hrest hn heq fun h => absurd h h0)
    · obtain ⟨n, rfl⟩ := Nat.exists_eq_succ_of_ne_zero (n := n) (by rw [← heq]; simp [tickCount])
      rw [show tickCount [.tick] = 1 from rfl] at heq
      exact .cons (does_tick_counting h hn) (ih hrest (by omega) (by omega) fun _ => rfl)

end

/-- A WAIT is accepted and loads its delay: its ticks are still to come. -/
theorem leads_wait_loaded {s : State} {ms : Nat} (hfree : s.free) (hms : ms ≤ 65535) :
    let t := (accept (encode (.wait ms)) s).answering (cmdWrite (.wait ms)) .done
    Active (.wait ms) .start t ∧ Leads (command (.wait ms) [.engine]) s (t.counting ms .top) := by
  obtain ⟨hb, -, ho⟩ := hfree
  have hi : decode (encode (.wait ms)) = .legal (.wait ms) := decodeInvertsEncode _ hms
  have active := active_accept ho hi (cmdWrite (.wait ms)) .done
  exact ⟨active, .cons (does_cmdWrite hb hi) (.one (active.does fun fs => exec_wait_start active.ready))⟩

/-- Settles O26: the delay loaded, then tick after tick taken from it, whichever turns the engine has between them. -/
theorem waitConsumesItsTicks : Obligations.WaitConsumesItsTicks := by
  intro s ms es hfree hms hes
  obtain ⟨active, loaded⟩ := leads_wait_loaded hfree hms
  refine ⟨fun hlt => ?_, fun heq => ?_⟩
  · obtain ⟨q, counted⟩ := leads_counting (p := .top) active hes hms hlt
    refine ⟨_, (loaded.append counted).play, active.busy, ?_⟩
    refine (congrArg (· + _) (counting_dlyCnt_toNat _ q (by omega))).trans ?_
    exact Nat.sub_add_cancel hlt.le
  · have counted := leads_counted (p := .top) active hes hms heq fun _ => rfl
    rw [← complete_accept_facing]
    exact (loaded.append counted).play

end Sys2Proof.Machine
end

section
/-! PROOFS. A pending ABORT: the steps that raise ABORTED and those that do not (O27). -/

namespace Sys2Proof.Machine

/-! ### A step of a body while an ABORT is pending -/

/-- The step raises ABORTED if `b` holds; if not, it raises no ABORTED and leaves ERR_CODE as it is. -/
def Flow.AbortsIf {π : Type} (s : State) : Bool → Flow π → Prop
  | true, f => f = .raise .aborted 0 none s
  | false, .goto _ t | false, .done t => t.status.errCode = s.status.errCode
  | false, .raise e _ _ t => e ≠ .aborted ∧ t.status.errCode = s.status.errCode
  | false, .hold => True

section

variable {π : Type} {s : State}

/-- A step with no abort point raises one of its own errors, from a state with the same ERR_CODE. -/
theorem raise_abortsIf {e : ErrCode} {a : Byte} {k : Option BusKind} {t : State} (he : e ≠ .aborted := by decide)
    (ht : t.status.errCode = s.status.errCode := by rfl) : (Flow.raise e a k t : Flow π).AbortsIf s false := ⟨he, ht⟩

theorem raiseBus_abortsIf (a : Byte) (k : BusKind) : (raiseBus a k s.busQuiet : Flow π).AbortsIf s false := by
  rw [raiseBus_eq]
  cases k <;> exact raise_abortsIf

theorem onRead_abortsIf {err : BusKind → State → Flow π} {ok : List Byte → State → Flow π}
    (he : ∀ k, (err k s.busQuiet).AbortsIf s false) (ho : ∀ b, (ok b s.busQuiet).AbortsIf s false) :
    (onRead s err ok).AbortsIf s false := by
  rcases onRead_cases s err ok with ⟨q, b, -, e⟩ | ⟨q, k, -, e⟩ | e <;> rw [e]
  exacts [ho b, he k, trivial]

theorem onWrite_abortsIf {err : BusKind → State → Flow π} {ok : State → Flow π}
    (he : ∀ k, (err k s.busQuiet).AbortsIf s false) (ho : (ok s.busQuiet).AbortsIf s false) :
    (onWrite s err ok).AbortsIf s false := by
  rcases onWrite_cases s err ok with ⟨q, -, e⟩ | ⟨q, k, -, e⟩ | e <;> rw [e]
  exacts [ho, he k, trivial]

theorem needCal_abortsIf {go : Flow π} (h : go.AbortsIf s false) : (needCal s go).AbortsIf s false := by
  rcases needCal_cases s go with ⟨-, e⟩ | ⟨-, e⟩ <;> rw [e]
  exacts [h, raise_abortsIf]

theorem needTfine_abortsIf {go : Flow π} (h : go.AbortsIf s false) : (needTfine s go).AbortsIf s false := by
  rcases needTfine_cases s go with ⟨-, e⟩ | ⟨-, e⟩ <;> rw [e]
  exacts [h, raise_abortsIf]

theorem andThen_goto_abortsIf {f : Flow π} {p : π} (h : f.AbortsIf s false) :
    (f.andThen (.goto p)).AbortsIf s false := by
  cases f <;> exact h

/-- TRIG's step inside the wait between two polls, as the wait's own. -/
theorem poll_abortsIf {b : Bool} {f : Flow WaitPt} (h : f.AbortsIf s b) :
    ((f.map TrigPt.poll).andThen (.goto .readMode)).AbortsIf s b := by
  cases b with
  | true => rw [show f = _ from h]; rfl
  | false => cases f <;> exact h

/-! The bodies with no abort point. -/

theorem rhcodeBody_abortsIf (temp : Nat) : (rhcodeBody temp s : Flow π).AbortsIf s false := by
  refine needCal_abortsIf ?_
  split
  exacts [rfl, raise_abortsIf]

theorem comptBody_abortsIf : (comptBody s : Flow π).AbortsIf s false := needCal_abortsIf (go := .done _) rfl

theorem comppBody_abortsIf : (comppBody s : Flow π).AbortsIf s false := by
  refine needCal_abortsIf (needTfine_abortsIf ?_)
  split
  exacts [rfl, raise_abortsIf]

theorem comphBody_abortsIf : (comphBody s : Flow π).AbortsIf s false :=
  needCal_abortsIf (needTfine_abortsIf (go := .done _) rfl)

theorem compStep_abortsIf (p : CompPt) : (compStep p s).AbortsIf s false := by
  cases p
  exacts [andThen_goto_abortsIf comptBody_abortsIf, andThen_goto_abortsIf comppBody_abortsIf, comphBody_abortsIf]

theorem aggclrBody_abortsIf (n : BitVec 16) : (aggclrBody n s : Flow π).AbortsIf s false := by
  unfold aggclrBody
  split
  exacts [raise_abortsIf, rfl]

theorem aggaccBody_abortsIf : (aggaccBody s : Flow π).AbortsIf s false := by
  unfold aggaccBody
  split
  exacts [raise_abortsIf, rfl]

theorem aggfinBody_abortsIf : (aggfinBody s : Flow π).AbortsIf s false := by
  unfold aggfinBody
  split
  · exact raise_abortsIf
  · split
    exacts [raise_abortsIf, rfl]

theorem runStart_abortsIf : (runStart s).AbortsIf s false := by
  unfold runStart
  dsimp only
  split
  · exact raise_abortsIf
  · split <;> rfl

/-! The bodies with abort points. Each says where they are by `abortsAt` of the same state at the step's position. -/

theorem abortsAt_wait (i : Instr) (k : WaitFor) (p : WaitPt) :
    abortsAt i (s.goto (.wait k p)) = (p == .top && s.hid.dlyCnt != 0) := by
  cases p <;> rfl

theorem abortsAt_poll (i : Instr) (p : WaitPt) :
    abortsAt i (s.goto (.trig (.poll p))) = (p == .top && s.hid.dlyCnt != 0) := by
  cases p <;> rfl

variable (ha : s.status.abortPend = true)
include ha

theorem abortPoint_aborts (go : Flow π) : abortPoint s go = .raise .aborted 0 none s := if_pos ha

theorem issueAt_aborts (r : BusReq) (p : π) : issueAt r p s = .raise .aborted 0 none s := abortPoint_aborts ha _

variable (i : Instr)

theorem calStep_abortsIf (p : CalPt) : (calStep p s).AbortsIf s (abortsAt i (s.goto (.cal p))) := by
  cases p
  case invalidate => rfl
  case got1 | got2 | got3 =>
    simp only [calStep]
    exact onRead_abortsIf (fun _ => raise_abortsIf) fun _ => rfl
  all_goals exact issueAt_aborts ha ..

theorem osStep_abortsIf (p : OsPt) : (osStep p s).AbortsIf s (abortsAt i (s.goto (.os p))) := by
  cases p
  case gotHum | gotMeas => exact onRead_abortsIf (raiseBus_abortsIf _) fun _ => rfl
  case wroteHum | wroteMeas => exact onWrite_abortsIf (raiseBus_abortsIf _) rfl
  all_goals exact issueAt_aborts ha ..

theorem htrStep_abortsIf (p : HtrPt) : (htrStep p s).AbortsIf s (abortsAt i (s.goto (.htr p))) := by
  cases p
  case compute =>
    refine needCal_abortsIf ?_
    dsimp only
    split
    exacts [rfl, raise_abortsIf]
  case wroteDur | wroteRes | wroteCtrl => exact onWrite_abortsIf (raiseBus_abortsIf _) rfl
  all_goals exact issueAt_aborts ha ..

/-- At the head of a wait's loop the abort point comes before each tick, and so not when DLY_CNT is 0. -/
theorem waitStep_abortsIf (p : WaitPt) : (waitStep p s).AbortsIf s (p == .top && s.hid.dlyCnt != 0) := by
  rcases waitStep_cases p s with ⟨rfl, h0, e⟩ | ⟨rfl, h0, -, e⟩ | ⟨-, -, h, -⟩ | ⟨rfl, e⟩
  · rw [e, h0]; rfl
  · rw [e, bne_iff_ne.2 h0]; rfl
  · simp [ha] at h
  · rw [e]; trivial

theorem trigStep_abortsIf (n : BitVec 16) (p : TrigPt) :
    (trigStep n p s).AbortsIf s (abortsAt i (s.goto (.trig p))) := by
  cases p
  case clear => rfl
  case gotMode =>
    simp only [trigStep]
    refine onRead_abortsIf (raiseBus_abortsIf _) fun _ => ?_
    unfold trigDecide
    split
    · rfl
    · split
      exacts [raise_abortsIf, rfl]
  case wroteSleep | wroteForce =>
    simp only [trigStep]
    exact onWrite_abortsIf (raiseBus_abortsIf _) rfl
  case poll w =>
    rw [abortsAt_poll]
    exact poll_abortsIf (waitStep_abortsIf ha w)
  all_goals exact abortPoint_aborts ha _

theorem rawStep_abortsIf (p : RawPt) : (rawStep p s).AbortsIf s (abortsAt i (s.goto (.raw p))) := by
  cases p
  case read => exact issueAt_aborts ha ..
  case got =>
    simp only [rawStep]
    exact onRead_abortsIf (fun _ => raise_abortsIf) fun _ => rfl

theorem loadWait_abortsIf (k : WaitFor) (ms : BitVec 16) : (loadWait k ms s).AbortsIf s true := abortPoint_aborts ha _

end

/-! ### A step of a command while an ABORT is pending -/

/-- The command ends by ABORTED if `b` holds, as a RUN does if `run` holds; if not, ERR_CODE does not become ABORTED. -/
def AbortedIf (run : Bool) (s : State) : Bool → Result → Prop
  | true, o => o = .next (takeError run .aborted 0 none s)
  | false, o => ∀ t, o = .next t → t.status.errCode = .aborted → s.status.errCode = .aborted

section

variable {π : Type} {s : State} {b : Bool} {here : π → Point} {after : State → State} {f : Flow π}

/-- A step that leaves ERR_CODE as it is. -/
theorem abortedIf_of_errCode {run : Bool} {t : State} (h : t.status.errCode = s.status.errCode) :
    AbortedIf run s false (.next t) := fun u hu e => by
  cases hu
  rwa [h] at e

/-- A step that ends by another error. -/
theorem abortedIf_of_takeError {run r : Bool} {e : ErrCode} {a : Byte} {k : Option BusKind} {t : State}
    (he : e ≠ .aborted) : AbortedIf run s false (.next (takeError r e a k t)) := fun u hu h => by
  cases hu
  rw [takeError_status] at h
  exact absurd h he

theorem finish_abortedIf (h : f.AbortsIf s b) : AbortedIf false s b (finish here s f) := by
  cases b with
  | true => rw [show f = _ from h]; rfl
  | false =>
    cases f with
    | goto p t => exact abortedIf_of_errCode h
    | done t => exact abortedIf_of_errCode h
    | raise e a k t => exact abortedIf_of_takeError h.1
    | hold => exact abortedIf_of_errCode rfl

theorem finishInRun_abortedIf (h : f.AbortsIf s b) (hafter : ∀ t, (after t).status.errCode = t.status.errCode) :
    AbortedIf true s b (finishInRun here after s f) := by
  cases b with
  | true => rw [show f = _ from h]; rfl
  | false =>
    cases f with
    | goto p t => exact abortedIf_of_errCode h
    | done t => exact abortedIf_of_errCode ((hafter t).trans h)
    | raise e a k t => exact abortedIf_of_takeError h.1
    | hold => exact abortedIf_of_errCode rfl

/-- ABORTED is never the error that ends only the sample. -/
theorem finishSample_abortedIf {own : ErrCode} (hown : own ≠ .aborted) (h : f.AbortsIf s b)
    (hafter : ∀ t, (after t).status.errCode = t.status.errCode) :
    AbortedIf true s b (finishSample own here after s f) := by
  cases f with
  | goto p t => exact finishInRun_abortedIf (here := here) h hafter
  | done t => exact finishInRun_abortedIf (here := here) h hafter
  | hold => exact finishInRun_abortedIf (here := here) h hafter
  | raise e a k t =>
    cases b with
    | true =>
      cases (show Flow.raise e a k t = .raise .aborted 0 none s from h)
      exact congrArg _ (if_neg hown.symm)
    | false =>
      obtain ⟨he, ht⟩ := h
      by_cases heo : e = own
      · rw [finishSample, if_pos heo]
        exact abortedIf_of_errCode ht
      · rw [finishSample, if_neg heo]
        exact abortedIf_of_takeError he

end

section

variable {i : Instr} {s : State}

/-- The abort points of a state that stands at `p`. -/
theorem abortsAt_of_point {p : Point} (hp : s.hid.pos.point = p) : abortsAt i s = abortsAt i (s.goto p) := by
  rw [goto_of_eq hp]

theorem enterLoop_errCode (n : Nat) (s : State) : (enterLoop n s).status.errCode = s.status.errCode := by
  unfold enterLoop
  split <;> rfl

variable (ha : s.status.abortPend = true)
include ha

theorem runStep_abortedIf (p : RunPt) : AbortedIf true s (abortsAt .run (s.goto (.run p))) (runStep p s) := by
  cases p
  case delayLoad | settleLoad | final1Load | final2Load =>
    exact finishInRun_abortedIf (loadWait_abortsIf ha ..) fun _ => rfl
  case aggClr => exact finishInRun_abortedIf (aggclrBody_abortsIf _) (enterLoop_errCode 0)
  case aggAcc => exact finishInRun_abortedIf aggaccBody_abortsIf fun _ => rfl
  case aggFin => exact finishInRun_abortedIf aggfinBody_abortsIf fun _ => rfl
  case sampleEnd => exact abortedIf_of_errCode (enterLoop_errCode ..)
  all_goals exact abortedIf_of_errCode rfl

/-- RUN, position by position. -/
theorem exec_run_abortedIf (ho : s.hid.outPend = none) (home : atHome .run s.hid.pos.point = true) :
    AbortedIf true s (abortsAt .run s) (exec .run s) := by
  cases hp : s.hid.pos.point <;> rw [abortsAt_of_point hp]
  case noCommand => simp [hp, atHome] at home
  case start =>
    rw [exec_run_start ⟨hp, ho⟩]
    exact finishInRun_abortedIf runStart_abortsIf fun _ => rfl
  case cal p =>
    rw [exec_run_cal ⟨hp, ho⟩]
    exact finishInRun_abortedIf (calStep_abortsIf ha _ p) fun _ => rfl
  case os p =>
    rw [exec_run_os ⟨hp, ho⟩]
    exact finishInRun_abortedIf (osStep_abortsIf ha _ p) fun _ => rfl
  case htr p =>
    rw [exec_run_htr ⟨hp, ho⟩]
    exact finishInRun_abortedIf (htrStep_abortsIf ha _ p) fun _ => rfl
  case trig p =>
    rw [exec_run_trig ⟨hp, ho⟩]
    exact finishInRun_abortedIf (trigStep_abortsIf ha _ _ p) fun _ => rfl
  case raw p =>
    rw [exec_run_raw ⟨hp, ho⟩]
    exact finishSample_abortedIf (by decide) (rawStep_abortsIf ha _ p) fun _ => rfl
  case comp p =>
    rw [exec_run_comp ⟨hp, ho⟩]
    exact finishSample_abortedIf (by decide) (compStep_abortsIf p) fun _ => rfl
  case wait k p =>
    have hk : k ≠ .command := by rintro rfl; simp [hp, atHome] at home
    rw [exec_run_wait hk ⟨hp, ho⟩, abortsAt_wait]
    exact finishInRun_abortedIf (waitStep_abortsIf ha p) fun _ => by cases k <;> rfl
  case run p =>
    rw [exec_run_run ⟨hp, ho⟩]
    exact runStep_abortedIf ha p

/-- The first step of a command other than RUN. -/
theorem exec_start_abortedIf (hi : i ≠ .run) (h : s.ready .start) : AbortedIf false s (abortsAt i s) (exec i s) := by
  rw [abortsAt_of_point h.1]
  cases i <;> simp only [exec, execNop, execSreset, execAbort, execWait, execLoadcal, execCfgos, execCfghtr, execTrig,
    execGwcode, execRhcode, execCompt, execCompp, execComph, execCompall, execReadraw, execAggclr, execAggacc,
    execAggfin, unlessOffering_none h.2, h.1]
  case run => exact absurd rfl hi
  case nop | abort | wait | gwcode => exact abortedIf_of_errCode rfl
  case sreset => exact fun t ht e => by cases ht; cases e
  case loadcal => exact finish_abortedIf (calStep_abortsIf ha .loadcal .invalidate)
  case cfgos => exact finish_abortedIf (osStep_abortsIf ha .cfgos .readHum)
  case cfghtr => exact finish_abortedIf (htrStep_abortsIf ha .cfghtr .compute)
  case trig => exact finish_abortedIf (trigStep_abortsIf ha .trig _ .clear)
  case readraw => exact finish_abortedIf (rawStep_abortsIf ha .readraw .read)
  case rhcode => exact finish_abortedIf (rhcodeBody_abortsIf _)
  case compt => exact finish_abortedIf comptBody_abortsIf
  case compp => exact finish_abortedIf comppBody_abortsIf
  case comph => exact finish_abortedIf comphBody_abortsIf
  case compall => exact finish_abortedIf (compStep_abortsIf .temp)
  case aggclr => exact finish_abortedIf (aggclrBody_abortsIf _)
  case aggacc => exact finish_abortedIf aggaccBody_abortsIf
  case aggfin => exact finish_abortedIf aggfinBody_abortsIf

/-- A command other than RUN, position by position. -/
theorem exec_abortedIf (ho : s.hid.outPend = none) (home : atHome i s.hid.pos.point = true) (hi : i ≠ .run) :
    AbortedIf false s (abortsAt i s) (exec i s) := by
  rcases atHome_cases home hi with hp | ⟨rfl, q, hp⟩ | ⟨rfl, q, hp⟩ | ⟨rfl, q, hp⟩ | ⟨rfl, q, hp⟩ | ⟨rfl, q, hp⟩ |
    ⟨rfl, q, hp⟩ | ⟨⟨ms, rfl⟩, q, hp⟩
  · exact exec_start_abortedIf ha hi ⟨hp, ho⟩
  all_goals rw [abortsAt_of_point hp]
  · rw [exec_loadcal_cal ⟨hp, ho⟩]; exact finish_abortedIf (calStep_abortsIf ha _ q)
  · rw [exec_cfgos_os ⟨hp, ho⟩]; exact finish_abortedIf (osStep_abortsIf ha _ q)
  · rw [exec_cfghtr_htr ⟨hp, ho⟩]; exact finish_abortedIf (htrStep_abortsIf ha _ q)
  · rw [exec_trig_trig ⟨hp, ho⟩]; exact finish_abortedIf (trigStep_abortsIf ha _ _ q)
  · rw [exec_readraw_raw ⟨hp, ho⟩]; exact finish_abortedIf (rawStep_abortsIf ha _ q)
  · rw [exec_compall_comp ⟨hp, ho⟩]; exact finish_abortedIf (compStep_abortsIf q)
  · rw [exec_wait_wait ⟨hp, ho⟩, abortsAt_wait]; exact finish_abortedIf (waitStep_abortsIf ha q)

end

/-- Settles O27: `abortsAt` decides for RUN and for every other command whether the step at POS is an abort point. -/
theorem abortTakesEffectAtAbortPoints : Obligations.AbortTakesEffectAtAbortPoints := by
  intro s i home ho ha
  have decided : AbortedIf (i == .run) s (abortsAt i s) (exec i s) := by
    by_cases hi : i = .run
    · subst hi
      exact exec_run_abortedIf ha ho home
    · rw [beq_false_of_ne hi]
      exact exec_abortedIf ha ho home hi
  refine ⟨fun h => ?_, fun h => ?_⟩ <;>
  · rw [h] at decided
    exact decided

end Sys2Proof.Machine
end

section
/-! PROOFS. Taking an error (O21). -/

namespace Sys2Proof.Machine

/-- Settles O21: completion and the error record write the listed fields; a RUN's error also makes FSM IDLE, so the cases
are those of `inRun`. -/
theorem takingAnError : Obligations.TakingAnError := by
  intro s
  refine ⟨rfl, fun inRun e addr k => ?_⟩
  cases inRun with
  | false => rfl
  | true => rfl

end Sys2Proof.Machine
end

section
/-! PROOFS. The state after reset (O59). -/

namespace Sys2Proof.Machine

/-- After reset there is no error and no valid T_FINE, and COMP_H is 0, so the records agree. -/
theorem reset_records : RecordsAgree .reset where
  errCode := by simp [State.reset, Status.reset]
  errInfo _ := rfl
  tfValid h := by cases h
  humidity := ⟨le_rfl, by decide⟩

/-- After reset no transaction is in flight, the trigger is T_IDLE and DLY_CNT is 0. -/
theorem reset_still : Still .reset := ⟨rfl, rfl, rfl⟩

/-- Settles O59: reset leaves the engine still at no command, so what `Inv` says of a command in execution, of a RUN or of
an offered record is about nothing, and the records agree. -/
theorem resetIsGood : Obligations.ResetIsGood := by
  obtain ⟨hbus, htrig, hdelay⟩ : At .noCommand .reset := .of_still reset_still
  exact {
    command := fun hbusy => by cases hbusy
    idlePos := fun _ => rfl
    abortMirror := rfl
    abortBusy := fun hpend => by cases hpend
    bus := hbus
    fsm := rfl
    trig := htrig
    sample := rfl
    offer := rfl
    delay := hdelay
    errCode := reset_records.errCode
    errInfo := reset_records.errInfo
    tfValid := reset_records.tfValid
    humidity := reset_records.humidity }

end Sys2Proof.Machine
end
